-- ==== Sys2Proof/Word.lean ====
section
/-!
DEFINITION. The word types of the T48 and the sparse tables in which the model keeps repeated
state (registers, accumulator records, slots). Only the plainest arithmetic stands here.
-/

namespace Sys2Proof

/-- A byte of memory, of a flit or of a message. -/
abbrev Byte := BitVec 8

/-- A 64-bit register or scalar word. -/
abbrev Word := BitVec 64

/-- A 64-byte engine command, gate command or Harrow descriptor (R139, R451). -/
abbrev Cmd := BitVec 512

/-- A sparse table: pairs of a key and a value in rising key order. -/
abbrev Tab (α : Type) := List (Nat × α)

/-- The value that a table lists for a key, if any. -/
def Tab.look {α : Type} : Tab α → Nat → Option α
  | [], _ => none
  | (k, v) :: r, j => if j = k then some v else Tab.look r j

/-- The value of a key, or the default of the table. -/
def Tab.get {α : Type} (t : Tab α) (d : α) (k : Nat) : α := (Tab.look t k).getD d

/-- List a value for a key, replacing the one listed before. -/
def Tab.put {α : Type} : Tab α → Nat → α → Tab α
  | [], j, v => [(j, v)]
  | (k, w) :: r, j, v =>
    if j = k then (j, v) :: r
    else if j < k then (j, v) :: (k, w) :: r
    else (k, w) :: Tab.put r j v

/-- Forget a key. -/
def Tab.drop {α : Type} (t : Tab α) (k : Nat) : Tab α := t.filter (fun p => p.1 != k)

/-- The number of trailing bytes, low byte first: `leBytes n v` is v as n little-endian bytes (R6). -/
def leBytes : Nat → Nat → List Byte
  | 0, _ => []
  | n + 1, v => BitVec.ofNat 8 v :: leBytes n (v / 256)

/-- The number that little-endian bytes hold (R6). -/
def leNat : List Byte → Nat
  | [] => 0
  | b :: r => b.toNat + 256 * leNat r

/-- Bits [lo + w − 1 : lo] of a natural number. -/
def natBits (v lo w : Nat) : Nat := v / 2 ^ lo % 2 ^ w

/-- The signed value of a w-bit two's-complement pattern. -/
def toSigned (w v : Nat) : Int := if v % 2 ^ w < 2 ^ (w - 1) then (v % 2 ^ w : Nat) else ((v % 2 ^ w : Nat) : Int) - (2 ^ w : Nat)

/-- The w-bit two's-complement pattern of an integer: its low bits (R8's `wrap`). -/
def ofSigned (w : Nat) (v : Int) : Nat := (v % ((2 ^ w : Nat) : Int)).toNat

/-- Clamp an integer to a range: `sat` of the manual's pseudocode. -/
def clampInt (v lo hi : Int) : Int := if v < lo then lo else if v > hi then hi else v

/-- Saturating addition of a count below 2^w. -/
def satAdd (w a b : Nat) : Nat := min (a + b) (2 ^ w - 1)

/-- ⌈a ÷ b⌉. -/
def ceilDiv (a b : Nat) : Nat := (a + b - 1) / b

end Sys2Proof
end

