-- ==== Sys2Proof/Syntax.lean ====
section
/-!
DEFINITION. The commands of the T48: one constructor for each row of the opcode table, with the
operands that the step takes from outside (a unit, an instruction word, a message, a register value, a
sensor value, a moment). A command names what happens; what it does stands in the machine.
Engine commands, Winnow instructions and Fieldgate requests take their words from the machine's own
queues, so their constructors name only the unit.
-/

namespace Sys2Proof

/-- A strip, 0 to 63 (R3). -/
abbrev Strip := Fin 64
/-- A Headland thread of a strip (R216). -/
abbrev Thread := Fin 4
/-- A Tiller array of a strip (R110). -/
abbrev Arr := Fin 10
/-- A lot of a Tiller array (R117). -/
abbrev Lot := Fin 8
/-- A Septax port (R477). -/
abbrev Port := Fin 32
/-- A Sheaf engine (R342). -/
abbrev Eng := Fin 48
/-- A Drill sampler (R59). -/
abbrev Smp := Fin 16
/-- A Harrow channel of the module, 4n + c (R447). -/
abbrev Chan := Fin 256
/-- A Fieldgate session slot (R534). -/
abbrev Slot := Fin 64

/-- A flit: header of 16 bytes and the payload bytes in use (R483). -/
structure Flit where
  hdr : BitVec 128
  payload : List Byte
deriving DecidableEq, Repr

/-- A Fieldgate datagram as it arrives: the header of R534 and the source addresses of R533. -/
structure Datagram where
  hdr : BitVec 384
  payload : List Byte
  ethSrc : BitVec 48
  ipSrc : BitVec 128
  udpSrc : BitVec 16
deriving DecidableEq, Repr

/-- An ICMP or ICMPv6 echo request as it arrives (R533): the addresses that it comes from, and its body. -/
structure EchoBody where
  ethSrc : BitVec 48
  ipSrc : BitVec 128
  data : List Byte
deriving DecidableEq, Repr

/-- A part that carries a code of its own (R425): a tile register by its address, an accumulator record or the posting FIFOs of
a strip, or the link buffers of a port. -/
inductive CodedPart where
  | tile (addr : BitVec 48)
  | record (st : Strip)
  | fifo (st : Strip)
  | link (p : Port)
deriving DecidableEq, Repr

/-- What has struck the line that a scrubber reads next: upsets of its symbols, and in DRAM an uncorrectable error of its
check line (R424, R426); and an uncorrectable error that a part with a code of its own has shown since the last read (R425). -/
structure LineUpsets where
  symbols : List (Fin 68 × Byte)
  checkLost : Bool
  coded : Option CodedPart := none
deriving DecidableEq, Repr

/-- An alarm source that a sensor drives (R645). -/
inductive Sensor where
  | vin
  | tj
  | coolant
deriving DecidableEq, Repr

/-- What failed a boot (R584). -/
inductive BootFail where
  | verify
  | fatalEarly
  | timeout
deriving DecidableEq, Repr

/-- What raised a fatal fault (R605). -/
inductive FatalCause where
  | hedgeDown (die : Fin 12)
  | checkLine
  | firmware
deriving DecidableEq, Repr

/-- Where a release stands when a reset, a boot failure or a loss of power ends it (R579, R594, R598): the steps that are
complete, and how far the next one has come. In step 1 a `part` of 0 is before the commit of the fuse outputs, and n + 1 is
after n bytes of the boot record that the step appends; in step 10 it counts the bytes of the record, 16 of them, and then the
bits of SVN_FUSE. -/
structure ReleaseCut where
  steps : Fin 10
  part : Nat
deriving DecidableEq, Repr

/-- What the release order meets outside: strap conversions in sets of eight (R574), the pairs of
reads of the fuse block and of the trim codes (R578), whether the read of the first slot meets a flash error (R603), and
where something ends the release, if anything does. An empty list means that the converter holds
its last code and that the reads agree with the fuses. -/
structure ReleaseInput where
  strap : List (List Byte) := []
  fuseReads : List (BitVec 4096 × BitVec 4096) := []
  trimReads : List (BitVec 2048 × BitVec 2048) := []
  flashBad : Bool := false
  cut : Option ReleaseCut := none
deriving DecidableEq, Repr

/-- One gauge reading (R647): the gauge's row, the subsystem and the reading, the fresh value and
the limit in one unit. -/
structure GaugeReading where
  gauge : Fin 7
  sub : Fin 102
  x : Int
  fresh : Int
  limit : Int
deriving DecidableEq, Repr

/-- The commands of the block. -/
inductive Instr where
  -- power, reset and boot
  | powerOn
  | railsInRegulation
  | powerDown
  | overvoltageShutdown
  | thermalTrip (sensor : Fin 128) (celsius : BitVec 8)
  | sensorAlarmRaise (src : Sensor) (sensor : BitVec 16) (value : BitVec 32)
  | sensorAlarmClear (src : Sensor) (sensor : BitVec 16) (value : BitVec 32)
  | resetNFall
  | warmResetEntry
  | resetNCold
  | resetNRise
  | wpNChange (high : Bool)
  | releaseOrder (inp : ReleaseInput)
  | bootFailure (why : BootFail)
  | watchdogExpiry
  | watchdogRestart (v : Word)
  | blockResetGo (v : Word)
  | blockResetApply
  | blockResetTimeout
  | blockResetEnd
  -- furrow
  | furrowTick (watts : BitVec 16)
  | timingMarkerSend (ns : Word)
  | holdoverEntry
  | holdoverTimeout
  | furCtrlWrite (v : Word)
  | furPeriodWrite (v : Word) (ns : Nat)
  | planQueueEntry (st : Strip) (fifo : Fin 5) (pos : Nat)
  | planComplete (engine : Fin 321)
  -- Headland: the issuing thread and the word its fetch returned
  | hdlAdd (st : Strip) (th : Thread) (w : Word)
  | hdlSub (st : Strip) (th : Thread) (w : Word)
  | hdlAnd (st : Strip) (th : Thread) (w : Word)
  | hdlOr (st : Strip) (th : Thread) (w : Word)
  | hdlXor (st : Strip) (th : Thread) (w : Word)
  | hdlShl (st : Strip) (th : Thread) (w : Word)
  | hdlShrl (st : Strip) (th : Thread) (w : Word)
  | hdlShra (st : Strip) (th : Thread) (w : Word)
  | hdlMul (st : Strip) (th : Thread) (w : Word)
  | hdlMulhu (st : Strip) (th : Thread) (w : Word)
  | hdlSlt (st : Strip) (th : Thread) (w : Word)
  | hdlSltu (st : Strip) (th : Thread) (w : Word)
  | hdlMin (st : Strip) (th : Thread) (w : Word)
  | hdlMax (st : Strip) (th : Thread) (w : Word)
  | hdlMinu (st : Strip) (th : Thread) (w : Word)
  | hdlMaxu (st : Strip) (th : Thread) (w : Word)
  | movhi (st : Strip) (th : Thread) (w : Word)
  | rdtick (st : Strip) (th : Thread) (w : Word)
  | rdcyc (st : Strip) (th : Thread) (w : Word)
  | beq (st : Strip) (th : Thread) (w : Word)
  | bne (st : Strip) (th : Thread) (w : Word)
  | blt (st : Strip) (th : Thread) (w : Word)
  | bge (st : Strip) (th : Thread) (w : Word)
  | bltu (st : Strip) (th : Thread) (w : Word)
  | bgeu (st : Strip) (th : Thread) (w : Word)
  | jal (st : Strip) (th : Thread) (w : Word)
  | jalr (st : Strip) (th : Thread) (w : Word)
  | l8s (st : Strip) (th : Thread) (w : Word)
  | l16s (st : Strip) (th : Thread) (w : Word)
  | l32s (st : Strip) (th : Thread) (w : Word)
  | l64 (st : Strip) (th : Thread) (w : Word)
  | l8u (st : Strip) (th : Thread) (w : Word)
  | l16u (st : Strip) (th : Thread) (w : Word)
  | l32u (st : Strip) (th : Thread) (w : Word)
  | s8 (st : Strip) (th : Thread) (w : Word)
  | s16 (st : Strip) (th : Thread) (w : Word)
  | s32 (st : Strip) (th : Thread) (w : Word)
  | s64 (st : Strip) (th : Thread) (w : Word)
  | aadd (st : Strip) (th : Thread) (w : Word)
  | aswp (st : Strip) (th : Thread) (w : Word)
  | signal (st : Strip) (th : Thread) (w : Word)
  | wait (st : Strip) (th : Thread) (w : Word)
  | trywait (st : Strip) (th : Thread) (w : Word)
  | sread (st : Strip) (th : Thread) (w : Word)
  | rsignal (st : Strip) (th : Thread) (w : Word)
  | postp (st : Strip) (th : Thread) (w : Word)
  | postc (st : Strip) (th : Thread) (w : Word)
  | fence (st : Strip) (th : Thread) (w : Word)
  | halt (st : Strip) (th : Thread) (w : Word)
  | passWinnow (st : Strip) (th : Thread) (w : Word)
  | nodeFire (st : Strip) (ctr : Fin 48) (ns : Nat)
  | stkValWrite (st : Strip) (ctr : Fin 48) (v : Word)
  | stkNodeNextWrite (st : Strip) (ctr : Fin 48) (v : Word)
  -- Winnow: the engine issues the oldest queued instruction of a thread
  | winNop (st : Strip) (th : Thread)
  | setcnt (st : Strip) (th : Thread)
  | setdith (st : Strip) (th : Thread)
  | setamax (st : Strip) (th : Thread)
  | lutld (st : Strip) (th : Thread)
  | wsig (st : Strip) (th : Thread)
  | winLd (st : Strip) (th : Thread)
  | winSt (st : Strip) (th : Thread)
  | ldr (st : Strip) (th : Thread)
  | str (st : Strip) (th : Thread)
  | winAdd (st : Strip) (th : Thread)
  | winSub (st : Strip) (th : Thread)
  | winMul (st : Strip) (th : Thread)
  | fma (st : Strip) (th : Thread)
  | nfma (st : Strip) (th : Thread)
  | winMin (st : Strip) (th : Thread)
  | winMax (st : Strip) (th : Thread)
  | abs (st : Strip) (th : Thread)
  | neg (st : Strip) (th : Thread)
  | scl (st : Strip) (th : Thread)
  | div (st : Strip) (th : Thread)
  | sqrt (st : Strip) (th : Thread)
  | rsqrt (st : Strip) (th : Thread)
  | cmpeq (st : Strip) (th : Thread)
  | cmpne (st : Strip) (th : Thread)
  | cmplt (st : Strip) (th : Thread)
  | cmple (st : Strip) (th : Thread)
  | sel (st : Strip) (th : Thread)
  | winAnd (st : Strip) (th : Thread)
  | winOr (st : Strip) (th : Thread)
  | winXor (st : Strip) (th : Thread)
  | winShl (st : Strip) (th : Thread)
  | winShra (st : Strip) (th : Thread)
  | winShrl (st : Strip) (th : Thread)
  | cvt (st : Strip) (th : Thread)
  | lut (st : Strip) (th : Thread)
  | lutd (st : Strip) (th : Thread)
  | rsum (st : Strip) (th : Thread)
  | rmax (st : Strip) (th : Thread)
  | rmin (st : Strip) (th : Thread)
  | segsum (st : Strip) (th : Thread)
  | segmax (st : Strip) (th : Thread)
  | segmin (st : Strip) (th : Thread)
  | segbc (st : Strip) (th : Thread)
  | accrd (st : Strip) (th : Thread)
  | accrel (st : Strip) (th : Thread)
  | gateNop (st : Strip)
  | gateOpen (st : Strip)
  | gateJoin (st : Strip)
  -- Tiller: an array dispatches its oldest command
  | tilNop (st : Strip) (a : Arr)
  | load (st : Strip) (a : Arr)
  | loadDone (st : Strip) (a : Arr)
  | stream (st : Strip) (a : Arr)
  | setHandover (st : Strip) (a : Arr) (lot : Lot)
  | streamDone (st : Strip) (a : Arr) (lot : Lot)
  | setmode (st : Strip) (a : Arr)
  -- Glean
  | glnNop (port : Strip)
  | gather (port : Strip)
  | gatherDone (port : Strip)
  | mark (port : Strip)
  | refresh (port : Strip)
  | slotWrite (slot : Fin 49152)
  | parkedReadAnswer (pos : Nat)
  | dirInsert (v : Word)
  | dirRemove (v : Word)
  | dirSyncDone
  -- Drill
  | sample (d : Smp)
  | drlNop (d : Smp)
  | parcelBuildStart
  | parcelBuildDone
  | batchApply
  -- Sheaf
  | shfNop (e : Eng)
  | absorb (e : Eng)
  | dacc (e : Eng)
  | dsum (e : Eng)
  | flush (e : Eng)
  | flushDone (e : Eng)
  | norm (e : Eng)
  | advance (e : Eng)
  | apply (e : Eng)
  | ledgerTake (e : Eng)
  | ledgerDrop (e : Eng)
  | ledgerGate (e : Eng)
  | ledgerPublish (e : Eng)
  | shfCfaddrWrite (v : Word)
  -- Harrow
  | hrwDescStart (ch : Chan) (ns : Nat)
  | hrwNop (ch : Chan)
  | copy (ch : Chan)
  | fill (ch : Chan)
  | split (ch : Chan)
  | merge (ch : Chan)
  | ilv (ch : Chan)
  | dilv (ch : Chan)
  | spack (ch : Chan)
  | hrwDescComplete (ch : Chan)
  | hrwRemoteTimeout (ch : Chan)
  | hrwRetry (ch : Chan)
  | hrwChannelReset (st : Strip) (v : Word)
  -- in-network reduction
  | redNop
  | rdense
  | rnorm
  -- Septax ports
  | portEnable (p : Port) (v : Word)
  | portFence (p : Port) (v : Word)
  | portUnfence (p : Port) (v : Word)
  | fecLock (p : Port)
  | trainRestart (p : Port)
  | helloSend (p : Port)
  | hello (p : Port) (f : Flit)
  | linkDown (p : Port)
  | idleFlit (p : Port) (f : Flit)
  | replayTimeout (p : Port)
  | marker (p : Port) (f : Flit) (phasePs : BitVec 32) (residencePs : Word)
  | stook (p : Port) (f : Flit)
  | delayRequestSend (p : Port) (t1 : Word)
  | delay (p : Port) (f : Flit) (rx : Word) (tx : Word)
  | heartbeatSend
  | heartbeat (p : Port) (f : Flit)
  | heartbeatMiss (chip : BitVec 16) (ns : Nat)
  | member (p : Port) (f : Flit)
  | memberStateResend
  | deputyTakeover (ns : Nat)
  | alarm (p : Port) (f : Flit)
  | park (p : Port) (f : Flit)
  | grad (p : Port) (fs : List Flit)
  | sack (p : Port) (f : Flit)
  | rup (p : Port) (f : Flit)
  | rdown (p : Port) (f : Flit)
  | greq (p : Port) (f : Flit)
  | gresp (p : Port) (fs : List Flit)
  | rread (p : Port) (f : Flit)
  | rdata (p : Port) (fs : List Flit)
  | rwrite (p : Port) (fs : List Flit)
  | wack (p : Port) (f : Flit)
  | vhits (p : Port) (f : Flit)
  | volAdd (p : Port) (fs : List Flit)
  | volRefresh (p : Port) (fs : List Flit)
  | volBump (p : Port) (fs : List Flit)
  | volDrop (p : Port) (fs : List Flit)
  | bulk (p : Port) (fs : List Flit)
  | abort (p : Port) (f : Flit)
  -- recovery
  | recoveryFault (p : Port) (f : Flit) (ns : Nat)
  | recoveryHalt (p : Port) (f : Flit)
  | recoveryStatus (p : Port) (f : Flit) (ns : Nat)
  | recoveryResume (p : Port) (f : Flit)
  | recoveryLinkdown (p : Port) (f : Flit) (ns : Nat)
  | recoverySeal (p : Port) (f : Flit)
  | recoveryDone (p : Port) (f : Flit)
  | recoveryRetire (p : Port) (f : Flit)
  | retireWrite (v : Word)
  | snapshotCopyDone
  | restoreComplete
  | fatalFault (cause : FatalCause)
  -- memory
  | scrubRead (sram : Bool) (upsets : LineUpsets)
  | scrubWriteback
  | ceHourRollover
  -- Fieldgate
  | datagramRx (d : Datagram)
  | datagramResend (sl : Slot) (pos : Nat)
  | sessionTimeout (sl : Slot)
  | arpRequest (target : BitVec 32) (from_ : BitVec 48)
  | neighbourSolicitation (target : BitVec 128) (from_ : BitVec 48)
  | echoRequest (v6 : Bool) (target : BitVec 128) (body : EchoBody)
  | sessionOpen
  | sessionClose (sl : Slot)
  | sessionPing (sl : Slot)
  | loadJobBegin (sl : Slot)
  | loadJobPart (sl : Slot)
  | loadJobCommit (sl : Slot)
  | loadJobUnload (sl : Slot)
  | feedData (sl : Slot)
  | feedSeeds (sl : Slot)
  | feedEdges (sl : Slot)
  | start (sl : Slot) (ns : Nat)
  | pauseAt (sl : Slot)
  | jobPause
  | resume (sl : Slot) (ns : Nat)
  | fetch (sl : Slot)
  | release (sl : Slot)
  | exportDelta (sl : Slot)
  | snapshotInfo (sl : Slot)
  | snapshotRead (sl : Slot)
  | snapshotWrite (sl : Slot)
  | csrRead (sl : Slot)
  | csrWrite (sl : Slot) (ns : Nat)
  | imageStageWrite (sl : Slot)
  | imageStageCommit (sl : Slot)
  | fallow (sl : Slot) (ns : Nat)
  | wake (sl : Slot)
  | wakeGraceEnd
  | telemetrySubscribe (sl : Slot)
  | telemetryReport (sl : Slot)
  | dumpFetch (sl : Slot)
  | attest (sl : Slot)
  | resetMessage (sl : Slot)
  -- health and registers
  | gaugeSample (rs : List GaugeReading)
  | wearUpdate
  | csrWritePlain (addr : BitVec 48) (v : Word)
  | flitCrcFail (p : Port)
  | flitForward (p : Port) (f : Flit)
  | memScrubWrite (v : Word)
  | rstCtrlWrite (v : Word)
  | glnDirWrite (v : Word)
  | shfBankWrite (e : Eng) (v : Word)
deriving DecidableEq, Repr

end Sys2Proof
end

