-- ==== Sys2Proof/Decode.lean ====
section
/-!
DEFINITION. Decoding. No row of the opcode table gives bits: the block's commands come from outside by name
and operands, so a table word spells no command. The words that the block itself reads (Headland and Winnow
instructions, engine commands, flits, messages) are decoded by the meanings that read them.
-/

namespace Sys2Proof

/-- The command that a word of the table's bits spells: none, since no row gives bits. -/
def decodeTableWord (_nbits _w : Nat) : Option Instr := none

end Sys2Proof
end

