-- ==== Sys2Proof/Config.lean ====
section
/-!
DEFINITION. What an implementation fixes and the manual leaves open: constants without a body, so that no
proof can lean on a value (log entries 4 to 9), and the plain record of what Hulon lays down in a job image
beyond the header of R550.
-/

namespace Sys2Proof

/-- What the sections of a job image hold beyond the 128-byte header of R550. The manual names these
contents and leaves their place in the image to Hulon (R550, bytes 77 to 127). -/
structure ImageSections where
  /-- threads with their entry PC (R218) -/
  threads : List (Nat × Nat × Nat) := []
  /-- the engines that carry parcel plans in every step (R65) -/
  planned : List Nat := []
  /-- CSR offset and value, set whatever the access code (R75, R245, R295, R339, R508 ...) -/
  csr : List (Nat × Nat) := []
  /-- local address and bytes placed by the load -/
  memory : List (Nat × List Byte) := []
  /-- amax records (R109), dense buffers (R371) -/
  amax : List Nat := []
  dense : List Nat := []
  /-- counters that commands, plans or instructions of the image name (R231) -/
  counters : List Nat := []
  /-- sampling descriptors (R284) -/
  samplings : List Nat := []
  /-- RIDs named by an RDENSE and by an RNORM (R508) -/
  rdenseRids : List Nat := []
  rnormRids : List Nat := []
  /-- fence values (R334), ledger entries (entry, PUB, WRITING, USERS0, USERS1) (R377) -/
  merged : Nat := 0
  applied : Nat := 0
  ledger : List (Nat × Nat × Nat × Nat × Nat) := []
  /-- granary section (R608) -/
  every : Nat := 1
  regTab : Nat := 0
  nreg : Nat := 0
  roleTab : Nat := 0
  nrole : Nat := 0
  localArea : Nat := 0
  buddy0 : Nat := 0
  buddy1 : Nat := 0
  areaLen : Nat := 0
  /-- some command writes a region outside an update phase (R608) -/
  strayWrite : Bool := false
  /-- power section (R643) -/
  clas : Nat := 1
  peakW : Nat := 0
  /-- SHF_CTRL.LAG (R375) -/
  lag : Nat := 0
  /-- first step of the job (R351) -/
  firstStep : Nat := 0
deriving DecidableEq, Repr

/-- The sections of a job image (log entry 4). -/
opaque Config.imageSections : List Byte → Option ImageSections

/-- The k-th random 16-byte nonce that Stile draws (R541, log entry 5). -/
opaque Config.freeNonce : Nat → BitVec 128

/-- The hclk count that the k-th RDCYC meets (R224; the model keeps no cycle count, log entry 6). -/
opaque Config.freeCycles : Nat → Word

/-- XMSS-SHAKE256_20_256 verification under RFC 8391 and NIST SP 800-208: public key, message, signature
(R592, log entry 7). -/
opaque Config.xmssVerify : List Byte → List Byte → List Byte → Bool

/-- The XMSSMT-SHAKE256_40/4_256 signature of a message by the key of a seed, at an index (R565, R599). -/
opaque Config.xmssmtSign : BitVec 256 → Nat → List Byte → List Byte

/-- The 68-byte XMSSMT public key of a seed (R599). -/
opaque Config.xmssmtPublic : BitVec 256 → List Byte

/-- What the k-th reading of a quantity that the model does not follow gives: analogue measurements and counts of time
(R652, R653, log entry 8). The first argument names the quantity, the offset of its register. -/
opaque Config.freeReading : Nat → Nat → Word

/-- The margin of a gauge whose fresh and limit values coincide (R647, log entry 19). -/
opaque Config.freeMargin : Nat → BitVec 16

/-- How many links join two chips of the fabric (R518, log entry 13): the cabling, which no register holds. -/
opaque Config.linksBetween : Nat → Nat → Nat

/-- The engine state bytes that firmware dumps as section types 2 and 6, whose layout the manual leaves
to firmware (R631, log entry 9). -/
opaque Config.dumpSection : Nat → Nat → List Byte

/-- The k-th byte of a destination whose value depends on timing (R464). -/
opaque Config.freeByte : Nat → Byte

end Sys2Proof
end

