-- ==== Sys2Proof/Machine/State.lean ====
section
/-!
DEFINITION. The state of one T48 module as plain data, and the module right after reset.

Every CSR register whose contents are stored as a register lives in `State.csr`, keyed by its offset
from 0x7F00_0000_0000; an offset that the table does not list holds its reset value, which the register
map of `Machine/Regs.lean` gives. Registers that only show other state (HALTED, QUEUED, PC, records in
DRAIN ...) are computed when read. Bytes of DRAM, plot SRAM, base-die buffers and tile registers live in
`State.mem`; a byte that is not listed is 0 (R431).
-/

namespace Sys2Proof.Machine
open Sys2Proof

/-- Why the machine stops. The manual gives every event of this block a next state, so there is no
reason to stop and the type has no constructor: nothing raises a fault, which is safe. -/
inductive Fault where
deriving DecidableEq, Repr

/-- Why a command gets no meaning. -/
inductive Refusal where
  /-- Raised by an arm of `Machine.exec` whose command has no meaning yet. Safe: nothing is claimed. -/
  | notModelled (mnemonic : String)
deriving DecidableEq, Repr

/-- A plan descriptor (R60), with the core and the mode of the thread that posted it (R234, R235). -/
structure Plan where
  cmdAddr : BitVec 48
  cmdCount : BitVec 16
  parcel : BitVec 32
  stage : BitVec 8
  last : Bool
  phase : Bool
  step : BitVec 32
  bound : BitVec 32
  core : Strip
  modeF : Bool
deriving DecidableEq, Repr

/-- A fetched 64-byte command with its address and what it takes from its plan. -/
structure QCmd where
  addr : BitVec 48
  word : Cmd
  core : Strip
  modeF : Bool
  step : BitVec 32
  parcel : BitVec 32
  phase : Bool
  direct : Bool
deriving DecidableEq, Repr

/-- The gate of a command that waits on a stook counter (R302, R353, R448). -/
inductive Gate where
  | idle
  | waiting
  | passed
deriving DecidableEq, Repr

/-- A plan engine (R59): queue of plans, running plan, its fetched commands and the counts of R75. -/
structure EngSt where
  queue : List Plan := []
  running : Option Plan := none
  startTick : Word := 0
  cmds : List QCmd := []
  /-- commands of the running plan that the queue has not accepted yet, and the address of the first of them (R234) -/
  fetchLeft : Nat := 0
  fetchAt : Nat := 0
  inFlight : Nat := 0
  stuck : Bool := false
  gate : Gate := .idle
  overruns : BitVec 32 := 0
  slipNow : BitVec 8 := 0
  slipMax : BitVec 8 := 0
  /-- steps of which a parcel plan was posted here, and whether the LAST one has completed (R65) -/
  parts : List (BitVec 32 × Bool) := []
deriving DecidableEq, Repr

/-- The check-line caches of the hedge dies (R419): the cached check lines by the addresses that name them (R418), each with
its dirty mark, and the counts of MEM_CNT_CLC_HIT and MISS. What a check line holds is what the protection code makes of the
data lines, so the caches hold no contents of their own here. -/
structure Clc where
  lines : Tab Bool := []
  hits : Nat := 0
  misses : Nat := 0
deriving DecidableEq, Repr

/-- The states of a Headland thread (R217). -/
inductive ThrState where
  | idle
  | run
  | wait
  | halted
deriving DecidableEq, Repr

/-- A Headland thread (R216). -/
structure Thr where
  pc : BitVec 48 := 0
  regs : Tab Word := []
  modeF : Bool := false
  st : ThrState := .idle
  waitCtr : BitVec 6 := 0
  /-- what the thread stalls on: one of the core's posting FIFOs 0 to 4, or 5 for the policing of R239 -/
  stalled : Option Nat := none
deriving DecidableEq, Repr

/-- Who waits on a stook counter. -/
inductive Who where
  | thread (t : Thread)
  | engine (index : Nat)
  | channel (ch : Chan)
deriving DecidableEq, Repr

/-- A waiter of a stook counter with its target (R227). -/
structure Waiter where
  who : Who
  target : Nat
deriving DecidableEq, Repr

/-- An entry of a posting FIFO (R232). -/
inductive Post where
  | plan (engine : Nat) (p : Plan)
  | command (engine : Nat) (c : QCmd)
deriving DecidableEq, Repr

/-- A signal that a thread has issued and that waits for the Winnow instructions it passed earlier (R229). -/
inductive DeferSig where
  | here (ctr add : Nat)
  | remote (chip core ctr add : Nat)
deriving DecidableEq, Repr

/-- A Winnow instruction in a thread's queue, with the scalar values taken at passing (R167) and the signals that
its thread issued after it. -/
structure WinIns where
  word : Word
  xa : Word
  xb : Word
  pc : BitVec 48
  sigs : List DeferSig := []
deriving DecidableEq, Repr

/-- The Winnow state of a thread (R161, R169). -/
structure WinCtx where
  c0 : Nat := 0
  c1 : Nat := 0
  c2 : Nat := 0
  c3 : Nat := 0
  site : BitVec 28 := 0
  idxBase : BitVec 34 := 0
  amax : BitVec 48 := 0
  queue : List WinIns := []
deriving DecidableEq, Repr

/-- A lookup table pair (R192): 3,072 FP32 coefficients for F and for D. -/
structure LutPair where
  valid : Bool := false
  lo : BitVec 32 := 0
  sh : BitVec 8 := 0
  exp2 : Bool := false
  f : List (BitVec 32) := []
  d : List (BitVec 32) := []
deriving DecidableEq, Repr

/-- A WSIG that is issued and waits for the accumulator read issued before it (R204), with the signals that its thread
issued after it; counter 63 stands for those signals alone. -/
structure WinSig where
  thr : Nat
  ctr : Nat
  add : Nat
  sigs : List DeferSig := []
deriving DecidableEq, Repr

/-- A Winnow engine besides its tile registers, which live in `State.mem` at their window (R162). -/
structure WinSt where
  ctx : Tab WinCtx := []
  luts : Tab LutPair := []
  halted : Bool := false
  /-- the ACCRD or ACCREL that is issued and waits for a hand-over, with its thread and its scale exponent: it holds the
  accumulator unit (R198) -/
  accWait : Option (Nat × WinIns × Int) := none
  /-- issued instructions that met an uncorrectable error and never complete (R205) -/
  fails : Nat := 0
  later : List WinSig := []
  /-- plan whose gate command ran last: STEP and PARCEL of the dither (R186) -/
  step : BitVec 32 := 0
  parcel : BitVec 32 := 0
deriving DecidableEq, Repr

/-- A stationary buffer of a lot (R111, R116): digits by row × 128 + physical column within the lot, exponent codes by
block × 128 + logical column, whether columns form pairs, and the operand's SGN, which the loader writes as the
digit-signedness bit of every cell of the lot, or of every odd column of a pair. -/
structure Buf where
  pair : Bool := false
  sgn : Bool := false
  digits : Tab Byte := []
  exps : Tab Byte := []
deriving DecidableEq, Repr

/-- One streamed vector: its blocks, each with its row group, exponent code and mantissas, and whether any beat runs for it
(R396). -/
structure Vec where
  present : Bool := true
  blocks : List (Nat × Nat × List Nat)
deriving DecidableEq, Repr

/-- The states of a shadow buffer (R120). -/
inductive ShadowState where
  | empty
  | loading
  | ready
deriving DecidableEq, Repr

/-- A set of a STREAM whose beats run into the links (R137): the content it meets, its vectors, and its beats that have run. -/
structure SetRun where
  buf : Buf
  vecs : List Vec
  run : Nat := 0
deriving DecidableEq, Repr

/-- A dispatched STREAM (R132, R143): the sets that have landed, whether it has swapped, the sets that run or have run and have
not landed (R137), whether a full link stops the feeder before its next beat, and the bytes of a sparse tile once read. -/
structure StreamJob where
  cmd : QCmd
  setsDone : Nat := 0
  swapped : Bool := false
  held : List SetRun := []
  stalled : Bool := false
  tile : Option (List Byte) := none
deriving DecidableEq, Repr

/-- A lot of a Tiller array (R118). -/
structure LotSt where
  active : Buf := {}
  shadow : Buf := {}
  shadowState : ShadowState := .empty
  /-- the loaded or loading content is claimed by no STREAM (R144) -/
  fresh : Bool := false
  streams : List StreamJob := []
deriving DecidableEq, Repr

/-- An accumulator record (R130). -/
structure AccRec where
  value : BitVec 80 := 0
  ovf : Bool := false
  anchor : BitVec 10 := 0
  wrap : Bool := false
  valid : Bool := false
deriving DecidableEq, Repr

/-- A LOAD in the loader (R122): its lot, the content it brings and its command. -/
structure LoadJob where
  lot : Nat
  content : Buf
  cmd : QCmd
deriving DecidableEq, Repr

/-- A Tiller array. Records are keyed by bank × 512 + address; bit k of `drain0` and `drain1` is group k
of the bank in DRAIN (R134). -/
structure TilArr where
  mode : BitVec 2 := 0
  halted : Bool := false
  loading : Option LoadJob := none
  lots : Tab LotSt := []
  recs : Tab AccRec := []
  drain0 : BitVec 32 := 0
  drain1 : BitVec 32 := 0
  tag : BitVec 32 := 0
  /-- a SETMODE that is dispatched and waits for the groups in DRAIN (R119, R145) -/
  setmode : Option QCmd := none
deriving DecidableEq, Repr

/-- A Drill sampler (R290): its SAMPLE that has joined a gang. -/
structure SmpSt where
  joined : Option QCmd := none
  halted : Bool := false
deriving DecidableEq, Repr

/-- An edge batch in the ingest queue (R266): records of source, time and destination; the session that
waits for its result, with the batch's place in the message. -/
structure Batch where
  seq : Word
  applyStep : BitVec 32
  graph : BitVec 2
  recs : List (BitVec 40 × BitVec 24 × BitVec 40)
  slot : Option (Slot × Nat)
deriving DecidableEq, Repr

/-- A run of bytes of a module's memory: chip, address, length. -/
structure MemRun where
  chip : Nat
  addr : Nat
  len : Nat
deriving DecidableEq, Repr

/-- A parcel build (R282, R283): its lead and the lead's command, the bytes that remote modules have returned, and
the remote read that is outstanding (R286). -/
structure Build where
  lead : Smp
  gangLog : Nat
  cmd : QCmd
  got : List (MemRun × List Byte)
  asked : Option MemRun
deriving DecidableEq, Repr

/-- The Drill block (R258 to R296). -/
structure DrlSt where
  smp : Tab SmpSt := []
  build : Option Build := none
  prev : Option (BitVec 32 × BitVec 32) := none
  closed : Option (BitVec 32) := none
  cursorMb : Nat := 0
  cursorSi : Nat := 0
  /-- step and SEQ_NEXT of the latest build (R271) -/
  seqNext : Option (BitVec 32 × Word) := none
  ingest : List Batch := []
  /-- batches of FEED EDGES requests whose sessions have closed, which the queue has not yet taken (R542) -/
  owed : List Batch := []
  lastApply : Option (BitVec 32) := none
  /-- remote reads made so far: the model's own number for the TAG of the latest one -/
  reads : BitVec 16 := 0
deriving DecidableEq, Repr

/-- One outstanding row read of a Glean port (R308): where its row goes. -/
structure RowRead where
  run : Nat
  table : Nat
  row : Nat
  outAddr : Nat
  scaleAddr : Nat
  raw : Bool
  ofmt : Nat
deriving DecidableEq, Repr

/-- A GATHER in progress (R303): entries resolved so far and the distinct pairs met, in order of first
appearance; a pair (16, i) stands for the zero row of entry i. -/
structure GatherRun where
  id : Nat
  cmd : QCmd
  next : Nat
  pairs : List (Nat × Nat)
  rows : Nat
  listDone : Bool
deriving DecidableEq, Repr

/-- A Glean port (R302). -/
structure GlnPort where
  halted : Bool := false
  runs : List GatherRun := []
  reads : Tab RowRead := []
  /-- read indices of before a halt or a per-block reset, whose responses are discarded when they return (R333, R334) -/
  dead : List Nat := []
  nextId : Nat := 0
  refreshing : Option QCmd := none
deriving DecidableEq, Repr

/-- Who asked the serve unit for a row. -/
inductive Asker where
  | here (port : Strip) (index : Nat)
  | remote (chip : BitVec 16) (tag : BitVec 16)
deriving DecidableEq, Repr

/-- A read parked behind the fence (R324). -/
structure Parked where
  table : Nat
  row : Nat
  step : BitVec 32
  asker : Asker
deriving DecidableEq, Repr

/-- The state of a directory slot (R317). -/
structure SlotSt where
  refs : BitVec 16 := 0
  valid : Bool := false
  ver : BitVec 32 := 0
  busy : Bool := false
  held : Bool := false
  inCur : Bool := false
  inNext : Bool := false
  /-- the row that the directory entry of the slot names -/
  table : Nat := 0
  row : Nat := 0
deriving DecidableEq, Repr

/-- A slot write that waits for REFS to reach 0 (R326); no image means BUMP. `mine` marks one of this module's own
REFRESH. -/
structure SlotJob where
  slot : Nat
  image : Option (List Byte)
  ver : BitVec 32
  mine : Bool
deriving DecidableEq, Repr

/-- The module-wide part of Glean: slots, serve unit, directory copy (R311 to R332). -/
structure GlnSt where
  ports : Tab GlnPort := []
  slots : Tab SlotSt := []
  jobs : List SlotJob := []
  parked : List Parked := []
  requests : List Parked := []
  cur : Bool := false
  syncing : Bool := false
  /-- pairs of DROP messages that arrived while the next bank was being copied (R320, R329) -/
  drops : List (Nat × Nat) := []
  /-- per VOL slot, the hits that members have reported to this owner (R331) -/
  volHits : Tab Nat := []
deriving DecidableEq, Repr

/-- A FLUSH that waits for acknowledgements (R357). -/
structure FlushRun where
  cmd : QCmd
  sent : Nat
  acked : Nat
deriving DecidableEq, Repr

/-- An ABSORB or DACC in progress whose contributions wait for banks (R351): the list entries that its engine has read and
that are not added, each with its table and row. -/
structure AbsRun where
  cmd : QCmd
  left : List (Nat × Nat × Nat)
deriving DecidableEq, Repr

/-- A Sheaf engine (R347 to R378). -/
structure ShfEng where
  halted : Bool := false
  open0 : Option (BitVec 32) := none
  open1 : Option (BitVec 32) := none
  used0 : Nat := 0
  used1 : Nat := 0
  bankWait : Bool := false
  flush : Option FlushRun := none
  absorb : Option AbsRun := none
  absorbStuck : Bool := false
  /-- steps of ABSORBs that were refused, stopped or discarded here and never complete (R360) -/
  lost : List (BitVec 32) := []
deriving DecidableEq, Repr

/-- A ledger entry (R376). -/
structure Ledger where
  pub : BitVec 32 := 0
  writing0 : Bool := false
  writing1 : Bool := false
  users0 : BitVec 24 := 0
  users1 : BitVec 24 := 0
deriving DecidableEq, Repr

/-- A TAKE (`gate` false) or GATE that waits in the ledger's list (R377). -/
structure LedgerWait where
  eng : Eng
  cmd : QCmd
  gate : Bool
deriving DecidableEq, Repr

/-- Sheaf as a whole. -/
structure ShfSt where
  engs : Tab ShfEng := []
  ledger : Tab Ledger := []
  waits : List LedgerWait := []
  /-- the step whose clip factor SHF_CF holds (R363); none once R379 has cleared it -/
  cfStep : Option (BitVec 32) := none
deriving DecidableEq, Repr

/-- A remote access of a Harrow channel that awaits its response (R465). -/
structure RemAcc where
  addr : Word
  write : Bool
  data : List Byte
  len : Nat
  tries : Nat
  backoff : Bool
  tag : BitVec 32
deriving DecidableEq, Repr

/-- A descriptor in progress (R447): the segments of its source and destination, bytes of the stream written so far,
bytes held, and whether its data has all moved. -/
structure HrwRun where
  cmd : QCmd
  src : List MemRun
  dst : List MemRun
  moved : Bool
  pos : Nat
  hold : List Byte
  retries : Nat
  doneBytes : Nat
  result : BitVec 32
  acc : Option RemAcc
deriving DecidableEq, Repr

/-- A Harrow channel (R447, R449). -/
structure HrwCh where
  halted : Bool := false
  running : Option HrwRun := none
  baton : BitVec 16 := 0
  gate : Gate := .idle
  startWait : Bool := false
  /-- remote accesses made so far: the model's own number for the TAG of the next one -/
  accesses : BitVec 16 := 0
deriving DecidableEq, Repr

/-- The arrivals of one reduction in one staging bank (R511): per chunk the mask of child ports that have
added (bit 32: the local contribution, bit 33: sent up or final, bit 34: final value written). -/
structure RedBank where
  step : BitVec 32
  tree : BitVec 3
  masks : Tab (BitVec 35)
deriving DecidableEq, Repr

/-- The in-network reduction engine (R509). -/
structure RedSt where
  halted : Bool := false
  /-- what the RIDs of the loaded image are for: 1 RDENSE, 2 RNORM (R508, R511, log entry 15) -/
  layouts : Tab Nat := []
  errTag : Option (BitVec 32) := none
  running : Option QCmd := none
  banks : Tab RedBank := []
  queue : List (Port × Flit) := []
deriving DecidableEq, Repr

/-- The states of a Septax port (R480). -/
inductive PortState where
  | off
  | train
  | hello
  | up
  | fenced
deriving DecidableEq, Repr

/-- A flit in a replay buffer, with the times it was resent (R490, R491). -/
structure RFlit where
  flit : Flit
  resent : Nat
deriving DecidableEq, Repr

/-- A Septax port (R477 to R493). -/
structure PortSt where
  st : PortState := .off
  nbrChip : BitVec 16 := 0
  nbrPort : BitVec 5 := 0
  laneLock : BitVec 4 := 0
  accepted : Bool := false
  sentAccept : Bool := false
  gotAccept : Bool := false
  /-- the payload of the last HELLO that this port sent (R481) -/
  helloSent : List Byte := []
  txSeq : BitVec 16 := 0
  rxSeq : BitVec 16 := 0
  nakSent : Bool := false
  nakOwed : Bool := false
  /-- the idle flit that last filled a slot: its ACK and NAK count (R482, R485) -/
  idleSent : Option Flit := none
  replay : List RFlit := []
  /-- flits that wait for credit, in their order, with their inputs: 0 to 31 for a flit that lies in the buffer of that port,
  32 for one of this module, 33 + p for a copy of a multicast flit that came in on port p -/
  waiting : List (Nat × Flit) := []
  /-- slots in a row that another class took while Class B, or C, had a flit ready and a credit (R494) -/
  missedB : Nat := 0
  missedC : Nat := 0
  credA : BitVec 16 := 0
  credB : BitVec 16 := 0
  credC : BitVec 16 := 0
  credD : BitVec 16 := 0
  owedA : Nat := 0
  owedB : Nat := 0
  owedC : Nat := 0
  owedD : Nat := 0
  /-- per class, the flits of a message for this module that has not ended (R486) -/
  partialMsg : Tab (List Flit) := []
  /-- per class, the outputs of the message that is being forwarded from this input (R499) -/
  route : Tab (List Port) := []
  /-- per class, the input whose message occupies this output (R486) -/
  cur : Tab Nat := []
  /-- flits that wait for that message to end, with their inputs -/
  held : List (Nat × Flit) := []
  sentPark : Bool := false
  gotPark : Bool := false
deriving DecidableEq, Repr

/-- A MEMBER message that is scheduled for its tick (R519). -/
structure MemberMsg where
  kind : BitVec 8
  chip : BitVec 16
  mseq : BitVec 32
  tick : Word
  digest : BitVec 32
deriving DecidableEq, Repr

/-- A heartbeat account of the master (R518). -/
structure Beat where
  /-- the furrows that the latest heartbeat and the one before it carried -/
  last : Option Word := none
  before : Option Word := none
  /-- misses in consecutive furrows, and FUR_COUNT when the latest was counted -/
  misses : Nat := 0
  judged : Word := 0
deriving DecidableEq, Repr

/-- Membership (R516 to R521). -/
structure MemSt where
  members : List Nat := []
  mseq : BitVec 32 := 0
  /-- chips failed or leaving whose removal tick is still ahead: members that are not live (R516) -/
  dead : List Nat := []
  /-- members that a LEAVE has removed from their roles and that leave the set at the RESUME tick (R626) -/
  leaving : List Nat := []
  /-- chips that have been members and are so no more: ports toward them are fenced at the HALT tick (R618) -/
  gone : List Nat := []
  /-- members whose MASTER_ELIGIBLE bit is 0: the model's knowledge of the other modules (log entry 17) -/
  ineligible : List Nat := []
  scheduled : List MemberMsg := []
  beats : Tab Beat := []
  markersMissed : Nat := 0
  reports : List (Nat × Nat) := []
  transfer : Option (BitVec 16) := none
  transferDone : List Nat := []
  received : Tab (List Byte) := []
  roleMap : Tab (BitVec 16) := []
deriving DecidableEq, Repr

/-- The synchronisation states of the furrow unit (R53). -/
inductive Sync where
  | free
  | acquire
  | locked
  | holdover
deriving DecidableEq, Repr

/-- The furrow unit besides its registers. -/
structure FurSt where
  sync : Sync := .free
  goodMarkers : Nat := 0
  hops : BitVec 4 := 0
  phaseErr : BitVec 32 := 0
  /-- the local timebase in ns at the last tick, or at the last step of it where the tick time is not known (R50) -/
  timebase : Word := 0
  /-- a timing marker has stepped the timebase and no tick has come since -/
  stepped : Bool := false
  /-- tick value that the markers say comes next -/
  nextTick : Option Word := none
  /-- period changes that wait for their ticks, by tick and in order of writing (R47) -/
  periodAt : List (Word × BitVec 20) := []
  active : BitVec 20 := 0x61A8
  starts : Tab Word := []
  ends : Tab Word := []
  /-- steps whose step-end leaf this module has signalled (R65) -/
  signalled : List (BitVec 32) := []
  /-- the step whose step-end signal waits for a result slot (R558) -/
  withheld : Option (BitVec 32) := none
  holdTick : Bool := false
  /-- the fabric has had no master since some tick: it gains one at a tick alone (R49) -/
  masterless : Bool := false
  /-- this module is master and ACTIVE has taken PERIOD (R46) -/
  leads : Bool := false
  /-- a running job of another period stood at the last tick: its job fault is raised (R42) -/
  badPeriod : Bool := false
deriving DecidableEq, Repr

/-- A request that a session has assembled (R544): `bad` marks a header that does not fit its message, `dgs` the datagrams
that brought it. -/
structure Req where
  type : Byte
  op : Byte
  id : BitVec 32
  body : List Byte
  bad : Bool
  dgs : Nat
deriving DecidableEq, Repr

/-- A datagram that awaits acknowledgement (R537). -/
structure TxDg where
  seq : Nat
  bytes : List Byte
  resends : Nat
deriving DecidableEq, Repr

/-- A telemetry subscription (R566, R651). -/
structure Subscription where
  period : BitVec 16
  nextTick : Word
  /-- overruns of all engines when the latest report was sent -/
  overruns : Nat
  /-- furrows since then, the sum of their average powers and the highest of them -/
  furrows : Nat
  wattSum : Nat
  wattMax : Nat
  /-- alarm records since then, at most five, and those that did not fit -/
  alarms : List (List Byte)
  lost : Nat
deriving DecidableEq, Repr

/-- Where the datagrams of a session go: the addresses and the port of the datagram that opened it (R533). -/
structure Peer where
  eth : BitVec 48
  ip : BitVec 128
  udp : BitVec 16
deriving DecidableEq, Repr

/-- A session slot (R541, R542). -/
structure Sess where
  isOpen : Bool := false
  mgmt : Bool := false
  keyId : BitVec 16 := 0
  epoch : BitVec 32 := 0
  key : List Byte := []
  ethSrc : BitVec 48 := 0
  ipSrc : BitVec 128 := 0
  udpSrc : BitVec 16 := 0
  rxNext : Nat := 0
  rxHeld : List (Nat × Bool × Bool × List Byte) := []
  partialMsg : List Byte := []
  partialDgs : Nat := 0
  reqs : List Req := []
  /-- the head request has begun and holds the session (R545) -/
  holding : Bool := false
  /-- results of the batches of a FEED EDGES, their number and how many are queued (R551) -/
  results : Tab (List Byte) := []
  batches : Nat := 0
  fed : Nat := 0
  txSeq : Nat := 0
  unacked : List TxDg := []
  peerWindow : Nat := 0
  waitTx : List (Bool × Bool × List Byte) := []
  sub : Option Subscription := none
deriving DecidableEq, Repr

/-- The job states (R548). -/
inductive JobState where
  | none
  | loading
  | loaded
  | running
  | paused
deriving DecidableEq, Repr

/-- A result slot's state (R554). -/
inductive SlotState where
  | free
  | filling
  | held
deriving DecidableEq, Repr

/-- A result slot (R554). -/
structure ResSlot where
  st : SlotState := .free
  step : BitVec 32 := 0
  gen : Word := 0
deriving DecidableEq, Repr

/-- The loaded or loading job (R549, R550, R608). -/
structure JobSt where
  st : JobState := .none
  loadSlot : Option Slot := none
  length : Nat := 0
  hash : List Byte := []
  nextOff : Nat := 0
  spare : Bool := false
  replayable : Bool := false
  seed : Word := 0
  period : BitVec 32 := 0
  phase : Nat := 0
  rtab : Nat := 0
  nres : Nat := 0
  ftab : Nat := 0
  nfeed : Nat := 0
  /-- the result table's entries: RBASE, SIZE, NSLOT and EVERY (R553) -/
  resTab : List (Nat × Nat × Nat × Nat) := []
  /-- the host-writable regions: base and length (R550) -/
  feedTab : List (Nat × Nat) := []
  seedTab : Nat := 0
  seedStride : Nat := 0
  seedRing : Nat := 0
  threads : List (Strip × Thread × BitVec 48) := []
  /-- the engines to which every step posts parcel plans (R65) -/
  planned : List Nat := []
  amax : List Nat := []
  dense : List Nat := []
  clas : Nat := 0
  every : Nat := 0
  regions : List (Nat × Nat × Bool) := []
  roles : List (BitVec 16 × BitVec 16 × BitVec 16 × BitVec 8) := []
  localArea : Nat := 0
  buddy0 : Nat := 0
  buddy1 : Nat := 0
  areaLen : Nat := 0
  results : Tab ResSlot := []
  /-- the step with which a run begins at its start tick (R218) -/
  runStep : Option (BitVec 32) := none
  pauseStep : Option (BitVec 32) := none
  /-- the sessions whose PAUSE_AT awaits its reply -/
  pauseReplies : List Slot := []
deriving DecidableEq, Repr

/-- A HALT that is scheduled for its tick (R617). -/
structure Halt where
  tick : Word
  rseq : BitVec 32
  k0 : BitVec 32
  host : Bool
  hostStep : BitVec 32
  stop : Bool
deriving DecidableEq, Repr

/-- The recovery states (R620). -/
inductive RecState where
  | run
  | restore
  | fill
  | waitHost
  | waitSpare
  | ready
  | stopped
deriving DecidableEq, Repr

/-- A snapshot that is being taken (R610): its step and whether the local copy is complete. -/
structure Snap where
  step : BitVec 32
  ingestWas : Bool
  ingSeq : Word
  /-- MSEQ and the ledger at the snapshot point (R611) -/
  mseq : BitVec 32
  ledger : Tab Ledger
  /-- the copy has been started: the snapshot before it is sealed (R613) -/
  started : Bool
deriving DecidableEq, Repr

/-- A BULK push or fill that is being received (R612): its area, the body bytes received so far and, for a fill, the
sources that have sent DONE. -/
structure BulkRx where
  fill : Bool
  role : BitVec 16
  step : BitVec 32
  base : Nat
  /-- the body offsets that messages have brought, and the bytes that they hold -/
  got : List Nat
  bytes : Nat
  dones : Nat
deriving DecidableEq, Repr

/-- The fault and recovery units (R604 to R627). -/
structure RecSt where
  st : RecState := .run
  rseq : BitVec 32 := 0
  k0 : BitVec 32 := 0xFFFFFFFF
  retries : BitVec 8 := 0
  lastK0 : Option (BitVec 32) := none
  sentFor : Option (BitVec 32) := none
  haltAt : Option Halt := none
  covered : Bool := false
  pendingLead : Bool := false
  resumeAt : Option (Word × BitVec 32) := none
  readyChips : List Nat := []
  pushedRoles : List Nat := []
  retireReq : List Nat := []
  restoredK0 : Option (BitVec 32) := none
  snap : Option Snap := none
  pushing : Option (BitVec 32) := none
  rx : List BulkRx := []
  /-- a seal has come with retirements asked for: the leader issues LEAVE (R626) -/
  retireDue : Bool := false
  /-- the role map just before the last HALT tick: who held the regions at the restore point (R619) -/
  heldAt : Tab (BitVec 16) := []
  /-- a digest of the present source has failed once (R625) -/
  failed : Bool := false
  /-- the sources after the local area have been asked (R619, R625) -/
  asked : Bool := false
  /-- the restore takes every region from the buddy generation: the sources before it have failed (R625) -/
  buddyOnly : Bool := false
  /-- the leader itself knows of a role without a source: a host restore begins at the next tick (R619, R625) -/
  hostDue : Bool := false
deriving DecidableEq, Repr

/-- A row of the furrow history ring (R631). -/
structure Hist where
  count : Word
  step : BitVec 32
  overruns : BitVec 32
  slips : BitVec 32
  mseq : BitVec 32
  rseq : BitVec 32
  recState : BitVec 8
deriving DecidableEq, Repr

/-- A reset under way, as the measured RESET_N pulse or another source joined to it (R571, R573). -/
inductive Pulse where
  | none
  | measuring
  | warm
  | cold
deriving DecidableEq, Repr

/-- Why the module reset (R602, RST_STATUS.CAUSE). -/
inductive Cause where
  | powerOn
  | coldPin
  | warmPin
  | message
  | watchdog
  | fatal
  | bootFail
deriving DecidableEq, Repr

/-- A per-block reset in progress (R587). -/
structure BlockReset where
  type : BitVec 3
  index : BitVec 8
  applied : Bool
deriving DecidableEq, Repr

/-- The seed image that runs (R590, R591), as its sections give it. -/
structure SeedImage where
  slotB : Bool := false
  svn : Nat := 0
  svnBurn : Bool := false
  hash : List Byte := []
  chip : BitVec 16 := 0
  fabric : BitVec 32 := 0
  mac : BitVec 48 := 0
  vlan : BitVec 16 := 0
  ipv6 : BitVec 128 := 0
  ipv4 : BitVec 32 := 0
  udp : BitVec 16 := 0xCA08
  portEn : BitVec 32 := 0
  rootSecret : List Byte := []
  keys : List (BitVec 16 × Bool) := []
  volMin : Nat := 256
  copyMin : Nat := 64
  classMax : Nat := 8
  ilv : BitVec 2 := 0
  overlay : List Byte := []
  firmwareAt : Nat := 0
  firmware : List Byte := []
deriving DecidableEq, Repr

/-- An IMAGE_STAGE WRITE that is being programmed (R563, R596): its session, where in the flash it stands, the bytes that are
left, and whether WP_N has interrupted it. -/
structure StageRun where
  owner : Slot
  at_ : Nat
  left : List Byte
  cut : Bool
deriving DecidableEq, Repr

/-- Stile's fuses, flash and boot state (R577 to R601). Flash bytes that are not listed are erased; the boot records and the
index log are bytes of the flash (R589). -/
structure StileSt where
  fuses : BitVec 4096 := 0
  /-- the fuse outputs and the trim codes, the overlay added, as last committed (R578, R579) -/
  outputs : BitVec 4096 := 0
  trim : BitVec 2048 := 0
  fuseFault : Bool := false
  /-- SVN_FUSE bits that read blown in either read (R598), and MIN_SVN -/
  svnRead : Nat := 0
  minSvn : Nat := 0
  flash : Tab Byte := []
  /-- slot states as STL_SLOTS codes them, for A and B -/
  slotA : Nat := 0
  slotB : Nat := 0
  nextIdx : Nat := 0
  endIdx : Nat := 0
  image : SeedImage := {}
  trial : Bool := false
  fallback : Bool := false
  recoveryBoot : Bool := false
  /-- where the next IMAGE_STAGE WRITE must start -/
  stageNext : Option Nat := none
  staging : Option StageRun := none
  /-- the entry of the index log that is being programmed: its address and what is left of it (R600) -/
  reserving : Option (Nat × List Byte) := none
deriving DecidableEq, Repr

/-- Pins, latches and the reset sequence (R19 to R30, R570 to R574). -/
structure PinSt where
  supervisory : Bool := false
  pwrGood : Bool := false
  ovLatch : Bool := false
  tripLatch : Bool := false
  resetN : Bool := true
  wpN : Bool := false
  /-- the code that the strap converter last gave; 255 is an open pin -/
  strap : Byte := 255
  pulse : Pulse := .none
  /-- reset sources joined to the reset under way, earliest first; empty when none is under way -/
  causes : List Cause := []
  /-- a release has begun and ended before step 10 -/
  releasing : Bool := false
  /-- the host port is up (release step 8) -/
  hostUp : Bool := false
  /-- the interleave granularity has been read from an image since the last cold reset (R413) -/
  ilvSet : Bool := false
deriving DecidableEq, Repr

/-- A write-back that the scrubber or a corrected read has queued (R427, R428): its line, the error pattern that the
correction left, and whether a later write has superseded it. -/
structure WriteBack where
  line : Nat
  left : List (Nat × Byte)
  stale : Bool
deriving DecidableEq, Repr

/-- Power, wear and telemetry besides their registers (R633 to R651). -/
structure PowSt where
  st : BitVec 3 := 0
  fallowAt : Option Word := none
  wakeGrace : Bool := false
  overRun : Nat := 0
  underRun : Nat := 0
  margins : Tab Nat := []
  rings : Tab Nat := []
  hour : Nat := 0
deriving DecidableEq, Repr

/-- What a frame of the host port carries (R533, R535, R541), with the addresses that it goes to. -/
inductive Packet where
  | arpReply (ip : BitVec 32) (mac : BitVec 48) (dest : BitVec 48)
  | neighbourAdvert (ip : BitVec 128) (mac : BitVec 48) (dest : BitVec 48)
  | echoReply (v6 : Bool) (dest : BitVec 48) (ip : BitVec 128) (body : List Byte)
  | datagram (dest : Peer) (bytes : List Byte)
deriving DecidableEq, Repr

/-- A frame that the host port has sent: the ID of its VLAN tag, if it has one (R532, R567), and what it carries. -/
structure Frame where
  vlan : Option (BitVec 12)
  packet : Packet
deriving DecidableEq, Repr

/-- The state of the module. -/
structure State where
  csr : Tab Word := []
  /-- offsets of the error registers whose first refusal since cold reset or LOAD_JOB is recorded (R654) -/
  firsts : List Nat := []
  mem : List Host.Cell := []
  /-- symbol errors of a line by its line address: position in the code word and the pattern XORed (R416) -/
  flips : Tab (List (Nat × Byte)) := []
  /-- DRAM lines whose check bytes are lost with their check line (R424) -/
  lost : List Nat := []
  clc : Clc := {}
  wbq : List WriteBack := []
  sramPos : Nat := 0
  pins : PinSt := {}
  stile : StileSt := {}
  block : Option BlockReset := none
  /-- per-block resets of Harrow channels begun through HRW_RESET (R468, R587): the channel, and whether the reset is applied -/
  chResets : List (Chan × Bool) := []
  furCount : Word := 0
  fur : FurSt := {}
  engines : Tab EngSt := []
  fifos : Tab (List Post) := []
  thr : Tab Thr := []
  stk : Tab (BitVec 24) := []
  waiters : Tab (List Waiter) := []
  fires : List (Nat × Nat) := []
  /-- the instruction caches: 64-byte lines by strip × 2^48 + address (R222) -/
  icache : Tab (List Byte) := []
  /-- hclk since the last cold reset, as far as RDCYC has shown it (R224) -/
  hclk : Nat := 0
  /-- tokens of each core's policing bucket (R239, R496) -/
  tokens : Tab Nat := []
  stkEpoch : BitVec 16 := 0
  stkEpochAt : Word := 0
  win : Tab WinSt := []
  til : Tab TilArr := []
  drl : DrlSt := {}
  gln : GlnSt := {}
  shf : ShfSt := {}
  hrw : Tab HrwCh := []
  red : RedSt := {}
  ports : Tab PortSt := []
  mems : MemSt := {}
  sess : Tab Sess := []
  opens : List Datagram := []
  job : JobSt := {}
  rcv : RecSt := {}
  hist : Tab Hist := []
  pow : PowSt := {}
  /-- what the host port has sent, in order -/
  sent : List Frame := []
  /-- the model's own counter: which free value comes next -/
  draws : Nat := 0
  /-- the commands that wait, first in, first out -/
  pending : List Instr := []
deriving DecidableEq, Repr

/-- The fuse block of a part as it leaves manufacture, with the buyer's fields unblown: PART, STEPPING and
MFG_OPEN blown as R577 and R576 give them. The fields that the manual leaves to the part (serial, key
hash, secrets, trim) are 0. DESIGN CHOICE, log entry 3. -/
def State.resetFuses : BitVec 4096 :=
  BitVec.ofNat 4096 (0x0048 * 2 ^ 64 + 0x4101 * 2 ^ 80 + 2 ^ 864 + 0x8B8ECFA * 2 ^ 4000)

/-- The module right after a cold reset at power-on (R570, R572): rails in regulation, RESET_N high, the
release order not yet begun, no job, every engine idle, memory zero and every register at its reset value. -/
def State.reset : State :=
  { pins := { supervisory := true, pwrGood := true, causes := [.powerOn] },
    stile := { fuses := State.resetFuses } }

end Sys2Proof.Machine
end

