-- ==== Sys2Proof/Machine/Regs.lean ====
section
/-!
DEFINITION. The register map: for every CSR of the manual its offset from 0x7F00_0000_0000, its reset
value and the masks of its access codes (R8), and the accessors of registers and fields that every other
file uses.
-/

namespace Sys2Proof.Machine
open Sys2Proof

/-- A register's reset value and the bits of each access code: `rw` writable (RW and RWS), `w1c` cleared by
writing 1, `keep` kept through warm reset (RWS and the fields the manual names so). All other bits are RO,
WO or reserved. -/
structure RegInfo where
  rst : Nat := 0
  rw : Nat := 0
  w1c : Nat := 0
  keep : Nat := 0
deriving DecidableEq, Repr

/-- Bits [hi:lo] as a mask. -/
def mask (hi lo : Nat) : Nat := 2 ^ (hi + 1) - 2 ^ lo

/-- A read-only register with reset 0, for example a counter (R157). -/
def roReg : RegInfo := {}

/-- A 48-bit counter of access RWS (R445). -/
def rwsCount : RegInfo := { rw := mask 47 0, keep := mask 47 0 }

def csrBase : Nat := 0x7F0000000000

-- Offsets of the register blocks.
def sysId : Nat := 0
def furCtrl : Nat := 0x10000
def furPeriod : Nat := 0x10008
def furCountReg : Nat := 0x10010
def furStatus : Nat := 0x10018
def furStepStart : Nat := 0x10020
def furStepEnd : Nat := 0x10028
def furStep : Nat := 0x10030
def furFault : Nat := 0x10038
def furEngStat (i : Nat) : Nat := 0x11000 + 8 * i

def tilBase (st : Nat) : Nat := 0x1000000 + st * 0x10000
def tilArr (st a : Nat) : Nat := tilBase st + a * 0x1000
def tilCtrl (st : Nat) : Nat := tilBase st + 0xF000
def tilErr (st a : Nat) : Nat := tilArr st a + 0x008
def tilErrTag (st a : Nat) : Nat := tilArr st a + 0x010
def tilOvf (st a : Nat) : Nat := tilArr st a + 0x018
def tilCntBeat (st a : Nat) : Nat := tilArr st a + 0x040
def tilCntFeed (st a : Nat) : Nat := tilArr st a + 0x048
def tilCntDrain (st a : Nat) : Nat := tilArr st a + 0x050
def tilCntLoad (st a : Nat) : Nat := tilArr st a + 0x058
def tilCntSkip (st a : Nat) : Nat := tilArr st a + 0x060
def tilCntTileb (st a : Nat) : Nat := tilArr st a + 0x068

def winBase (st : Nat) : Nat := 0x2000000 + st * 0x10000
def winCtrl (st : Nat) : Nat := winBase st
def winErr (st : Nat) : Nat := winBase st + 0x010
def winErrAddr (st : Nat) : Nat := winBase st + 0x018
def winConv (st : Nat) : Nat := winBase st + 0x020
def winCntInsn (st : Nat) : Nat := winBase st + 0x040
def winCntElem (st : Nat) : Nat := winBase st + 0x048
def winCntAccwait (st : Nat) : Nat := winBase st + 0x050
def winCntMemwait (st : Nat) : Nat := winBase st + 0x058
def winCntRepl (st : Nat) : Nat := winBase st + 0x060
def winCntNarrow (st : Nat) : Nat := winBase st + 0x068

def hdlBase (st : Nat) : Nat := 0x3000000 + st * 0x10000
def hdlCntSpin (st : Nat) : Nat := hdlBase st + 0x088
def hdlCntPoststall (st : Nat) : Nat := hdlBase st + 0x090
def hdlErr (st : Nat) : Nat := hdlBase st + 0x040
def hdlErrPc (st : Nat) : Nat := hdlBase st + 0x048
def hdlCntIssue (st : Nat) : Nat := hdlBase st + 0x080
def hdlCntRsig (st : Nat) : Nat := hdlBase st + 0x098

def stkBase (st : Nat) : Nat := 0x4000000 + st * 0x10000
def stkNode (st c : Nat) : Nat := stkBase st + 0x200 + 8 * c
def stkNodeNext (st c : Nat) : Nat := stkBase st + 0x400 + 8 * c
def stkChild (st c : Nat) : Nat := stkBase st + 0x600 + 8 * c
def stkChildNext (st c : Nat) : Nat := stkBase st + 0x800 + 8 * c
def stkFault (st : Nat) : Nat := stkBase st + 0xA10
def stkCntStale (st : Nat) : Nat := stkBase st + 0xA40
def stkCntRsigIn (st : Nat) : Nat := stkBase st + 0xA48

def drlBase : Nat := 0x5000000
/-- The registers of sampler d. Those of sampler 15 would lie where R295 puts the common registers, which a read or a write
there reaches; the sampler's own stand at keys that no address reaches (DESIGN CHOICE, log entry 108). -/
def drlSmp (d : Nat) : Nat := if d = 15 then drlBase + 0x10000 else drlBase + d * 0x1000
def drlErr (d : Nat) : Nat := drlSmp d + 0x008
def drlErrTag (d : Nat) : Nat := drlSmp d + 0x010
def drlCtrl : Nat := 0x500F000
def drlGtab : Nat := 0x500F008
def drlBuild : Nat := 0x500F018
def drlSampled : Nat := 0x500F020
def drlIngSeq : Nat := 0x500F030
def drlIngErr : Nat := 0x500F038
def drlCnt (i : Nat) : Nat := drlBase + 0xF040 + 8 * i

def glnBase : Nat := 0x6000000
def glnPort (n : Nat) : Nat := glnBase + n * 0x1000
def glnErr (n : Nat) : Nat := glnPort n + 0x008
def glnErrTag (n : Nat) : Nat := glnPort n + 0x010
/-- Port counters of R338: 0 ROWS, 1 DUP, 2 VOL, 3 LOCAL, 4 REMOTE, 5 MISS, 6 NARROW, 7 FULL. -/
def glnCnt (n i : Nat) : Nat := glnPort n + 0x040 + 8 * i
def glnPortEn : Nat := 0x6040000
def glnCtrl : Nat := 0x6040008
def glnTtab : Nat := 0x6040010
def glnDir : Nat := 0x6040018
def glnCopy : Nat := 0x6040020
def glnVol : Nat := 0x6040028
def glnFence : Nat := 0x6040030
def glnDepoch : Nat := 0x6040038
def glnFlipAt : Nat := 0x6040040
def glnDirArg : Nat := 0x6040048
def glnDirCmd : Nat := 0x6040050
def glnDirRes : Nat := 0x6040058
def glnCand : Nat := 0x6040060
def glnHits : Nat := 0x6040068
def glnErrVol : Nat := 0x6040078
/-- Serve counters of R340: 0 SERVED, 1 COPY, 2 PARK, 3 REFRESH, 4 BUMP. -/
def glnCntServe (i : Nat) : Nat := glnBase + 0x40080 + 8 * i

def shfBase : Nat := 0x7000000
def shfEng (e : Nat) : Nat := shfBase + e * 0x1000
def shfErr (e : Nat) : Nat := shfEng e + 0x008
def shfErrTag (e : Nat) : Nat := shfEng e + 0x010
def shfBank (e : Nat) : Nat := shfEng e + 0x018
/-- Engine counters of R382: 0 CONTRIB, 1 SENT, 2 RECV, 3 APPLIED, 4 RANGE, 5 MISS, 6 REPL. -/
def shfCnt (e i : Nat) : Nat := shfEng e + 0x040 + 8 * i
def shfCtrl : Nat := 0x7040000
def shfGeom : Nat := 0x7040008
def shfOtab : Nat := 0x7040010
def shfNormCtrl : Nat := 0x7040018
def shfNsumLo : Nat := 0x7040020
def shfNsumHi : Nat := 0x7040028
def shfGnsumLo : Nat := 0x7040030
def shfGnsumHi : Nat := 0x7040038
def shfCf : Nat := 0x7040040
def shfCfaddr : Nat := 0x7040048

def memBase : Nat := 0x8000000
def memCtrl : Nat := memBase
def memStatus : Nat := 0x8000008
def memScrub : Nat := 0x8000010
def memScrubPos : Nat := 0x8000018
def memCeThresh : Nat := 0x8000020
def memUe : Nat := 0x8000028
def memUeAddr : Nat := 0x8000030
def memUeSyn : Nat := 0x8000038
def memCntCeSram : Nat := 0x8000040
def memCntClcHit : Nat := 0x8000060
def memCntClcMiss : Nat := 0x8000068
def memCntUe : Nat := 0x8000048
def memCntScrubFix : Nat := 0x8000050
def memCntScrubDrop : Nat := 0x8000058
def memCeCh (ch : Nat) : Nat := memBase + 0x1000 + 8 * ch

def hrwBase (st : Nat) : Nat := 0x9000000 + st * 0x10000
def hrwCh (st c : Nat) : Nat := hrwBase st + c * 0x1000
def hrwErr (st c : Nat) : Nat := hrwCh st c + 0x008
def hrwErrTag (st c : Nat) : Nat := hrwCh st c + 0x010
def hrwErrAddr (st c : Nat) : Nat := hrwCh st c + 0x018
/-- Channel counters of R475: 0 BYTES, 1 DESC, 2 RETRY, 3 WAIT, 4 PACE, 5 RAW. -/
def hrwCnt (st c i : Nat) : Nat := hrwCh st c + 0x040 + 8 * i
def hrwCtrl (st : Nat) : Nat := hrwBase st + 0xF000
def hrwResetReg (st : Nat) : Nat := hrwBase st + 0xF008

def spxBase : Nat := 0xA000000
def spxPort (p : Nat) : Nat := spxBase + p * 0x1000
def spxPortCtrl (p : Nat) : Nat := spxPort p
def spxPortErr (p : Nat) : Nat := spxPort p + 0x010
def spxPortDelay (p : Nat) : Nat := spxPort p + 0x020
/-- Port counters of R528: 0 TX, 1 RX, 2 CRC, 3 REPLAY, 4 FEC_CORR, 5 FEC_UNC, 6 DISCARD, 7 TRAIN. -/
def spxCnt (p i : Nat) : Nat := spxPort p + 0x040 + 8 * i
def spxId : Nat := 0xA020000
def spxCtrl : Nat := 0xA020008
def spxErr : Nat := 0xA020020
def spxRidtab : Nat := 0xA020028
def spxCntHbMiss : Nat := 0xA020040
def spxMcast (g : Nat) : Nat := spxBase + 0x21000 + 8 * g
def spxMcastNext (g : Nat) : Nat := spxBase + 0x21080 + 8 * g
def spxRtree (t : Nat) : Nat := spxBase + 0x21100 + 8 * t
def spxRtreeNext (t : Nat) : Nat := spxBase + 0x21140 + 8 * t
def spxRoute (c : Nat) : Nat := spxBase + 0x100000 + 8 * c
def spxRouteNext (c : Nat) : Nat := spxBase + 0x180000 + 8 * c

def fgtBase : Nat := 0xB000000
def fgtCtrl : Nat := fgtBase
def fgtGen : Nat := 0xB000038
/-- Counters of R569: 0 RX, 1 TAG, 2 DUP, 3 RETX, 4 STORE, 5 NOTREADY. -/
def fgtCnt (i : Nat) : Nat := fgtBase + 0x080 + 8 * i

def rstBase : Nat := 0xC000000
def rstStatus : Nat := rstBase
def rstStrap : Nat := 0xC000008
def rstCtrl : Nat := 0xC000010
def rstWdog : Nat := 0xC000018
def rstBlock : Nat := 0xC000020
def rstBlockStatus : Nat := 0xC000028
def rstCntWarm : Nat := 0xC000040
def rstCntForced : Nat := 0xC000048
def rstCntShadow : Nat := 0xC000050

def stlBase : Nat := 0xD000000
def stlStatus : Nat := stlBase
def stlSlots : Nat := 0xD000008
def stlSigidx : Nat := 0xD000010
def stlSigres : Nat := 0xD000018
def stlImghash (i : Nat) : Nat := stlBase + 0x020 + 8 * i
def stlApk (i : Nat) : Nat := stlBase + 0x040 + 8 * i
def stlSerial : Nat := 0xD000088
def stlErr : Nat := 0xD000090

def sysBase : Nat := 0xE000000
def sysFltStatus : Nat := sysBase
def sysRecCtrl : Nat := 0xE000008
def sysRecStep : Nat := 0xE000018
def sysGrnStatus : Nat := 0xE000020
def sysGrnHost : Nat := 0xE000028
def sysDump : Nat := 0xE000030
def sysFltLog (i w : Nat) : Nat := sysBase + 0x10000 + 32 * i + 8 * w

def pwrBase : Nat := 0xF000000
def pwrState : Nat := pwrBase
def pwrPark : Nat := 0xF000008
def pwrCtrl : Nat := 0xF000010
def pwrAlert : Nat := 0xF000018
def pwrInput : Nat := 0xF000020
def pwrTemp : Nat := 0xF000028
def pwrCntFallow : Nat := 0xF000040
def pwrCntOver : Nat := 0xF000048
def pwrCntAlarm : Nat := 0xF000050

def stbBase : Nat := 0x10000000
def stbSummary : Nat := stbBase
def stbPowered : Nat := 0x10000008
def stbTjhist (b : Nat) : Nat := stbBase + 0x100 + 8 * b
def stbSub (i : Nat) : Nat := stbBase + 0x1000 + 8 * i
def stbErase (i : Nat) : Nat := stbBase + 0x2000 + 8 * i

/-- Furrow registers by offset in their block (R45 to R75). -/
def furInfo (o : Nat) : Option RegInfo :=
  if o = 0x00 then some { rst := 0x0A020A, rw := mask 4 0 + mask 23 8 }
  else if o = 0x08 then some { rst := 0x61A8 + 0x61A8 * 2 ^ 32, rw := mask 19 0 }
  else if o = 0x10 ∨ o = 0x18 ∨ o = 0x20 ∨ o = 0x28 ∨ o = 0x30 then some roReg
  else if o = 0x38 then some { w1c := mask 6 0 }
  else if 0x1000 ≤ o ∧ o < 0x1000 + 8 * 321 then some roReg
  else none

/-- Tiller registers by offset in the strip's block (R151 to R157, R402). -/
def tilInfo (o : Nat) : Option RegInfo :=
  if o = 0xF000 then some { rst := 0x3FF, rw := mask 9 0 }
  else if o < 0xA000 then
    let r := o % 0x1000
    if r = 0x00 ∨ r = 0x10 ∨ r = 0x20 then some roReg
    else if r = 0x08 then some { w1c := mask 10 0 }
    else if r = 0x18 then some { w1c := mask 7 0 }
    else if 0x40 ≤ r ∧ r < 0x70 then some roReg
    else none
  else none

/-- Winnow registers (R208 to R215). -/
def winInfo (o : Nat) : Option RegInfo :=
  if o = 0x00 then some { rw := 1 }
  else if o = 0x08 ∨ o = 0x18 then some roReg
  else if o = 0x10 then some { w1c := mask 9 0 }
  else if o = 0x20 then some { w1c := mask 9 0 }
  else if 0x40 ≤ o ∧ o < 0x70 then some roReg
  else if 0x80 ≤ o ∧ o < 0xA0 then some roReg
  else if 0x100 ≤ o ∧ o < 0x140 then some roReg
  else none

/-- Headland registers (R247 to R251). -/
def hdlInfo (o : Nat) : Option RegInfo :=
  if o < 0x20 then some roReg
  else if o = 0x40 then some { w1c := mask 6 0 }
  else if o = 0x48 ∨ o = 0x50 then some roReg
  else if 0x80 ≤ o ∧ o < 0xA0 then some roReg
  else none

/-- Stook registers (R252 to R257). -/
def stkInfo (o : Nat) : Option RegInfo :=
  if o < 0x180 then some { rw := mask 23 0 }
  else if 0x200 ≤ o ∧ o < 0x380 then some { rst := 0x3F * 2 ^ 44 }
  else if 0x400 ≤ o ∧ o < 0x580 then some { rst := 0x3F * 2 ^ 44, rw := mask 49 0 }
  else if 0x600 ≤ o ∧ o < 0x780 then some roReg
  else if 0x800 ≤ o ∧ o < 0x980 then some { rw := mask 31 0 }
  else if o = 0xA00 then some roReg
  else if o = 0xA08 then some { rw := mask 63 0 }
  else if o = 0xA10 then some { w1c := mask 2 0 }
  else if o = 0xA40 ∨ o = 0xA48 then some roReg
  else none

/-- Drill registers (R293 to R296). -/
def drlInfo (o : Nat) : Option RegInfo :=
  if o < 0x10000 ∧ o ≥ 0xF000 then
    if o = 0xF000 then some { rst := 0x1FFFF, rw := mask 16 0 }
    else if o = 0xF008 then some { rw := mask 47 0 }
    else if o = 0xF010 ∨ o = 0xF018 ∨ o = 0xF028 then some roReg
    else if o = 0xF020 then some { rst := 0xFFFFFFFF }
    else if o = 0xF030 then some { keep := mask 63 0 }
    else if o = 0xF038 then some { w1c := mask 4 0 }
    else if 0xF040 ≤ o ∧ o < 0xF090 then some roReg
    else if o % 0x1000 = 0 then some roReg
    else none
  else if o < 0xF000 then
    let r := o % 0x1000
    if r = 0x00 ∨ r = 0x10 then some roReg
    else if r = 0x08 then some { w1c := mask 7 0 }
    else none
  else none

/-- Glean registers (R336 to R341). -/
def glnInfo (o : Nat) : Option RegInfo :=
  if o < 0x40000 then
    let r := o % 0x1000
    if r = 0x00 ∨ r = 0x10 then some roReg
    else if r = 0x08 then some { w1c := mask 8 0 }
    else if 0x40 ≤ r ∧ r < 0x80 then some roReg
    else none
  else if o = 0x40000 then some { rst := mask 63 0, rw := mask 63 0 }
  else if o = 0x40008 then some { rst := 3 + 0x140 * 2 ^ 16, rw := mask 1 0 + mask 31 16 }
  else if o = 0x40010 then some { rw := mask 47 0 }
  else if o = 0x40018 then some { rst := 0x0A * 2 ^ 48, rw := mask 52 0 }
  else if o = 0x40020 then some { rw := mask 62 0 }
  else if o = 0x40028 then some { rw := mask 63 0 }
  else if o = 0x40030 ∨ o = 0x40038 then some roReg
  else if o = 0x40040 then some { rw := mask 63 0 }
  else if o = 0x40048 then some { rw := mask 45 0 }
  else if o = 0x40050 then some roReg
  else if o = 0x40058 then some { rst := 1 }
  else if o = 0x40060 ∨ o = 0x40068 then some { rw := mask 47 0 }
  else if o = 0x40070 then some roReg
  else if o = 0x40078 then some { w1c := mask 2 0 }
  else if 0x40080 ≤ o ∧ o < 0x400A8 then some roReg
  else if 0x100000 ≤ o ∧ o < 0x100000 + 8 * 49152 then some { rst := 2 ^ 21 }
  else none

/-- Sheaf registers (R381 to R384). -/
def shfInfo (o : Nat) : Option RegInfo :=
  if o < 0x30000 then
    let r := o % 0x1000
    if r = 0x00 ∨ r = 0x10 ∨ r = 0x20 then some roReg
    else if r = 0x08 then some { w1c := mask 9 0 }
    else if r = 0x18 then some { rst := 0x0A * 2 ^ 48, rw := mask 52 0 }
    else if 0x40 ≤ r ∧ r < 0x78 then some roReg
    else none
  else if o = 0x40000 then some { rst := mask 47 0, rw := mask 49 0 }
  else if o = 0x40008 then some { rst := 0x440, rw := mask 15 0 }
  else if o = 0x40010 then some { rw := mask 47 0 }
  else if o = 0x40018 then some { rw := mask 15 0 + mask 63 32 }
  else if 0x40020 ≤ o ∧ o < 0x40048 then some roReg
  else if o = 0x40048 then some { rw := mask 47 0 }
  else if 0x50000 ≤ o ∧ o < 0x51000 then some roReg
  else none

/-- Memory registers (R437 to R446). -/
def memInfo (o : Nat) : Option RegInfo :=
  if o = 0x00 then some { rst := 0x13, rw := 0x13, keep := mask 3 2 }
  else if o = 0x08 then some roReg
  else if o = 0x10 then some { rst := 0x5A0 + 0x3E8 * 2 ^ 16, rw := mask 31 0, keep := mask 15 0 }
  else if o = 0x18 then some { rw := mask 47 0, keep := mask 47 0 }
  else if o = 0x20 then some { rst := 0x3E8, rw := mask 31 0 }
  else if o = 0x28 then some { w1c := mask 6 0 }
  else if o = 0x30 ∨ o = 0x38 then some roReg
  else if o = 0x40 ∨ o = 0x48 ∨ o = 0x50 ∨ o = 0x58 then some rwsCount
  else if o = 0x60 ∨ o = 0x68 then some roReg
  else if 0x1000 ≤ o ∧ o < 0x1000 + 8 * 384 then some { rw := mask 31 0, keep := mask 31 0 }
  else none

/-- Harrow registers by offset in the strip's block (R472 to R476). -/
def hrwInfo (o : Nat) : Option RegInfo :=
  if o = 0xF000 then some { rst := 0xF + 3 * 2 ^ 4 + 0x64 * 2 ^ 8, rw := mask 6 0 + mask 23 8 }
  else if o = 0xF008 then some roReg
  else if o < 0x4000 then
    let r := o % 0x1000
    if r = 0x00 ∨ r = 0x10 ∨ r = 0x18 then some roReg
    else if r = 0x08 then some { w1c := mask 9 0 }
    else if 0x40 ≤ r ∧ r < 0x70 then some roReg
    else none
  else none

/-- Septax registers (R527 to R529). -/
def spxInfo (o : Nat) : Option RegInfo :=
  if o < 0x20000 then
    let r := o % 0x1000
    if r = 0x00 then some { rw := mask 1 0 }
    else if r = 0x08 ∨ r = 0x18 ∨ r = 0x20 then some roReg
    else if r = 0x10 then some { w1c := mask 7 0 }
    else if r = 0x78 then some rwsCount
    else if 0x40 ≤ r ∧ r < 0x78 then some roReg
    else none
  else if o = 0x20000 ∨ o = 0x20010 ∨ o = 0x20018 then some roReg
  else if o = 0x20008 then some { rst := 1, rw := 1 }
  else if o = 0x20020 then some { w1c := mask 4 0 }
  else if o = 0x20028 then some { rw := mask 47 0 }
  else if o = 0x20030 ∨ o = 0x20040 then some roReg
  else if 0x21000 ≤ o ∧ o < 0x21080 then some roReg
  else if 0x21080 ≤ o ∧ o < 0x21100 then some { rw := mask 32 0 }
  else if 0x21100 ≤ o ∧ o < 0x21140 then some roReg
  else if 0x21140 ≤ o ∧ o < 0x21180 then some { rw := mask 5 0 + mask 63 32 }
  else if 0x22000 ≤ o ∧ o < 0x22000 + 8 * 1024 then some roReg
  else if 0x100000 ≤ o ∧ o < 0x180000 then some roReg
  else if 0x180000 ≤ o ∧ o < 0x200000 then some { rw := mask 33 0 }
  else none

/-- Fieldgate registers (R567 to R569). The counters and FGT_GEN clear at cold reset only. -/
def fgtInfo (o : Nat) : Option RegInfo :=
  if o = 0x00 then some { rst := 3, rw := 3 }
  else if o = 0x08 then some roReg
  else if o = 0x10 then some { rst := 0xCA08 }
  else if 0x18 ≤ o ∧ o < 0x38 then some roReg
  else if o = 0x38 then some { keep := mask 63 0 }
  else if o = 0x40 then some roReg
  else if 0x80 ≤ o ∧ o < 0xB0 then some { keep := mask 47 0 }
  else if 0x1000 ≤ o ∧ o < 0x1200 then some roReg
  else none

/-- Reset registers (R602). -/
def rstInfo (o : Nat) : Option RegInfo :=
  if o = 0x00 ∨ o = 0x08 then some roReg
  else if o = 0x10 then some { rst := 1 + 0x3E8 * 2 ^ 16 + 0x64 * 2 ^ 32, rw := 1 + mask 47 16 }
  else if o = 0x18 then some roReg
  else if o = 0x20 then some { rw := mask 2 0 + mask 15 8 }
  else if o = 0x28 then some { w1c := 4 }
  else if o = 0x40 ∨ o = 0x48 ∨ o = 0x50 then some rwsCount
  else none

/-- Stile registers (R603). -/
def stlInfo (o : Nat) : Option RegInfo :=
  if o = 0x08 then some { rw := mask 13 10, keep := mask 13 10 }
  else if o < 0x90 then some roReg
  else if o = 0x90 then some { w1c := mask 8 0 }
  else none

/-- Recovery registers (R632). -/
def sysInfo (o : Nat) : Option RegInfo :=
  if o = 0x00 then some { rw := mask 41 32, w1c := 7, keep := mask 41 32 }
  else if o = 0x08 then some { rst := 0x300, rw := mask 15 8 }
  else if o = 0x10 then some roReg
  else if o = 0x18 then some { rst := 0xFFFFFFFF }
  else if o = 0x20 then some { rst := mask 63 0 }
  else if o = 0x28 then some { rst := 0xFFFFFFFF, rw := mask 31 0, keep := mask 31 0 }
  else if o = 0x30 then some { w1c := 1, keep := 1 }
  else if 0x10000 ≤ o ∧ o < 0x18000 then some roReg
  else none

/-- Power registers (R652). The alarms of the input voltage, the junctions and the coolant show conditions that no reset
ends (R581). -/
def pwrInfo (o : Nat) : Option RegInfo :=
  if o = 0x00 then some { rst := 8 * 2 ^ 16 }
  else if o = 0x18 then some { keep := mask 2 0 }
  else if o = 0x08 ∨ o = 0x20 ∨ o = 0x28 then some roReg
  else if o = 0x10 then some { rst := 0x3E8, rw := mask 15 0 }
  else if o = 0x40 then some rwsCount
  else if o = 0x48 ∨ o = 0x50 then some roReg
  else none

/-- Stubble gauge registers (R653). -/
def stbInfo (o : Nat) : Option RegInfo :=
  if o = 0x00 then some { rst := 0xFFFFFFFF * 2 ^ 32 }
  else if o = 0x08 then some roReg
  else if 0x100 ≤ o ∧ o < 0x138 then some roReg
  else if 0x1000 ≤ o ∧ o < 0x1000 + 8 * 102 then some { rst := 0xFFFF + 0xFFFFFFFF * 2 ^ 32 }
  else if 0x2000 ≤ o ∧ o < 0xA000 then some roReg
  else none

/-- The register at an offset of CSR space, if one is assigned there (R406). Registers are 8 bytes apart. -/
def regInfo (o : Nat) : Option RegInfo :=
  if o % 8 ≠ 0 then none
  else if o = 0 then some { rst := 0xD7A0004841010100 }
  else
    match o / 0x1000000 with
    | 0 => if 0x10000 ≤ o ∧ o < 0x20000 then furInfo (o - 0x10000) else none
    | 1 => if o < 0x1400000 then tilInfo (o % 0x10000) else none
    | 2 => if o < 0x2400000 then winInfo (o % 0x10000) else none
    | 3 => if o < 0x3400000 then hdlInfo (o % 0x10000) else none
    | 4 => if o < 0x4400000 then stkInfo (o % 0x10000) else none
    | 5 => drlInfo (o - drlBase)
    | 6 => glnInfo (o - glnBase)
    | 7 => shfInfo (o - shfBase)
    | 8 => memInfo (o - memBase)
    | 9 => if o < 0x9400000 then hrwInfo (o % 0x10000) else none
    | 10 => spxInfo (o - spxBase)
    | 11 => fgtInfo (o - fgtBase)
    | 12 => rstInfo (o - rstBase)
    | 13 => stlInfo (o - stlBase)
    | 14 => sysInfo (o - sysBase)
    | 15 => pwrInfo (o - pwrBase)
    | 16 => stbInfo (o - stbBase)
    | _ => none

/-- The bits of a register that a job image sets: those that software can write, and of a table of which software writes the
next copy alone (R253, R254, R497, R504, R529) the fields of the current copy too, and of DRL_ING_SEQ all (R295). No other
bit, a reserved one above all (R7), takes a value from an image. -/
def imageBits (o : Nat) : Nat :=
  let k := o % 0x10000
  let x := o - spxBase
  let stk : Bool := decide (o / 0x1000000 = 4)
  let spx : Bool := decide (o / 0x1000000 = 10)
  if (regInfo o).isNone then 0
  else if stk && decide (0x200 ≤ k ∧ k < 0x380) then mask 49 0
  else if stk && decide (0x600 ≤ k ∧ k < 0x780) then mask 31 0
  else if spx && decide (0x21000 ≤ x ∧ x < 0x21080) then mask 32 0
  else if spx && decide (0x21100 ≤ x ∧ x < 0x21140) then mask 5 0 + mask 63 32
  else if spx && decide (0x100000 ≤ x ∧ x < 0x180000) then mask 33 0
  else if o = drlIngSeq then mask 63 0
  else ((regInfo o).map RegInfo.rw).getD 0

/-- The reset value of the register at an offset; 0 where none is assigned (R406). -/
def regReset (o : Nat) : Word := BitVec.ofNat 64 (((regInfo o).map RegInfo.rst).getD 0)

/-- The stored contents of a register. -/
def State.reg (s : State) (o : Nat) : Word := (Tab.look s.csr o).getD (regReset o)

/-- Store a register's contents whole, whatever the access codes: what the hardware itself does. -/
def State.setReg (s : State) (o : Nat) (v : Word) : State := { s with csr := Tab.put s.csr o v }

/-- A register as a job image sets it. -/
def State.imageReg (s : State) (o : Nat) (v : Nat) : State :=
  let m := BitVec.ofNat 64 (imageBits o)
  if imageBits o = 0 then s else s.setReg o ((s.reg o &&& ~~~m) ||| (BitVec.ofNat 64 v &&& m))

/-- The field of width w at bit lo of a register. -/
def State.fld (s : State) (o lo w : Nat) : Nat := natBits (s.reg o).toNat lo w

/-- A word with the field of width w at bit lo replaced. -/
def putBits (v : Word) (lo w x : Nat) : Word :=
  let m := BitVec.ofNat 64 (2 ^ (lo + w) - 2 ^ lo)
  (v &&& ~~~m) ||| (BitVec.ofNat 64 (x % 2 ^ w * 2 ^ lo))

/-- Replace the field of width w at bit lo of a register. -/
def State.setFld (s : State) (o lo w x : Nat) : State := s.setReg o (putBits (s.reg o) lo w x)

/-- Set one bit of a register: an event recorded by a W1C or status bit. -/
def State.setBit (s : State) (o b : Nat) : State := s.setReg o (s.reg o ||| BitVec.ofNat 64 (2 ^ b))

/-- Clear one bit of a register. -/
def State.clrBit (s : State) (o b : Nat) : State := s.setReg o (s.reg o &&& ~~~(BitVec.ofNat 64 (2 ^ b)))

/-- A bit of a register. -/
def State.bit (s : State) (o b : Nat) : Bool := (s.reg o).getLsbD b

/-- Add to a 48-bit saturating counter (R157 and its like). -/
def State.count (s : State) (o n : Nat) : State :=
  if n = 0 then s else s.setReg o (BitVec.ofNat 64 (satAdd 48 ((s.reg o).toNat % 2 ^ 48) n))

/-- What a software write leaves in a register under the access codes of R8: RW and RWS bits take the
value, W1C bits are cleared where the value is 1, all others keep theirs. -/
def accessWrite (i : RegInfo) (old v : Word) : Word :=
  let rw := BitVec.ofNat 64 i.rw
  let w1c := BitVec.ofNat 64 i.w1c
  (old &&& ~~~rw &&& ~~~(v &&& w1c)) ||| (v &&& rw)

/-- A software write of a register that has no effect beyond its access codes (R8); an offset assigned to
no register ignores it (R406). -/
def State.writePlain (s : State) (o : Nat) (v : Word) : State :=
  match regInfo o with
  | none => s
  | some i => s.setReg o (accessWrite i (s.reg o) v)

/-- The contents that a warm reset leaves in a listed register: the kept bits, and the reset value of all
others (R8, R572). -/
def warmReg (o : Nat) (v : Word) : Word :=
  let k := BitVec.ofNat 64 (((regInfo o).map RegInfo.keep).getD 0)
  (v &&& k) ||| (regReset o &&& ~~~k)

end Sys2Proof.Machine
end

