-- ==== Sys2Proof/Machine/Mem.lean ====
section
/-!
DEFINITION. Memory as a canonical list of cells, the local address map (R403), the DRAM interleave (R412)
and the protection code RS(68,64) (R416, R417). The code is linear, so the outcome of a decode depends on
the error pattern alone: the model keeps the written bytes and, apart from them, the pattern of errors.
-/

namespace Sys2Proof.Machine
open Sys2Proof

/-- The byte at an address; a byte that is not listed is 0 (R431). -/
def Memory.rd : List Host.Cell → Nat → Byte
  | [], _ => 0
  | (k, v) :: r, a => if a = k then v else Memory.rd r a

/-- Write one byte, keeping the cells in rising order and listing no zero byte. -/
def Memory.wr : List Host.Cell → Nat → Byte → List Host.Cell
  | [], a, b => if b = 0 then [] else [(a, b)]
  | (k, v) :: r, a, b =>
    if a = k then (if b = 0 then r else (a, b) :: r)
    else if a < k then (if b = 0 then (k, v) :: r else (a, b) :: (k, v) :: r)
    else (k, v) :: Memory.wr r a b

/-- Every listed address is above a bound, addresses rise strictly and no listed byte is 0. -/
def Memory.wfFrom : Nat → List Host.Cell → Bool
  | _, [] => true
  | n, (k, v) :: r => decide (n ≤ k) && decide (v ≠ 0) && Memory.wfFrom (k + 1) r

/-- The canonical form of memory. -/
def Memory.wf (m : List Host.Cell) : Bool := Memory.wfFrom 0 m

/-- n bytes from an address upward. -/
def Memory.rdN (m : List Host.Cell) (a : Nat) : Nat → List Byte
  | 0 => []
  | n + 1 => Memory.rd m a :: Memory.rdN m (a + 1) n

/-- Write bytes from an address upward. -/
def Memory.wrN : List Host.Cell → Nat → List Byte → List Host.Cell
  | m, _, [] => m
  | m, a, b :: r => Memory.wrN (Memory.wr m a b) (a + 1) r

/-- Zero every byte from lo up to hi. -/
def Memory.zero (m : List Host.Cell) (lo hi : Nat) : List Host.Cell := m.filter (fun c => c.1 < lo || hi ≤ c.1)

-- The local address map (R403).
def dramJobEnd : Nat := 0x016600000000
def dumpBase : Nat := 0x016600000000
def buddyBase : Nat := 0x016700000000
def dramEnd : Nat := 0x016800000000
def plotBase : Nat := 0x400000000000
def plotEnd : Nat := 0x400040000000
def bufBase : Nat := 0x500000000000
def bufEnd : Nat := 0x50000A000000
def winBaseAddr : Nat := 0x500100000000
def winEndAddr : Nat := 0x500104000000
def csrEnd : Nat := 0x7F0100000000

/-- The kind of a line as the fault unit names it (R422). -/
inductive LineKind where
  | dram
  | check
  | plot
  | base
  | other
deriving DecidableEq, Repr

/-- An address in the DRAM open to jobs. -/
def inJobDram (a : Nat) : Bool := a < dramJobEnd
/-- An address in DRAM data, the top 8 GiB included. -/
def inDram (a : Nat) : Bool := a < dramEnd
def inPlot (a : Nat) : Bool := plotBase ≤ a && a < plotEnd
def inBuf (a : Nat) : Bool := bufBase ≤ a && a < bufEnd
def inTiles (a : Nat) : Bool := winBaseAddr ≤ a && a < winEndAddr
def inCsr (a : Nat) : Bool := csrBase ≤ a && a < csrEnd

/-- Every byte of a range satisfies a region test that is an interval. -/
def spans (p : Nat → Bool) (a n : Nat) : Bool := n = 0 || (p a && p (a + n - 1))

/-- Plot SRAM, base-die buffers or DRAM below the top 8 GiB: the reach of most engines and of remote
requests (R408). -/
def jobReach (a n : Nat) : Bool := spans inJobDram a n || spans inPlot a n || spans inBuf a n

/-- The kind of line that holds an address. -/
def lineKind (a : Nat) : LineKind :=
  if inDram a then .dram else if inPlot a then .plot else if inBuf a then .base else .other

/-- The 64-byte line that holds an address. -/
def lineOf (a : Nat) : Nat := a / 64 * 64

/-- The addresses of the lines that a range of n bytes touches. -/
def linesOf (a n : Nat) : List Nat :=
  if n = 0 then [] else (List.range ((a + n - 1) / 64 - a / 64 + 1)).map (fun i => (a / 64 + i) * 64)

/-- The interleave granularity in bytes for a value of MEM_CTRL.ILV (R437). -/
def ilvBytes (ilv : Nat) : Nat := if ilv = 1 then 1024 else if ilv = 2 then 4096 else 256

/-- The channel and the channel offset of a DRAM address (R412). -/
def dramChannel (gr a : Nat) : Nat × Nat := (a / gr % 384, a / gr / 384 * gr + a % gr)

/-- The local address by which logs name the check line of a data line (R418). -/
def checkLineName (gr a : Nat) : Nat :=
  let (ch, o) := dramChannel gr a
  0x016800000000 + ch * 0x10000000 + o / 1024 * 64

/-- The 16 data lines whose check bytes lie in one check line of a channel, by the line's number there (R418). -/
def checkedLines (gr ch n : Nat) : List Nat :=
  (List.range 16).map (fun k =>
    let o := 1024 * n + 64 * k
    (o / gr * 384 + ch) * gr + o % gr)

/-- The data lines of a check line, by the address that names it. -/
def linesUnder (gr name : Nat) : List Nat :=
  let x := name - 0x016800000000
  checkedLines gr (x / 0x10000000) (x % 0x10000000 / 64)

-- GF(2^8) with the field polynomial 0x11D (R416).

/-- Multiplication by α. -/
def gfX (a : Byte) : Byte := (a <<< 1) ^^^ (if a.getLsbD 7 then 0x1D else 0)

/-- Product of two field elements: the bits of b from the top down. -/
def gfMulFrom (a b : Byte) : Nat → Byte → Byte
  | 0, acc => acc
  | n + 1, acc => gfMulFrom a b n (gfX acc ^^^ (if b.getLsbD n then a else 0))

def gfMul (a b : Byte) : Byte := gfMulFrom a b 8 0

/-- α to a power. -/
def gfExp : Nat → Byte
  | 0 => 1
  | n + 1 => gfX (gfExp n)

/-- A field element to a power. -/
def gfPow (a : Byte) : Nat → Byte
  | 0 => 1
  | n + 1 => gfMul a (gfPow a n)

/-- The inverse of a nonzero field element. -/
def gfInv (a : Byte) : Byte := gfPow a 254

/-- Syndrome j of an error pattern: position p is the coefficient of x^p of the code word. -/
def rsSyndrome (errs : List (Nat × Byte)) (j : Nat) : Byte :=
  errs.foldl (fun acc e => acc ^^^ gfMul e.2 (gfExp (e.1 * j))) 0

/-- The four syndromes. -/
def rsSyndromes (errs : List (Nat × Byte)) : List Byte := (List.range 4).map (rsSyndrome errs)

/-- The pattern of one error at p, or of two at p and q, that has given syndromes 0 and 1. -/
def rsSolve (s0 s1 : Byte) (p q : Nat) : List (Nat × Byte) :=
  let x := gfExp p
  let y := gfExp q
  let e2 := gfMul (s1 ^^^ gfMul s0 x) (gfInv (x ^^^ y))
  [(p, s0 ^^^ e2), (q, e2)]

/-- Every pair of positions of a code word. -/
def rsPairs : List (Nat × Nat) :=
  ((List.range 68).map (fun q => (List.range q).map (fun p => (p, q)))).flatten

/-- The correction of at most two symbols that explains the syndromes, if there is one (R417). At most one
exists, since the code has distance 5. -/
def rsDecode (syn : List Byte) : Option (List (Nat × Byte)) :=
  let s0 := syn.getD 0 0
  let s1 := syn.getD 1 0
  if syn = [0, 0, 0, 0] then some []
  else
    match (List.range 68).find? (fun p => s0 != 0 && rsSyndromes [(p, s0)] == syn) with
    | some p => some [(p, s0)]
    | none =>
      match rsPairs.find? (fun pq =>
          let c := rsSolve s0 s1 pq.1 pq.2
          c.all (fun e => e.2 != 0) && rsSyndromes c == syn) with
      | some pq => some (rsSolve s0 s1 pq.1 pq.2)
      | none => none

/-- What decoding a line gives (R417). -/
inductive Decoded where
  /-- no error seen; the pattern left in the data that is returned -/
  | clean (left : List (Nat × Byte))
  /-- corrected by a patch; the pattern left after it -/
  | fixed (left : List (Nat × Byte))
  | bad (syn : List Byte)
deriving DecidableEq, Repr

/-- XOR one symbol error into a pattern. -/
def addErr (errs : List (Nat × Byte)) (e : Nat × Byte) : List (Nat × Byte) :=
  let old := (Tab.look errs e.1).getD 0
  if old ^^^ e.2 = 0 then Tab.drop errs e.1 else Tab.put errs e.1 (old ^^^ e.2)

/-- Decode a line from its error pattern. -/
def decodeLine (errs : List (Nat × Byte)) : Decoded :=
  let syn := rsSyndromes errs
  match rsDecode syn with
  | none => .bad syn
  | some [] => .clean errs
  | some patch => .fixed (patch.foldl addErr errs)

/-- The bytes of memory without regard to the protection code. -/
def State.peek (s : State) (a : Nat) : Byte := Memory.rd s.mem a
def State.peeks (s : State) (a n : Nat) : List Byte := Memory.rdN s.mem a n
/-- A little-endian number of n bytes in memory, without regard to the protection code. -/
def State.peekNat (s : State) (a n : Nat) : Nat := leNat (s.peeks a n)

/-- Write bytes whole, without the protection code. -/
def State.poke (s : State) (a : Nat) (bs : List Byte) : State := { s with mem := Memory.wrN s.mem a bs }

/-- Write a little-endian number of n bytes. -/
def State.pokeNat (s : State) (a n v : Nat) : State := s.poke a (leBytes n v)

/-- Forget the errors of the lines of a range: they hold valid code words again. -/
def State.cleanLines (s : State) (a n : Nat) : State :=
  { s with flips := s.flips.filter (fun p => !(a / 64 * 64 ≤ p.1 && p.1 < a + n)) }

/-- A write orders itself after every scrub read that waits to write the line back (R427). -/
def State.staleBacks (s : State) (a n : Nat) : State :=
  { s with wbq := s.wbq.map (fun w => if a / 64 * 64 ≤ w.line ∧ w.line < a + n then { w with stale := true } else w) }

/-- The data bytes of an error pattern XORed into the bytes that a read of [a, a + n) returns. -/
def applyLeft (left : List (Nat × Byte)) (line a : Nat) (bs : List Byte) : List Byte :=
  left.foldl (fun acc e =>
    if 4 ≤ e.1 ∧ a ≤ line + e.1 - 4 ∧ line + e.1 - 4 < a + bs.length then
      acc.modify (line + e.1 - 4 - a) (fun b => b ^^^ e.2)
    else acc) bs

end Sys2Proof.Machine
end

