-- ==== Sys2Proof/Machine/Operands.lean ====
section
/-!
DEFINITION. Every operand form and every number format: exact values, the element formats of R77 to R80, the
rounding function of R87, the block alignment of R90 and the conversions of R100 to R104.
-/

namespace Sys2Proof.Machine
open Sys2Proof

/-- An exact number n × 2^e ÷ d, with d above 0. -/
structure Ex where
  n : Int
  d : Nat
  e : Int
deriving DecidableEq, Repr

/-- A value of an element format: R77's NaN, infinities, and finite values; a zero keeps its sign. -/
inductive FV where
  | nan
  | inf (neg : Bool)
  | fin (negZero : Bool) (x : Ex)
deriving DecidableEq, Repr

def Ex.ofInt (n : Int) : Ex := ⟨n, 1, 0⟩
def Ex.zero : Ex := ⟨0, 1, 0⟩
/-- 2^k as a numerator of an Ex. -/
def pow2 (k : Int) : Int := ((2 : Int) ^ k.toNat)
def Ex.isZero (x : Ex) : Bool := x.n == 0
def Ex.isNeg (x : Ex) : Bool := x.n < 0
def Ex.neg (x : Ex) : Ex := { x with n := -x.n }
def Ex.abs (x : Ex) : Ex := { x with n := x.n.natAbs }
/-- The numerators of two values over one denominator and one power of two. -/
def Ex.common (x y : Ex) : Int × Int × Nat × Int :=
  let e := min x.e y.e
  (x.n * y.d * pow2 (x.e - e), y.n * x.d * pow2 (y.e - e), x.d * y.d, e)
def Ex.add (x y : Ex) : Ex := let (a, b, d, e) := Ex.common x y; ⟨a + b, d, e⟩
def Ex.sub (x y : Ex) : Ex := Ex.add x y.neg
def Ex.mul (x y : Ex) : Ex := ⟨x.n * y.n, x.d * y.d, x.e + y.e⟩
/-- x ÷ y for a y that is not 0. -/
def Ex.div (x y : Ex) : Ex :=
  ⟨x.n * y.d * (if y.n < 0 then -1 else 1), x.d * y.n.natAbs, x.e - y.e⟩
/-- x × 2^k. -/
def Ex.scale (x : Ex) (k : Int) : Ex := { x with e := x.e + k }
def Ex.lt (x y : Ex) : Bool := let (a, b, _, _) := Ex.common x y; a < b
def Ex.eq (x y : Ex) : Bool := let (a, b, _, _) := Ex.common x y; a == b

/-- floor(x ÷ 2^g) and the remainder over its denominator. -/
def Ex.floorAt (x : Ex) (g : Int) : Int × Nat × Nat :=
  let num := if x.e ≥ g then x.n * pow2 (x.e - g) else x.n
  let den := if x.e ≥ g then x.d else x.d * 2 ^ (g - x.e).toNat
  (num / (den : Int), (num % (den : Int)).toNat, den)

def Ex.floor (x : Ex) : Int := (x.floorAt 0).1

/-- floor(log₂ |x|) of a value that is not 0. -/
def Ex.log2 (x : Ex) : Int :=
  let a := x.n.natAbs
  let k : Int := (Nat.log2 a : Int) - (Nat.log2 x.d : Int)
  let below := if k ≥ 0 then decide (a < x.d * 2 ^ k.toNat) else decide (a * 2 ^ (-k).toNat < x.d)
  (if below then k - 1 else k) + x.e

/-- The rounding function of R87 at spacing 2^g: to nearest even, or stochastic with a dither word. -/
def roundTo (x : Ex) (g : Int) (dither : Option Nat) : Int :=
  let (q, r, den) := x.floorAt g
  match dither with
  | none => if 2 * r > den ∨ (2 * r = den ∧ q % 2 = 1) then q + 1 else q
  | some w => if r * 2 ^ 32 / den + w ≥ 2 ^ 32 then q + 1 else q

/-- Rounding toward plus infinity at spacing 2^g (R106). -/
def roundUp (x : Ex) (g : Int) : Int := let (q, r, _) := x.floorAt g; if r = 0 then q else q + 1

/-- ⌊√n⌋ by bits from the top down. -/
def isqrtFrom : Nat → Nat → Nat → Nat
  | 0, _, acc => acc
  | k + 1, n, acc =>
    let c := acc + 2 ^ k
    isqrtFrom k n (if c * c ≤ n then c else acc)
def isqrt (n : Nat) : Nat := isqrtFrom (Nat.log2 n / 2 + 1) n 0

/-- A value that rounds as √x does, for x above 0: its root to more than 190 bits, with one bit below them
that says whether a remainder is left. -/
def Ex.sqrt (x : Ex) : Ex :=
  let n := x.n.natAbs * x.d
  let up : Nat := 400 + (if x.e % 2 = 0 then 0 else 1)
  let m := n * 2 ^ up
  let r := isqrt m
  ⟨2 * r + (if r * r = m then 0 else 1), x.d, (x.e - up) / 2 - 1⟩

/-- A floating format: mantissa bits, exponent bits, bias, and whether it has infinities (R77). -/
structure FInfo where
  p : Nat
  eb : Nat
  bias : Nat
  hasInf : Bool
deriving DecidableEq, Repr

/-- The floating format of a code 0x0 to 0x4 (R76, R77). -/
def fInfo (f : Nat) : FInfo :=
  if f = 0 then ⟨23, 8, 127, true⟩
  else if f = 1 then ⟨7, 8, 127, true⟩
  else if f = 2 then ⟨10, 5, 15, true⟩
  else if f = 3 then ⟨3, 4, 7, false⟩
  else ⟨2, 5, 15, true⟩

def isFloat (f : Nat) : Bool := f ≤ 4
def isInt (f : Nat) : Bool := 5 ≤ f && f ≤ 7
def isElem (f : Nat) : Bool := f ≤ 7
def isBlock (f : Nat) : Bool := 8 ≤ f && f ≤ 13

/-- The element or mantissa bits of a format code (R76). -/
def fmtBits (f : Nat) : Nat :=
  if f = 0 ∨ f = 7 then 32 else if f = 1 ∨ f = 2 ∨ f = 6 then 16 else if f = 8 then 4
  else if f = 10 then 12 else if f = 11 then 16 else 8

/-- The capacity of a tile register in elements of a format (R159). -/
def fmtCap (f : Nat) : Nat :=
  if f = 0 ∨ f = 7 then 1024 else if f = 1 ∨ f = 2 ∨ f = 6 ∨ f = 10 ∨ f = 11 then 2048 else 4096

/-- The canonical NaN of a floating format (R78). -/
def canonNan (f : Nat) : Nat :=
  if f = 0 then 0x7FC00000 else if f = 1 then 0x7FC0 else if f = 2 then 0x7E00 else if f = 3 then 0x7F else 0x7E

/-- The largest finite value of a floating format (R77). -/
def maxFin (f : Nat) : Ex :=
  if f = 0 then ⟨2 ^ 24 - 1, 1, 104⟩ else if f = 1 then ⟨255, 1, 120⟩ else if f = 2 then ⟨65504, 1, 0⟩
  else if f = 3 then ⟨448, 1, 0⟩ else ⟨57344, 1, 0⟩

/-- The bits of the largest finite value, without the sign. -/
def maxFinBits (f : Nat) : Nat :=
  if f = 0 then 0x7F7FFFFF else if f = 1 then 0x7F7F else if f = 2 then 0x7BFF else if f = 3 then 0x7E else 0x7B

/-- The bits of an infinity, without the sign, for a format that has one. -/
def infBits (f : Nat) : Nat := let i := fInfo f; (2 ^ i.eb - 1) * 2 ^ i.p

def signBit (f : Nat) (neg : Bool) : Nat := if neg then 2 ^ (fmtBits f - 1) else 0

/-- The value of an element of a floating format; FP32 subnormals read as zero (R77, R80). -/
def decFloat (f bits : Nat) : FV :=
  let i := fInfo f
  let m := bits % 2 ^ i.p
  let ex := bits / 2 ^ i.p % 2 ^ i.eb
  let neg := bits / 2 ^ (i.p + i.eb) % 2 = 1
  let sgn : Int := if neg then -1 else 1
  if i.hasInf ∧ ex = 2 ^ i.eb - 1 then (if m = 0 then .inf neg else .nan)
  else if ¬ i.hasInf ∧ ex = 2 ^ i.eb - 1 ∧ m = 2 ^ i.p - 1 then .nan
  else if ex = 0 then
    if m = 0 ∨ f = 0 then .fin neg Ex.zero else .fin neg ⟨sgn * m, 1, 1 - (i.bias : Int) - i.p⟩
  else .fin neg ⟨sgn * (m + 2 ^ i.p : Nat), 1, (ex : Int) - i.bias - i.p⟩

/-- The value of an element of an element format (R77, R79). An integer 0 counts as +0 where a sign of zero matters (DESIGN
CHOICE, log entry 104: R177 speaks of signed zeros without saying which sign an integer 0 has). -/
def decEl (f bits : Nat) : FV :=
  if isFloat f then decFloat f bits else .fin false (Ex.ofInt (toSigned (fmtBits f) bits))

/-- What a conversion met, by the bits of WIN_CONV (R212), with the counts of R185. -/
structure Cv where
  infR : Bool := false
  nanR : Bool := false
  negR : Bool := false
  blockSat : Bool := false
  ovfSat : Bool := false
  ovfIeee : Bool := false
  flush : Bool := false
  accOvf : Bool := false
  segRange : Bool := false
  lutRange : Bool := false
  repl : Nat := 0
  narrow : Nat := 0
deriving DecidableEq, Repr

def Cv.join (a b : Cv) : Cv :=
  { infR := a.infR || b.infR, nanR := a.nanR || b.nanR, negR := a.negR || b.negR,
    blockSat := a.blockSat || b.blockSat, ovfSat := a.ovfSat || b.ovfSat, ovfIeee := a.ovfIeee || b.ovfIeee,
    flush := a.flush || b.flush, accOvf := a.accOvf || b.accOvf, segRange := a.segRange || b.segRange,
    lutRange := a.lutRange || b.lutRange, repl := a.repl + b.repl, narrow := a.narrow + b.narrow }

def Cv.all (l : List Cv) : Cv := l.foldl Cv.join {}

/-- The bits [9:0] of WIN_CONV that a conversion sets. -/
def Cv.bits (c : Cv) : Nat :=
  [c.infR, c.nanR, c.negR, c.blockSat, c.ovfSat, c.ovfIeee, c.flush, c.accOvf, c.segRange, c.lutRange].foldr
    (fun b acc => 2 * acc + b.toNat) 0

def Cv.narrowed (ieee : Bool) : Cv := if ieee then { ovfIeee := true, narrow := 1 } else { ovfSat := true, narrow := 1 }

/-- A floating result beyond the largest finite value (R101). -/
def overflowBits (f : Nat) (ieee neg : Bool) : Nat :=
  if ¬ ieee then signBit f neg + maxFinBits f
  else if (fInfo f).hasInf then signBit f neg + infBits f else canonNan f

/-- Pack q × 2^g, with |q| at most 2^(p+1), as a floating element. -/
def packFloat (f : Nat) (q : Nat) (g : Int) : Nat :=
  let i := fInfo f
  if q = 0 then 0
  else
    let l : Int := (Nat.log2 q : Int) + g
    let emin : Int := 1 - (i.bias : Int)
    if l < emin then q * 2 ^ (g - (emin - i.p)).toNat
    else
      let sh : Int := (i.p : Int) - Nat.log2 q
      let m := if sh ≥ 0 then q * 2 ^ sh.toNat else q / 2 ^ (-sh).toNat
      (l + i.bias).toNat * 2 ^ i.p + (m - 2 ^ i.p)

/-- Round an exact value to a floating format (R80, R87, R101). `negZero` is the sign of an exact zero. R80 gives the sign of a
result that becomes 0 for FP32 alone; a BF16, FP16 or FP8 result that gradual underflow rounds to 0 keeps the sign of the exact
result too (DESIGN CHOICE, log entry 104). -/
def encFloat (f : Nat) (dither : Option Nat) (ieee negZero : Bool) (x : Ex) : Nat × Cv :=
  if x.isZero then (signBit f negZero, {})
  else
    let i := fInfo f
    let emin : Int := 1 - (i.bias : Int)
    let g0 : Int := x.log2 - i.p
    let g := if f = 0 then g0 else max g0 (emin - i.p)
    let q := roundTo x g dither
    let a : Ex := ⟨(q.natAbs : Int), 1, g⟩
    if f = 0 ∧ Ex.lt a ⟨1, 1, emin⟩ then (signBit f x.isNeg, { flush := true })
    else if Ex.lt (maxFin f) a then (overflowBits f ieee x.isNeg, Cv.narrowed ieee)
    else (signBit f x.isNeg + packFloat f q.natAbs g, {})

/-- Convert an exact value to an integer format (R102). -/
def encInt (f : Nat) (dither : Option Nat) (ieee : Bool) (x : Ex) : Nat × Cv :=
  let w := fmtBits f
  let q := roundTo x 0 dither
  let lo : Int := -(2 ^ (w - 1))
  let hi : Int := 2 ^ (w - 1) - 1
  if lo ≤ q ∧ q ≤ hi then (ofSigned w q, {})
  else (ofSigned w (if ieee then q else clampInt q lo hi), Cv.narrowed ieee)

/-- Convert a value to an element format (R78, R101, R102, R104). -/
def encEl (f : Nat) (dither : Option Nat) (ieee : Bool) (v : FV) : Nat × Cv :=
  if isFloat f then
    match v with
    | .nan => (canonNan f, {})
    | .inf neg =>
      if (fInfo f).hasInf then (signBit f neg + infBits f, {}) else (overflowBits f ieee neg, Cv.narrowed ieee)
    | .fin z x => encFloat f dither ieee z x
  else
    match v with
    | .nan => (0, { nanR := true, repl := 1 })
    | .inf neg =>
      let w := fmtBits f
      (if ieee then 0 else if neg then 2 ^ (w - 1) else 2 ^ (w - 1) - 1, Cv.narrowed ieee)
    | .fin _ x => encInt f dither ieee x

/-- The largest value that a source of a format can hold, for the replacement of R89. -/
def srcMax (f : Nat) : Ex := if isFloat f then maxFin f else Ex.zero

/-- The replacement of non-finite and, when unsigned, negative inputs before block alignment (R89). Minus infinity in an
unsigned conversion sets both INF_REPL and NEG_REPL and counts once (DESIGN CHOICE, log entry 105). -/
def replace89 (src : Nat) (sgn : Bool) (v : FV) : Ex × Cv :=
  match v with
  | .nan => (Ex.zero, { nanR := true, repl := 1 })
  | .inf neg =>
    if neg ∧ ¬ sgn then (Ex.zero, { infR := true, negR := true, repl := 1 })
    else (if neg then (srcMax src).neg else srcMax src, { infR := true, repl := 1 })
  | .fin _ x => if x.isNeg ∧ ¬ sgn then (Ex.zero, { negR := true, repl := 1 }) else (x, {})

/-- Round every element of a block, each with its dither word. -/
def roundAll (xs : List (Ex × Option Nat)) (g : Int) : List Int := xs.map (fun x => roundTo x.1 g x.2)

/-- Block alignment (R90): exponent code, mantissas and whether the block saturated. -/
def alignBlock (w : Nat) (sgn : Bool) (xs : List (Ex × Option Nat)) : Nat × List Int × Bool :=
  let nz := xs.filter (fun x => !x.1.isZero)
  match nz with
  | [] => (0, xs.map (fun _ => 0), false)
  | y :: ys =>
    let lmax := ys.foldl (fun acc x => max acc x.1.log2) y.1.log2
    let lo : Int := if sgn then -(2 ^ (w - 1)) else 0
    let hi : Int := if sgn then 2 ^ (w - 1) - 1 else 2 ^ w - 1
    let g0 := max (lmax - ((if sgn then w - 2 else w - 1 : Nat) : Int)) (-126)
    let m0 := roundAll xs g0
    let g1 := if m0.any (fun m => m > hi) then g0 + 1 else g0
    let m1 := if m0.any (fun m => m > hi) then roundAll xs g1 else m0
    let beyond := g1 > 128
    let g := if beyond then 128 else g1
    let m := if beyond then (roundAll xs 128).map (fun m => clampInt m lo hi) else m1
    if m.all (fun v => v == 0) then (0, m, beyond) else ((g + 127).toNat, m, beyond)

/-- The value of a mantissa under its exponent code (R81, R82). -/
def mValue (w : Nat) (sgn : Bool) (code mant : Nat) : Ex :=
  if code = 0 then Ex.zero
  else ⟨if sgn then toSigned w mant else ((mant % 2 ^ w : Nat) : Int), 1, (code : Int) - 127⟩

/-- Signedness of a block format as a destination or a source: Q8 fixes its own (R85, R86, R184). -/
def blockSigned (f : Nat) (s : Bool) : Bool := if f = 12 then true else if f = 13 then false else s

/-- The value of an element of a block format; a Q8 second moment is the square of its mantissa value
(R86, R184). -/
def decBlock (f : Nat) (s : Bool) (code mant : Nat) : Ex :=
  let x := mValue (fmtBits f) (blockSigned f s) code mant
  if f = 13 then x.mul x else x

/-- Element i of width w of packed data at an address (R83, R160). -/
def elemAt (m : List Host.Cell) (a w i : Nat) : Nat :=
  natBits (leNat (Memory.rdN m (a + w * i / 8) ((w + 7) / 8 + 1))) (w * i % 8) w

/-- Replace element i of width w of packed data at an address; w is 4, 8, 12, 16 or 32. -/
def putElem (m : List Host.Cell) (a w i v : Nat) : List Host.Cell :=
  let base := a + w * i / 8
  let lo := w * i % 8
  let n := (lo + w + 7) / 8
  let old := leNat (Memory.rdN m base n)
  let new := old - natBits old lo w * 2 ^ lo + v % 2 ^ w * 2 ^ lo
  Memory.wrN m base (leBytes n new)

/-- A packed run of elements of width w, low element first, as bytes. -/
def packElems (w : Nat) (vs : List Nat) : List Byte :=
  leBytes ((w * vs.length + 7) / 8) (vs.foldr (fun v acc => acc * 2 ^ w + v % 2 ^ w) 0)

-- Operations on values, with IEEE 754 infinities, signed zeros and invalid operations (R177).

def FV.isNeg : FV → Bool
  | .nan => false
  | .inf n => n
  | .fin z x => if x.isZero then z else x.isNeg

def FV.isZero : FV → Bool
  | .fin _ x => x.isZero
  | _ => false

def FV.neg : FV → FV
  | .nan => .nan
  | .inf n => .inf (!n)
  | .fin z x => .fin (!z) x.neg

def FV.abs : FV → FV
  | .nan => .nan
  | .inf _ => .inf false
  | .fin _ x => .fin false x.abs

/-- Sum; a zero sum of a zero or of opposite values is −0 only when both terms are −0. -/
def FV.add : FV → FV → FV
  | .nan, _ => .nan
  | _, .nan => .nan
  | .inf a, .inf b => if a = b then .inf a else .nan
  | .inf a, _ => .inf a
  | _, .inf b => .inf b
  | .fin z x, .fin y w => .fin (x.isZero && w.isZero && z && y) (x.add w)

def FV.mul (a b : FV) : FV :=
  match a, b with
  | .nan, _ => .nan
  | _, .nan => .nan
  | .inf s, o => if o.isZero then .nan else .inf (s != o.isNeg)
  | o, .inf s => if o.isZero then .nan else .inf (s != o.isNeg)
  | .fin _ x, .fin _ y => .fin (a.isNeg != b.isNeg) (x.mul y)

def FV.scale (a : FV) (k : Int) : FV :=
  match a with
  | .fin z x => .fin z (x.scale k)
  | o => o

/-- Whether a is below b, with −0 below +0; neither is a NaN (R177). -/
def FV.below (a b : FV) : Bool :=
  match a, b with
  | .inf s, .inf t => s && !t
  | .inf s, _ => s
  | _, .inf t => !t
  | .fin _ x, .fin _ y => if x.isZero && y.isZero then a.isNeg && !b.isNeg else x.lt y
  | _, _ => false

def FV.min (a b : FV) : FV :=
  match a, b with
  | .nan, _ => .nan
  | _, .nan => .nan
  | _, _ => if b.below a then b else a

def FV.max (a b : FV) : FV :=
  match a, b with
  | .nan, _ => .nan
  | _, .nan => .nan
  | _, _ => if a.below b then b else a

/-- a < b as numbers, where −0 equals +0 (R178). -/
def FV.ltNum (a b : FV) : Bool := if a.isZero && b.isZero then false else a.below b

def FV.eqNum (a b : FV) : Bool :=
  match a, b with
  | .nan, _ => false
  | _, .nan => false
  | .inf s, .inf t => s == t
  | .fin _ x, .fin _ y => x.eq y
  | _, _ => false

/-- An operation's result before rounding: a value, or the infinity of a division by zero, which follows the
overflow mode (R177). -/
inductive Res where
  | val (v : FV)
  | divZero (neg : Bool)
deriving DecidableEq, Repr

def FV.div (a b : FV) : Res :=
  match a, b with
  | .nan, _ => .val .nan
  | _, .nan => .val .nan
  | .inf _, .inf _ => .val .nan
  | .inf s, o => .val (.inf (s != o.isNeg))
  | o, .inf s => .val (.fin (o.isNeg != s) Ex.zero)
  | .fin _ x, .fin _ y =>
    if y.isZero then (if x.isZero then .val .nan else .divZero (a.isNeg != b.isNeg))
    else .val (.fin (a.isNeg != b.isNeg) (x.div y))

def FV.sqrt (a : FV) : FV :=
  match a with
  | .nan => .nan
  | .inf s => if s then .nan else .inf false
  | .fin z x => if x.isZero then .fin z x else if x.isNeg then .nan else .fin false x.sqrt

/-- 1 ÷ √a. -/
def FV.rsqrt (a : FV) : Res :=
  match a.sqrt with
  | .nan => .val .nan
  | r => FV.div (.fin false (Ex.ofInt 1)) r

/-- The element that an operation's result becomes. -/
def encRes (f : Nat) (dither : Option Nat) (ieee : Bool) : Res → Nat × Cv
  | .val v => encEl f dither ieee v
  | .divZero neg =>
    if isFloat f then (overflowBits f ieee neg, Cv.narrowed ieee) else encEl f dither ieee (.inf neg)

/-- The exact value of an accumulator record (R92). -/
def accValue (value : BitVec 80) (anchor : BitVec 10) : Ex := ⟨value.toInt, 1, anchor.toInt⟩

/-- The magnitude of a value rounded up to FP32, at most the largest finite value and 0 below 2^-126 (R80, R106), as FP32
bits. -/
def amaxBits (x : Ex) : Nat :=
  let a := x.abs
  if a.isZero then 0
  else
    let g := a.log2 - 23
    let q := roundUp a g
    let r : Ex := ⟨q, 1, g⟩
    if Ex.lt r ⟨1, 1, -126⟩ then 0
    else if Ex.lt (maxFin 0) r then maxFinBits 0 else packFloat 0 q.natAbs g

end Sys2Proof.Machine
end

