-- ==== Sys2Proof/Machine/Flags.lean ====
section
/-!
DEFINITION. Flags of the block: the error registers with their first-refusal fields (R654), the conversion
status of Winnow (R185, R212), the sticky bits of W1C registers, and the output pins that are computed from
state (ALERT_N, LED_A, LED_B, PWR_GOOD, THERM_TRIP_N).
-/

namespace Sys2Proof.Machine
open Sys2Proof

/-- Set several bits of a register: the matching bits of an error register. -/
def State.setBits (s : State) (o : Nat) (bits : Nat) : State :=
  if bits = 0 then s else s.setReg o (s.reg o ||| BitVec.ofNat 64 bits)

/-- A mask from bit numbers. -/
def bitMask (l : List Nat) : Nat := (l.eraseDups).foldl (fun acc b => acc + 2 ^ b) 0

/-- The bit numbers whose rule is broken: every matching bit of an error register is set (R654). -/
def broken (l : List (Bool × Nat)) : List Nat := (l.filter (fun p => p.1)).map (fun p => p.2)

/-- Record a refusal in an error register: its bits, and once since cold reset or LOAD_JOB the first-refusal
fields, given as (bit, width, value), and the register that goes with it (R654). -/
def State.refuse (s : State) (o : Nat) (bits : List Nat) (fields : List (Nat × Nat × Nat)) (aux : Nat) (auxv : Nat) : State :=
  let s1 := s.setBits o (bitMask bits)
  if s.firsts.contains o then s1
  else
    let s2 := fields.foldl (fun t f => t.setFld o f.1 f.2.1 f.2.2) s1
    let s3 := if aux = o then s2 else s2.setReg aux (BitVec.ofNat 64 auxv)
    { s3 with firsts := o :: s3.firsts }

/-- Record what a conversion of strip st's Winnow engine met (R185, R212, R213). -/
def State.conv (s : State) (st : Nat) (c : Cv) : State :=
  ((s.setBits (winConv st) c.bits).count (winCntRepl st) c.repl).count (winCntNarrow st) c.narrow

/-- An alert source of R645 is present. -/
def State.alert (s : State) (b : Nat) : Bool := s.bit pwrAlert b

/-- A junction reading: TJ_PEAK keeps the highest since LOAD_JOB (R652). -/
def State.sawJunction (s : State) (celsius : Nat) : State :=
  s.setFld pwrTemp 24 8 (max (s.fld pwrTemp 24 8) (min 255 celsius))

/-- Release step 7 is complete (R581, R582). -/
def State.pastStep7 (s : State) : Bool := 7 ≤ s.fld rstStatus 0 4

/-- ALERT_N is low: some alert source is present (R645). Before release step 7 the alarms of the input voltage, the
junctions, the coolant and a fuse fault alone hold it low; it runs from the supervisory rail (R24, R581). -/
def State.alertLow (s : State) : Bool :=
  s.pins.supervisory && ((s.reg pwrAlert).toNat &&& (if s.pastStep7 then 0x1FF else 0x107)) != 0

/-- PRESENT_N (pin 8) is low: 0 Ω to GND inside the module, so it is low whenever the module is seated, powered or not, and
the module that this model is of is seated (R21). -/
def State.presentLow (_ : State) : Bool := true

/-- The module's release is complete (RST_STATUS.READY). -/
def State.ready (s : State) : Bool := s.bit rstStatus 4

/-- THERM_TRIP_N is low: the thermal-trip latch is set (R30). -/
def State.thermTripLow (s : State) : Bool := s.pins.tripLatch

end Sys2Proof.Machine
end

