-- ==== Sys2Proof/Machine/Crypto.lean ====
section
/-!
DEFINITION. The functions of outside standards that the manual names: CRC-32C (R484), Philox4x32-10 (R88),
SHAKE256 and KMAC256 of FIPS 202 and SP 800-185 (R535, R540, R592). The manual gives CRC-32C whole; the
others are PRESUMED from their public definitions, log entry 12.
-/

namespace Sys2Proof.Machine
open Sys2Proof

/-- One bit of a reflected CRC with the reflected polynomial 0x82F6_3B78. -/
def crcBits : Nat → BitVec 32 → BitVec 32
  | 0, c => c
  | n + 1, c => crcBits n ((c >>> 1) ^^^ (if c.getLsbD 0 then 0x82F63B78 else 0))

/-- CRC-32C: reflected, initial value and final XOR of all ones (R484). -/
def crc32c (bs : List Byte) : BitVec 32 :=
  bs.foldl (fun c b => crcBits 8 (c ^^^ b.setWidth 32)) 0xFFFFFFFF ^^^ 0xFFFFFFFF

/-- One round of Philox4x32 on a counter of four words. -/
def philoxRound (c : Nat × Nat × Nat × Nat) (k0 k1 : Nat) : Nat × Nat × Nat × Nat :=
  let p0 := 0xD2511F53 * c.1
  let p1 := 0xCD9E8D57 * c.2.2.1
  ((p1 / 2 ^ 32) ^^^ c.2.1 ^^^ k0, p1 % 2 ^ 32, (p0 / 2 ^ 32) ^^^ c.2.2.2 ^^^ k1, p0 % 2 ^ 32)

/-- A round, and both key words bumped by their constants. -/
def philoxStep (x : (Nat × Nat × Nat × Nat) × Nat × Nat) : (Nat × Nat × Nat × Nat) × Nat × Nat :=
  (philoxRound x.1 x.2.1 x.2.2, (0x9E3779B9 + x.2.1) % 2 ^ 32, (0xBB67AE85 + x.2.2) % 2 ^ 32)

/-- So many rounds. -/
def philoxRounds : Nat → (Nat × Nat × Nat × Nat) × Nat × Nat → (Nat × Nat × Nat × Nat) × Nat × Nat
  | 0, x => x
  | n + 1, x => philoxRounds n (philoxStep x)

/-- Philox4x32-10: the four output words for a 64-bit key and four counter words. -/
def philox (key c0 c1 c2 c3 : Nat) : List Nat :=
  let r := (philoxRounds 10 ((c0 % 2 ^ 32, c1 % 2 ^ 32, c2 % 2 ^ 32, c3 % 2 ^ 32), key % 2 ^ 32, key / 2 ^ 32 % 2 ^ 32)).1
  [r.1, r.2.1, r.2.2.1, r.2.2.2]

-- Keccak-f[1600]: lane (x, y) is element x + 5y.

/-- The rotation offsets of ρ by lane. -/
def keccakRho : List Nat :=
  [0, 1, 62, 28, 27, 36, 44, 6, 55, 20, 3, 10, 43, 25, 39, 41, 45, 15, 21, 8, 18, 2, 61, 56, 14]

/-- The round constants of ι. -/
def keccakRc : List Word :=
  [0x0000000000000001, 0x0000000000008082, 0x800000000000808A, 0x8000000080008000, 0x000000000000808B,
   0x0000000080000001, 0x8000000080008081, 0x8000000000008009, 0x000000000000008A, 0x0000000000000088,
   0x0000000080008009, 0x000000008000000A] ++
  [0x000000008000808B, 0x800000000000008B, 0x8000000000008089, 0x8000000000008003, 0x8000000000008002,
   0x8000000000000080, 0x000000000000800A, 0x800000008000000A, 0x8000000080008081, 0x8000000000008080,
   0x0000000080000001, 0x8000000080008008]

def keccakRound (a : List Word) (rc : Word) : List Word :=
  let c := (List.range 5).map (fun x => (List.range 5).foldl (fun acc y => acc ^^^ a.getD (x + 5 * y) 0) 0)
  let d := (List.range 5).map (fun x => c.getD ((x + 4) % 5) 0 ^^^ (c.getD ((x + 1) % 5) 0).rotateLeft 1)
  let t := (List.range 25).map (fun i => a.getD i 0 ^^^ d.getD (i % 5) 0)
  -- ρ and π: lane (y, 2x + 3y) takes lane (x, y); the source of lane (X, Y) is x = X + 3Y, y = X
  let b := (List.range 25).map (fun i =>
    let j := (i % 5 + 3 * (i / 5)) % 5 + 5 * (i % 5)
    (t.getD j 0).rotateLeft (keccakRho.getD j 0))
  let e := (List.range 25).map (fun i =>
    b.getD i 0 ^^^ (~~~(b.getD ((i % 5 + 1) % 5 + i / 5 * 5) 0) &&& b.getD ((i % 5 + 2) % 5 + i / 5 * 5) 0))
  e.modify 0 (fun w => w ^^^ rc)

def keccakF (a : List Word) : List Word := keccakRc.foldl keccakRound a

/-- XOR a block of bytes into the state. -/
def keccakXor (a : List Word) (bs : List Byte) : List Word :=
  (List.range 25).map (fun i => a.getD i 0 ^^^ BitVec.ofNat 64 (leNat ((bs.drop (8 * i)).take 8)))

/-- The bytes of the state. -/
def keccakBytes (a : List Word) : List Byte := (a.map (fun w => leBytes 8 w.toNat)).flatten

/-- Absorb whole blocks of the rate of 136 bytes. -/
def keccakAbsorb : Nat → List Word → List Byte → List Word
  | 0, a, _ => a
  | n + 1, a, bs => keccakAbsorb n (keccakF (keccakXor a (bs.take 136))) (bs.drop 136)

/-- Squeeze blocks of output. -/
def keccakSqueeze : Nat → List Word → List Byte
  | 0, _ => []
  | n + 1, a => (keccakBytes a).take 136 ++ keccakSqueeze n (keccakF a)

/-- The sponge of rate 136 with a domain suffix byte. -/
def keccakSponge (suffix : Byte) (m : List Byte) (out : Nat) : List Byte :=
  let pad := 136 - m.length % 136
  let tail := if pad = 1 then [suffix ||| 0x80] else suffix :: (List.replicate (pad - 2) 0 ++ [0x80])
  let blocks := m ++ tail
  (keccakSqueeze (ceilDiv out 136) (keccakAbsorb (blocks.length / 136) (List.replicate 25 0) blocks)).take out

/-- SHAKE256 with an output of n bytes. -/
def shake256 (m : List Byte) (n : Nat) : List Byte := keccakSponge 0x1F m n

/-- Big-endian bytes of a number, without leading zero bytes but at least one. -/
def beMin : Nat → Nat → List Byte
  | 0, _ => []
  | f + 1, v => if v < 256 then [BitVec.ofNat 8 v] else beMin f (v / 256) ++ [BitVec.ofNat 8 v]

def leftEncode (v : Nat) : List Byte := let b := beMin 8 v; BitVec.ofNat 8 b.length :: b
def rightEncode (v : Nat) : List Byte := let b := beMin 8 v; b ++ [BitVec.ofNat 8 b.length]
def encodeString (m : List Byte) : List Byte := leftEncode (8 * m.length) ++ m

/-- Pad to a multiple of the rate. -/
def bytepad (m : List Byte) : List Byte :=
  let x := leftEncode 136 ++ m
  x ++ List.replicate ((136 - x.length % 136) % 136) 0

/-- The bytes of an ASCII text. -/
def ascii (t : String) : List Byte := t.toList.map (fun c => BitVec.ofNat 8 c.toNat)

/-- KMAC256 with customisation text and an output of n bytes. -/
def kmac256 (key m : List Byte) (n : Nat) (custom : List Byte) : List Byte :=
  keccakSponge 0x04
    (bytepad (encodeString (ascii "KMAC") ++ encodeString custom) ++ bytepad (encodeString key) ++ m ++ rightEncode (8 * n)) n

end Sys2Proof.Machine
end

