-- ==== Sys2Proof/Machine/Flits.lean ====
section
/-!
DEFINITION. Flits and messages: the header fields of R483, the CRC of R484 and the cutting of a message into
flits (R486).
-/

namespace Sys2Proof
open Sys2Proof.Machine

/-- A field of w bits at bit lo of a flit header. -/
def Flit.f (x : Flit) (lo w : Nat) : Nat := natBits x.hdr.toNat lo w
def Flit.cls (x : Flit) : Nat := x.f 0 2
def Flit.isIdle (x : Flit) : Bool := x.f 2 1 = 1
def Flit.isFirst (x : Flit) : Bool := x.f 3 1 = 1
def Flit.isLast (x : Flit) : Bool := x.f 4 1 = 1
def Flit.mcast (x : Flit) : Bool := x.f 5 1 = 1
def Flit.down (x : Flit) : Bool := x.f 6 1 = 1
def Flit.nak (x : Flit) : Bool := x.f 7 1 = 1
def Flit.hops (x : Flit) : Nat := x.f 8 4
def Flit.dest (x : Flit) : Nat := x.f 16 16
def Flit.plen (x : Flit) : Nat := x.f 32 8
def Flit.typ (x : Flit) : Nat := x.f 40 8
def Flit.seq (x : Flit) : Nat := x.f 48 16
def Flit.ack (x : Flit) : Nat := x.f 64 16
def Flit.credit (x : Flit) : Nat := x.f 80 16
def Flit.crc (x : Flit) : Nat := x.f 96 32
/-- A little-endian number of n bytes at byte o of the payload. -/
def Flit.pay (x : Flit) (o n : Nat) : Nat := leNat ((x.payload.drop o).take n)

/-- Replace a field of a header. -/
def Flit.set (x : Flit) (lo w v : Nat) : Flit :=
  let m := BitVec.ofNat 128 ((2 ^ w - 1) * 2 ^ lo)
  { x with hdr := (x.hdr &&& ~~~m) ||| BitVec.ofNat 128 (v % 2 ^ w * 2 ^ lo) }

/-- The CRC of a flit: bytes 0 to 11 and then the 240 payload bytes (R484). -/
def Flit.crcOf (x : Flit) : BitVec 32 :=
  crc32c (leBytes 12 x.hdr.toNat ++ x.payload ++ List.replicate (240 - x.payload.length) 0)

/-- A flit of a message, before sequencing. -/
def mkFlit (cls typ dest : Nat) (first last mcast : Bool) (payload : List Byte) : Flit :=
  { hdr := BitVec.ofNat 128 (cls + first.toNat * 8 + last.toNat * 16 + mcast.toNat * 32 + dest % 65536 * 2 ^ 16
      + payload.length * 2 ^ 32 + typ * 2 ^ 40), payload := payload }

/-- Cut a payload into flits of 240 bytes (R486); the fuel bounds the number of flits. -/
def cutFlits (cls typ dest : Nat) (mcast : Bool) : Nat → Bool → List Byte → List Flit
  | 0, _, _ => []
  | n + 1, first, bs =>
    if bs.length ≤ 240 then [mkFlit cls typ dest first true mcast bs]
    else mkFlit cls typ dest first false mcast (bs.take 240) :: cutFlits cls typ dest mcast n false (bs.drop 240)

/-- The flits of a message. -/
def mkMsg (cls typ dest : Nat) (mcast : Bool) (bs : List Byte) : List Flit :=
  cutFlits cls typ dest mcast (bs.length / 240 + 1) true bs

/-- Pad a payload to n bytes. -/
def padTo (n : Nat) (bs : List Byte) : List Byte := bs ++ List.replicate (n - bs.length) 0

end Sys2Proof
end

