-- ==== Sys2Proof/Machine/Ops.lean ====
section
/-!
DEFINITION. The operations that every family shares: membership and master, sending flits, alarms, the fault
unit, memory access through the protection code, stook counters and completion signals, and the taking and
completing of engine commands.
-/

namespace Sys2Proof.Machine
open Sys2Proof

-- Identity, membership and master.

/-- The module's chip ID (R529). -/
def State.chip (s : State) : Nat := s.fld spxId 0 16

/-- A chip is live: a member that no MEMBER has named as failed or leaving (R516). -/
def State.live (s : State) (c : Nat) : Bool := s.mems.members.contains c && !s.mems.dead.contains c

/-- Live members in rising chip order. -/
def State.liveList (s : State) : List Nat := s.mems.members.filter (fun c => !s.mems.dead.contains c)

/-- MASTER_ELIGIBLE of a member: the module's own bit of FUR_CTRL, and what it knows of the others. -/
def State.eligible (s : State) (c : Nat) : Bool :=
  if c = s.chip then s.bit furCtrl 1 else !s.mems.ineligible.contains c

/-- The live, eligible member of lowest chip ID (R49). -/
def State.candidate (s : State) : Option Nat := s.liveList.find? s.eligible

/-- The furrow master: the candidate, but that a fabric without a master gains one at a tick alone (R49). -/
def State.master (s : State) : Option Nat := if s.fur.masterless then none else s.candidate

def State.isMaster (s : State) : Bool := s.master == some s.chip

/-- FUR_CTRL.GUARD in ns; values below 6 µs act as 6 (R45). -/
def State.guardNs (s : State) : Nat := max 6 (s.fld furCtrl 16 8) * 1000

/-- The furrow period in use in ns. -/
def State.periodNs (s : State) : Nat := s.fur.active.toNat * 10

/-- The first tick after count c that lies at least `need` ns after it, with the period in ns and the changes of it that
wait for their ticks. -/
def tickAfter : List (Word × BitVec 20) → Nat → Nat → Nat → Nat
  | [], c, p, need => c + max 1 (ceilDiv need (max 1 p))
  | (t, q) :: r, c, p, need =>
    if t.toNat ≤ c then tickAfter r c (q.toNat * 10) need
    else if need ≤ (t.toNat - c) * p then c + max 1 (ceilDiv need (max 1 p))
    else tickAfter r t.toNat (q.toNat * 10) (need - (t.toNat - c) * p)

/-- The first tick at least GUARD after a moment `ns` after the last tick (R57). -/
def State.targetTick (s : State) (ns : Nat) : Nat :=
  tickAfter s.fur.periodAt s.furCount.toNat s.periodNs (s.guardNs + ns)

-- What a change of master does to the furrow unit (R46, R49, R53).

def State.setSync (s : State) (y : Sync) : State := { s with fur := { s.fur with sync := y } }

/-- What a change of membership or eligibility leaves: a module that is its own master, or whose fabric has no master, is in
FREE (R49, R53); a module that becomes master takes its PERIOD into use, and one that is not has no period change of its own
ahead (R46, R47). -/
def State.settleSync (s : State) : State :=
  match s.master with
  | some m =>
    if m ≠ s.chip then { s with fur := { s.fur with leads := false, periodAt := [] } }
    else if s.fur.leads then s.setSync .free
    else
      { s with fur := { s.fur with sync := .free, leads := true, active := BitVec.ofNat 20 (s.fld furPeriod 0 20), periodAt := [] } }
  | none => { s with fur := { s.fur with sync := .free, masterless := true, leads := false, periodAt := [] } }

/-- Put a period change behind those of the same or an earlier tick. -/
def insertPeriod (x : Word × BitVec 20) : List (Word × BitVec 20) → List (Word × BitVec 20)
  | [] => [x]
  | y :: r => if x.1.toNat < y.1.toNat then x :: y :: r else y :: insertPeriod x r

-- Free values.

/-- The next free value: the counter of draws advances. -/
def State.draw (s : State) : State := { s with draws := s.draws + 1 }

/-- A counter of time goes on by an amount that the model does not follow (log entry 8). -/
def State.clk (s : State) (o : Nat) : State := (s.count o (Config.freeReading o s.draws).toNat).draw

-- Accessors of the repeated units.

def State.eng (s : State) (i : Nat) : EngSt := Tab.get s.engines {} i
def State.setEng (s : State) (i : Nat) (e : EngSt) : State := { s with engines := Tab.put s.engines i e }
def State.port (s : State) (p : Nat) : PortSt := Tab.get s.ports {} p
def State.setPort (s : State) (p : Nat) (x : PortSt) : State := { s with ports := Tab.put s.ports p x }
def State.thread (s : State) (st t : Nat) : Thr := Tab.get s.thr {} (st * 4 + t)
def State.setThread (s : State) (st t : Nat) (x : Thr) : State := { s with thr := Tab.put s.thr (st * 4 + t) x }
def State.winnow (s : State) (st : Nat) : WinSt := Tab.get s.win {} st
def State.setWinnow (s : State) (st : Nat) (x : WinSt) : State := { s with win := Tab.put s.win st x }
def State.tiller (s : State) (st a : Nat) : TilArr := Tab.get s.til {} (st * 10 + a)
def State.setTiller (s : State) (st a : Nat) (x : TilArr) : State := { s with til := Tab.put s.til (st * 10 + a) x }
def State.gport (s : State) (n : Nat) : GlnPort := Tab.get s.gln.ports {} n
def State.setGport (s : State) (n : Nat) (x : GlnPort) : State :=
  { s with gln := { s.gln with ports := Tab.put s.gln.ports n x } }
def State.sheaf (s : State) (e : Nat) : ShfEng := Tab.get s.shf.engs {} e
def State.setSheaf (s : State) (e : Nat) (x : ShfEng) : State :=
  { s with shf := { s.shf with engs := Tab.put s.shf.engs e x } }
def State.chan (s : State) (c : Nat) : HrwCh := Tab.get s.hrw {} c
def State.setChan (s : State) (c : Nat) (x : HrwCh) : State := { s with hrw := Tab.put s.hrw c x }
def State.session (s : State) (i : Nat) : Sess := Tab.get s.sess {} i
def State.setSession (s : State) (i : Nat) (x : Sess) : State := { s with sess := Tab.put s.sess i x }
def State.sampler (s : State) (d : Nat) : SmpSt := Tab.get s.drl.smp {} d
def State.setSampler (s : State) (d : Nat) (x : SmpSt) : State :=
  { s with drl := { s.drl with smp := Tab.put s.drl.smp d x } }

/-- Engine indices of R59. -/
def engTil (st : Nat) : Nat := 4 * st
def engWin (st : Nat) : Nat := 4 * st + 1
def engGln (st : Nat) : Nat := 4 * st + 2
def engHrw (st : Nat) : Nat := 4 * st + 3
def engDrl (d : Nat) : Nat := 0x100 + d
def engShf (e : Nat) : Nat := 0x110 + e
def engRed : Nat := 0x140

/-- The block of a per-block reset accepts nothing new from outside until its reset ends (R587). -/
def State.closed (s : State) (typ index : Nat) : Bool :=
  (match s.block with
   | none => false
   | some b => b.type.toNat == typ && b.index.toNat == index) ||
  (typ == 4 && s.chResets.any (fun r => r.1.val == index))

/-- An engine lies in such a block. -/
def State.engClosed (s : State) (e : Nat) : Bool :=
  if e < 0x100 then s.closed 1 (e / 4) else if e < 0x110 then s.closed 5 0
  else if e < 0x140 then s.closed 2 ((e - 0x110) / 4) else s.closed 6 0

/-- Credits that a port holds in a class (R493). -/
def PortSt.cred (p : PortSt) (c : Nat) : Nat :=
  if c = 0 then p.credA.toNat else if c = 1 then p.credB.toNat else if c = 2 then p.credC.toNat else p.credD.toNat

def PortSt.addCred (p : PortSt) (c : Nat) (d : Int) : PortSt :=
  let v := BitVec.ofInt 16 (p.cred c + d)
  if c = 0 then { p with credA := v } else if c = 1 then { p with credB := v }
  else if c = 2 then { p with credC := v } else { p with credD := v }

/-- Note a buffer of a class that became free: its credit rides on the next sequenced flit (R493). -/
def PortSt.owe (p : PortSt) (c : Nat) : PortSt :=
  if c = 0 then { p with owedA := p.owedA + 1 } else if c = 1 then { p with owedB := p.owedB + 1 }
  else if c = 2 then { p with owedC := p.owedC + 1 } else { p with owedD := p.owedD + 1 }

/-- The CREDIT field that the next sequenced flit carries, and the port with those credits returned. -/
def PortSt.takeCredit (p : PortSt) : Nat × PortSt :=
  let a := min 15 p.owedA
  let b := min 15 p.owedB
  let c := min 15 p.owedC
  let d := min 15 p.owedD
  (a + 16 * b + 256 * c + 4096 * d,
   { p with owedA := p.owedA - a, owedB := p.owedB - b, owedC := p.owedC - c, owedD := p.owedD - d })

def PortSt.owes (p : PortSt) : Bool := p.owedA + p.owedB + p.owedC + p.owedD > 0

/-- Send one flit with the next sequence number: into the replay buffer (R488, R489, R490). A NAK that is
owed rides on it. -/
def PortSt.transmit (p : PortSt) (f : Flit) : PortSt :=
  let (cr, q) := p.takeCredit
  let seq := q.txSeq + 1
  let g := (((f.set 48 16 seq.toNat).set 64 16 q.rxSeq.toNat).set 80 16 cr).set 7 1 q.nakOwed.toNat
  let h := g.set 96 32 g.crcOf.toNat
  { q with txSeq := seq, nakOwed := false, replay := q.replay ++ [⟨h, 0⟩] }

/-- The first waiting flit of a class and the others. -/
def takeClass (c : Nat) : List (Nat × Flit) → Option ((Nat × Flit) × List (Nat × Flit))
  | [] => none
  | x :: r => if x.2.cls = c then some (x, r) else (takeClass c r).map (fun y => (y.1, x :: y.2))

/-- A credit that a flit may use: of the 64 Class A buffers, 16 take MEMBER and RECOVERY alone (R492, R493, log entry 112). -/
def PortSt.mayUse (p : PortSt) (f : Flit) : Bool :=
  decide ((if f.cls = 0 ∧ f.typ ≠ 6 ∧ f.typ ≠ 7 then 16 else 0) < p.cred f.cls)

/-- The first flit of a class if it may leave, and the others. -/
def PortSt.ready (p : PortSt) (c : Nat) : Option ((Nat × Flit) × List (Nat × Flit)) :=
  match takeClass c p.waiting with
  | none => none
  | some x => if p.mayUse x.1.2 then some x else none

/-- The order of the classes at a slot: A, D, B, C, but B or C before D where 16 slots would pass without it (R494). -/
def PortSt.order (p : PortSt) : List Nat :=
  [0] ++ (if p.missedC ≥ 15 then [2] else []) ++ (if p.missedB ≥ 14 then [1] else []) ++ [3, 1, 2]

/-- A slot of class c passes: B or C missed it if it was ready. -/
def PortSt.slot (p : PortSt) (c : Nat) : PortSt :=
  { p with missedB := if c ≠ 1 ∧ (p.ready 1).isSome then p.missedB + 1 else 0,
           missedC := if c ≠ 2 ∧ (p.ready 2).isSome then p.missedC + 1 else 0 }

/-- The idle flit that returns credit when no data flit leaves (R485, R493). -/
def idleFlit : Flit := { hdr := 4, payload := [] }

/-- A flit as it leaves: marked DOWN on a DOWN port (R500), with one hop added by this router (R501). -/
def leaving (dir : Bool) (f : Flit) : Flit := (if dir then f.set 6 1 1 else f).set 8 4 (f.hops + 1)

/-- Send waiting flits while credits and the window of 4,096 allow (R488, R493, R494). The list is what left, with its inputs. -/
def PortSt.pump (dir : Bool) : Nat → PortSt → List (Nat × Flit) → PortSt × List (Nat × Flit)
  | 0, p, l => (p, l)
  | k + 1, p, l =>
    if p.st ≠ .up ∨ p.replay.length ≥ 4096 then (p, l)
    else
      match p.order.findSome? (fun c => (p.ready c).map (fun x => (c, x))) with
      | none => (p, l)
      | some (c, x, rest) =>
        PortSt.pump dir k (({ p.slot c with waiting := rest }.addCred c (-1)).transmit (leaving dir x.2)) (l ++ [x])

/-- The slots that no data flit takes: credits that are owed leave on a sequenced idle, and a plain idle carries the ACK of the
last flit accepted and a NAK that is owed (R482, R485, R489, R493). -/
def PortSt.giveCredit (p : PortSt) : PortSt :=
  if p.st ≠ .up then p
  else if p.owes ∧ p.replay.length < 4096 then p.transmit idleFlit
  else
    let f := (idleFlit.set 64 16 p.rxSeq.toNat).set 7 1 p.nakOwed.toNat
    { p with idleSent := some (f.set 96 32 f.crcOf.toNat), nakOwed := false }

/-- A flit of a class leaves the input buffer of a port, which returns its credit (R493). -/
def State.freeBuf (s : State) (p c : Nat) : State := s.setPort p ((s.port p).owe c).giveCredit

/-- Flits leave the buffers of their input ports. -/
def State.freeBufs (s : State) (l : List (Nat × Flit)) : State :=
  l.foldl (fun t x => if x.1 < 32 then t.freeBuf x.1 x.2.cls else t) s

/-- A port sends what it may send now. -/
def State.pumpPort (s : State) (p : Nat) : State :=
  let (q, l) := (s.port p).pump (s.bit (spxPortCtrl p) 1) (s.port p).waiting.length []
  ((s.setPort p q.giveCredit).count (spxCnt p 0) l.length).freeBufs l

/-- The first held flit that an output may take: no message of another input occupies its class, and no
earlier held flit comes from the same input in that class. A port that accepts nothing new takes the flits of a message that
occupies it alone (R587). -/
def pickHeld (shut : Bool) (cur : Tab Nat) : List (Nat × Flit) → List (Nat × Flit) → Option ((Nat × Flit) × List (Nat × Flit))
  | _, [] => none
  | pre, x :: r =>
    let free := match Tab.look cur x.2.cls with
      | none => !shut
      | some i => i == x.1
    if free && !pre.any (fun y => y.1 == x.1 && y.2.cls == x.2.cls) then some (x, pre ++ r)
    else pickHeld shut cur (pre ++ [x]) r

/-- Queue held flits on an output as long as one may go: the flits of one message stay together in their class
(R486). -/
def PortSt.settle (shut : Bool) : Nat → PortSt → PortSt
  | 0, p => p
  | k + 1, p =>
    match pickHeld shut p.cur [] p.held with
    | none => p
    | some ((i, f), rest) =>
      PortSt.settle shut k
        { p with held := rest, waiting := p.waiting ++ [(i, f)],
                 cur := if f.isLast then Tab.drop p.cur f.cls else Tab.put p.cur f.cls i }

/-- A port in a block that accepts nothing new (R587). -/
def State.portShut (s : State) (p : Nat) : Bool := s.closed 3 p || s.closed 6 0

/-- An output takes what it holds, and sends what may leave. -/
def State.settlePort (s : State) (p : Nat) : State :=
  let q := s.port p
  (s.setPort p (q.settle (s.portShut p) q.held.length)).pumpPort p

/-- Hand flits from an input to an output. A message for a FENCED port is discarded and counted (R522). -/
def State.portSend (s : State) (inp p : Nat) (fs : List Flit) : State :=
  let gs := fs.map (fun f => (inp, f))
  let q := s.port p
  if q.st = .fenced then (s.count (spxCnt p 6) (fs.filter (fun f => f.isFirst)).length).freeBufs gs
  else (s.setPort p { q with held := q.held ++ gs }).settlePort p

/-- The ports of a mask, lowest first. -/
def maskPorts (m : Nat) : List Nat := (List.range 32).filter (fun p => m / 2 ^ p % 2 = 1)

/-- The output port for a message: the lowest port of the route mask, or for Class D among the four lowest
the one with the most credits when SPX_CTRL.ADAPT_D is 1; UP ports are removed for a DOWN flit (R498 to
R500). A FENCED port gives way to the next port of the mask (R522). -/
def State.routeOut (s : State) (cls dest : Nat) (down : Bool) : Option Nat :=
  let e := (s.reg (spxRoute dest)).toNat
  let all := (maskPorts e).filter (fun p => !down || s.bit (spxPortCtrl p) 1)
  let open_ := all.filter (fun p => (s.port p).st != .fenced)
  let ps := if open_.isEmpty then all else open_
  if e / 2 ^ 33 % 2 = 0 then none
  else if cls = 3 ∧ s.bit spxCtrl 0 then
    match ps.take 4 with
    | [] => none
    | q :: r => some (r.foldl (fun b p => if (s.port p).cred 3 > (s.port b).cred 3 then p else b) q)
  else ps.head?

/-- Send a message of this module to another chip. The flag says that no valid route was found: the message is
discarded and SPX_PORT_ERR.ROUTE is set (R498). -/
def State.sendTry (s : State) (fs : List Flit) : State × Bool :=
  match fs with
  | [] => (s, true)
  | f :: _ =>
    match s.routeOut f.cls f.dest false with
    | none => (s.setBit (spxPortErr 0) 6, false)
    | some p => (s.portSend 32 p fs, true)

-- Alarms (R645, R646).

/-- The 24 bytes of an alarm record. -/
def alarmBytes (chip kind : Nat) (raised : Bool) (value tick sensor : Nat) : List Byte :=
  leBytes 2 chip ++ leBytes 1 kind ++ leBytes 1 raised.toNat ++ leBytes 4 value ++ leBytes 8 tick ++ leBytes 2 sensor ++
    List.replicate 6 0

/-- Add an alarm record to a subscription: up to five, and a count of those that do not fit (R651). -/
def Sess.keepAlarm (bs : List Byte) (x : Sess) : Sess :=
  match x.sub with
  | none => x
  | some b =>
    { x with sub := some (if b.alarms.length < 5 then { b with alarms := b.alarms ++ [bs] }
                          else { b with lost := min 65535 (b.lost + 1) }) }

/-- Keep an alarm record for the next report of every subscription (R651). -/
def State.keepAlarm (s : State) (bs : List Byte) : State :=
  { s with sess := s.sess.map (fun (p : Nat × Sess) => (p.1, p.2.keepAlarm bs)) }

/-- The links are dark: no message can be sent (R639). -/
def State.linksDark (s : State) : Bool := s.pow.st == 2 || s.pow.st == 3

/-- A change of an alert source: PWR_ALERT, and one ALARM to the furrow master (R645, R646). The flag says that the ALARM was
not discarded for want of a route. -/
def State.alertTry (s : State) (b : Nat) (raised : Bool) (value sensor : Nat) : State × Bool :=
  if s.alert b = raised then (s, true)
  else
    let s1 := if raised then s.setBit pwrAlert b else s.clrBit pwrAlert b
    let bs := alarmBytes s.chip b raised value s.furCount.toNat sensor
    let s2 := s1.keepAlarm bs
    match s2.master with
    | none => (s2, true)
    | some m =>
      if m = s.chip ∨ s.linksDark then (s2, true)
      else
        let (t, ok) := s2.sendTry (mkMsg 0 0x08 m false (padTo 32 bs))
        (t.count pwrCntAlarm 1, ok)

-- The fault unit (R604 to R606).

/-- Append an entry to the fault log (R604, R631). -/
def State.logFault (s : State) (cls src err addr tag : Nat) : State :=
  let h := s.fld sysFltStatus 32 10
  let s1 := s.setReg (sysFltLog h 0) s.furCount
  let s2 := s1.setReg (sysFltLog h 1) (BitVec.ofNat 64 (cls % 256 + src % 65536 * 2 ^ 16 + err % 2 ^ 32 * 2 ^ 32))
  let s3 := s2.setReg (sysFltLog h 2) (BitVec.ofNat 64 addr)
  let s4 := s3.setReg (sysFltLog h 3) (BitVec.ofNat 64 (tag % 2 ^ 32 + s.rcv.rseq.toNat * 2 ^ 32))
  s4.setFld sysFltStatus 32 10 (h + 1)

/-- The 32-byte RECOVERY payload (R616). -/
def recBytes (kind cls chip rseq tick step sender state code : Nat) : List Byte :=
  leBytes 1 kind ++ leBytes 1 cls ++ leBytes 2 chip ++ leBytes 4 rseq ++ leBytes 8 tick ++ leBytes 4 step ++
    leBytes 2 sender ++ leBytes 1 state ++ leBytes 1 0 ++ leBytes 8 code

/-- A job fault as the fault unit records it (R604, R605). -/
def State.noteFault (s : State) (src err addr tag : Nat) : State := (s.logFault 1 src err addr tag).setBit sysFltStatus 0

/-- A message that the fault unit itself sends may find no route: that is one more job fault (R498, R605), which the alert and
the FAULT that are under way cover. -/
def State.noteRoute (p : State × Bool) : State :=
  if p.2 then p.1 else p.1.noteFault 0 ((p.1.reg (spxPortErr 0)).toNat % 2 ^ 32) 0 0

/-- A job fault (R605, R606): logged, SYS_FLT_STATUS.JOB set, ALERT_N asserted; with a job under way, one
RECOVERY FAULT per recovery sequence number goes to the furrow master, unless the fault is covered by a
pending recovery. A module that is its own master notes that it leads. -/
def State.jobFault (s : State) (src err addr tag : Nat) : State :=
  let s1 := State.noteRoute ((s.noteFault src err addr tag).alertTry 7 true 0 0)
  let idle := s.job.st == .none || s.job.st == .loading || s.job.st == .loaded
  if idle || s.rcv.covered || s.rcv.sentFor == some s.rcv.rseq then s1
  else
    match s1.master with
    | none => s1
    | some m =>
      let s2 := { s1 with rcv := { s1.rcv with sentFor := some s1.rcv.rseq } }
      if m = s.chip then { s2 with rcv := { s2.rcv with pendingLead := true } }
      else State.noteRoute (s2.sendTry (mkMsg 0 0x07 m false (recBytes 0 1 s.chip s.rcv.rseq.toNat 0 0 s.chip 0 0)))

/-- A change of an alert source; an ALARM without a route is a job fault (R498, R645, R646). -/
def State.setAlert (s : State) (b : Nat) (raised : Bool) (value sensor : Nat) : State :=
  let (t, ok) := s.alertTry b raised value sensor
  if ok then t else t.jobFault 0 ((t.reg (spxPortErr 0)).toNat % 2 ^ 32) 0 0

/-- Send a message; without a valid route a job fault follows (R498, R500). -/
def State.send (s : State) (fs : List Flit) : State :=
  let (t, ok) := s.sendTry fs
  if ok then t else t.jobFault 0 ((t.reg (spxPortErr 0)).toNat % 2 ^ 32) 0 0

/-- The requester code of Headland core n (R443). -/
def srcHdl (st : Nat) : Nat := 0x180 + st

/-- Report an uncorrectable error to the fault unit (R422, R442 to R445). -/
def State.reportUe (s : State) (src : Nat) (kind : LineKind) (addr : Nat) (syn : List Byte) (rmw : Bool) : State :=
  let b := match kind with
    | .dram => 0
    | .check => 1
    | .plot => 2
    | .base => 3
    | .other => 4
  let s1 := if s.fld memUe 0 7 = 0 then
      (s.setReg memUeAddr (BitVec.ofNat 64 (addr % 2 ^ 48 + src % 512 * 2 ^ 48))).setReg memUeSyn (BitVec.ofNat 64 (leNat syn))
    else s
  let s2 := s1.setBits memUe (2 ^ b + (if src = 0x1FF then 32 else 0) + (if rmw then 64 else 0))
  (s2.count memCntUe 1).jobFault src ((s2.reg memUe).toNat % 2 ^ 32) addr 0

/-- Count a corrected read of a line (R417, R430, R445, R446). -/
def State.countCe (s : State) (line : Nat) : State :=
  if inDram line then
    let o := memCeCh (dramChannel (ilvBytes (s.fld memCtrl 2 2)) line).1
    let hour := min 65535 (s.fld o 32 16 + 1)
    let s1 := (s.setFld o 0 32 (min (2 ^ 32 - 1) (s.fld o 0 32 + 1))).setFld o 32 16 hour
    if hour ≥ s.fld memCeThresh 0 32 then
      let s2 := (s1.setBit o 48).setBit memStatus 3
      if s.bit memCtrl 4 then s2.setAlert 4 true 0 0 else s2
    else s1
  else s.count memCntCeSram 1

/-- Queue a corrected line for its conditional write-back (R427, R428). -/
def State.queueBack (s : State) (line : Nat) (left : List (Nat × Byte)) : State := { s with wbq := s.wbq ++ [⟨line, left, false⟩] }

-- The check-line caches (R419).

/-- The hedge die of a check line, by the address that names it (R411, R418). -/
def clcDie (name : Nat) : Nat := (name - 0x016800000000) / 0x10000000 / 32

/-- Which line of a full die's cache a new one replaces, and whether one leaves before the cache is full, the manual leaves
open: a free choice (DESIGN CHOICE, log entry 107). A dirty line that leaves is written back. -/
def Clc.evict (c : Clc) (name : Nat) : Tab Bool :=
  let ks := (c.lines.filter (fun p => clcDie p.1 == clcDie name)).map (fun p => p.1)
  if ks.isEmpty then c.lines
  else
    let r := (Config.freeReading name (c.hits + c.misses)).toNat
    match ks[r % (if ks.length < 32768 then ks.length + 1 else ks.length)]? with
    | none => c.lines
    | some k => Tab.drop c.lines k

/-- n accesses to data lines of one check line: a miss fetches it, a write marks it dirty. -/
def Clc.touch (c : Clc) (name n : Nat) (dirty : Bool) : Clc :=
  match Tab.look c.lines name with
  | some d =>
    { c with lines := if dirty && !d then Tab.put c.lines name true else c.lines, hits := min (2 ^ 48 - 1) (c.hits + n) }
  | none =>
    { lines := Tab.put (c.evict name) name dirty, hits := min (2 ^ 48 - 1) (c.hits + (n - 1)),
      misses := min (2 ^ 48 - 1) (c.misses + 1) }

/-- The accesses to the data lines of [a, a + n), by runs of four lines, which share a check line whatever the interleave. -/
def Clc.range (gr : Nat) (dirty : Bool) (a n : Nat) (c : Clc) : Clc :=
  if n = 0 then c
  else
    (List.range ((a + n - 1) / 256 - a / 256 + 1)).foldl (fun x i =>
      let lo := max (a / 64) (4 * (a / 256 + i))
      let hi := min ((a + n - 1) / 64) (4 * (a / 256 + i) + 3)
      x.touch (checkLineName gr (64 * lo)) (hi - lo + 1) dirty) c

/-- An access to [a, a + n) goes through the check-line caches, where it lies in DRAM. -/
def State.clcAccess (s : State) (dirty : Bool) (a n : Nat) : State :=
  if inDram a then { s with clc := Clc.range (ilvBytes (s.fld memCtrl 2 2)) dirty a n s.clc } else s

/-- A die's check-line cache writes its dirty lines back (R419). -/
def State.clcFlushDie (s : State) (die : Nat) : State :=
  { s with clc := { s.clc with lines := s.clc.lines.map (fun p => if clcDie p.1 = die then (p.1, false) else p) } }

/-- Every check-line cache writes its dirty lines back (R419). -/
def State.clcFlush (s : State) : State := { s with clc := { s.clc with lines := s.clc.lines.map (fun p => (p.1, false)) } }

-- Reads and writes through the protection code (R417 to R423).

/-- What decoding a line gives. A line whose check bytes are lost gives an uncorrectable error with syndromes that the manual
does not state: a free value. -/
def State.decode (s : State) (line : Nat) : Decoded :=
  if s.lost.contains line then .bad (leBytes 4 (Config.freeReading memUeSyn line).toNat) else decodeLine (Tab.get s.flips [] line)

/-- Read the lines of a range through the protection code; the lines are those that hold errors. -/
def readLines (src a : Nat) : List Nat → State → List Byte → State × Option (List Byte)
  | [], s, bs => (s, some bs)
  | l :: ls, s, bs =>
    match s.decode l with
    | .clean left => readLines src a ls s (applyLeft left l a bs)
    | .fixed left =>
      let s1 := s.countCe l
      readLines src a ls (if inDram l then s1.queueBack l left else s1) (applyLeft left l a bs)
    | .bad syn => (s.reportUe src (lineKind l) l syn false, none)

/-- The lines of a range that hold errors. -/
def State.errLines (s : State) (a n : Nat) : List Nat :=
  if s.flips.isEmpty && s.lost.isEmpty then []
  else (linesOf a n).filter (fun l => (Tab.look s.flips l).isSome || s.lost.contains l)

/-- Read n bytes for a requester (R417, R419, R422): no bytes on an uncorrectable error, which is reported. -/
def State.read (s : State) (src a n : Nat) : State × Option (List Byte) :=
  readLines src a (s.errLines a n) (s.clcAccess false a n) (s.peeks a n)

/-- The bytes that a read would return: as found where an error is uncorrectable. -/
def State.views (s : State) (a n : Nat) : List Byte :=
  (s.errLines a n).foldl (fun bs l =>
    match s.decode l with
    | .clean left => applyLeft left l a bs
    | .fixed left => applyLeft left l a bs
    | .bad _ => bs) (s.peeks a n)

/-- A little-endian number of n bytes as a read would return it. -/
def State.viewNat (s : State) (a n : Nat) : Nat := leNat (s.views a n)

/-- The first line of a range whose error is uncorrectable. -/
def State.failLine (s : State) (a n : Nat) : Option Nat :=
  (s.errLines a n).find? (fun l =>
    match s.decode l with
    | .bad _ => true
    | _ => false)

/-- The address at which a read of a range fails: its first byte in a line whose error is uncorrectable. -/
def State.failAddr (s : State) (a n : Nat) : Nat := max a ((s.failLine a n).getD a)

/-- Reads of several ranges whose bytes the model takes by `views`: the errors are counted and reported as for any read; the
flag says that none is uncorrectable. -/
def touchAll (src : Nat) : List (Nat × Nat) → State → State × Bool
  | [], s => (s, true)
  | (a, n) :: r, s =>
    match s.read src a n with
    | (t, none) => (t, false)
    | (t, some _) => touchAll src r t

def State.touch (s : State) (src : Nat) (l : List (Nat × Nat)) : State × Bool := touchAll src l s

/-- Prepare the lines with errors for a write of [a, a + n): a whole-line write replaces the code word; a
partial write decodes first, and an uncorrectable line refuses it (R420, R423). The answer lists the lines
that are not written. -/
def writeLines (src a n : Nat) : List Nat → State → List Nat → State × List Nat
  | [], s, bad => (s, bad)
  | l :: ls, s, bad =>
    let drop (t : State) : State := { t with flips := Tab.drop t.flips l, lost := t.lost.filter (fun x => x != l) }
    if a ≤ l ∧ l + 64 ≤ a + n then writeLines src a n ls (drop s) bad
    else
      match s.decode l with
      | .clean left => writeLines src a n ls (drop (s.poke l (applyLeft left l l (s.peeks l 64)))) bad
      | .fixed left => writeLines src a n ls (drop ((s.countCe l).poke l (applyLeft left l l (s.peeks l 64)))) bad
      | .bad syn => writeLines src a n ls (s.reportUe src (lineKind l) l syn true) (l :: bad)

/-- Write the bytes that fall outside lines that refuse them; in a tile-register window, only bytes of the
data and exponent parts are kept (R405). -/
def storeBytes (bad : List Nat) : List Host.Cell → Nat → List Byte → List Host.Cell
  | m, _, [] => m
  | m, a, b :: r =>
    let keep := !bad.contains (lineOf a) && !(inTiles a && (a - winBaseAddr) % 0x100000 ≥ 0x42000)
    storeBytes bad (if keep then Memory.wr m a b else m) (a + 1) r

/-- Write bytes for a requester (R419, R420, R421, R423). -/
def State.write (s : State) (src a : Nat) (bs : List Byte) : State :=
  let (t, bad) := writeLines src a bs.length (s.errLines a bs.length) (s.clcAccess true a bs.length) []
  let u := t.staleBacks a bs.length
  { u with mem := storeBytes bad u.mem a bs }

/-- Write a little-endian number. -/
def State.writeNat (s : State) (src a n v : Nat) : State := s.write src a (leBytes n v)

/-- The check lines of a cleared range that are cached are dirty. By what accesses the T48 clears a range, and so what they do
to the caches beside, the manual leaves open (DESIGN CHOICE, log entry 107). -/
def State.clcClear (s : State) (a n : Nat) : State :=
  if inDram a then
    let gr := ilvBytes (s.fld memCtrl 2 2)
    let names := (s.clc.lines.map (fun p => p.1)).filter (fun c => (linesUnder gr c).any (fun l => decide (a < l + 64) && decide (l < a + n)))
    { s with clc := { s.clc with lines := s.clc.lines.map (fun p => (p.1, p.2 || names.contains p.1)) } }
  else s

/-- Zero a range, as a write of its bytes does; a range of whole lines replaces their code words (R420). -/
def State.wipe (s : State) (src a n : Nat) : State :=
  let (t, bad) := writeLines src a n (s.errLines a n) (s.clcClear a n) []
  let u := t.staleBacks a n
  { u with mem := u.mem.filter (fun c => c.1 < a || a + n ≤ c.1 || bad.contains (lineOf c.1)) }

-- Stook counters (R227).

def ctrKey (st c : Nat) : Nat := st * 48 + c
def State.ctr (s : State) (st c : Nat) : BitVec 24 := Tab.get s.stk 0 (ctrKey st c)
def State.setCtr (s : State) (st c : Nat) (v : BitVec 24) : State := { s with stk := Tab.put s.stk (ctrKey st c) v }

/-- A waiter passes: a thread returns to RUN, a gate opens. -/
def State.passWaiter (s : State) (st : Nat) : Who → State
  | .thread t =>
    let x := s.thread st t
    if x.st = .wait then (s.clk (hdlCntSpin st)).setThread st t { x with st := .run } else s
  | .engine i => s.setEng i { s.eng i with gate := .passed }
  | .channel ch =>
    if (s.chan ch).gate = .waiting then
      (s.clk (hrwCnt (ch.val / 4) (ch.val % 4) 3)).setChan ch { s.chan ch with gate := .passed }
    else s

/-- Test the waiters of a counter, oldest first: those that pass, those that stay, and the value left. -/
def testWaiters : List Waiter → Nat → List Who × List Waiter × Nat
  | [], v => ([], [], v)
  | w :: ws, v =>
    if w.target ≤ v then
      let (p, k, r) := testWaiters ws (v - w.target)
      (w.who :: p, k, r)
    else
      let (p, k, r) := testWaiters ws v
      (p, w :: k, r)

/-- One update of a counter with an amount added (R227): overflow, waiters, then the node, which fires once
for each time its target is reached. A node with TARGET 0, which the pseudocode satisfies in every hclk, fires once per update
of its counter (DESIGN CHOICE, log entry 115). -/
def State.updateCtr (s : State) (st c add : Nat) : State :=
  let sum := (s.ctr st c).toNat + add
  let beyond := sum > 2 ^ 24 - 1
  let v0 := if beyond then 2 ^ 24 - 1 else sum
  let s1 := if beyond then
      let t := if s.bit (stkFault st) 0 then s else s.setFld (stkFault st) 16 6 c
      let u := t.setBit (stkFault st) 0
      u.jobFault (srcHdl st) ((u.reg (stkFault st)).toNat % 2 ^ 32) 0 0
    else s
  let (pass, keep, v1) := testWaiters (Tab.get s1.waiters [] (ctrKey st c)) v0
  let s2 := pass.foldl (fun t w => t.passWaiter st w) { s1 with waiters := Tab.put s1.waiters (ctrKey st c) keep }
  let node := s2.reg (stkNode st c)
  let target := natBits node.toNat 0 24
  if natBits node.toNat 24 2 ≠ 0 ∧ target ≤ v1 then
    let k := if target = 0 then 1 else v1 / target
    let s3 := { s2 with fires := s2.fires ++ List.replicate k (st, c) }
    s3.setCtr st c (BitVec.ofNat 24 (v1 - k * target))
  else s2.setCtr st c (BitVec.ofNat 24 v1)

/-- The completion signal of a command: SIG_ADD to counter SIG_CTR of a core; counter 63 sends none (R235). -/
def State.signalCtr (s : State) (core c add : Nat) : State :=
  if c < 48 then s.updateCtr core c add else s

/-- The entries of waiters that are not threads come first: gates and joins count as the oldest (R236, R302). -/
def insertGate (w : Waiter) : List Waiter → List Waiter
  | [] => [w]
  | x :: r =>
    match x.who with
    | .thread _ => w :: x :: r
    | _ => x :: insertGate w r

/-- Begin a wait of a thread, tested at once after the amounts already there (R227). -/
def State.beginWait (s : State) (st c : Nat) (w : Waiter) : State :=
  let k := ctrKey st c
  let ws := Tab.get s.waiters [] k
  let ws' := match w.who with
    | .thread _ => ws ++ [w]
    | _ => insertGate w ws
  ({ s with waiters := Tab.put s.waiters k ws' }).updateCtr st c 0

/-- Withdraw a waiter from every counter of a core (R217). -/
def State.withdraw (s : State) (st : Nat) (who : Who) : State :=
  { s with waiters := s.waiters.map (fun p => if p.1 / 48 = st then (p.1, p.2.filter (fun w => w.who != who)) else p) }

-- Engine commands (R139, R234, R235).

/-- A field of w bits at byte o of a command. -/
def cmdBits (w : Cmd) (byte lo width : Nat) : Nat := natBits w.toNat (8 * byte + lo) width
def QCmd.b (c : QCmd) (byte lo width : Nat) : Nat := cmdBits c.word byte lo width
/-- An unsigned little-endian field of n bytes. -/
def QCmd.u (c : QCmd) (byte n : Nat) : Nat := cmdBits c.word byte 0 (8 * n)
/-- A 48-bit address field. -/
def QCmd.a (c : QCmd) (byte : Nat) : Nat := cmdBits c.word byte 0 48
def QCmd.op (c : QCmd) : Nat := c.b 0 0 4
def QCmd.sigCtr (c : QCmd) : Nat := c.b 2 0 6
def QCmd.sigAdd (c : QCmd) : Nat := c.b 3 0 8
def QCmd.tag (c : QCmd) : Nat := c.u 4 4
def QCmd.gateCtr (c : QCmd) : Nat := c.b 1 0 6
def QCmd.gateTgt (c : QCmd) : Nat := c.u 60 3

/-- SIG_CTR or SIG_ADD of a header is refused (R139). -/
def QCmd.badSig (c : QCmd) : Bool := (48 ≤ c.sigCtr && c.sigCtr ≤ 62) || (c.sigAdd = 0 && c.sigCtr != 63)

/-- The head command of an engine. -/
def State.headCmd (s : State) (i : Nat) : Option QCmd := (s.eng i).cmds.head?

/-- Take the head command: it is dispatched and not yet complete. -/
def State.takeCmd (s : State) (i : Nat) : State :=
  let e := s.eng i
  s.setEng i { e with cmds := e.cmds.tail, inFlight := e.inFlight + 1, gate := .idle }

/-- A dispatched command of an engine completes, without its signal. -/
def State.doneCmd (s : State) (i : Nat) : State :=
  let e := s.eng i
  s.setEng i { e with inFlight := e.inFlight - 1 }

/-- A dispatched command completes and signals (R235). -/
def State.finishCmd (s : State) (i : Nat) (c : QCmd) : State :=
  (s.doneCmd i).signalCtr c.core c.sigCtr c.sigAdd

/-- An engine stops with its plan unfinished: the plan never completes (R234). -/
def State.stickEng (s : State) (i : Nat) : State :=
  let e := s.eng i
  s.setEng i { e with cmds := [], fetchLeft := 0, stuck := true }

/-- A taken command of an engine will never complete: neither does its plan (R234). -/
def State.loseCmd (s : State) (i : Nat) : State :=
  let e := s.eng i
  s.setEng i { e with inFlight := e.inFlight - 1, stuck := true }

/-- The gate of a command (R302): pass, or begin or go on waiting. `bad` answers whether the counter is one
that no command may name. The flag says that the command may start. -/
def State.gateCmd (s : State) (i : Nat) (c : QCmd) : State × Bool :=
  if c.gateCtr ≥ 48 then (s, true)
  else
    match (s.eng i).gate with
    | .passed => (s, true)
    | .waiting => (s, false)
    | .idle =>
      let s1 := (s.setEng i { s.eng i with gate := .waiting }).beginWait c.core c.gateCtr ⟨.engine i, c.gateTgt⟩
      (s1, (s1.eng i).gate == .passed)

/-- Dither words of R88 for a domain: Philox word of an index. -/
def State.dither (s : State) (step site parcel : Nat) (index : Nat) : Nat :=
  (philox s.job.seed.toNat step (2 ^ 28 + site % 2 ^ 28) parcel (index / 4 % 2 ^ 32)).getD (index % 4) 0

/-- An outcome with a next state. -/
abbrev Out := Host.Outcome State Fault Refusal

/-- The command meets a state in which its event cannot occur: nothing changes (log entry 10). -/
def stutter (s : State) : Out := .next s

end Sys2Proof.Machine
end

