-- ==== Sys2Proof/Machine/Link.lean ====
section
/-!
DEFINITION. The link layer of a Septax port (chapter 13): replay and acknowledgement, credits, acceptance of
flits and messages, forwarding, fencing and a link that goes down.
-/

namespace Sys2Proof.Machine
open Sys2Proof

/-- a precedes or equals b in serial-number arithmetic (R488). -/
def seqLe (a b : Nat) : Bool := (b + 65536 - a % 65536) % 65536 < 32768

/-- Release every flit up to the acknowledgement (R490). -/
def PortSt.release (q : PortSt) (ack : Nat) : PortSt :=
  { q with replay := q.replay.filter (fun r => !seqLe r.flit.seq ack) }

/-- Buffers that an input port grants in a class (R492). -/
def classBufs (c : Nat) : Nat := if c = 0 then 64 else if c = 3 then 512 else 256

def PortSt.owed (q : PortSt) (c : Nat) : Nat :=
  if c = 0 then q.owedA else if c = 1 then q.owedB else if c = 2 then q.owedC else q.owedD

/-- The message types of R487 by class; ABORT is valid in any class. -/
def validType (cls typ : Nat) : Bool :=
  typ = 0xFF || (cls = 0 && 1 ≤ typ && typ ≤ 9) || (cls = 1 && 0x10 ≤ typ && typ ≤ 0x12) ||
    (cls = 2 && 0x20 ≤ typ && typ ≤ 0x23) || (cls = 3 && 0x30 ≤ typ && typ ≤ 0x35)

/-- The ABORT flit that closes a message of a class (R487, R522). -/
def abortFlit (cls : Nat) : Flit := mkFlit cls 0xFF 0 false true false []

/-- Cut a run of flits into messages; the last may lack its LAST flit. -/
def splitMsgs : List (Nat × Flit) → List (Nat × Flit) → List (List (Nat × Flit))
  | [], acc => if acc.isEmpty then [] else [acc]
  | f :: r, acc => if f.2.isLast then (acc ++ [f]) :: splitMsgs r [] else splitMsgs r (acc ++ [f])

/-- The messages that wait in a port in a class: those in their order, then those of other inputs. -/
def PortSt.queued (q : PortSt) (c : Nat) : List (List (Nat × Flit)) :=
  let h := q.held.filter (fun x => x.2.cls == c)
  splitMsgs (q.waiting.filter (fun x => x.2.cls == c)) [] ++
    (h.map (fun x => x.1)).eraseDups.flatMap (fun i => splitMsgs (h.filter (fun x => x.1 == i)) [])

/-- The output for a message once a port is out of use: the next port of its mask (R499, R500, R522). -/
def State.reroute (s : State) (f : Flit) (out : Nat) : Option Nat :=
  if f.mcast then none
  else
    let e := (s.reg (spxRoute f.dest)).toNat
    if e / 2 ^ 33 % 2 = 0 then none
    else
      ((maskPorts e).filter (fun p => p ≠ out ∧ (!f.down || s.bit (spxPortCtrl p) 1) ∧ (s.port p).st ≠ .fenced)).head?

/-- What still comes in of a message follows it to another output, or goes nowhere (R499, R522). -/
def State.followTo (s : State) (m : List (Nat × Flit)) (out : List Port) : State :=
  match m.getLast? with
  | none => s
  | some (i, f) =>
    if i < 32 ∧ ¬ f.isLast then s.setPort i { s.port i with route := Tab.put (s.port i).route f.cls out } else s

/-- Send a queued message elsewhere or discard and count it (R522). A message that has begun to leave, or that
has no other port, is discarded. -/
def requeue (p : Nat) (s : State) (m : List (Nat × Flit)) : State :=
  match m with
  | [] => s
  | (i, f) :: _ =>
    match (if f.isFirst then s.reroute f p else none) with
    | none => ((s.count (spxCnt p 6) 1).followTo m []).freeBufs m
    | some o => (s.followTo m [Fin.ofNat 32 o]).portSend i o (m.map (fun x => x.2))

/-- Take the flits of an input and class out of a queue; an ABORT stands in for the first of them if their message has begun
to leave. -/
def cutInput (p c : Nat) : Bool → List (Nat × Flit) → List (Nat × Flit)
  | _, [] => []
  | ab, x :: r =>
    if x.1 = p ∧ x.2.cls = c then
      if ab then (32, abortFlit c) :: cutInput p c false r else cutInput p c false r
    else x :: cutInput p c ab r

/-- An output gives back the flits of a class that lie in the buffers of a fenced input; a message that has begun to leave is
closed with an ABORT (R522). The count is how many messages are discarded or closed. -/
def PortSt.dropInput (q : PortSt) (p c : Nat) : PortSt × Nat :=
  let mine := (q.waiting ++ q.held).filter (fun x => x.1 == p && x.2.cls == c)
  let occupies := Tab.look q.cur c == some p
  let begun := match mine with
    | [] => occupies
    | x :: _ => !x.2.isFirst
  let w := cutInput p c begun q.waiting
  let w1 := if mine.isEmpty && begun then w ++ [(32, abortFlit c)] else w
  ({ q with waiting := w1, held := q.held.filter (fun x => !(x.1 == p && x.2.cls == c)),
            cur := if occupies then Tab.drop q.cur c else q.cur },
   (splitMsgs mine []).length + (mine.isEmpty && begun).toNat)

/-- An output closes with an ABORT the copy of a multicast message whose flits no longer come (R503, R522). -/
def PortSt.closeCopy (q : PortSt) (p c : Nat) : PortSt :=
  let i := 33 + p
  let last := (q.held.filter (fun x => x.1 == i && x.2.cls == c)).getLast?
  let opened := match last with
    | some x => !x.2.isLast
    | none => Tab.look q.cur c == some i
  if opened then { q with held := q.held ++ [(i, abortFlit c)] } else q

/-- What a fenced port gives back at an output. -/
def State.fenceInput (s : State) (p o : Nat) : State :=
  let (q, n) := ([0, 1, 2, 3] : List Nat).foldl (fun (x : PortSt × Nat) c =>
    let (y, m) := x.1.dropInput p c
    (y.closeCopy p c, x.2 + m)) (s.port o, 0)
  ((s.setPort o q).count (spxCnt p 6) n).settlePort o

/-- Fence a port at once and reclaim its resources locally (R480, R522). -/
def State.fencePort (s : State) (p : Nat) : State :=
  let q := s.port p
  let s1 := s.setPort p { st := .fenced, nbrChip := q.nbrChip, nbrPort := q.nbrPort }
  let s2 := ([0, 1, 2, 3].flatMap q.queued).foldl (requeue p) s1
  let cut := q.cur.filter (fun e => (q.waiting ++ q.held).all (fun x => x.1 != e.2 || x.2.cls != e.1))
  let s3 := cut.foldl (fun t e =>
    let u := t.count (spxCnt p 6) 1
    if e.2 < 32 then u.setPort e.2 { u.port e.2 with route := Tab.put (u.port e.2).route e.1 [] } else u) s2
  let s4 := ((List.range 32).filter (fun o => o ≠ p)).foldl (fun t o => t.fenceInput p o) s3
  s4.count (spxCnt p 6) (q.partialMsg.filter (fun m => !m.2.isEmpty)).length

/-- A port that starts afresh in a state: its sequence and credit state is dropped (R480, R637); the neighbour that it had, the
messages that wait for it and what it has of a message that comes in stay. -/
def PortSt.anew (q : PortSt) (st : PortState) : PortSt :=
  { st := st, nbrChip := q.nbrChip, nbrPort := q.nbrPort, waiting := q.waiting, held := q.held, cur := q.cur, route := q.route,
    partialMsg := q.partialMsg }

/-- Turn a port OFF with its lasers dark (R480, R637). -/
def State.offPort (s : State) (p : Nat) : State := s.setPort p ((s.port p).anew .off)

/-- LINKDOWN tells the furrow master of a port that has gone down (R518, R616). -/
def State.reportDown (s : State) (nbr : Nat) : State :=
  match s.master with
  | none => s
  | some m =>
    if m = s.chip then { s with mems := { s.mems with reports := s.mems.reports ++ [(s.chip, nbr)] } }
    else s.send (mkMsg 0 0x07 m false (recBytes 4 0 nbr s.rcv.rseq.toNat 0 0 s.chip 0 0))

/-- A port to a chip is UP again: the master takes back one report of its own (R518). What another member has reported stands:
no message takes it back (log entry 60). -/
def State.linkBack (s : State) (nbr : Nat) : State :=
  { s with mems := { s.mems with reports := s.mems.reports.erase (s.chip, nbr) } }

/-- A link that goes down (R482, R491, R637): in fallow the port is parked; otherwise it is fenced with an error
bit, and LINKDOWN goes to the furrow master. -/
def State.linkDown (s : State) (p : Nat) (errBit : Nat) : State :=
  if s.linksDark then
    ((s.offPort p).setReg pwrPark (s.reg pwrPark ||| BitVec.ofNat 64 (2 ^ p)))
  else
    ((s.setBit (spxPortErr p) errBit).fencePort p).reportDown (s.port p).nbrChip.toNat

/-- Whether a message of a port's queue is a volunteer message of this module; what is left of a message that has begun to
leave counts as one. -/
def State.ownVol (s : State) (fs : List (Nat × Flit)) : Bool :=
  match fs with
  | [] => false
  | (_, f) :: _ => f.cls == 3 && f.typ == 0x34 && (!f.isFirst || leNat ((f.payload.drop 2).take 2) == s.chip)

/-- A volunteer message of this module waits in a port. -/
def State.volsWait (s : State) : Bool :=
  s.ports.any (fun p =>
    (splitMsgs (p.2.waiting.filter (fun x => x.2.cls == 3)) []).any s.ownVol ||
      p.2.held.any (fun x => x.1 == 32 && x.2.cls == 3 && x.2.typ == 0x34))

/-- A port's REFRESH completes once none of its slot writes is left and every multicast has left the module (R325). -/
def State.endRefresh (s : State) : State :=
  if s.gln.ports.all (fun p => p.2.refreshing.isNone) ∨ s.gln.jobs.any (fun j => j.mine) ∨ s.volsWait then s
  else (List.range 64).foldl (fun t n =>
    let x := t.gport n
    match x.refreshing with
    | none => t
    | some c => (t.setGport n { x with refreshing := none }).finishCmd (engGln n) c) s

/-- Resend every unacknowledged flit (R490); a flit already resent 8 times takes the link down (R491). -/
def State.resend (s : State) (p : Nat) : State :=
  let q := s.port p
  if q.replay.any (fun r => r.resent ≥ 8) then s.linkDown p 2
  else
    (s.setPort p { q with replay := q.replay.map (fun r => { r with resent := r.resent + 1 }) }).count
      (spxCnt p 3) q.replay.length

/-- Discard a sequenced flit that does not follow the last accepted one: NAK on the first (R489). -/
def State.discardSeq (s : State) (p : Nat) : State :=
  let q := s.port p
  if q.nakSent then s else s.setPort p { q with nakSent := true, nakOwed := true }

/-- Return the credits that a flit carries to their classes (R483, R493). -/
def PortSt.gain (q : PortSt) (credit : Nat) : PortSt :=
  (((q.addCred 0 (natBits credit 0 4)).addCred 1 (natBits credit 4 4)).addCred 2 (natBits credit 8 4)).addCred 3
    (natBits credit 12 4)

/-- Flits of a class in the input buffers of a port: they wait at outputs, or their credit is not returned yet (R492, R493). -/
def State.buffered (s : State) (p c : Nat) : Nat :=
  (s.port p).owed c +
    (s.ports.map (fun o => ((o.2.waiting ++ o.2.held).filter (fun x => x.1 == p && x.2.cls == c)).length)).sum

/-- The link layer takes a flit on a port that is UP (R484, R485, R489, R490, R493). The flag says that it was accepted as a
sequenced flit. -/
def State.linkRx (s : State) (p : Nat) (f : Flit) : State × Bool :=
  if f.crc ≠ f.crcOf.toNat then (s.count (spxCnt p 2) 1, false)
  else
    let s1 := s.setPort p ((s.port p).release f.ack)
    let s2 := if f.nak then s1.resend p else s1
    let q := s2.port p
    if q.st ≠ .up then (s2, false)
    else if f.isIdle ∧ f.credit = 0 then (s2.pumpPort p, false)
    else if (s2.closed 3 p ∨ s2.closed 6 0) ∧ ¬ f.isIdle ∧ f.isFirst then (s2.pumpPort p, false)
    else if f.seq ≠ (q.rxSeq + 1).toNat then ((s2.discardSeq p).pumpPort p, false)
    else if ¬ f.isIdle ∧ s2.buffered p f.cls ≥ classBufs f.cls then
      (((s2.setBit (spxPortErr p) 3).fencePort p).reportDown q.nbrChip.toNat, false)
    else
      let q1 := { q with rxSeq := q.rxSeq + 1, nakSent := false, nakOwed := false }.gain f.credit
      (((s2.setPort p q1).count (spxCnt p 1) (if f.isIdle then 0 else 1)).pumpPort p, true)

/-- A flit arrives and lies in its buffer; what it lets leave may be the last that a REFRESH waits for. -/
def State.bufFlit (s : State) (p : Nat) (f : Flit) : State × Bool :=
  let (t, ok) := s.linkRx p f
  (t.endRefresh, ok)

/-- A flit arrives and leaves its buffer at once, taken by this module (R493). -/
def State.rxFlit (s : State) (p : Nat) (f : Flit) : State × Bool :=
  let (t, ok) := s.bufFlit p f
  (if ok ∧ ¬ f.isIdle then t.freeBuf p f.cls else t, ok)

/-- An accepted flit that no one takes: an error bit of the port, and a job fault. -/
def State.dropFlit (s : State) (p : Nat) (f : Flit) (bit : Nat) : State :=
  let (t, ok) := s.rxFlit p f
  if ok then
    let u := t.setBit (spxPortErr p) bit
    u.jobFault 0 ((u.reg (spxPortErr p)).toNat % 2 ^ 32) 0 0
  else t

/-- A flit of a TYPE reserved for its class (R487). -/
def State.badType (s : State) (p : Nat) (f : Flit) : State := s.dropFlit p f 4

/-- Several flits in turn; the accepted ones. One of a reserved TYPE is discarded (R487), as is one that no message can go on
with. -/
def rxRun (p : Nat) : List Flit → State → List Flit → State × List Flit
  | [], s, acc => (s, acc)
  | f :: r, s, acc =>
    if (s.port p).st ≠ .up then (s, acc)
    else if ¬ validType f.cls f.typ then rxRun p r (s.badType p f) acc
    else
      let (t, ok) := s.rxFlit p f
      rxRun p r t (if ok then acc ++ [f] else acc)

/-- Send a copy of a multicast flit on every port of its group except the arrival port (R503). -/
def State.replicate (s : State) (p : Option Nat) (f : Flit) : State :=
  let ports := (maskPorts ((s.reg (spxMcast f.dest)).toNat)).filter (fun o => p ≠ some o)
  if ports.isEmpty then s
  else if f.hops ≥ 10 then
    let o := p.getD 0
    let t := s.setBit (spxPortErr o) 5
    t.jobFault 0 ((t.reg (spxPortErr o)).toNat % 2 ^ 32) 0 0
  else ports.foldl (fun t o => t.portSend ((p.map (fun i => 33 + i)).getD 32) o [f]) s

/-- Whether a multicast group delivers to this module (R503). -/
def State.mcastLocal (s : State) (g : Nat) : Bool := s.bit (spxMcast g) 32

/-- What the arrival of a run of flits gives. -/
inductive Rx where
  /-- the command does not fit: no such arrival can happen here -/
  | unfit
  /-- the link layer took the flits, and no message is complete for this module -/
  | taken (s : State)
  /-- a whole message for this module: its first flit and its payload -/
  | msg (s : State) (f : Flit) (bs : List Byte)

/-- The chip's own entry of the route table is VALID (R498). -/
def State.ownRoute (s : State) : Bool := s.bit (spxRoute s.chip) 33

/-- The arrival of flits of one message type for this module on a port (R480, R486, R487, R498, R503). Flits that a
router passes on are FLIT_FORWARD's, and a flit of another message is that message's event. -/
def State.rx (s : State) (p cls typ : Nat) (fs : List Flit) (anyDest : Bool := false) : Rx :=
  match fs with
  | [] => .unfit
  | f :: _ =>
    if (s.port p).st ≠ .up then .unfit
    else if f.cls ≠ cls ∨ f.typ ≠ typ then
      if validType f.cls f.typ then .unfit else .taken (s.badType p f)
    else if fs.any (fun g => validType g.cls g.typ && !(g.cls == cls && g.typ == typ)) then .unfit
    else if ¬ anyDest ∧ ¬ f.mcast ∧ f.dest ≠ s.chip then .unfit
    else if ¬ anyDest ∧ ¬ f.mcast ∧ ¬ s.ownRoute then .taken (fs.foldl (fun t g => if (t.port p).st = .up then t.dropFlit p g 6 else t) s)
    else
      let (t, acc) := rxRun p fs s []
      if acc.isEmpty then .taken t
      else
        let u := if f.mcast ∧ ¬ anyDest then acc.foldl (fun v g => v.replicate (some p) g) t else t
        if f.mcast ∧ ¬ anyDest ∧ ¬ u.mcastLocal f.dest then .taken u
        else
          let q := u.port p
          let all := Tab.get q.partialMsg [] cls ++ acc
          if all.any (fun g => g.isLast) then
            .msg (u.setPort p { q with partialMsg := Tab.drop q.partialMsg cls }) (all.headD f)
              ((all.map (fun g => g.payload)).flatten)
          else .taken (u.setPort p { q with partialMsg := Tab.put q.partialMsg cls all })

/-- A link-local Class A flit is consumed whatever DEST holds (R487). -/
def State.rxLocal (s : State) (p typ : Nat) (f : Flit) : Rx := s.rx p 0 typ [f] true

/-- A byte field of a message. -/
def msgNat (bs : List Byte) (o n : Nat) : Nat := leNat ((bs.drop o).take n)

end Sys2Proof.Machine
end

