-- ==== Sys2Proof/Machine/Plan.lean ====
section
/-!
DEFINITION. Furrow plans: due ticks (R61), posting and its refusals (R62, R71, R232), the plan queues (R63), the
start of a plan with the fetch of its command list (R234), and its completion (R65).
-/

namespace Sys2Proof.Machine
open Sys2Proof

/-- A sync fault: a bit of STK_FAULT and a job fault (R227, R238). -/
def State.syncFault (s : State) (st b : Nat) : State :=
  let t := s.setBit (stkFault st) b
  t.jobFault (srcHdl st) ((t.reg (stkFault st)).toNat % 2 ^ 32) 0 0

/-- The 32-byte payload of a remote signal (R237). -/
def stookBytes (chip core ctr add kind epoch srcChip srcCore srcCtr tick : Nat) : List Byte :=
  leBytes 2 chip ++ leBytes 1 core ++ leBytes 1 ctr ++ leBytes 3 add ++ leBytes 1 kind ++ leBytes 2 epoch ++
    leBytes 2 srcChip ++ leBytes 1 srcCore ++ leBytes 1 srcCtr ++ leBytes 2 0 ++ leBytes 8 tick ++ leBytes 8 0

/-- A remote signal takes effect at its counter and is counted (R238, R257). -/
def State.applySignal (s : State) (core ctr add : Nat) : State :=
  if ctr < 48 then (s.updateCtr core ctr add).count (stkCntRsigIn core) 1 else s

/-- Send a remote signal from a core (R228, R237, R238): to the own chip it is delivered without a link; to a chip
that is not live it is not sent. -/
def State.remoteSignal (s : State) (st chip core ctr add : Nat) : State :=
  if chip = s.chip then (s.count (hdlCntRsig st) 1).applySignal core ctr add
  else if s.live chip then
    (s.count (hdlCntRsig st) 1).send
      (mkMsg 0 0x02 chip false (stookBytes chip core ctr add 0 s.stkEpoch.toNat s.chip st 63 0))
  else s.syncFault st 1

/-- A signal of a thread takes effect once what it waits for is complete (R228, R229). -/
def State.sendSig (s : State) (st : Nat) : DeferSig → State
  | .here c n => s.updateCtr st c n
  | .remote chip core c n => s.remoteSignal st chip core c n

/-- Set a bit of FUR_FAULT; SLIP, HOLDOVER, LATE_CHANGE, JOB_PERIOD and PLAN_FORM raise a job fault (R74). The
engine of the first SLIP is recorded. -/
def State.furFaultSet (s : State) (b engine : Nat) : State :=
  let s1 := if b = 0 ∧ ¬ s.bit furFault 0 then s.setFld furFault 16 9 engine else s
  let s2 := s1.setBit furFault b
  if b = 3 ∨ b = 4 then s2 else s2.jobFault engine ((s2.reg furFault).toNat % 2 ^ 32) 0 0

/-- The due tick of a plan: S + PARCEL + STAGE, or E + STAGE for a phase plan, once that tick is known (R61). -/
def State.due (s : State) (p : Plan) : Option Nat :=
  if p.phase then (Tab.look s.fur.ends p.step.toNat).map (fun e => e.toNat + p.stage.toNat)
  else (Tab.look s.fur.starts p.step.toNat).map (fun b => b.toNat + p.parcel.toNat + p.stage.toNat)

/-- FUR_CTRL.SLACK in furrows (R45). -/
def State.slack (s : State) : Nat := s.fld furCtrl 2 3

/-- A plan whose due tick already lies more than SLACK furrows in the past (R71). -/
def State.tooLate (s : State) (p : Plan) : Bool :=
  match s.due p with
  | none => false
  | some d => d + s.slack < s.furCount.toNat

/-- A plan descriptor of 32 bytes (R60), posted by a core's thread. -/
def planOf (bs : List Byte) (core : Strip) (modeF : Bool) : Plan :=
  { cmdAddr := BitVec.ofNat 48 (leNat (bs.take 6)), cmdCount := BitVec.ofNat 16 (msgNat bs 6 2),
    parcel := BitVec.ofNat 32 (msgNat bs 8 4), stage := BitVec.ofNat 8 (msgNat bs 12 1),
    last := msgNat bs 13 1 % 2 = 1, phase := msgNat bs 13 1 / 2 % 2 = 1,
    step := BitVec.ofNat 32 (msgNat bs 16 4), bound := BitVec.ofNat 32 (msgNat bs 20 4), core := core, modeF := modeF }

/-- The posting FIFO of a core that serves an engine, if the core may post to it: 0 to 3 for its own strip's
engines, 4 for the shared engines (R232). -/
def fifoOf (st e : Nat) : Option Nat :=
  if e < 0x100 then (if e / 4 = st then some (e % 4) else none) else if e < 321 then some 4 else none

def fifoCap (k : Nat) : Nat := if k = 4 then 16 else 8
def fifoKey (st k : Nat) : Nat := st * 5 + k
def State.fifo (s : State) (st k : Nat) : List Post := Tab.get s.fifos [] (fifoKey st k)
def State.setFifo (s : State) (st k : Nat) (l : List Post) : State := { s with fifos := Tab.put s.fifos (fifoKey st k) l }

def Post.engine : Post → Nat
  | .plan e _ => e
  | .command e _ => e

/-- Note that a parcel plan of a step was posted to an engine (R65). -/
def EngSt.notePart (e : EngSt) (p : Plan) : EngSt :=
  if p.phase || e.parts.any (fun x => x.1 == p.step) then e else { e with parts := e.parts ++ [(p.step, false)] }

/-- The checks of R62 before a plan enters the queue of its engine; the flag says that it may. -/
def State.admitPlan (s : State) (e : Nat) (p : Plan) : State × Bool :=
  let long : Bool := p.bound.toNat > s.periodNs
  let form : Bool := p.cmdCount = 0 ∨ p.cmdAddr.toNat % 64 ≠ 0
  let s1 := if long then s.furFaultSet 3 e else s
  (if form then s1.furFaultSet 6 e else s1, !long && !form)

/-- The error register of an engine's first unit, with its ADDR and MEM bits (R234). -/
def engErr (e : Nat) : Nat × Nat × Nat :=
  if e < 0x100 then
    let st := e / 4
    match e % 4 with
    | 0 => (tilErr st 0, 5, 10)
    | 1 => (winErr st, 4, 9)
    | 2 => (glnErr st, 2, 7)
    | _ => (hrwErr st 0, 2, 7)
  else if e < 0x110 then (drlErr (e - 0x100), 3, 7)
  else if e < 0x140 then (shfErr (e - 0x110), 2, 8)
  else (spxErr, 2, 4)

/-- A thread waits for the hand-over of an accumulator read (R198). -/
def WinSt.holds (w : WinSt) (th : Nat) : Bool :=
  match w.accWait with
  | none => false
  | some (k, _, _) => k == th

/-- Add a signal to the last WSIG of a thread that is issued and waits. -/
def addLater (th : Nat) (x : DeferSig) : List WinSig → Option (List WinSig)
  | [] => none
  | w :: r =>
    match addLater th x r with
    | some r' => some (w :: r')
    | none => if w.thr = th then some ({ w with sigs := w.sigs ++ [x] } :: r) else none

/-- A signal of a thread takes effect once the Winnow instructions of the thread that are issued have completed (R229). -/
def State.afterIssued (s : State) (st th : Nat) (x : DeferSig) : State :=
  let w := s.winnow st
  match addLater th x w.later, w.accWait with
  | some l, _ => s.setWinnow st { w with later := l }
  | none, some (k, i, e) =>
    if k = th then s.setWinnow st { w with accWait := some (k, { i with sigs := i.sigs ++ [x] }, e) } else s.sendSig st x
  | none, none => s.sendSig st x

/-- Halt a Winnow engine: queued instructions and gate commands are discarded, and a waiting JOIN is withdrawn; issued
instructions complete (R206). Signals that waited for the discarded instructions wait only for the issued ones. -/
def State.haltWinnow (s : State) (st : Nat) : State :=
  let w := s.winnow st
  let s1 := s.setWinnow st { w with halted := true, ctx := w.ctx.map (fun c => (c.1, { c.2 with queue := [] })) }
  let s2 := (s1.stickEng (engWin st)).withdraw st (.engine (engWin st))
  (w.ctx.flatMap (fun c => c.2.queue.flatMap (fun i => i.sigs.map (fun x => (c.1, x))))).foldl
    (fun t p => t.afterIssued st p.1 p.2) s2

/-- The gang that a SAMPLE names (R290). -/
def smpBase (c : QCmd) : Nat := c.b 41 0 5
def smpGangLog (c : QCmd) : Nat := c.b 41 5 3
def smpGang (c : QCmd) : List Nat :=
  (List.range (2 ^ smpGangLog c)).filterMap (fun i => if smpBase c + i < 16 then some (smpBase c + i) else none)

/-- Halt samplers: their joined commands are lost and their plans never complete; a build that has one of them as a member
stops (R282, R291). -/
def State.haltSamplers (s : State) (ds : List Nat) : State :=
  let u := ds.foldl (fun t d =>
    let x := t.sampler d
    let v := if x.joined.isSome then t.loseCmd (engDrl d) else t
    v.setSampler d { joined := none, halted := true }) s
  match u.drl.build with
  | none => u
  | some b => if ds.any (smpGang b.cmd).contains then { u with drl := { u.drl with build := none } }.clrBit drlBuild 48 else u

/-- The members that halt with a sampler: the gang of the SAMPLE that it has joined with or that it has fetched (R234). -/
def State.gangOf (s : State) (d : Nat) : List Nat :=
  match (s.sampler d).joined, (s.eng (engDrl d)).cmds.find? (fun c => c.op == 1) with
  | some c, _ => (d :: smpGang c).eraseDups
  | none, some c => (d :: smpGang c).eraseDups
  | none, none => [d]

/-- The unfetched rest of the plan that a Sheaf engine runs holds an ABSORB (R353). -/
def State.restAbsorbs (s : State) (i : Nat) : List (BitVec 32) :=
  let g := s.eng i
  match g.running with
  | none => []
  | some p => if (List.range g.fetchLeft).any (fun k => s.viewNat (g.fetchAt + 64 * k) 1 % 16 == 1) then [p.step] else []

/-- Every Harrow channel, in index order. -/
def allChans : List Chan := List.finRange 256

/-- A fabric address (R407). -/
def fabricAddr (chip a : Nat) : Word := BitVec.ofNat 64 (chip % 65536 * 2 ^ 48 + a % 2 ^ 48)

/-- RATE of a Harrow descriptor (R450). -/
def hwRate (c : QCmd) : Nat := c.u 44 1

/-- The head descriptor of a Harrow channel waits no more on its gate or start condition: HRW_CNT_WAIT takes the clk (R475). -/
def State.waitEnds (s : State) (ch : Nat) : State :=
  if (s.chan ch).gate = .waiting ∨ (s.chan ch).startWait then s.clk (hrwCnt (ch / 4) (ch % 4) 3) else s

/-- A running descriptor ends: with RATE, HRW_CNT_PACE takes the clk in which its writes were held back (R450). -/
def State.paceEnds (s : State) (ch : Nat) : State :=
  if (s.chan ch).running.any (fun r => hwRate r.cmd != 0) then s.clk (hrwCnt (ch / 4) (ch % 4) 4) else s

/-- The units of an engine enter their HALTED state (R234); a Harrow descriptor that waits on its gate waits no more. -/
def State.haltUnits (s : State) (e : Nat) : State :=
  if e < 0x100 then
    let st := e / 4
    match e % 4 with
    | 0 => (List.range 10).foldl (fun t a => t.setTiller st a { t.tiller st a with halted := true }) s
    | 1 => s.haltWinnow st
    | 2 => s.setGport st { s.gport st with halted := true }
    | _ => allChans.foldl (fun (t : State) (ch : Chan) =>
        if ch.val / 4 = st then
          ((t.waitEnds ch.val).setChan ch.val { t.chan ch.val with halted := true, gate := .idle, startWait := false }).withdraw st (.channel ch)
        else t) s
  else if e < 0x110 then s.haltSamplers (s.gangOf (e - 0x100))
  else if e < 0x140 then
    let x := s.sheaf (e - 0x110)
    s.setSheaf (e - 0x110) { x with halted := true, lost := x.lost ++ s.restAbsorbs e }
  else { s with red := { s.red with halted := true } }

/-- The error registers of every unit that an engine halts. -/
def engErrRegs (e : Nat) : List Nat :=
  if e < 0x100 ∧ e % 4 = 0 then (List.range 10).map (tilErr (e / 4))
  else if e < 0x100 ∧ e % 4 = 3 then (List.range 4).map (hrwErr (e / 4))
  else [(engErr e).1]

/-- A descriptor fetch that met an uncorrectable error is the failed access of every channel that it halts (R465, R474). -/
def State.noteFetchAddr (s : State) (e : Nat) (mem : Bool) (addr : Nat) : State :=
  if mem ∧ e < 0x100 ∧ e % 4 = 3 then
    (List.range 4).foldl (fun t c => t.setReg (hrwErrAddr (e / 4) c) (fabricAddr s.chip addr)) s
  else s

/-- A plan's command list out of reach, or an uncorrectable error in it: the engine halts and its plan never
completes (R234). -/
def State.failFetch (s : State) (e : Nat) (mem : Bool) (addr : Nat) : State :=
  let (o, a, m) := engErr e
  let b := if mem then m else a
  let s1 := ((engErrRegs e).foldl (fun t r => t.setBit r b) s).noteFetchAddr e mem addr
  let s2 := s1.haltUnits e
  let s3 := s2.setEng e { s2.eng e with stuck := true, fetchLeft := 0 }
  s3.jobFault e ((s3.reg o).toNat % 2 ^ 32) addr 0

/-- The reach of a command list (R234). -/
def listReach (a n : Nat) (modeF : Bool) : Bool := jobReach a n || (modeF && spans inDram a n)

/-- The queue that a command goes to within its engine, and how many commands that queue holds: 16 for each array of the
Tiller engine, 4 for each channel of the Harrow engine (R143, R147, R447); the manual bounds no other. -/
def queueOf (e : Nat) (w : Cmd) : Nat × Option Nat :=
  if e < 0x100 ∧ e % 4 = 0 then
    let a := cmdBits w 0 4 4
    (if a > 9 then 0 else a, some 16)
  else if e < 0x100 ∧ e % 4 = 3 then (cmdBits w 0 4 2, some 4)
  else (0, none)

/-- The queue of a command is full. -/
def queueFull (cs : List QCmd) (e : Nat) (w : Cmd) : Bool :=
  match queueOf e w with
  | (_, none) => false
  | (k, some n) => decide (n ≤ (cs.filter (fun c => (queueOf e c.word).1 == k)).length)

/-- The queue of a command accepts it: a halted Harrow channel accepts every descriptor, since it discards it (R468); one
whose reset is under way accepts none (R587). -/
def State.accepts (s : State) (e : Nat) (w : Cmd) : Bool :=
  let ch := 4 * (e / 4) + cmdBits w 0 4 2
  if e < 0x100 ∧ e % 4 = 3 ∧ s.closed 4 ch then false
  else if e < 0x100 ∧ e % 4 = 3 ∧ (s.chan ch).halted then true
  else !queueFull (s.eng e).cmds e w

/-- Fetch commands in order as far as the queue accepts them (R234). -/
def fetchFrom (e : Nat) (p : Plan) : Nat → State → State
  | 0, s => s
  | n + 1, s =>
    let a := (s.eng e).fetchAt
    match s.read e a 64 with
    | (t, none) => t.failFetch e true a
    | (t, some bs) =>
      let c : QCmd := { addr := BitVec.ofNat 48 a, word := BitVec.ofNat 512 (leNat bs), core := p.core, modeF := p.modeF,
                        step := p.step, parcel := p.parcel, phase := p.phase, direct := false }
      let g := t.eng e
      if ¬ t.accepts e c.word then s
      else fetchFrom e p n (t.setEng e { g with cmds := g.cmds ++ [c], fetchAt := a + 64, fetchLeft := n })

/-- The fetch of the running plan goes on. -/
def State.refill (s : State) (e : Nat) : State :=
  match (s.eng e).running with
  | none => s
  | some p => fetchFrom e p (s.eng e).fetchLeft s

/-- Start a plan at the present tick with its slip (R70, R234). -/
def State.startPlan (s : State) (e : Nat) (p : Plan) (slip : Nat) : State :=
  let g := s.eng e
  let sl := BitVec.ofNat 8 (min 255 slip)
  let g1 := { g with running := some p, startTick := s.furCount, inFlight := 0, stuck := false, gate := .idle,
                     slipNow := sl, slipMax := if sl.toNat > g.slipMax.toNat then sl else g.slipMax,
                     fetchLeft := p.cmdCount.toNat, fetchAt := p.cmdAddr.toNat }
  let s1 := s.setEng e g1
  if listReach p.cmdAddr.toNat (64 * p.cmdCount.toNat) p.modeF then s1.refill e else s1.failFetch e false p.cmdAddr.toNat

/-- One engine at a tick (R70): an overrun is counted, or, where the module runs plans, a due plan starts; then the slip
test. -/
def State.tickEngine (s : State) (runs : Bool) (e : Nat) : State :=
  let t := s.furCount.toNat
  let g := s.eng e
  let (s1, started) :=
    match g.running with
    | some _ => (s.setEng e { g with overruns := BitVec.ofNat 32 (satAdd 32 g.overruns.toNat 1) }, false)
    | none =>
      match g.queue with
      | [] => (s, false)
      | p :: r =>
        match s.due p with
        | none => (s, false)
        | some d =>
          if runs ∧ d ≤ t ∧ ¬ s.engClosed e then ((s.setEng e { g with queue := r }).startPlan e p (t - d), true) else (s, false)
  match (s1.eng e).queue with
  | [] => s1
  | p :: _ =>
    match s1.due p with
    | none => s1
    | some d => if ¬ started ∧ d + s1.slack ≤ t then s1.furFaultSet 0 e else s1

/-- Every engine in index order. -/
def State.tickEngines (s : State) (runs : Bool) : State :=
  (s.engines.map (fun p => p.1)).foldl (fun t e => t.tickEngine runs e) s

-- Result slots as the step end needs them (R553, R554).

/-- A result table entry: RBASE, SIZE, NSLOT and EVERY (R553), as LOAD_JOB read it. -/
def State.resultEntry (s : State) (i : Nat) : Nat × Nat × Nat × Nat := s.job.resTab.getD i (0, 0, 0, 0)

/-- The key of a slot of a result ID. -/
def slotKey (i slot : Nat) : Nat := 256 * i + slot

/-- The slots that a step fills, by result ID and slot (R553). -/
def State.slotsOf (s : State) (k : Nat) : List (Nat × Nat) :=
  (List.range s.job.nres).filterMap (fun i =>
    let (_, _, n, ev) := s.resultEntry i
    if k % ev = 0 then some (i, k % n) else none)

def State.resSlot (s : State) (i slot : Nat) : ResSlot := Tab.get s.job.results {} (slotKey i slot)
def State.setResSlot (s : State) (i slot : Nat) (x : ResSlot) : State :=
  { s with job := { s.job with results := Tab.put s.job.results (slotKey i slot) x } }

/-- Every slot that a step fills is FREE (R558). -/
def State.slotsFree (s : State) (k : Nat) : Bool := (s.slotsOf k).all (fun x => (s.resSlot x.1 x.2).st == .free)

/-- The work of this module's part of a step is complete: every engine that carries parcel plans in the job, and every
other that received one of the step, has completed its LAST, the step's edge batches are applied, and no snapshot copy is
under way (R65, R271, R610; log entry 100). -/
def State.partDone (s : State) (step : BitVec 32) : Bool :=
  s.job.planned.all (fun e => (s.eng e).parts.any (fun x => x.1 == step && x.2)) &&
  s.engines.any (fun p => p.2.parts.any (fun x => x.1 == step)) &&
  s.engines.all (fun p => p.2.parts.all (fun x => x.1 != step || x.2)) &&
  (match s.drl.seqNext with
   | none => true
   | some (k, n) => decide (k ≠ step) || decide (n.toNat ≤ (s.reg drlIngSeq).toNat)) &&
  (match s.rcv.snap with
   | none => true
   | some sn => decide (sn.step + 1 ≠ step))

/-- Signal the leaf of the step-end tree once a step's part is complete (R65, R243). While a result slot of the next step
is not FREE, the signal is withheld, which RESULT_FULL and its alert show (R558). -/
def State.checkLeaf (s : State) (step : BitVec 32) : State :=
  if ¬ s.partDone step ∨ s.fur.signalled.contains step then s
  else if s.slotsFree (step.toNat + 1) then
    ({ s with fur := { s.fur with signalled := step :: s.fur.signalled, withheld := none } }.setAlert 5 false 0 0).updateCtr 0 47 1
  else
    let t := { s with fur := { s.fur with withheld := some step } }
    if s.bit fgtCtrl 0 then t.setAlert 5 true 0 0 else t

/-- The plan of an engine has completed all its commands (R234). -/
def EngSt.finished (g : EngSt) : Bool :=
  g.running.isSome && g.cmds.isEmpty && g.fetchLeft == 0 && g.inFlight == 0 && !g.stuck

/-- The end of an engine's plan, without what its chapter adds (R65). -/
def State.endPlan (s : State) (e : Nat) : State :=
  let g := s.eng e
  match g.running with
  | none => s
  | some p =>
    let parts := if p.last ∧ ¬ p.phase then g.parts.map (fun x => if x.1 = p.step then (x.1, true) else x) else g.parts
    (s.setEng e { g with running := none, parts := parts }).checkLeaf p.step

/-- A post goes into the posting FIFO of its core, which has room (R232). -/
def State.pushPost (s : State) (st k : Nat) (x : Post) : State := s.setFifo st k (s.fifo st k ++ [x])

/-- A plan is posted (R232): one that already lies too late is discarded with a job fault (R71); a parcel plan counts
for its step from now on (R65). -/
def State.postPlan (s : State) (st k e : Nat) (p : Plan) : State :=
  if s.tooLate p then s.furFaultSet 0 e else (s.setEng e ((s.eng e).notePart p)).pushPost st k (.plan e p)

/-- FIFO entries move to their queues: an entry waits behind earlier entries of its FIFO, in the shared FIFO only
behind those of its engine (R232, R233). -/
def entryReady (l : List Post) (k pos : Nat) (x : Post) : Bool :=
  if k = 4 then (l.take pos).all (fun y => y.engine != x.engine) else pos = 0

/-- The tokens of a core's bucket after the time since it was last used, which the model does not follow (R239, R496, log
entry 57). -/
def State.tokensNow (s : State) (st : Nat) : Nat :=
  min 16 (Tab.get s.tokens 16 st + (Config.freeReading (hdlBase st) s.draws).toNat % 17)

/-- A flit of a core takes a token of its bucket; one of a tree action has waited for it inside the core (R239). -/
def State.takeToken (s : State) (st : Nat) : State := { s.draw with tokens := Tab.put s.tokens st (s.tokensNow st - 1) }

/-- A reset or a new step ends what a thread waits for: its counters of R251 take the time. -/
def State.endSpell (s : State) (st th : Nat) : State :=
  let x := s.thread st th
  let t := if x.st = .wait then s.clk (hdlCntSpin st) else s
  if x.stalled.isSome then t.clk (hdlCntPoststall st) else t

/-- The threads of a core that stalled on a posting FIFO may go on once an entry has left it (R232, R251). -/
def State.unstall (s : State) (st k : Nat) : State :=
  (List.range 4).foldl (fun t th =>
    let x := t.thread st th
    if x.stalled = some k then (t.clk (hdlCntPoststall st)).setThread st th { x with stalled := none } else t) s

/-- PLAN_QUEUE_ENTRY: an entry of a posting FIFO passes to its engine (R63, R233). -/
def execPlanQueueEntry (st : Strip) (fifo : Fin 5) (pos : Nat) (s : State) : Out :=
  let l := s.fifo st.val fifo.val
  match l[pos]? with
  | none => stutter s
  | some x =>
    if ¬ entryReady l fifo.val pos x ∨ s.engClosed x.engine then stutter s
    else
      let rest := (s.setFifo st.val fifo.val (l.eraseIdx pos)).unstall st.val fifo.val
      match x with
      | .plan e p =>
        if (s.eng e).queue.length ≥ 4 then stutter s
        else
          let (t, ok) := rest.admitPlan e p
          let g := t.eng e
          .next (if ok then t.setEng e { g with queue := g.queue ++ [p] } else t)
      | .command e c =>
        let g := rest.eng e
        if ¬ rest.accepts e c.word then stutter s else .next (rest.setEng e { g with cmds := g.cmds ++ [c] })

end Sys2Proof.Machine
end

