-- ==== Sys2Proof/Machine/Tiles.lean ====
section
/-!
DEFINITION. The shared ground of the Winnow engine (chapter 5): instruction fields (R165 to R168), tile register
access (R158 to R162, R171), issue and refusal (R173, R206), dither (R186), amax records (R106, R187) and the
writing of results.
-/

namespace Sys2Proof.Machine
open Sys2Proof

/-- A field of w bits at bit lo of an instruction word. -/
def insBits (x : Word) (lo w : Nat) : Nat := natBits x.toNat lo w
def winOp (x : Word) : Nat := insBits x 56 6
def winTD (x : Word) : Nat := insBits x 50 6
def winTA (x : Word) : Nat := insBits x 44 6
def winTB (x : Word) : Nat := insBits x 38 6
def winTC (x : Word) : Nat := insBits x 32 6
def winFmt (x : Word) : Nat := insBits x 28 4
def winFmt2 (x : Word) : Nat := insBits x 24 4
def winRm (x : Word) : Bool := insBits x 21 1 = 1
def winOv (x : Word) : Bool := insBits x 20 1 = 1
def winZt (x : Word) : Bool := insBits x 19 1 = 1
def winBc (x : Word) : Bool := insBits x 18 1 = 1

/-- An OP that R164 does not list. -/
def winReserved (op : Nat) : Bool :=
  !(op ≤ 5 || (8 ≤ op && op ≤ 0x0B) || (0x10 ≤ op && op ≤ 0x1C) || (0x20 ≤ op && op ≤ 0x24) ||
    (0x28 ≤ op && op ≤ 0x2D) || (0x30 ≤ op && op ≤ 0x32) || (0x34 ≤ op && op ≤ 0x36) || (0x38 ≤ op && op ≤ 0x3D))

/-- The address of the data part of a tile register (R162). -/
def tileData (st t : Nat) : Nat := winBaseAddr + st * 0x100000 + t * 0x1000
/-- The address of its exponent part. -/
def tileExp (st t : Nat) : Nat := winBaseAddr + st * 0x100000 + 0x40000 + t * 0x80

/-- A slice of plot SRAM (R403). -/
def sliceBase (st : Nat) : Nat := plotBase + st * 0x1000000
def inSlice (st a n : Nat) : Bool := n = 0 || (sliceBase st ≤ a && a + n ≤ sliceBase st + 0x1000000)

/-- Write packed elements from element 0 on, keeping the bits of the last byte beyond them. -/
def writeElems (m : List Host.Cell) (a w : Nat) (vs : List Nat) : List Host.Cell :=
  let bits := w * vs.length
  let bs := packElems w vs
  if bits % 8 = 0 then Memory.wrN m a bs
  else
    let l := a + bs.length - 1
    let keep := (Memory.rd m l).toNat / 2 ^ (bits % 8) * 2 ^ (bits % 8)
    Memory.wrN m a (bs.dropLast ++ [BitVec.ofNat 8 ((bs.getLastD 0).toNat + keep)])

/-- Zero elements from n up to the capacity (R171). -/
def zeroElems (m : List Host.Cell) (a w n cap : Nat) : List Host.Cell :=
  if n ≥ cap then m
  else
    let (m1, n1) := if w * n % 8 = 0 then (m, n) else (putElem m a w n 0, n + 1)
    Memory.zero m1 (a + w * n1 / 8) (a + w * cap / 8)

/-- Write a destination's elements and its tail (R171). -/
def State.putTile (s : State) (st t f : Nat) (vs : List Nat) (zt : Bool) : State :=
  let a := tileData st t
  let m := writeElems s.mem a (fmtBits f) vs
  { s with mem := if zt then zeroElems m a (fmtBits f) vs.length (fmtCap f) else m }

/-- Element i of a tile register as bits. -/
def State.tileBits (s : State) (st t f i : Nat) : Nat := elemAt s.mem (tileData st t) (fmtBits f) i

/-- Element i of a tile register in an element format. -/
def State.tileEl (s : State) (st t f i : Nat) : FV := decEl f (s.tileBits st t f i)

/-- The block of an element under GRP, which is also the number of its exponent entry (R183). -/
def grpBlock (grp i : Nat) : Nat :=
  if grp = 0 then i / 32 else if grp = 1 then 32 * (i / 1024) + i % 32 else i / 1024

/-- The elements of a block under GRP, in order. -/
def grpMembers (grp b : Nat) : List Nat :=
  if grp = 0 then (List.range 32).map (fun j => 32 * b + j)
  else if grp = 1 then (List.range 32).map (fun r => 1024 * (b / 32) + 32 * r + b % 32)
  else (List.range 1024).map (fun j => 1024 * b + j)

/-- The blocks that hold an element below a count. -/
def grpBlocks (grp n : Nat) : List Nat :=
  (List.range (if grp = 2 then ceilDiv n 1024 else if grp = 1 then 32 * ceilDiv n 1024 else ceilDiv n 32)).filter
    (fun b => (grpMembers grp b).any (fun i => i < n))

/-- Element i of a tile register in a block format (R183, R184). -/
def State.tileBlk (s : State) (st t f grp : Nat) (sgn : Bool) (i : Nat) : Ex :=
  decBlock f sgn (Memory.rd s.mem (tileExp st t + grpBlock grp i)).toNat (s.tileBits st t f i)

/-- Element i of a tile register in any format. -/
def State.tileAny (s : State) (st t f grp : Nat) (sgn : Bool) (i : Nat) : FV :=
  if isBlock f then .fin false (s.tileBlk st t f grp sgn i) else s.tileEl st t f i

-- Issue.

def WinSt.thread (w : WinSt) (th : Nat) : WinCtx := Tab.get w.ctx {} th
def WinSt.setThread (w : WinSt) (th : Nat) (c : WinCtx) : WinSt := { w with ctx := Tab.put w.ctx th c }
def WinCtx.count (c : WinCtx) (n : Nat) : Nat := if n = 0 then c.c0 else if n = 1 then c.c1 else if n = 2 then c.c2 else c.c3

/-- The thread state of a Winnow engine. -/
def State.wctx (s : State) (st th : Nat) : WinCtx := (s.winnow st).thread th
def State.setWctx (s : State) (st th : Nat) (c : WinCtx) : State := s.setWinnow st ((s.winnow st).setThread th c)

/-- The count of a form V instruction. -/
def State.winCount (s : State) (st th : Nat) (x : Word) : Nat := (s.wctx st th).count (insBits x 22 2)

/-- A refused Winnow instruction (R206, R210, R211): no effect, the engine halts and a job fault is raised. -/
def State.winRefuse (s : State) (st th : Nat) (i : WinIns) (bits : List Nat) : State :=
  let t := (s.refuse (winErr st) bits [(32, 2, th), (40, 6, winOp i.word), (46, 1, 0)] (winErrAddr st) i.pc.toNat).haltWinnow st
  t.jobFault (engWin st) ((t.reg (winErr st)).toNat % 2 ^ 32) i.pc.toNat 0

/-- An uncorrectable error in data that an instruction reads: it never completes (R205). -/
def State.winMemHalt (s0 : State) (st : Nat) : State :=
  let s := s0.setWinnow st { s0.winnow st with fails := (s0.winnow st).fails + 1 }
  let t := (s.setBit (winErr st) 9).haltWinnow st
  t.jobFault (engWin st) ((t.reg (winErr st)).toNat % 2 ^ 32) 0 0

/-- The signals that a thread issued after an instruction follow it once it is complete (R229). -/
def State.winAfter (s : State) (st th : Nat) (sigs : List DeferSig) : State := sigs.foldl (fun v x => v.afterIssued st th x) s

/-- The signals that follow an instruction act once it is complete; behind one that has failed since the state `t` they never
do (R205, R229). -/
def State.winEnd (s t : State) (st th : Nat) (sigs : List DeferSig) : State :=
  if (s.winnow st).fails = (t.winnow st).fails then s.winAfter st th sigs else s

/-- The tile registers that an instruction reads or writes. -/
def winRegs (x : Word) : List Nat :=
  let op := winOp x
  let two := (0x10 ≤ op && op ≤ 0x16) || op == 0x1A || (0x20 ≤ op && op ≤ 0x2D) || op == 0x32 || (0x38 ≤ op && op ≤ 0x3B)
  (if 0x08 ≤ op ∧ op ≤ 0x3C then [winTD x] else []) ++ (if 0x10 ≤ op ∧ op ≤ 0x3B then [winTA x] else []) ++
    (if two then [winTB x] else []) ++ (if op = 0x13 ∨ op = 0x14 ∨ op = 0x24 then [winTC x] else [])

/-- XA + 16 × OFF of LD and ST, modulo 2^64. -/
def winAddr (i : WinIns) : Nat := ofSigned 64 ((i.xa.toNat : Int) + 16 * toSigned 18 (insBits i.word 0 18))

/-- The memory that a load or store of a count of elements names (R192, R201, R202). -/
def winRuns (i : WinIns) (n : Nat) : List (Nat × Nat) :=
  let f := winFmt i.word
  match winOp i.word with
  | 0x04 => [(i.xa.toNat, 24592)]
  | 0x08 | 0x09 => [(winAddr i, ceilDiv (n * fmtBits f) 8), (i.xb.toNat, if isBlock f then ceilDiv n 32 else 0)]
  | 0x0A | 0x0B =>
    let w := 2 ^ insBits i.word 0 3
    (List.range (n / w)).map (fun k => (i.xa.toNat + k * i.xb.toNat, w * (fmtBits f / 8)))
  | _ => []

/-- An ACCRD that waits for its groups is issued: an instruction that reads or writes the register or, with AM, the RUN that it
will write is held back until it is complete (R174, R203). -/
def State.winHeld (s : State) (st th : Nat) (i : WinIns) : Bool :=
  match (s.winnow st).accWait with
  | none => false
  | some (k, j, _) =>
    let run := (s.wctx st k).amax.toNat + 68
    winOp j.word == 0x3C && ((winRegs i.word).contains (winTD j.word) ||
      (insBits j.word 19 1 == 1 && (winRuns i (s.winCount st th i.word)).any (fun r => decide (r.1 < run + 4) && decide (run < r.1 + r.2))))

/-- Issue the oldest queued instruction of a thread and run a body on it; the body works on the state without the
instruction (R173, R174), and the signals that its thread issued after it follow (R229), unless the instruction now waits
for a hand-over. A thread whose accumulator read waits issues nothing (R198), and what depends on that read is held back. A
reserved OP is refused by whichever command meets it. -/
def winRun (st : Strip) (th : Thread) (op : Nat) (s : State) (body : WinIns → State → State) : Out :=
  let w := s.winnow st.val
  let c := w.thread th.val
  match c.queue with
  | [] => stutter s
  | i :: r =>
    if w.halted || w.holds th.val || s.winHeld st.val th.val i then stutter s
    else
      let t := (s.setWinnow st.val (w.setThread th.val { c with queue := r })).count (winCntInsn st.val) 1
      if winReserved (winOp i.word) then .next ((t.winRefuse st.val th.val i [0]).winAfter st.val th.val i.sigs)
      else if winOp i.word ≠ op then stutter s
      else
        let u := body i t
        .next (if (u.winnow st.val).holds th.val then u else u.winEnd t st.val th.val i.sigs)

/-- The dither word of destination element i when RM is sr (R186). -/
def State.winDither (s : State) (st th : Nat) (sr : Bool) (i : Nat) : Option Nat :=
  if sr then
    let w := s.winnow st
    let c := w.thread th
    some (s.dither w.step.toNat c.site.toNat w.parcel.toNat ((c.idxBase.toNat + i) % 2 ^ 34))
  else none

/-- The clk for which an Element instruction occupies its unit (R175, R213). -/
def elemClk (n f g : Nat) : Nat := max 1 (ceilDiv (n * max (fmtBits f) (fmtBits g)) 32768)

/-- Write element results with what their conversion met. -/
def State.winPut (s : State) (st : Nat) (x : Word) (g : Nat) (rs : List (Nat × Cv)) : State :=
  (s.putTile st (winTD x) g (rs.map Prod.fst) (winZt x)).conv st (Cv.all (rs.map Prod.snd))

/-- Elements that a saturated block clamps are no narrowed elements: BLOCK_SAT alone shows them (DESIGN CHOICE, log
entry 105). Write values in a block format (R103, R126, R183, R184): each block that holds a present element is aligned over
its present elements, its absent elements are written as mantissa 0, and its exponent entry is written. -/
def State.winPutBlocks (s : State) (st td g grp : Nat) (dsgn zt : Bool) (xs : List (Ex × Cv)) (dith : Nat → Option Nat) : State :=
  let n := xs.length
  let w := fmtBits g
  let sgn := blockSigned g dsgn
  let a := tileData st td
  let e := tileExp st td
  let one (acc : List Host.Cell × Bool) (b : Nat) : List Host.Cell × Bool :=
    let mem := grpMembers grp b
    let present := mem.filter (fun i => i < n)
    let (code, ms, sat) := alignBlock w sgn (present.map (fun i => ((xs.getD i (Ex.zero, {})).1, dith i)))
    let m1 := (mem.filter (fun i => ¬ i < n)).foldl (fun m i => putElem m a w i 0) acc.1
    let m2 := (present.zip ms).foldl (fun m p => putElem m a w p.1 (ofSigned w p.2)) m1
    (Memory.wr m2 (e + b) (BitVec.ofNat 8 code), acc.2 || sat)
  let blocks := grpBlocks grp n
  let (m, sat) := blocks.foldl one (s.mem, false)
  let entries := if grp = 2 then fmtCap g / 1024 else fmtCap g / 32
  let m1 := if zt then
      let rest := (List.range entries).filter (fun b => !blocks.contains b)
      let z := rest.foldl (fun k b => Memory.wr k (e + b) 0) m
      (rest.map (grpMembers grp)).flatten.foldl (fun k i => putElem k a w i 0) z
    else m
  ({ s with mem := m1 }).conv st (Cv.join (Cv.all (xs.map Prod.snd)) { blockSat := sat })

-- Amax records (R105, R106, R187).

/-- The conditions under which AM is accepted, but for the record's TARGET (R187). -/
def State.amaxOk (s : State) (st th g : Nat) : Bool :=
  let r := (s.wctx st th).amax.toNat
  inSlice st r 80 && r % 16 = 0 && (g = 2 || g = 3 || g = 4)

/-- Read the scale exponent K and the TARGET of the thread's amax record (R187); none on an uncorrectable error. -/
def State.amaxHead (s : State) (st th : Nat) : State × Option (Int × Nat) :=
  let r := (s.wctx st th).amax.toNat
  match s.read (engWin st) (r + 64) 16 with
  | (t, none) => (t, none)
  | (t, some bs) => (t, some (toSigned 8 (msgNat bs 1 1), msgNat bs 3 1 % 16))

/-- The scale exponent of an instruction: its SCALE field, or under AM the K of the record, whose TARGET must be the
destination format (R187). The list is what is broken; no scale on an uncorrectable error. -/
def State.winScale (s : State) (st th g : Nat) (am : Bool) (field : Nat) : State × Option (Int × List Nat) :=
  if ¬ am then (s, some (toSigned 8 field, []))
  else if ¬ s.amaxOk st th g then (s, some (0, [7]))
  else
    match s.amaxHead st th with
    | (t, none) => (t, none)
    | (t, some (k, target)) => (t, some (k, broken [(target != g, 7)]))

/-- Raise RUN to the largest contribution of an instruction (R106, R187); the flag is false on an uncorrectable error. -/
def State.amaxRun (s : State) (st th : Nat) (vs : List FV) : State × Bool :=
  let r := (s.wctx st th).amax.toNat
  let m := vs.foldl (fun acc v => match v with
    | .fin _ x => max acc (amaxBits x)
    | _ => acc) 0
  match s.read (engWin st) (r + 68) 4 with
  | (t, none) => (t, false)
  | (t, some bs) => (if m > leNat bs then t.writeNat (engWin st) (r + 68) 4 m else t, true)

/-- The same for an instruction with AM; one without has no record. -/
def State.amaxStep (s : State) (st th : Nat) (am : Bool) (vs : List FV) : State × Bool :=
  if am then s.amaxRun st th vs else (s, true)

end Sys2Proof.Machine
end

