-- ==== Sys2Proof/Machine/Winnow.lean ====
section
/-!
DEFINITION. The Winnow instructions of chapter 5 and the gate commands of R236 and R655, one meaning each over the
shared operations.
-/

namespace Sys2Proof.Machine
open Sys2Proof

-- Control (R168, R169).

def execWinNop (st : Strip) (th : Thread) (s : State) : Out := winRun st th 0x00 s (fun _ t => t)

/-- SETCNT: VALUE or a scalar register's bits [12:0]; above 4,096 it is refused (R168, R169). -/
def execSetcnt (st : Strip) (th : Thread) (s : State) : Out :=
  winRun st th 0x01 s (fun i t =>
    let v := if insBits i.word 53 1 = 1 then i.xa.toNat % 8192 else insBits i.word 0 13
    if v > 4096 then t.winRefuse st.val th.val i [2]
    else
      let c := t.wctx st.val th.val
      let n := insBits i.word 54 2
      (t.setWctx st.val th.val
        (if n = 0 then { c with c0 := v } else if n = 1 then { c with c1 := v }
         else if n = 2 then { c with c2 := v } else { c with c3 := v })))

/-- SETDITH: IDXBASE and SITE (R168, R186). -/
def execSetdith (st : Strip) (th : Thread) (s : State) : Out :=
  winRun st th 0x02 s (fun i t =>
    let c := t.wctx st.val th.val
    (t.setWctx st.val th.val { c with idxBase := i.xa.setWidth 34, site := BitVec.ofNat 28 (insBits i.word 0 28) }))

/-- SETAMAX: the amax record address (R168, R187). -/
def execSetamax (st : Strip) (th : Thread) (s : State) : Out :=
  winRun st th 0x03 s (fun i t =>
    let c := t.wctx st.val th.val
    (t.setWctx st.val th.val { c with amax := i.xa.setWidth 48 }))

/-- An FP32 word is finite. -/
def finite32 (b : Nat) : Bool := b / 2 ^ 23 % 256 != 255

/-- The FP32 words of a run of bytes. -/
def words32 : Nat → List Byte → List (BitVec 32)
  | 0, _ => []
  | n + 1, bs => BitVec.ofNat 32 (leNat (bs.take 4)) :: words32 n (bs.drop 4)

def State.setLut (s : State) (st p : Nat) (l : LutPair) : State :=
  let w := s.winnow st
  s.setWinnow st { w with luts := Tab.put w.luts p l }

/-- LUTLD: load a table pair; a refused or failed load leaves the pair not valid, and nothing else of it changes (R192,
R205). -/
def execLutld (st : Strip) (th : Thread) (s : State) : Out :=
  winRun st th 0x04 s (fun i t =>
    let p := insBits i.word 53 3
    let a := i.xa.toNat
    let t0 := t.setLut st.val p { Tab.get (t.winnow st.val).luts {} p with valid := false }
    if ¬ (inSlice st.val a 24592 ∧ a % 16 = 0) then t0.winRefuse st.val th.val i [4]
    else
      match t0.read (engWin st.val) a 24592 with
      | (u, none) => u.winMemHalt st.val
      | (u0, some bs) =>
        let u := u0.clk (winCntMemwait st.val)
        let lo := msgNat bs 0 4
        let sh := msgNat bs 4 1
        let mode := msgNat bs 5 1
        let f := words32 3072 (bs.drop 16)
        let d := words32 3072 (bs.drop 12304)
        let ok := finite32 lo && f.all (fun x => finite32 x.toNat) && d.all (fun x => finite32 x.toNat) &&
          decide (-24 ≤ toSigned 8 sh ∧ toSigned 8 sh ≤ 8) && mode ≤ 1 && msgNat bs 6 10 = 0
        if ok then
          (u.setLut st.val p { valid := true, lo := BitVec.ofNat 32 lo, sh := BitVec.ofNat 8 sh,
                                    exp2 := mode = 1, f := f, d := d })
        else (u.winRefuse st.val th.val i [6]))

/-- WSIG: a signal to a counter of the strip once every instruction issued before it is complete, of any thread: the one
that can still be under way is the accumulator read that waits (R204). -/
def execWsig (st : Strip) (th : Thread) (s : State) : Out :=
  winRun st th 0x05 s (fun i t =>
    let c := insBits i.word 50 6
    let a := insBits i.word 42 8
    if c > 47 ∨ a = 0 then t.winRefuse st.val th.val i [8]
    else
      let w := t.winnow st.val
      if w.accWait.isSome then t.setWinnow st.val { w with later := w.later ++ [⟨th.val, c, a, []⟩] }
      else t.updateCtr st.val c a)

-- Memory (R200 to R205).

/-- The reach of Winnow's loads and stores, tested on the lowest and the highest byte (R200). -/
def winReach (a n : Nat) : Bool := n = 0 || ((inPlot a || inBuf a) && (inPlot (a + n - 1) || inBuf (a + n - 1)))

/-- What LD and ST break (R170, R200, R201): format, count, and address of mantissas or exponents. -/
def ldstBad (i : WinIns) (n : Nat) : List Nat :=
  let f := winFmt i.word
  let a := winAddr i
  let bytes := ceilDiv (n * fmtBits f) 8
  broken [(f ≥ 14, 1), (f < 14 && n > fmtCap f, 2), (a % 16 != 0 || (f < 14 && !winReach a bytes), 4),
    (isBlock f && !winReach i.xb.toNat (ceilDiv n 32), 4)]

/-- LD (R201). Mantissas and exponent entries are read before the register is written: one that meets an uncorrectable
error leaves the register as it was (R205; DESIGN CHOICE, log entry 104). -/
def execWinLd (st : Strip) (th : Thread) (s : State) : Out :=
  winRun st th 0x08 s (fun i t =>
    let f := winFmt i.word
    let n := t.winCount st.val th.val i.word
    let bad := ldstBad i n
    if bad ≠ [] then t.winRefuse st.val th.val i bad
    else
      let w := fmtBits f
      match t.read (engWin st.val) (winAddr i) (ceilDiv (n * w) 8) with
      | (u, none) => u.winMemHalt st.val
      | (u, some bs) =>
        let all := leNat bs
        let vs := (List.range n).map (fun k => natBits all (w * k) w)
        match u.read (engWin st.val) i.xb.toNat (if isBlock f then ceilDiv n 32 else 0) with
        | (v, none) => v.winMemHalt st.val
        | (v, some es) =>
          let x := (v.clk (winCntMemwait st.val)).putTile st.val (winTD i.word) f vs (winZt i.word)
          if isBlock f then
            let e := tileExp st.val (winTD i.word)
            let m := Memory.wrN x.mem e es
            { x with mem := if winZt i.word then Memory.zero m (e + es.length) (e + fmtCap f / 32) else m }
          else x)

/-- ST (R201). -/
def execWinSt (st : Strip) (th : Thread) (s : State) : Out :=
  winRun st th 0x09 s (fun i t =>
    let f := winFmt i.word
    let n := t.winCount st.val th.val i.word
    let bad := ldstBad i n
    if bad ≠ [] then t.winRefuse st.val th.val i bad
    else
      let vs := (List.range n).map (fun k => t.tileBits st.val (winTD i.word) f k)
      let u := t.write (engWin st.val) (winAddr i) (packElems (fmtBits f) vs)
      if isBlock f then
        (u.write (engWin st.val) i.xb.toNat (Memory.rdN t.mem (tileExp st.val (winTD i.word)) (ceilDiv n 32)))
      else u)

/-- What LDR and STR break (R170, R200, R202). The stride XB is taken as unsigned and XA + k × XB does not wrap, so a row
beyond the address space is out of reach (DESIGN CHOICE, log entry 104); XA + 16 × OFF of LD and ST wraps modulo 2^64. -/
def rowsBad (i : WinIns) (n : Nat) : List Nat :=
  let f := winFmt i.word
  let w := 2 ^ insBits i.word 0 3
  let sz := fmtBits f / 8
  let rows := n / w
  broken [(!isElem f, 1), ((isElem f && n > fmtCap f) || n % w != 0, 2),
    (isElem f && (i.xa.toNat % sz != 0 || i.xb.toNat % sz != 0 ||
      (rows != 0 && !winReach i.xa.toNat ((rows - 1) * i.xb.toNat + w * sz))), 4)]

/-- Read rows of bytes at a stride. -/
def readRows (src stride len : Nat) : Nat → Nat → State → List Byte → State × Option (List Byte)
  | 0, _, s, acc => (s, some acc)
  | k + 1, a, s, acc =>
    match s.read src a len with
    | (t, none) => (t, none)
    | (t, some bs) => readRows src stride len k (a + stride) t (acc ++ bs)

/-- LDR (R202). -/
def execLdr (st : Strip) (th : Thread) (s : State) : Out :=
  winRun st th 0x0A s (fun i t =>
    let f := winFmt i.word
    let n := t.winCount st.val th.val i.word
    let bad := rowsBad i n
    if bad ≠ [] then t.winRefuse st.val th.val i bad
    else
      let w := 2 ^ insBits i.word 0 3
      match readRows (engWin st.val) i.xb.toNat (w * fmtBits f / 8) (n / w) i.xa.toNat t [] with
      | (u, none) => u.winMemHalt st.val
      | (u0, some bs) =>
        let u := u0.clk (winCntMemwait st.val)
        let all := leNat bs
        (u.putTile st.val (winTD i.word) f ((List.range n).map (fun k => natBits all (fmtBits f * k) (fmtBits f)))
          (winZt i.word)))

/-- STR (R202). -/
def execStr (st : Strip) (th : Thread) (s : State) : Out :=
  winRun st th 0x0B s (fun i t =>
    let f := winFmt i.word
    let n := t.winCount st.val th.val i.word
    let bad := rowsBad i n
    if bad ≠ [] then t.winRefuse st.val th.val i bad
    else
      let w := 2 ^ insBits i.word 0 3
      ((List.range (n / w)).foldl (fun u k =>
        u.write (engWin st.val) (i.xa.toNat + k * i.xb.toNat)
          (packElems (fmtBits f) ((List.range w).map (fun j => t.tileBits st.val (winTD i.word) f (k * w + j))))) t))

-- Element instructions (R176 to R181).

/-- What an element instruction breaks: formats that the operation does not accept, and counts (R170, R176). A count beyond the
capacity of a format that the operation refuses anyway sets no COUNT: it reads no such format (DESIGN CHOICE, log entry 104). -/
def elemBad (f g n : Nat) (extra : Bool) : List Nat :=
  broken [(!isElem f || !isElem g || extra, 1), ((isElem f && n > fmtCap f) || (isElem g && n > fmtCap g), 2)]

/-- One element or special instruction (R164): an exact result of a, b and c for every element, rounded once to FMT2 (R176). DIV,
SQRT and RSQRT run in the Special unit, which WIN_CNT_ELEM does not count. -/
def elemOp (st : Strip) (th : Thread) (op : Nat) (extra : Nat → Nat → Bool) (s : State)
    (val : WinIns → FV → FV → FV → Res) : Out :=
  winRun st th op s (fun i t =>
    let x := i.word
    let f := winFmt x
    let g := winFmt2 x
    let n := t.winCount st.val th.val x
    let bad := elemBad f g n (extra f g)
    if bad ≠ [] then t.winRefuse st.val th.val i bad
    else
      let rs := (List.range n).map (fun k =>
        let a := t.tileEl st.val (winTA x) f k
        let b := t.tileEl st.val (winTB x) f (if winBc x then 0 else k)
        let c := t.tileEl st.val (winTC x) g k
        encRes g (t.winDither st.val th.val (winRm x) k) (winOv x) (val i a b c))
      let u := t.winPut st.val x g rs
      if op ≤ 0x19 then u.count (winCntElem st.val) (elemClk n f g) else u)

/-- No format beyond R176 is refused. -/
def anyFmt (_ _ : Nat) : Bool := false
/-- An operation of floating formats alone (R177). -/
def floatOnly (f g : Nat) : Bool := !isFloat f || !isFloat g

def execWinAdd (st : Strip) (th : Thread) (s : State) : Out := elemOp st th 0x10 anyFmt s (fun _ a b _ => .val (a.add b))
def execWinSub (st : Strip) (th : Thread) (s : State) : Out := elemOp st th 0x11 anyFmt s (fun _ a b _ => .val (a.add b.neg))
def execWinMul (st : Strip) (th : Thread) (s : State) : Out := elemOp st th 0x12 anyFmt s (fun _ a b _ => .val (a.mul b))
def execFma (st : Strip) (th : Thread) (s : State) : Out :=
  elemOp st th 0x13 anyFmt s (fun _ a b c => .val ((a.mul b).add c))
def execNfma (st : Strip) (th : Thread) (s : State) : Out :=
  elemOp st th 0x14 anyFmt s (fun _ a b c => .val ((a.mul b).neg.add c))
def execWinMin (st : Strip) (th : Thread) (s : State) : Out := elemOp st th 0x15 anyFmt s (fun _ a b _ => .val (a.min b))
def execWinMax (st : Strip) (th : Thread) (s : State) : Out := elemOp st th 0x16 anyFmt s (fun _ a b _ => .val (a.max b))
def execAbs (st : Strip) (th : Thread) (s : State) : Out := elemOp st th 0x17 anyFmt s (fun _ a _ _ => .val a.abs)
def execNeg (st : Strip) (th : Thread) (s : State) : Out := elemOp st th 0x18 anyFmt s (fun _ a _ _ => .val a.neg)
def execScl (st : Strip) (th : Thread) (s : State) : Out :=
  elemOp st th 0x19 anyFmt s (fun i a _ _ => .val (a.scale (toSigned 8 (insBits i.word 0 8))))
def execDiv (st : Strip) (th : Thread) (s : State) : Out := elemOp st th 0x1A floatOnly s (fun _ a b _ => a.div b)
def execSqrt (st : Strip) (th : Thread) (s : State) : Out := elemOp st th 0x1B floatOnly s (fun _ a _ _ => .val a.sqrt)
def execRsqrt (st : Strip) (th : Thread) (s : State) : Out := elemOp st th 0x1C floatOnly s (fun _ a _ _ => a.rsqrt)

/-- The element that a comparison writes: −1 or 1.0 for true, 0 for false (R178). -/
def truth (g : Nat) (b : Bool) : Nat × Cv := encEl g none false (.fin false (Ex.ofInt (if b then (if isInt g then -1 else 1) else 0)))

/-- One comparison (R178). -/
def cmpOp (st : Strip) (th : Thread) (op : Nat) (s : State) (p : FV → FV → Bool) : Out :=
  winRun st th op s (fun i t =>
    let x := i.word
    let f := winFmt x
    let g := winFmt2 x
    let n := t.winCount st.val th.val x
    let bad := elemBad f g n false
    if bad ≠ [] then t.winRefuse st.val th.val i bad
    else
      let rs := (List.range n).map (fun k =>
        truth g (p (t.tileEl st.val (winTA x) f k) (t.tileEl st.val (winTB x) f (if winBc x then 0 else k))))
      ((t.winPut st.val x g rs).count (winCntElem st.val) (elemClk n f g)))

def execCmpeq (st : Strip) (th : Thread) (s : State) : Out := cmpOp st th 0x20 s FV.eqNum
def execCmpne (st : Strip) (th : Thread) (s : State) : Out := cmpOp st th 0x21 s (fun a b => !a.eqNum b)
def execCmplt (st : Strip) (th : Thread) (s : State) : Out :=
  cmpOp st th 0x22 s (fun a b => a != .nan && b != .nan && a.ltNum b)
def execCmple (st : Strip) (th : Thread) (s : State) : Out :=
  cmpOp st th 0x23 s (fun a b => a != .nan && b != .nan && !b.ltNum a)

/-- SEL: a where element i of TC has any bit set, b otherwise (R179). -/
def execSel (st : Strip) (th : Thread) (s : State) : Out :=
  winRun st th 0x24 s (fun i t =>
    let x := i.word
    let f := winFmt x
    let g := winFmt2 x
    let n := t.winCount st.val th.val x
    let bad := elemBad f g n false
    if bad ≠ [] then t.winRefuse st.val th.val i bad
    else
      let rs := (List.range n).map (fun k =>
        let v := if t.tileBits st.val (winTC x) g k ≠ 0 then t.tileEl st.val (winTA x) f k
          else t.tileEl st.val (winTB x) f (if winBc x then 0 else k)
        encEl g (t.winDither st.val th.val (winRm x) k) (winOv x) v)
      ((t.winPut st.val x g rs).count (winCntElem st.val) (elemClk n f g)))

/-- One bitwise or shift instruction on an integer format (R180). -/
def bitOp (st : Strip) (th : Thread) (op : Nat) (s : State) (val : WinIns → Nat → Nat → Nat → Nat × Cv) : Out :=
  winRun st th op s (fun i t =>
    let x := i.word
    let f := winFmt x
    let g := winFmt2 x
    let n := t.winCount st.val th.val x
    let bad := broken [(!isInt f || !isInt g || f != g, 1), ((isElem f && n > fmtCap f) || (isElem g && n > fmtCap g), 2)]
    if bad ≠ [] then t.winRefuse st.val th.val i bad
    else
      let rs := (List.range n).map (fun k =>
        val i (fmtBits f) (t.tileBits st.val (winTA x) f k) (t.tileBits st.val (winTB x) f (if winBc x then 0 else k)))
      ((t.winPut st.val x g rs).count (winCntElem st.val) (elemClk n f g)))

def execWinAnd (st : Strip) (th : Thread) (s : State) : Out := bitOp st th 0x28 s (fun _ _ a b => (a &&& b, {}))
def execWinOr (st : Strip) (th : Thread) (s : State) : Out := bitOp st th 0x29 s (fun _ _ a b => (a ||| b, {}))
def execWinXor (st : Strip) (th : Thread) (s : State) : Out := bitOp st th 0x2A s (fun _ _ a b => (a ^^^ b, {}))
def execWinShl (st : Strip) (th : Thread) (s : State) : Out :=
  bitOp st th 0x2B s (fun i w a b =>
    encInt (winFmt i.word) none (winOv i.word) (Ex.ofInt (toSigned w a * 2 ^ (b % 64))))
def execWinShra (st : Strip) (th : Thread) (s : State) : Out :=
  bitOp st th 0x2C s (fun _ w a b => (ofSigned w (toSigned w a / 2 ^ (b % 64)), {}))
def execWinShrl (st : Strip) (th : Thread) (s : State) : Out :=
  bitOp st th 0x2D s (fun _ _ a b => (a / 2 ^ (b % 64), {}))

-- Conversion (R182 to R187).

/-- What a conversion to FMT2 under GRP breaks. -/
def cvtBad (f g n grp : Nat) (bc : Bool) : List Nat :=
  broken [(f ≥ 14 || g ≥ 14, 1), ((f < 14 && n > fmtCap f) || (g < 14 && n > fmtCap g), 2), (bc, 3),
    (grp = 3 && (isBlock f || isBlock g), 0)]

/-- CVT (R182 to R187). With AM the record is read first: one that cannot be read halts the engine with MEM alone, whatever
else the instruction breaks (DESIGN CHOICE, log entry 104). -/
def execCvt (st : Strip) (th : Thread) (s : State) : Out :=
  winRun st th 0x30 s (fun i t =>
    let x := i.word
    let f := winFmt x
    let g := winFmt2 x
    let n := t.winCount st.val th.val x
    let grp := insBits x 0 2
    let am := insBits x 17 1 = 1
    match t.winScale st.val th.val g am (insBits x 8 8) with
    | (u, none) => u.winMemHalt st.val
    | (u, some (k, amBad)) =>
      let bad := cvtBad f g n grp (winBc x) ++ amBad
      if bad ≠ [] then u.winRefuse st.val th.val i bad
      else
        let src := (List.range n).map (fun j => u.tileAny st.val (winTA x) f grp (insBits x 7 1 = 1) j)
        let dith := u.winDither st.val th.val (winRm x)
        if isBlock g then
          let sgn := blockSigned g (insBits x 16 1 = 1)
          (u.winPutBlocks st.val (winTD x) g grp (insBits x 16 1 = 1) (winZt x)
            (src.map (fun v => replace89 f sgn (v.scale k))) dith)
        else
          let rs := (List.range n).zip src |>.map (fun p => encEl g (dith p.1) (winOv x) (p.2.scale k))
          match u.amaxStep st.val th.val am src with
          | (v, false) => v.winMemHalt st.val
          | (v, true) =>
            let v1 := v.winPut st.val x g rs
            (if isBlock f then v1 else v1.count (winCntElem st.val) (elemClk n f g)))

-- Lookup (R193 to R195).

/-- The number that a float holds; 0 for one that holds none. -/
def FV.num : FV → Ex
  | .fin _ x => x
  | _ => Ex.zero

/-- The input of exp2 mode, clamped to −160 to 128; infinities clamp too. -/
def lutClamp : FV → Ex
  | .nan => Ex.zero
  | .inf neg => if neg then Ex.ofInt (-160) else Ex.ofInt 128
  | .fin _ x => if Ex.lt x (Ex.ofInt (-160)) then Ex.ofInt (-160) else if Ex.lt (Ex.ofInt 128) x then Ex.ofInt 128 else x

/-- The interval of the domain in which x lies: below 0 or above 1023 where x lies outside. -/
def lutInterval (l : LutPair) (x : Ex) : Int := ((x.sub (decFloat 0 l.lo.toNat).num).floorAt l.sh.toInt).1

/-- The polynomial at an interval, at its end where the input lies outside the domain; the flag says that it does. -/
def lutPoint (l : LutPair) (tab : List (BitVec 32)) (x : Ex) (i : Int) : Ex × Bool :=
  let coef (j : Nat) : Ex := (decFloat 0 (tab.getD j 0).toNat).num
  let sh := l.sh.toInt
  let idx := (clampInt i 0 1023).toNat
  let u : Int := if i < 0 then 0 else if i > 1023 then 2 ^ 24 - 1
    else (((x.sub (decFloat 0 l.lo.toNat).num).sub ⟨(idx : Int), 1, sh⟩).scale (24 - sh)).floor
  let q : Ex := ⟨u, 1, -24⟩
  (((coef (3 * idx)).add ((coef (3 * idx + 1)).mul q)).add ((coef (3 * idx + 2)).mul (q.mul q)), decide (i < 0 ∨ i > 1023))

/-- exp2 mode: the fraction is looked up and the integer part scales. -/
def lutExp2 (l : LutPair) (tab : List (BitVec 32)) (v : FV) : Ex × Bool :=
  let n := (lutClamp v).floor
  let x := (lutClamp v).sub (Ex.ofInt n)
  let p := lutPoint l tab x (lutInterval l x)
  (p.1.scale n, p.2)

/-- Plain mode: an infinity lies outside the domain. -/
def lutPlain (l : LutPair) (tab : List (BitVec 32)) : FV → Ex × Bool
  | .nan => (Ex.zero, false)
  | .inf neg => lutPoint l tab Ex.zero (if neg then -1 else 1024)
  | .fin _ x => lutPoint l tab x (lutInterval l x)

/-- Table evaluation of R193: the exact y, and whether the input lay outside the domain; none for a NaN. As its pseudocode
has it, an input outside the domain counts in either mode, where R212 speaks of plain mode alone (DESIGN CHOICE, log
entry 104). -/
def lutEval (l : LutPair) (tab : List (BitVec 32)) (v : FV) : Option (Ex × Bool) :=
  if v = .nan then none else some (if l.exp2 then lutExp2 l tab v else lutPlain l tab v)

/-- One lookup instruction; `deriv` says that it evaluates table D and multiplies by b (R193, R194). -/
def lutOp (st : Strip) (th : Thread) (op : Nat) (deriv : Bool) (s : State) : Out :=
  winRun st th op s (fun i t =>
    let x := i.word
    let f := winFmt x
    let g := winFmt2 x
    let n := t.winCount st.val th.val x
    let l := Tab.get (t.winnow st.val).luts {} (insBits x 0 3)
    let bad := elemBad f g n false ++ broken [(winBc x && !deriv, 3), (!l.valid, 6)]
    if bad ≠ [] then t.winRefuse st.val th.val i bad
    else
      let rs := (List.range n).map (fun k =>
        let d := t.winDither st.val th.val (winRm x) k
        match lutEval l (if deriv then l.d else l.f) (t.tileEl st.val (winTA x) f k) with
        | none => encEl g d (winOv x) .nan
        | some (y, out) =>
          let v : FV := .fin false y
          let r := if deriv then v.mul (t.tileEl st.val (winTB x) f (if winBc x then 0 else k)) else v
          let e := encEl g d (winOv x) r
          (e.1, e.2.join { lutRange := out }))
      (t.winPut st.val x g rs))

def execLut (st : Strip) (th : Thread) (s : State) : Out := lutOp st th 0x31 false s
def execLutd (st : Strip) (th : Thread) (s : State) : Out := lutOp st th 0x32 true s

-- Reductions and segments (R188 to R191).

/-- Reduce values; no value gives +0 (R188). A zero sum is −0 where every source is −0 (DESIGN CHOICE, log entry 104: R188
gives a sign only for a count of 0). -/
def reduceFV (f : FV → FV → FV) : List FV → FV
  | [] => .fin false Ex.zero
  | v :: r => r.foldl f v

/-- One reduction to element 0 of TD (R188). -/
def redOp (st : Strip) (th : Thread) (op : Nat) (s : State) (f : FV → FV → FV) : Out :=
  winRun st th op s (fun i t =>
    let x := i.word
    let a := winFmt x
    let g := winFmt2 x
    let n := t.winCount st.val th.val x
    let bad := broken [(!isElem a || !isElem g, 1), (isElem a && n > fmtCap a, 2)]
    if bad ≠ [] then t.winRefuse st.val th.val i bad
    else
      let v := reduceFV f ((List.range n).map (fun k => t.tileEl st.val (winTA x) a k))
      (t.winPut st.val x g [encEl g (t.winDither st.val th.val (winRm x) 0) (winOv x) v]))

def execRsum (st : Strip) (th : Thread) (s : State) : Out := redOp st th 0x34 s FV.add
def execRmax (st : Strip) (th : Thread) (s : State) : Out := redOp st th 0x35 s FV.max
def execRmin (st : Strip) (th : Thread) (s : State) : Out := redOp st th 0x36 s FV.min

/-- Segment identifier k: element k of TB, or of TB + 1 from 2,048 on (R189). -/
def segId (s : State) (st tb k : Nat) : Int :=
  toSigned 16 (if k < 2048 then s.tileBits st tb 6 k else s.tileBits st (tb + 1) 6 (k - 2048))

/-- What a segment operation breaks (R189); `capF` is the format that NSEG × W must fit. -/
def segBad (x : Word) (n f g capF : Nat) (destCount : Nat) : List Nat :=
  let w := 2 ^ insBits x 0 3
  let nseg := insBits x 3 13
  broken [(!isElem f || !isElem g, 1),
    ((isElem f && n > fmtCap f) || (isElem g && destCount > fmtCap g) || n % w != 0 || nseg = 0 || nseg > 4096 ||
      (isElem capF && nseg * w > fmtCap capF), 2),
    (winBc x || (n / w > 2048 && winTB x = 63), 3)]

/-- One segment reduction (R190). -/
def segOp (st : Strip) (th : Thread) (op : Nat) (s : State) (f : FV → FV → FV) : Out :=
  winRun st th op s (fun i t =>
    let x := i.word
    let a := winFmt x
    let g := winFmt2 x
    let n := t.winCount st.val th.val x
    let w := 2 ^ insBits x 0 3
    let nseg := insBits x 3 13
    let bad := segBad x n a g g 0
    if bad ≠ [] then t.winRefuse st.val th.val i bad
    else
      let ids := (List.range (n / w)).map (fun k => segId t st.val (winTB x) k)
      let src := (List.range n).map (fun k => t.tileEl st.val (winTA x) a k)
      let tagged := (List.range n).zip src
      let rs := (List.range (nseg * w)).map (fun d =>
        let mine := tagged.filter (fun p => ids.getD (p.1 / w) 0 = (d / w : Nat) ∧ p.1 % w = d % w)
        encEl g (t.winDither st.val th.val (winRm x) d) (winOv x) (reduceFV f (mine.map (·.2))))
      let out := ids.any (fun k => k < 0 || k ≥ nseg)
      ((t.winPut st.val x g rs).conv st.val { segRange := out }))

def execSegsum (st : Strip) (th : Thread) (s : State) : Out := segOp st th 0x38 s FV.add
def execSegmax (st : Strip) (th : Thread) (s : State) : Out := segOp st th 0x39 s FV.max
def execSegmin (st : Strip) (th : Thread) (s : State) : Out := segOp st th 0x3A s FV.min

/-- SEGBC: a gather of segments' elements (R191). -/
def execSegbc (st : Strip) (th : Thread) (s : State) : Out :=
  winRun st th 0x3B s (fun i t =>
    let x := i.word
    let f := winFmt x
    let g := winFmt2 x
    let n := t.winCount st.val th.val x
    let w := 2 ^ insBits x 0 3
    let nseg := insBits x 3 13
    let bad := segBad x n f g f n
    if bad ≠ [] then t.winRefuse st.val th.val i bad
    else
      let rs := (List.range n).map (fun k =>
        let id := segId t st.val (winTB x) (k / w)
        if id < 0 ∨ id ≥ nseg then (0, { segRange := true })
        else encEl g (t.winDither st.val th.val (winRm x) k) (winOv x) (t.tileEl st.val (winTA x) f (id.toNat * w + k % w)))
      (t.winPut st.val x g rs))

-- Accumulator reads (R134 to R136, R196 to R199).

/-- The arrays of a mask in rising order. -/
def maskArrays (m : Nat) : List Nat := (List.range 10).filter (fun a => m / 2 ^ a % 2 = 1)

def TilArr.drain (t : TilArr) (bank : Nat) : Nat := if bank = 0 then t.drain0.toNat else t.drain1.toNat
def TilArr.recAt (t : TilArr) (bank addr : Nat) : AccRec := Tab.get t.recs {} (bank * 512 + addr)
def TilArr.setDrain (t : TilArr) (bank : Nat) (v : Nat) : TilArr :=
  if bank = 0 then { t with drain0 := BitVec.ofNat 32 v } else { t with drain1 := BitVec.ofNat 32 v }

/-- The groups of 16 records that a run of records touches (R134). -/
def recGroups (r n : Nat) : List Nat := if n = 0 then [] else (List.range ((r + n - 1) / 16 - r / 16 + 1)).map (· + r / 16)

/-- Every group of a run is in DRAIN in every array of a list. -/
def State.drained (s : State) (st bank : Nat) (arrs gs : List Nat) : Bool :=
  arrs.all (fun a => gs.all (fun g => (s.tiller st a).drain bank / 2 ^ g % 2 = 1))

/-- Release groups to their arrays (R134). -/
def State.releaseGroups (s : State) (st bank : Nat) (arrs gs : List Nat) : State :=
  arrs.foldl (fun t a =>
    let x := t.tiller st a
    t.setTiller st a (x.setDrain bank (gs.foldl (fun v g => v - v / 2 ^ g % 2 * 2 ^ g) (x.drain bank)))) s

/-- Narrow an exact sum to 80 bits (R93, R136): the value, and whether it changed. -/
def narrow80 (wrap : Bool) (v : Int) : BitVec 80 × Bool :=
  let beyond := decide (v > 2 ^ 79 - 1 ∨ v < -(2 ^ 79))
  (if wrap then BitVec.ofInt 80 v else BitVec.ofInt 80 (clampInt v (-(2 ^ 79)) (2 ^ 79 - 1)), beyond)

/-- The combine read of one record address (R136); none when it is refused. -/
def combine (rs : List AccRec) : Option AccRec :=
  match rs with
  | [] => none
  | r :: rest =>
    if rs.all (fun x => x.valid && x.anchor == r.anchor) then
      let wrap := rs.all (fun x => x.wrap)
      let step (acc : BitVec 80 × Bool) (x : AccRec) : BitVec 80 × Bool :=
        let (v, o) := narrow80 wrap (acc.1.toInt + x.value.toInt)
        (v, acc.2 || x.ovf || o)
      let (v, o) := rest.foldl step (r.value, r.ovf)
      some { value := v, ovf := o, anchor := r.anchor, wrap := wrap, valid := true }
    else none

/-- A drain read of record address a (R135, R136, R197). -/
def State.drainRead (s : State) (st bank : Nat) (arrs : List Nat) (a : Nat) : Option AccRec :=
  match arrs with
  | [x] =>
    let r := (s.tiller st x).recAt bank a
    some (if r.valid then r else {})
  | _ => combine (arrs.map (fun x => (s.tiller st x).recAt bank a))

/-- The reads of a run of records; none when the drain port refuses one. -/
def drainReads (s : State) (st bank : Nat) (arrs : List Nat) : Nat → Nat → Option (List AccRec)
  | 0, _ => some []
  | n + 1, a =>
    match s.drainRead st bank arrs a, drainReads s st bank arrs n (a + 1) with
    | some r, some l => some (r :: l)
    | _, _ => none

/-- What ACCRD and ACCREL break in common (R196). -/
def accBad (s : State) (st : Nat) (x : Word) (n : Nat) : List (Bool × Nat) :=
  let m := insBits x 40 10
  let beyond := insBits x 31 9 + n > 512
  [(m = 0 || m &&& (s.reg (tilCtrl st)).toNat % 1024 ≠ m || beyond, 5), (beyond, 2)]

/-- The accumulator read that waits ends: it frees its unit. Once it is complete, the signals that its thread issued after it
follow, then the WSIGs that waited for it (R198, R204, R229); behind one that has failed they never act (R205). -/
def State.accDone (s : State) (st : Nat) (failed : Bool) : State :=
  let w := s.winnow st
  match w.accWait with
  | none => s
  | some (k, i, _) =>
    if failed then s.setWinnow st { w with accWait := none, later := [] }
    else
      w.later.foldl (fun u x => (u.signalCtr st x.ctr x.add).winAfter st x.thr x.sigs)
        ((s.setWinnow st { w with accWait := none, later := [] }).winAfter st k i.sigs)

/-- Run an ACCRD or ACCREL: the one that waits, once its groups are handed over, also on a halted engine (R206); or the
oldest queued instruction of a thread while the unit is free. `start` tests it and gives its scale exponent, or no exponent
where it is refused or fails; `ready` tests the hand-over; `fin` reads and releases (R198). -/
def accRun (st : Strip) (th : Thread) (op : Nat) (s : State) (start : WinIns → State → State × Option Int)
    (ready : WinIns → State → Bool) (fin : WinIns → Int → State → State) : Out :=
  match (s.winnow st.val).accWait with
  | some (k, i, e) =>
    if k = th.val ∧ winOp i.word = op ∧ ready i s then
      let u := fin i e (s.clk (winCntAccwait st.val))
      .next (u.accDone st.val ((u.winnow st.val).fails != (s.winnow st.val).fails))
    else stutter s
  | none =>
    winRun st th op s (fun i t =>
      match start i t with
      | (u, none) => u
      | (u, some e) =>
        if ready i u then fin i e u
        else u.setWinnow st.val { u.winnow st.val with accWait := some (th.val, i, e) })

/-- The count, the bank, the arrays and the groups that an accumulator instruction names (R168, R196). -/
def State.accCount (s : State) (st th : Nat) (x : Word) : Nat := (s.wctx st th).count (insBits x 24 2)
def accBank (x : Word) : Nat := insBits x 30 1
def accArrays (x : Word) : List Nat := maskArrays (insBits x 40 10)

/-- Every group that holds a record named by an instruction is in DRAIN in every array of its mask (R198). -/
def State.accReady (s : State) (st th : Nat) (x : Word) : Bool :=
  s.drained st (accBank x) (accArrays x) (recGroups (insBits x 31 9) (s.accCount st th x))

/-- Release the groups that an instruction names (R198). -/
def State.accRelease (s : State) (st th : Nat) (x : Word) : State :=
  s.releaseGroups st (accBank x) (accArrays x) (recGroups (insBits x 31 9) (s.accCount st th x))

/-- Write the values of an accumulator read, scaled and converted to its format (R197, R199); nothing is written, and the flag
is false, where the amax record cannot be read (R205). -/
def State.accWrite (s0 : State) (st th : Nat) (x : Word) (recs : List AccRec) (k : Int) : State × Bool :=
  let g := insBits x 26 4
  let am := insBits x 19 1 = 1
  let dsgn := insBits x 18 1 = 1
  let zt := insBits x 21 1 = 1
  let src := recs.map (fun q => FV.fin false (accValue q.value q.anchor))
  let dith := s0.winDither st th (insBits x 23 1 = 1)
  match s0.amaxStep st th am src with
  | (s, false) => (s, false)
  | (s, true) =>
    let u :=
      if isBlock g then
        s.winPutBlocks st (winTD x) g (insBits x 16 2) dsgn zt
          (src.map (fun v => replace89 0 (blockSigned g dsgn) (v.scale k))) dith
      else
        let rs := (List.range recs.length).zip src |>.map (fun p => encEl g (dith p.1) (insBits x 22 1 = 1) (p.2.scale k))
        (s.putTile st (winTD x) g (rs.map Prod.fst) zt).conv st (Cv.all (rs.map Prod.snd))
    let ovf := recs.any (fun q => q.ovf)
    let v := u.conv st { accOvf := ovf }
    (if ovf ∧ v.bit (winCtrl st) 0 then v.jobFault (engWin st) ((v.reg (winConv st)).toNat) 0 0 else v, true)

/-- ACCRD (R196 to R199). -/
def execAccrd (st : Strip) (th : Thread) (s : State) : Out :=
  accRun st th 0x3C s
    (fun i t =>
      let x := i.word
      let g := insBits x 26 4
      let n := t.accCount st.val th.val x
      match t.winScale st.val th.val g (insBits x 19 1 = 1) (insBits x 8 8) with
      | (u, none) => (u.winMemHalt st.val, none)
      | (u, some (k, amBad)) =>
        let bad := broken (accBad t st.val x n ++
          [(decide (g ≥ 14), 1), (decide (g < 14) && decide (n > fmtCap g), 2), (decide (insBits x 16 2 = 3) && isBlock g, 0)]) ++
          amBad
        if bad ≠ [] then (u.winRefuse st.val th.val i bad, none) else (u, some k))
    (fun i t => t.accReady st.val th.val i.word)
    (fun i k t =>
      let x := i.word
      match drainReads t st.val (accBank x) (accArrays x) (t.accCount st.val th.val x) (insBits x 31 9) with
      | none => t.winRefuse st.val th.val i [5]
      | some recs =>
        match t.accWrite st.val th.val x recs k with
        | (u, false) => u.winMemHalt st.val
        | (u, true) => if insBits x 20 1 = 1 then u.accRelease st.val th.val x else u)

/-- ACCREL (R196, R198). -/
def execAccrel (st : Strip) (th : Thread) (s : State) : Out :=
  accRun st th 0x3D s
    (fun i t =>
      let bad := broken (accBad t st.val i.word (t.accCount st.val th.val i.word))
      if bad ≠ [] then (t.winRefuse st.val th.val i bad, none) else (t, some 0))
    (fun i t => t.accReady st.val th.val i.word)
    (fun i _ t => t.accRelease st.val th.val i.word)

-- Gate commands (R236, R655).

/-- A refused gate command (R206, R210, R211, R655). -/
def State.gateRefuse (s : State) (st : Nat) (c : QCmd) (bits : List Nat) : State :=
  let t := (s.refuse (winErr st) bits [(32, 2, 0), (40, 6, c.op), (46, 1, 1)] (winErrAddr st) c.addr.toNat).haltWinnow st
  t.jobFault (engWin st) ((t.reg (winErr st)).toNat % 2 ^ 32) c.addr.toNat c.tag

/-- Run the first gate command of the strip's list if it has the given code; a reserved code is refused by whichever
gate command meets it. STEP and PARCEL of a thread are those of the plan whose gate command ran last on the strip's engine:
which plan a thread runs between gate commands the manual does not say (DESIGN CHOICE, log entry 104). -/
def gateRun (st : Strip) (code : Nat) (s : State) (body : QCmd → State → State) : Out :=
  match s.headCmd (engWin st.val) with
  | none => stutter s
  | some c =>
    let w := s.winnow st.val
    if w.halted then stutter s
    else
      let t := s.setWinnow st.val { w with step := c.step, parcel := if c.phase then 0 else c.parcel }
      if c.op > 2 then .next (t.gateRefuse st.val c [0])
      else if c.op ≠ code then stutter s
      else .next (body c t)

/-- NOP: completes at once and signals nothing (R236). -/
def execGateNop (st : Strip) (s : State) : Out :=
  gateRun st 0 s (fun _ t => (t.takeCmd (engWin st.val)).doneCmd (engWin st.val))

/-- OPEN: completes at once and signals (R236). -/
def execGateOpen (st : Strip) (s : State) : Out :=
  gateRun st 1 s (fun c t =>
    if c.badSig then t.gateRefuse st.val c [8]
    else (t.takeCmd (engWin st.val)).finishCmd (engWin st.val) c)

/-- JOIN: waits as the oldest waiter of a counter of the strip, then signals (R236, R655). A counter that is a tree
node is refused, as a WAIT on it is (R228). -/
def execGateJoin (st : Strip) (s : State) : Out :=
  gateRun st 2 s (fun c t =>
    let e := engWin st.val
    let ctr := c.b 11 0 6
    if c.badSig ∨ ctr > 47 ∨ natBits (t.reg (stkNode st.val ctr)).toNat 24 2 ≠ 0 then t.gateRefuse st.val c [8]
    else
      match (t.eng e).gate with
      | .passed => (t.takeCmd e).finishCmd e c
      | .waiting => t
      | .idle =>
        let u := (t.setEng e { t.eng e with gate := .waiting }).beginWait st.val ctr ⟨.engine e, c.u 8 3⟩
        if (u.eng e).gate = .passed then (u.takeCmd e).finishCmd e c else u)

end Sys2Proof.Machine
end

