-- ==== Sys2Proof/Machine/Tiller.lean ====
section
/-!
DEFINITION. The Tiller arrays (chapter 4) and sparse tiles (chapter 10): dispatch and refusal of array commands,
stationary loading, feeder addresses, the exact dot product of R93, accumulator sets and lot modes.
-/

namespace Sys2Proof.Machine
open Sys2Proof

-- Lot modes (R117).

def lotCount (mode : Nat) : Nat := 2 ^ mode
def lotRows (mode : Nat) : Nat := if mode = 0 then 256 else if mode = 3 then 64 else 128
def lotCols (mode : Nat) : Nat := if mode ≤ 1 then 128 else 64
def lotGroups (mode : Nat) : Nat := lotRows mode / 32
/-- Slots per bank of a lot. -/
def lotSlots (mode : Nat) : Nat := if mode = 0 then 4 else if mode = 3 then 1 else 2

def TilArr.lot (x : TilArr) (l : Nat) : LotSt := Tab.get x.lots {} l
def TilArr.setLot (x : TilArr) (l : Nat) (v : LotSt) : TilArr := { x with lots := Tab.put x.lots l v }

/-- The record address of a lot's slot and column (R130). -/
def recAddr (mode l slot col : Nat) : Nat := l * (512 / lotCount mode) + slot * lotCols mode + col

-- Fields of LOAD and STREAM (R139 to R141, R393).

def QCmd.arr (c : QCmd) : Nat := c.b 0 4 4
def QCmd.lot (c : QCmd) : Nat := c.b 1 0 3
def QCmd.fmt (c : QCmd) : Nat := c.b 24 0 4
def QCmd.sgn (c : QCmd) : Bool := c.b 24 4 1 = 1
def QCmd.square (c : QCmd) : Bool := c.b 24 5 1 = 1
def QCmd.trans (c : QCmd) : Bool := c.b 24 6 1 = 1
def QCmd.maddr (c : QCmd) : Nat := c.a 8
def QCmd.eaddr (c : QCmd) : Nat := c.a 16
def ldRows (c : QCmd) : Nat := c.u 26 2
def ldCols (c : QCmd) : Nat := c.u 28 2
def ldMs (c : QCmd) : Nat := c.u 32 4
def ldEs (c : QCmd) : Nat := c.u 36 4
def stSwap (c : QCmd) : Bool := c.b 25 0 1 = 1
def stClear (c : QCmd) : Bool := c.b 25 1 1 = 1
def stHand (c : QCmd) : Bool := c.b 25 2 1 = 1
def stWrap (c : QCmd) : Bool := c.b 25 3 1 = 1
def stBank (c : QCmd) : Nat := c.b 25 4 1
def stRole (c : QCmd) : Nat := c.b 25 6 2
/-- FROZEN with ROLE 2: the command swaps and does nothing else (R146). -/
def stFrozen (c : QCmd) : Bool := c.b 25 5 1 = 1 && stRole c = 2
def stAnchor (c : QCmd) : Nat := c.b 26 0 10
def stNgrp (c : QCmd) : Nat := c.b 28 0 4
def stCb (c : QCmd) : Nat := c.b 29 0 4
def stCbOff (c : QCmd) : Nat := c.u 30 2
def stV (c : QCmd) : Nat := c.u 32 3
def stV0 (c : QCmd) : Nat := c.u 36 4
def stMs (c : QCmd) : Nat := c.u 40 4
def stEs (c : QCmd) : Nat := c.u 44 4
def stWidth (c : QCmd) : Nat := c.u 48 2
def stHeight (c : QCmd) : Nat := c.u 50 2
def stOw (c : QCmd) : Nat := c.u 52 2
/-- The low or high nibble of a window byte. -/
def nib (c : QCmd) (byte hi : Nat) : Nat := c.b byte (4 * hi) 4
def stSparse (c : QCmd) : Bool := c.b 58 0 1 = 1
def stTlim (c : QCmd) : Nat := c.u 60 4

/-- A mantissa format of R139's commands. -/
def mFmt (f : Nat) : Bool := 8 ≤ f && f ≤ 11
def isPair (f : Nat) : Bool := f = 10 || f = 11

-- Stationary loading (R120 to R127, R140).

/-- Mantissa and exponent bytes that a LOAD can reach: address and length. -/
def ldExtents (c : QCmd) : List (Nat × Nat) :=
  let w := fmtBits c.fmt
  let rows := ldRows c
  let cols := ldCols c
  if ¬ c.square then
    let nb := ceilDiv rows 32
    [(c.maddr, (cols - 1) * ldMs c + nb * 4 * w), (c.eaddr, (cols - 1) * ldEs c + nb)]
  else
    let ni := ceilDiv (if c.trans then cols else rows) 32
    let nj := ceilDiv (if c.trans then rows else cols) 32
    [(c.maddr, (ni - 1) * ldMs c + nj * 128 * w), (c.eaddr, (ni - 1) * ldEs c + nj)]

/-- What a LOAD breaks (R140, R144). -/
def ldBad (x : TilArr) (st : Nat) (c : QCmd) : List Nat :=
  let mode := x.mode.toNat
  let cols := if isPair c.fmt then lotCols mode / 2 else lotCols mode
  let geom := decide (1 ≤ ldRows c) && decide (ldRows c ≤ lotRows mode) && decide (1 ≤ ldCols c) && decide (ldCols c ≤ cols)
  let reach := !mFmt c.fmt || ldRows c = 0 || ldCols c = 0 || (ldExtents c).all (fun e => inSlice st e.1 e.2)
  broken [(!mFmt c.fmt, 1), (decide (c.lot ≥ lotCount mode) || !geom, 2),
    (decide (c.maddr % 16 ≠ 0) || decide (ldMs c % 16 ≠ 0) || !reach, 5),
    (decide (c.lot < lotCount mode) && (x.lot c.lot).fresh, 7), (c.trans && !c.square, 8)]

/-- Read several runs of bytes; none on an uncorrectable error. -/
def readAll (src : Nat) : List (Nat × Nat) → State → List Byte → State × Option (List Byte)
  | [], s, acc => (s, some acc)
  | (a, n) :: r, s, acc =>
    match s.read src a n with
    | (t, none) => (t, none)
    | (t, some bs) => readAll src r t (acc ++ bs)

/-- Read several groups of runs, one list of bytes for each. -/
def readGroups (src : Nat) : List (List (Nat × Nat)) → State → List (List Byte) → State × Option (List (List Byte))
  | [], s, acc => (s, some acc)
  | g :: r, s, acc =>
    match readAll src g s [] with
    | (t, none) => (t, none)
    | (t, some bs) => readGroups src r t (acc ++ [bs])

/-- Bit j of the u32 at byte o of a list of bytes. -/
def bitOf (bs : List Byte) (o j : Nat) : Nat := (bs.getD (o + j / 8) 0).toNat / 2 ^ (j % 8) % 2

/-- Element j of planes of one word each: bit p is bit j of word p (R124). -/
def planeEl (bs : List Byte) (w j : Nat) : Nat :=
  (List.range w).foldl (fun acc p => acc + bitOf bs (4 * p) j * 2 ^ p) 0

/-- Element (i, j) of a SQUARE sub-tile (R125). -/
def squareEl (bs : List Byte) (w i j : Nat) : Nat :=
  (List.range w).foldl (fun acc p => acc + bitOf bs (128 * p + 4 * i) j * 2 ^ p) 0

/-- The physical digits of a mantissa: sign-extended when the operand is signed, else zero-extended (R111, R116). -/
def digitsOf (f : Nat) (sgn : Bool) (m : Nat) : List Byte :=
  let v : Nat := if sgn then ofSigned 16 (toSigned (fmtBits f) m) else m
  if isPair f then [BitVec.ofNat 8 v, BitVec.ofNat 8 (v / 256)] else [BitVec.ofNat 8 v]

/-- The groups of bytes that a LOAD reads: element layout by column, SQUARE by sub-tile. -/
def ldGroups (c : QCmd) : List (List (Nat × Nat)) :=
  let w := fmtBits c.fmt
  if ¬ c.square then
    let nb := ceilDiv (ldRows c) 32
    (List.range (ldCols c)).map (fun k => [(c.maddr + k * ldMs c, nb * 4 * w), (c.eaddr + k * ldEs c, nb)])
  else
    let ni := ceilDiv (if c.trans then ldCols c else ldRows c) 32
    let nj := ceilDiv (if c.trans then ldRows c else ldCols c) 32
    ((List.range ni).map (fun i => (List.range nj).map (fun j =>
      [(c.maddr + i * ldMs c + j * 128 * w, 128 * w), (c.eaddr + i * ldEs c + j, 1)]))).flatten

/-- The mantissa of cell (r, k) and the exponent code of its block, from the bytes read. -/
def ldCell (c : QCmd) (gs : List (List Byte)) (r k : Nat) : Nat × Nat :=
  let w := fmtBits c.fmt
  if ¬ c.square then
    let bs := gs.getD k []
    let nb := ceilDiv (ldRows c) 32
    (natBits (leNat ((bs.drop (w * r / 8)).take 4)) (w * r % 8) w, (bs.getD (nb * 4 * w + r / 32) 0).toNat)
  else
    let i := if c.trans then k else r
    let j := if c.trans then r else k
    let nj := ceilDiv (if c.trans then ldRows c else ldCols c) 32
    let bs := gs.getD (i / 32 * nj + j / 32) []
    (squareEl bs w (i % 32) (j % 32), (bs.getD (128 * w) 0).toNat)

/-- The stationary content that a LOAD brings (R111, R116, R140). -/
def ldContent (c : QCmd) (gs : List (List Byte)) : Buf :=
  let rows := ldRows c
  let cols := ldCols c
  { pair := isPair c.fmt, sgn := c.sgn,
    digits := ((List.range rows).map (fun r =>
      (((List.range cols).map (fun k => digitsOf c.fmt c.sgn (ldCell c gs r k).1)).flatten.zipIdx.map
        (fun d => (r * 128 + d.2, d.1))))).flatten,
    exps := ((List.range (ceilDiv rows 32)).map (fun b =>
      (List.range cols).map (fun k => (b * 128 + k, BitVec.ofNat 8 (ldCell c gs (32 * b) k).2)))).flatten }

-- The checks of a STREAM (R129, R132, R133, R141, R144, R394).

/-- Window fields of R141 in their ranges. -/
def windowOk (c : QCmd) : Bool :=
  let inR (v lo hi : Nat) : Bool := decide (lo ≤ v) && decide (v ≤ hi)
  inR (nib c 54 0) 1 8 && inR (nib c 54 1) 1 8 && inR (nib c 55 0) 1 15 && inR (nib c 55 1) 1 15 &&
    inR (nib c 56 0) 1 15 && inR (nib c 56 1) 1 15

/-- KW, KH, strides and dilations are 1 and both paddings 0. -/
def windowPlain (c : QCmd) : Bool := c.u 54 4 = 0x00111111

def geomOk (mode : Nat) (c : QCmd) : Bool :=
  let ng := stNgrp c
  let base := decide (1 ≤ ng) && decide (ng ≤ lotGroups mode) && decide (1 ≤ stCb c) && decide (stCb c ≤ 8) &&
    decide (1 ≤ stV c) && windowOk c && decide (c.lot < lotCount mode)
  if stSparse c then
    base && !c.square && !c.trans && windowPlain c && stCb c = ng && stCbOff c = 0 &&
      decide (16 ≤ stTlim c) && decide (stTlim c % 16 = 0)
  else
    base && decide (1 ≤ stWidth c) && decide (1 ≤ stHeight c) && decide (1 ≤ stOw c) &&
      (if c.square then decide (stCb c = ng) && windowPlain c else decide (ng = nib c 54 0 * nib c 54 1 * stCb c))

/-- The lowest and highest bytes that a STREAM can reach (R129, R394): address and length. -/
def stExtents (c : QCmd) : List (Nat × Nat) :=
  let w := fmtBits c.fmt
  let ng := stNgrp c
  let off := stCbOff c
  let um := (stV0 c + stV c - 1) / 32
  if stSparse c then [(c.maddr, stTlim c)]
  else if ¬ c.square then
    let top := stWidth c * stHeight c - 1
    [(c.maddr + off * 4 * w, top * stMs c + stCb c * 4 * w), (c.eaddr + off, top * stEs c + stCb c)]
  else if c.trans then
    [(c.maddr + off * stMs c, (ng - 1) * stMs c + (um + 1) * 128 * w), (c.eaddr + off * stEs c, (ng - 1) * stEs c + um + 1)]
  else
    [(c.maddr + off * 128 * w, um * stMs c + ng * 128 * w), (c.eaddr + off, um * stEs c + ng)]

/-- The contents that a lot's STREAMs will meet in order: the active one, then the shadow's, then the loader's. -/
def contents (x : TilArr) (l : Nat) : List Buf :=
  let v := x.lot l
  [v.active] ++ (if v.shadowState = .ready then [v.shadow] else []) ++
    (match x.loading with
     | some j => if j.lot = l then [j.content] else []
     | none => [])

/-- SWAPs dispatched and not yet performed. -/
def swapsDue (v : LotSt) : Nat := (v.streams.filter (fun j => stSwap j.cmd && !j.swapped)).length

/-- The stationary content that a STREAM dispatched now will run against. -/
def futureBuf (x : TilArr) (c : QCmd) : Buf :=
  (contents x c.lot).getD (swapsDue (x.lot c.lot) + (stSwap c).toNat) {}

/-- Target columns of a set (R130). -/
def targetCols (mode : Nat) (pair : Bool) : Nat := if pair then lotCols mode / 2 else lotCols mode

/-- The records of the set that holds vectors lo up to hi. -/
def setRecs (mode : Nat) (pair : Bool) (l lo hi : Nat) : List Nat :=
  ((List.range (hi - lo)).map (fun k =>
    (List.range (targetCols mode pair)).map (fun col => recAddr mode l ((lo + k) % lotSlots mode) col))).flatten

/-- Sets of a STREAM (R132). -/
def setCount (mode : Nat) (c : QCmd) : Nat := ceilDiv (stV c) (lotSlots mode)

/-- The content that the i-th dispatched STREAM of a lot runs against. -/
def bufOf (x : TilArr) (l i : Nat) : Buf :=
  match ((x.lot l).streams[i]?).bind (fun j => j.held.head?) with
  | some h => h.buf
  | none => (contents x l).getD ((((x.lot l).streams.take (i + 1)).filter (fun j => stSwap j.cmd && !j.swapped)).length) {}

/-- The ANCHOR that a dispatched STREAM with CLEAR will leave in a record, if any (R133). -/
def promised (x : TilArr) (l bank a : Nat) : Option Nat :=
  let mode := x.mode.toNat
  let sl := lotSlots mode
  (x.lot l).streams.zipIdx.foldl (fun acc ji =>
    let c := ji.1.cmd
    let hit := [0, 1].any (fun i =>
      decide ((stBank c + i) % 2 = bank) && decide (i * sl < stV c) &&
        (setRecs mode (bufOf x l ji.2).pair l (i * sl) (min (stV c) ((i + 1) * sl))).contains a)
    if stClear c && !stFrozen c && decide (ji.1.setsDone < setCount mode c) && hit then some (stAnchor c) else acc) none

/-- Every target record is VALID and carries ANCHOR, as the records stand after the STREAMs already dispatched (R133). From
its third set on a command meets the records of its first two again. -/
def anchorOk (x : TilArr) (c : QCmd) : Bool :=
  let sl := lotSlots x.mode.toNat
  [0, 1].all (fun i =>
    let bank := (stBank c + i) % 2
    (setRecs x.mode.toNat (futureBuf x c).pair c.lot (i * sl) (min (stV c) ((i + 1) * sl))).all (fun a =>
      match promised x c.lot bank a with
      | some an => an == stAnchor c
      | none => (x.recAt bank a).valid && (x.recAt bank a).anchor.toNat == stAnchor c))

/-- What a STREAM breaks. With FMT outside 0x8 to 0xB the manual gives its operand no width; ADDR then stands for alignment alone
(DESIGN CHOICE, log entry 101). -/
def stBad (x : TilArr) (st : Nat) (c : QCmd) : List Nat :=
  let mode := x.mode.toNat
  let lotOk := decide (c.lot < lotCount mode)
  let slot := decide (stV c > lotSlots mode) && !(stClear c && stHand c)
  let reach := !(mFmt c.fmt || stSparse c) || (stExtents c).all (fun e => inSlice st e.1 e.2)
  broken [(decide (stRole c = 3), 0), (!mFmt c.fmt, 1), (!geomOk mode c, 2), (slot, 3),
    (lotOk && !stClear c && !stFrozen c && !anchorOk x c, 4),
    (decide (c.maddr % 16 ≠ 0) || decide (stMs c % 16 ≠ 0) || !reach, 5),
    (lotOk && stSwap c && !(x.lot c.lot).fresh, 7), (c.trans && !c.square, 8)]

-- Dispatch and refusal (R143, R147, R151, R234).

/-- The first command that goes to an array, with its place in the list. -/
def tilFind (a : Nat) (cs : List QCmd) : Option (Nat × QCmd) :=
  match cs.findIdx? (fun c => c.arr == a || (a == 0 && c.arr ≥ 10)) with
  | none => none
  | some k => (cs[k]?).map (fun c => (k, c))

/-- Take command k of an engine's list: it is dispatched, and the fetch of the plan goes on (R234). -/
def State.takeAt (s : State) (i k : Nat) : State :=
  let e := s.eng i
  (s.setEng i { e with cmds := e.cmds.eraseIdx k, inFlight := e.inFlight + 1 }).refill i

/-- A refused array command (R147, R653, R654). -/
def State.tilRefuse (s : State) (st a : Nat) (c : QCmd) (bits : List Nat) : State :=
  let t := s.refuse (tilErr st a) bits [(32, 4, c.op)] (tilErrTag st a) c.tag
  let u := (t.setTiller st a { t.tiller st a with halted := true }).loseCmd (engTil st)
  u.jobFault (engTil st) ((u.reg (tilErr st a)).toNat % 2 ^ 32) 0 c.tag

/-- An uncorrectable error in a read (R148). -/
def State.tilMemHalt (s : State) (st a : Nat) (c : QCmd) : State :=
  let t := s.setBit (tilErr st a) 10
  let u := (t.setTiller st a { t.tiller st a with halted := true }).loseCmd (engTil st)
  u.jobFault (engTil st) ((u.reg (tilErr st a)).toNat % 2 ^ 32) 0 c.tag

/-- What every array command may break (R139, R151). -/
def tilBasic (s : State) (st a : Nat) (c : QCmd) : List Nat :=
  broken [(decide (c.op > 3) || decide (c.arr > 9), 0), (c.badSig, 6), (!s.bit (tilCtrl st) a, 9)]

/-- Every rule that a command breaks, as the array that refuses it tests them (R654). A command that names no array is
refused on array 0 for what its own fields break, and not for the state of array 0 (log entry 101). -/
def tilBad (s : State) (st a : Nat) (c : QCmd) : List Nat :=
  let x := s.tiller st a
  let l := tilBasic s st a c ++ (match c.op with
    | 1 => ldBad x st c
    | 2 => stBad x st c
    | _ => [])
  if c.arr = a then l else l.filter (fun b => b != 4 && b != 7 && b != 9)

/-- A halted array refuses a queued or later command: bits and first-refusal fields as for any refusal, without a new fault
(R147, R153). -/
def State.tilTurnAway (s : State) (st a : Nat) (c : QCmd) (bits : List Nat) : State :=
  (s.refuse (tilErr st a) bits [(32, 4, c.op)] (tilErrTag st a) c.tag).loseCmd (engTil st)

/-- Dispatch the array's oldest command if it has the given code, once no SETMODE before it waits. The body takes the state
with the command taken and the bits already broken, and answers none while its resource is busy. -/
def tilRun (st : Strip) (a : Arr) (op : Nat) (s : State) (body : QCmd → List Nat → State → Option State) : Out :=
  match tilFind a.val (s.eng (engTil st.val)).cmds with
  | none => stutter s
  | some (k, c) =>
    let t := s.takeAt (engTil st.val) k
    if (s.tiller st.val a.val).halted then .next (t.tilTurnAway st.val a.val c (tilBad s st.val a.val c))
    else if c.op > 3 ∨ c.arr > 9 then .next (t.tilRefuse st.val a.val c (tilBad s st.val a.val c))
    else if c.op ≠ op ∨ (s.tiller st.val a.val).setmode.isSome then stutter s
    else
      match body c (tilBasic s st.val a.val c) t with
      | some u => .next u
      | none => stutter s

/-- Every earlier command of an array has completed. -/
def TilArr.quiet (x : TilArr) : Bool := x.loading.isNone && x.setmode.isNone && x.lots.all (fun l => l.2.streams.isEmpty)

/-- TIL_NOP (R143, R145). The manual gives no moment at which a queued command with a broken header is refused; the array refuses
it as soon as it stands at the front, and not only when its resource is free (DESIGN CHOICE, log entry 101). -/
def execTilNop (st : Strip) (a : Arr) (s : State) : Out :=
  tilRun st a 0 s (fun c bits t =>
    if bits ≠ [] then some (t.tilRefuse st.val a.val c bits)
    else if (t.tiller st.val a.val).quiet then some (t.finishCmd (engTil st.val) c)
    else none)

/-- A dispatched SETMODE takes effect where no group is in DRAIN: every record, group and buffer of the array is reset under
the new mode, and the command completes (R119, R131, R145). -/
def State.modeSet (s : State) (st a : Nat) (c : QCmd) : State :=
  let x := s.tiller st a
  if x.drain0 = 0 ∧ x.drain1 = 0 then
    (s.setTiller st a { x with mode := BitVec.ofNat 2 (c.b 8 0 2), lots := [], recs := [], setmode := none }).finishCmd (engTil st) c
  else s.setTiller st a { x with setmode := some c }

/-- SETMODE: dispatched once every earlier command has completed, and in effect once every group is in ARRAY; later commands
of the array wait until then (R119, R143, log entry 102). -/
def execSetmode (st : Strip) (a : Arr) (s : State) : Out :=
  match (s.tiller st.val a.val).setmode with
  | some c => .next (s.modeSet st.val a.val c)
  | none =>
    tilRun st a 3 s (fun c bits t =>
      if bits ≠ [] then some (t.tilRefuse st.val a.val c bits)
      else if (t.tiller st.val a.val).quiet then some (t.modeSet st.val a.val c)
      else none)

-- The exchange of the buffers (R120, R121).

/-- The beats of a vector: a sparse vector that is not present takes none (R396). -/
def vecBeats (c : QCmd) (v : Vec) : Nat := if v.present then fmtBits c.fmt else 0

/-- The beats of a set. -/
def setBeats (c : QCmd) (vs : List Vec) : Nat := (vs.map (vecBeats c)).sum

/-- All beats of a STREAM have run, given that those before it have: a frozen one has none (R146). -/
def StreamJob.ran (j : StreamJob) (mode : Nat) : Bool :=
  if stFrozen j.cmd then !stSwap j.cmd || j.swapped
  else decide (setCount mode j.cmd ≤ j.setsDone + j.held.length) && j.held.all (fun r => decide (setBeats j.cmd r.vecs ≤ r.run))

/-- The STREAM of a lot whose exchange comes next, with all beats before it run. -/
def dueSwap (mode : Nat) : List StreamJob → Option Nat
  | [] => none
  | j :: r => if stSwap j.cmd && !j.swapped then some 0 else if j.ran mode then (dueSwap mode r).map (fun i => i + 1) else none

/-- Exchange the buffers of a lot: the shadow's content becomes active, and a waiting LOAD may fill the shadow (R120). -/
def TilArr.swap (x : TilArr) (l : Nat) : TilArr :=
  let v := x.lot l
  let loadHere := match x.loading with
    | some j => decide (j.lot = l)
    | none => false
  x.setLot l { v with active := v.shadow, shadow := {}, shadowState := if loadHere then .loading else .empty }

/-- Perform the exchange of a lot that is due: the last beat before it has run and the shadow buffer is READY (R121). -/
def TilArr.settle (x : TilArr) (l : Nat) : TilArr :=
  match dueSwap x.mode.toNat (x.lot l).streams with
  | none => x
  | some i =>
    if (x.lot l).shadowState = .ready then
      let y := x.swap l
      let v := y.lot l
      y.setLot l { v with streams := v.streams.modify i (fun j => { j with swapped := true }) }
    else x

/-- LOAD (R120, R122, R140, R144): dispatched once the loader is free. -/
def execLoad (st : Strip) (a : Arr) (s : State) : Out :=
  tilRun st a 1 s (fun c bits t =>
    let x := t.tiller st.val a.val
    if bits = [] ∧ x.loading.isSome then none
    else
      let bad := bits ++ ldBad x st.val c
      if bad ≠ [] then some (t.tilRefuse st.val a.val c bad)
      else
        match readGroups (engTil st.val) (ldGroups c) t [] with
        | (u, none) => some (u.tilMemHalt st.val a.val c)
        | (u, some gs) =>
          let y := u.tiller st.val a.val
          let l := y.lot c.lot
          let l1 := { l with fresh := true, shadowState := if l.shadowState = .empty then .loading else l.shadowState }
          some (u.setTiller st.val a.val
            { y.setLot c.lot l1 with loading := some { lot := c.lot, content := ldContent c gs, cmd := c } }))

/-- LOAD_DONE (R120, R122, R145): the content is in the shadow buffer, which is READY. It waits while the buffer still
holds a content that a STREAM has claimed and not taken; a STREAM that waits for the content exchanges the buffers.
TIL_CNT_LOAD takes the clk of R122, and none of such a wait, which the manual does not settle (DESIGN CHOICE, log entry 102). -/
def execLoadDone (st : Strip) (a : Arr) (s : State) : Out :=
  let x := s.tiller st.val a.val
  match x.loading with
  | none => stutter s
  | some j =>
    let l := x.lot j.lot
    if l.shadowState ≠ .loading then stutter s
    else
      let y := { x.setLot j.lot { l with shadow := j.content, shadowState := .ready } with loading := none }.settle j.lot
      let clk := ceilDiv (lotRows x.mode.toNat * lotCols x.mode.toNat) 128
      .next (((s.setTiller st.val a.val y).count (tilCntLoad st.val a.val) clk).finishCmd (engTil st.val) j.cmd)

/-- STREAM (R132, R141, R143, R144): dispatched once its lot holds fewer than two STREAMs. -/
def execStream (st : Strip) (a : Arr) (s : State) : Out :=
  tilRun st a 2 s (fun c bits t =>
    let x := t.tiller st.val a.val
    if bits = [] ∧ c.lot < lotCount x.mode.toNat ∧ (x.lot c.lot).streams.length ≥ 2 then none
    else
      let bad := bits ++ stBad x st.val c
      if bad ≠ [] then some (t.tilRefuse st.val a.val c bad)
      else
        let l := x.lot c.lot
        let l1 := { l with streams := l.streams ++ [{ cmd := c }], fresh := if stSwap c then false else l.fresh }
        some (t.setTiller st.val a.val ((x.setLot c.lot l1).settle c.lot)))

-- The feeder (R128) and sparse rows (R385 to R400).

/-- The runs of bytes of block g of vector u, planes and then the exponent code; none for a zero block. -/
def feedRuns (c : QCmd) (u g : Nat) : Option (List (Nat × Nat)) :=
  let w := fmtBits c.fmt
  if ¬ c.square then
    let ox := u % stOw c
    let oy := u / stOw c
    let t := g / stCb c
    let x : Int := (ox * nib c 55 0 + t % nib c 54 0 * nib c 56 0 : Nat) - (nib c 57 0 : Int)
    let y : Int := (oy * nib c 55 1 + t / nib c 54 0 * nib c 56 1 : Nat) - (nib c 57 1 : Int)
    if x < 0 ∨ x ≥ stWidth c ∨ y < 0 ∨ y ≥ stHeight c then none
    else
      let pos := y.toNat * stWidth c + x.toNat
      let k := stCbOff c + g % stCb c
      some [(c.maddr + pos * stMs c + k * 4 * w, 4 * w), (c.eaddr + pos * stEs c + k, 1)]
  else
    let tk := stCbOff c + g
    if ¬ c.trans then
      let sub := c.maddr + u / 32 * stMs c + tk * 128 * w
      some ((List.range w).map (fun p => (sub + 128 * p + 4 * (u % 32), 4)) ++ [(c.eaddr + u / 32 * stEs c + tk, 1)])
    else
      let sub := c.maddr + tk * stMs c + u / 32 * 128 * w
      some [(sub, 128 * w), (c.eaddr + tk * stEs c + u / 32, 1)]

/-- The exponent code and the 32 mantissas of a block from the bytes of its runs. -/
def feedBlock (c : QCmd) (u : Nat) (bs : List Byte) : Nat × List Nat :=
  let w := fmtBits c.fmt
  ((bs.getLastD 0).toNat,
   (List.range 32).map (fun j => if c.square && c.trans then squareEl bs w j (u % 32) else planeEl bs w j))

/-- Read the blocks of a dense vector in ascending row group. -/
def feedDense (src : Nat) (c : QCmd) (u : Nat) : List Nat → State → List (Nat × Nat × List Nat) → State × Option Vec
  | [], s, acc => (s, some { blocks := acc })
  | g :: r, s, acc =>
    match feedRuns c u g with
    | none => feedDense src c u r s (acc ++ [(g, 0, List.replicate 32 0)])
    | some runs =>
      match readAll src runs s [] with
      | (t, none) => (t, none)
      | (t, some bs) => feedDense src c u r t (acc ++ [(g, feedBlock c u bs)])

/-- A byte of a sparse tile that reads as 0 from the limit on (R399). -/
def tileByte (bs : List Byte) (i : Nat) : Nat := (bs.getD i 0).toNat

/-- Bits [lo + w − 1 : lo] counted from byte o of a tile. -/
def tileField (bs : List Byte) (o lo w : Nat) : Nat := natBits (leNat ((bs.drop (o + lo / 8)).take 4)) (lo % 8) w

def popcount (n : Nat) : Nat := ((List.range 32).filter (fun j => n / 2 ^ j % 2 = 1)).length

/-- The row words of a bitmap record at byte o. -/
def bmWords (bs : List Byte) (ng o : Nat) : List Nat := (List.range ng).map (fun b => tileField bs (o + 4 * b) 0 32)

/-- The size of a bitmap record (R388). -/
def bmSize (bs : List Byte) (ng w o : Nat) : Nat :=
  let ws := bmWords bs ng o
  let e := (ws.filter (fun x => x ≠ 0)).length
  let n := (ws.map popcount).sum
  4 * ng + 4 * ceilDiv (e + ceilDiv (n * w) 8) 4

/-- The byte at which row r of a bitmap body begins. -/
def bmOffset (bs : List Byte) (ng w : Nat) : Nat → Nat → Nat
  | 0, o => o
  | r + 1, o => bmOffset bs ng w r (o + bmSize bs ng w o)

/-- Number the entries of a list of flags: rank and value of each flag that is set. -/
def ranks : List Bool → Nat → List (Option Nat)
  | [], _ => []
  | true :: r, k => some k :: ranks r (k + 1)
  | false :: r, k => none :: ranks r k

/-- A bitmap row (R388). -/
def bmRow (bs : List Byte) (ng w o : Nat) : Vec :=
  let ws := bmWords bs ng o
  let es := ranks (ws.map (fun x => decide (x ≠ 0))) 0
  let e := (ws.filter (fun x => x ≠ 0)).length
  let flags := (ws.map (fun x => (List.range 32).map (fun j => decide (x / 2 ^ j % 2 = 1)))).flatten
  let ms := (ranks flags 0).map (fun k => match k with
    | some i => tileField bs (o + 4 * ng + e) (w * i) w
    | none => 0)
  { present := flags.any id,
    blocks := es.zipIdx.map (fun x => (x.2, (match x.1 with
      | some i => tileByte bs (o + 4 * ng + i)
      | none => 0), (ms.drop (32 * x.2)).take 32)) }

/-- A row that is being collected from chunks: the mantissa at each position, the exponent code of each block, and whether the
row has an entry. -/
structure CsrRow where
  cells : List Nat
  codes : List Nat
  present : Bool

/-- Take one entry of a chunk: COL beyond the row or beyond the readable bytes is ignored (R399), and an entry of a block whose
EMASK bit is clear in its chunk contributes nothing (R389). -/
def csrEntry (ng : Nat) (codes : List (Option Nat)) (colOk : Bool) (row : CsrRow) (col m : Nat) : CsrRow :=
  if colOk ∧ col < 32 * ng then
    { row with cells := row.cells.set col (if (codes.getD (col / 32) none).isSome then m else 0), present := true }
  else row

/-- A chunk's exponent codes: where chunks of one row give a block different codes, the later one in body order stands for the
block, as the later entry of a position does (DESIGN CHOICE, log entry 41). -/
def csrCodes (codes : List (Option Nat)) (row : CsrRow) : CsrRow :=
  { row with codes := row.codes.zipIdx.map (fun c => (codes.getD c.2 none).getD c.1) }

/-- Walk the chunks of a chunked-CSR body, collecting one row (R389, R399). `top` is the highest ROW met so far plus
one. -/
def csrWalk (bs : List Byte) (lim ng w nrows row : Nat) : Nat → Nat → Nat → CsrRow → CsrRow
  | 0, _, _, acc => acc
  | fuel + 1, o, top, acc =>
    if o + 4 > lim then acc
    else
      let r := tileField bs o 0 16
      let n := tileByte bs (o + 2) + 1
      let em := tileByte bs (o + 3)
      let e := popcount em
      let next := o + 4 * ceilDiv (4 + e + n + ceilDiv (n * w) 8) 4
      let mine := decide (r = row) && decide (r + 1 ≥ top) && decide (r < nrows)
      let es := ranks ((List.range 8).map (fun b => decide (em / 2 ^ b % 2 = 1))) 0
      let codes := es.map (fun x => x.map (fun i => tileByte bs (o + 4 + i)))
      let acc1 := if mine then
          (List.range n).foldl (fun q k =>
            csrEntry ng codes (decide (o + 4 + e + k < lim)) q (tileByte bs (o + 4 + e + k))
              (tileField bs (o + 4 + e + n) (w * k) w)) (csrCodes codes acc)
        else acc
      csrWalk bs lim ng w nrows row fuel next (max top (r + 1)) acc1

/-- Row r of a sparse tile whose readable bytes are given (R386 to R389, R399). -/
def sparseRow (c : QCmd) (bs : List Byte) (r : Nat) : Vec :=
  let w := fmtBits c.fmt
  let ng := stNgrp c
  let kind := tileByte bs 0 % 4
  let raw := tileByte bs 0 / 4 % 2 = 1
  let nrows := tileField bs 2 0 16
  let none_ : Vec := { present := false, blocks := (List.range ng).map (fun b => (b, 0, List.replicate 32 0)) }
  if r ≥ nrows then none_
  else if raw then
    let blk (b : Nat) : Nat × Nat × List Nat :=
      (b, tileByte bs (16 + nrows * ng * 4 * w + r * ng + b), (List.range 32).map (planeEl (bs.drop (16 + (r * ng + b) * 4 * w)) w))
    let blocks := (List.range ng).map blk
    { present := blocks.any (fun b => b.2.1 ≠ 0), blocks := blocks }
  else if kind = 1 then bmRow bs ng w (bmOffset bs ng w r 16)
  else if kind = 2 then
    let q := csrWalk bs bs.length ng w nrows r (bs.length / 4) 16 0 ⟨List.replicate (32 * ng) 0, List.replicate ng 0, false⟩
    { present := q.present, blocks := q.codes.zipIdx.map (fun c => (c.2, c.1, (q.cells.drop (32 * c.2)).take 32)) }
  else none_

/-- The readable bytes of a sparse tile: up to MADDR + min(TLIM, 16 + BODY) (R399). -/
def readTile (src : Nat) (c : QCmd) (s : State) : State × Option (List Byte) :=
  match s.read src c.maddr 16 with
  | (t, none) => (t, none)
  | (t, some h) =>
    let n := min (stTlim c) (16 + leNat ((h.drop 8).take 4))
    t.read src c.maddr n

/-- The vectors lo up to hi of a STREAM. V0 + v is a u32 in the pseudocode of R128 and wraps there; the tile row V0 + v of
R395 has no width, and does not (DESIGN CHOICE, log entry 103). -/
def feedVecs (src : Nat) (c : QCmd) (tile : List Byte) : List Nat → State → List Vec → State × Option (List Vec)
  | [], s, acc => (s, some acc)
  | v :: r, s, acc =>
    if stSparse c then feedVecs src c tile r s (acc ++ [sparseRow c tile (stV0 c + v)])
    else
      match feedDense src c ((stV0 c + v) % 2 ^ 32) (List.range (stNgrp c)) s [] with
      | (t, none) => (t, none)
      | (t, some x) => feedVecs src c tile r t (acc ++ [x])

/-- The bytes of a sparse tile, read once for a STREAM (R400). -/
def tileOf (src : Nat) (j : StreamJob) (s : State) : State × Option (List Byte) :=
  match j.tile with
  | some tile => (s, some tile)
  | none => readTile src j.cmd s

/-- Read the vectors of a set. Of the moments that R123 allows, a dense STREAM reads the bytes of a set as the set runs, and
a sparse one its whole tile with its first set (DESIGN CHOICE, log entry 103). -/
def State.feedSet (s : State) (src : Nat) (j : StreamJob) (lo hi : Nat) : State × Option (List Byte × List Vec) :=
  let c := j.cmd
  let vs := (List.range (hi - lo)).map (fun k => lo + k)
  if stSparse c then
    match tileOf src j s with
    | (t, none) => (t, none)
    | (t, some tile) =>
      match feedVecs src c tile vs t [] with
      | (u, none) => (u, none)
      | (u, some xs) => (u, some (tile, xs))
  else
    match feedVecs src c [] vs s [] with
    | (u, none) => (u, none)
    | (u, some xs) => (u, some ([], xs))

-- The dot product (R93 to R96, R113).

/-- The digit-signedness bit of the cells of a physical column: the operand's SGN, or with pairs that of the odd columns
alone (R111, R116). -/
def Buf.signBit (b : Buf) (col : Nat) : Bool := b.sgn && (!b.pair || col % 2 == 1)

/-- The value of a cell's digit under its signedness bit (R111). -/
def Buf.digit (b : Buf) (r col : Nat) : Int :=
  let d := Tab.get b.digits 0 (r * 128 + col)
  if b.signBit col then d.toInt else d.toNat

/-- The stationary mantissa of row r of logical column k (R116). -/
def Buf.cell (b : Buf) (r k : Nat) : Int :=
  if b.pair then b.digit r (2 * k) + 256 * b.digit r (2 * k + 1) else b.digit r k

/-- The exact block sum of block g of column k against streamed mantissas. -/
def blockSum (b : Buf) (g k : Nat) (w : Nat) (sgn : Bool) (ms : List Nat) : Int :=
  ms.zipIdx.foldl (fun acc m =>
    acc + b.cell (32 * g + m.2) k * (if sgn then toSigned w m.1 else ((m.1 : Nat) : Int))) 0

/-- floor(s × 2^d) (R93, R95). -/
def shiftSum (s d : Int) : Int := if d ≥ 0 then s * pow2 d else s / pow2 (-d)

/-- Add one block sum to a record (R93, R96). -/
def AccRec.addSum (r : AccRec) (wrap : Bool) (t : Int) : AccRec :=
  let (v1, o1) := narrow80 wrap t
  let (v2, o2) := narrow80 wrap (v1.toInt + r.value.toInt)
  { r with value := v2, ovf := r.ovf || o1 || o2 }

/-- The contributions of one vector to one column, in ascending block index (R93, R94, R113). -/
def accumulate (c : QCmd) (b : Buf) (k : Nat) (v : Vec) (r : AccRec) : AccRec :=
  v.blocks.foldl (fun acc blk =>
    let eb := blk.2.1
    let ea := (Tab.get b.exps 0 (blk.1 * 128 + k)).toNat
    if ea = 0 ∨ eb = 0 then acc
    else
      let sum := blockSum b blk.1 k (fmtBits c.fmt) c.sgn blk.2.2
      acc.addSum (stWrap c) (shiftSum sum ((ea : Int) + eb - 254 - toSigned 10 (stAnchor c)))) r

/-- A cleared record under a command's ANCHOR and OVF (R133). -/
def clearRec (c : QCmd) : AccRec := { anchor := BitVec.ofNat 10 (stAnchor c), wrap := stWrap c, valid := true }

/-- Land one vector of a set in its slot: every target record cleared under CLEAR and then added to. -/
def landVec (c : QCmd) (b : Buf) (mode l bank slot : Nat) (x : TilArr) (v : Vec) : TilArr :=
  (List.range (targetCols mode b.pair)).foldl (fun y k =>
    let a := recAddr mode l slot k
    let r := if stClear c then clearRec c else y.recAt bank a
    { y with recs := Tab.put y.recs (bank * 512 + a) (accumulate c b k v r) }) x

/-- Update the oldest STREAM of a lot. -/
def TilArr.setStream (x : TilArr) (l : Nat) (j : StreamJob) : TilArr :=
  let v := x.lot l
  x.setLot l { v with streams := j :: v.streams.tail }

/-- Some narrowing of a set has overflowed: a record of the lot has set its flag, whether or not the flag stood before (R96,
R155). -/
def setOverflows (c : QCmd) (b : Buf) (mode l bank lo : Nat) (x : TilArr) (vs : List Vec) : Bool :=
  vs.zipIdx.any (fun v => (List.range (targetCols mode b.pair)).any (fun k =>
    let r := if stClear c then clearRec c else x.recAt bank (recAddr mode l ((lo + v.2) % lotSlots mode) k)
    (accumulate c b k v.1 { r with ovf := false }).ovf))

/-- The groups of a set's records (R134). -/
def setGroups (recs : List Nat) : List Nat := (recs.map (fun r => r / 16)).eraseDups

/-- Some group of the set is in DRAIN. -/
def TilArr.blocked (x : TilArr) (bank : Nat) (recs : List Nat) : Bool :=
  (setGroups recs).any (fun g => x.drain bank / 2 ^ g % 2 = 1)

/-- clk of a set's beats that fall together with beats of other lots, which the model does not follow; none where no other
lot has a STREAM (R157, log entry 40). -/
def State.sharedBeats (s : State) (x : TilArr) (l beats : Nat) : Nat :=
  if x.lots.any (fun p => p.1 != l && !p.2.streams.isEmpty) then (Config.freeReading (tilCntBeat 0 0) s.draws).toNat % (beats + 1) else 0

/-- Update STREAM i of a lot. -/
def TilArr.setJob (x : TilArr) (l i : Nat) (j : StreamJob) : TilArr :=
  let v := x.lot l
  x.setLot l { v with streams := v.streams.set i j }

/-- STREAM i of a lot runs n beats of the last of its sets in the links: TAG and the counters of R157. A stop at a full link
before them has ended. -/
def State.runBeats (s : State) (st a l i : Nat) (j : StreamJob) (n : Nat) : State :=
  let x := s.tiller st a
  let y := if n > 0 then { x with tag := BitVec.ofNat 32 j.cmd.tag } else x
  let last := j.held.getLast?.map (fun r => { r with run := r.run + n })
  let s1 := s.setTiller st a ((y.setJob l i { j with held := j.held.dropLast ++ last.toList, stalled := false }).settle l)
  let s2 := ((s1.count (tilCntBeat st a) (n - s.sharedBeats x l n)).draw).clk (tilCntFeed st a)
  if j.stalled then s2.clk (tilCntDrain st a) else s2

/-- STREAM i of a lot begins its next set with the content that is active: the set's operands are read, and its vectors
without a beat are counted (R402). An uncorrectable error stops the STREAM, and the flag is false (R148). -/
def State.beginSet (s : State) (st a l i : Nat) (j : StreamJob) : State × Bool :=
  let x := s.tiller st a
  let sl := lotSlots x.mode.toNat
  let k := j.setsDone + j.held.length
  let lo := k * sl
  match s.feedSet (engTil st) j lo (min (stV j.cmd) (lo + sl)) with
  | (t, none) =>
    let v := x.lot l
    ((t.setTiller st a ((x.setLot l { v with streams := v.streams.eraseIdx i }).settle l)).tilMemHalt st a j.cmd, false)
  | (t, some (tile, vs)) =>
    let y := t.tiller st a
    let j1 := { j with held := j.held ++ [⟨(y.lot l).active, vs, 0⟩], tile := if stSparse j.cmd then some tile else none }
    (((t.setTiller st a ((y.setJob l i j1).settle l)).count (tilCntSkip st a) ((vs.filter (fun v => !v.present)).length)).count
      (tilCntTileb st a) (if k = 0 then tile.length else 0), true)

/-- Vector v of set k of a STREAM has a target group in DRAIN. -/
def TilArr.vecBlocked (x : TilArr) (l : Nat) (c : QCmd) (b : Buf) (k v : Nat) : Bool :=
  let mode := x.mode.toNat
  let i := k * lotSlots mode + v
  x.blocked ((stBank c + k) % 2) (setRecs mode b.pair l i (i + 1))

/-- The beats of each vector of a lot's sets in the links, with whether it has a target group in DRAIN. -/
def TilArr.linkVecs (x : TilArr) (l : Nat) : List (Nat × Bool) :=
  (x.lot l).streams.flatMap (fun j => j.held.zipIdx.flatMap (fun r => r.1.vecs.zipIdx.map (fun v =>
    (vecBeats j.cmd v.1, x.vecBlocked l j.cmd r.1.buf (j.setsDone + r.2) v.2))))

/-- Up to which beat, counted over the sets in its links, a lot may run: 16 beats from the first one on that waits for a group
in DRAIN (R137); none where no beat waits. -/
def TilArr.linkCap (x : TilArr) (l : Nat) : Option Nat :=
  let vs := x.linkVecs l
  if vs.all (fun v => !v.2) then none else some (((vs.takeWhile (fun v => !v.2)).map (fun v => v.1)).sum + 16)

/-- The beats of the sets in a lot's links that have run. -/
def TilArr.linkRun (x : TilArr) (l : Nat) : Nat := ((x.lot l).streams.map (fun j => (j.held.map (fun r => r.run)).sum)).sum

/-- The STREAM of a lot whose beat comes next, if its exchange is done. -/
def feeder (mode : Nat) : List StreamJob → Option Nat
  | [] => none
  | j :: r =>
    if j.ran mode then (feeder mode r).map (fun i => i + 1)
    else if stFrozen j.cmd || (stSwap j.cmd && !j.swapped) then none else some 0

/-- The beats that are left of the set that a STREAM is running. -/
def StreamJob.rest (j : StreamJob) : Nat :=
  match j.held.getLast? with
  | some r => setBeats j.cmd r.vecs - r.run
  | none => 0

/-- Run a lot's feeder on, over sets and STREAMs, behind a beat that waits for a group in DRAIN, until the links are full
(R137). -/
def runOn (st a l : Nat) : Nat → State → State
  | 0, s => s
  | k + 1, s =>
    let x := s.tiller st a
    match x.linkCap l, feeder x.mode.toNat (x.lot l).streams with
    | some cap, some i =>
      match (x.lot l).streams[i]? with
      | none => s
      | some j =>
        if j.rest > 0 then
          let n := min j.rest (cap - x.linkRun l)
          if n = 0 then s.setTiller st a (x.setJob l i { j with stalled := true })
          else runOn st a l k (s.runBeats st a l i j n)
        else
          match s.beginSet st a l i j with
          | (t, true) => runOn st a l k t
          | (t, false) => t
    | _, _ => s

/-- Enough turns for every set of a lot's STREAMs to begin and to run its beats. -/
def TilArr.turns (x : TilArr) (l : Nat) : Nat :=
  ((x.lot l).streams.map (fun j => 3 * (setCount x.mode.toNat j.cmd + 1))).sum

def State.runLinks (s : State) (st a l : Nat) : State := runOn st a l ((s.tiller st a).turns l) s

/-- A set lands: its records, with HAND its groups, the overflow bit of its lot (R132 to R134, R155). -/
def State.landSet (s : State) (st a l : Nat) (j : StreamJob) (b : Buf) (lo bank : Nat) (recs : List Nat) (vs : List Vec) : State :=
  let c := j.cmd
  let x := s.tiller st a
  let mode := x.mode.toNat
  let z1 := vs.zipIdx.foldl (fun q v => landVec c b mode l bank ((lo + v.2) % lotSlots mode) q v.1) x
  let z2 := if stHand c then z1.setDrain bank ((setGroups recs).foldl (fun v g => v ||| 2 ^ g) (z1.drain bank)) else z1
  let z3 := z2.setStream l { j with setsDone := j.setsDone + 1, held := j.held.tail }
  let t := s.setTiller st a (z3.settle l)
  if setOverflows c b mode l bank lo x vs then t.setBit (tilOvf st a) l else t

/-- The oldest set of a lot's links lands with what is left of its beats; where one of its groups is in DRAIN it waits, and the
beats behind it run into the links as far as these hold them (R134, R137). -/
def State.landOrWait (s : State) (st a l : Nat) : State :=
  let x := s.tiller st a
  let mode := x.mode.toNat
  match (x.lot l).streams with
  | [] => s
  | j :: _ =>
    match j.held with
    | [] => s
    | r :: more =>
      let lo := j.setsDone * lotSlots mode
      let bank := (stBank j.cmd + j.setsDone) % 2
      let recs := setRecs mode r.buf.pair l lo (min (stV j.cmd) (lo + lotSlots mode))
      if x.blocked bank recs then s.runLinks st a l
      else
        let t := if more = [] then s.runBeats st a l 0 j (setBeats j.cmd r.vecs - r.run) else s
        match (((t.tiller st a).lot l).streams).head? with
        | none => t
        | some q => t.landSet st a l q r.buf lo bank recs r.vecs

/-- SET_HANDOVER (R121, R132 to R134, R137, R395): the next set of the lot's oldest STREAM lands, after the STREAM's
exchange, and with HAND its groups pass to DRAIN. Where one of its groups is in DRAIN the set waits in the links, which take 16
beats from the first that waits, of this set and of those behind it, and it lands by a later SET_HANDOVER. -/
def execSetHandover (st : Strip) (a : Arr) (lot : Lot) (s : State) : Out :=
  let x := s.tiller st.val a.val
  match (x.lot lot.val).streams with
  | [] => stutter s
  | j :: _ =>
    let c := j.cmd
    if stFrozen c ∨ j.setsDone ≥ setCount x.mode.toNat c ∨ (stSwap c ∧ ¬ j.swapped) then stutter s
    else if j.held = [] then
      match s.beginSet st.val a.val lot.val 0 j with
      | (t, false) => .next t
      | (t, true) => .next (t.landOrWait st.val a.val lot.val)
    else .next ((s.landOrWait st.val a.val lot.val).runLinks st.val a.val lot.val)

/-- STREAM_DONE (R145, R146): the oldest STREAM of a lot has landed its last set, or is a frozen one that has exchanged, and
completes; a frozen STREAM behind one that has run its last beat completes before it. -/
def execStreamDone (st : Strip) (a : Arr) (lot : Lot) (s : State) : Out :=
  let x := s.tiller st.val a.val
  let mode := x.mode.toNat
  let finish (j : StreamJob) (rest : List StreamJob) : Out :=
    let y := (x.setLot lot.val { x.lot lot.val with streams := rest }).settle lot.val
    .next ((s.setTiller st.val a.val y).finishCmd (engTil st.val) j.cmd)
  match (x.lot lot.val).streams with
  | [] => stutter s
  | j :: r =>
    if j.ran mode ∧ j.held = [] then finish j r
    else
      match r with
      | [] => stutter s
      | k :: q => if j.ran mode ∧ stFrozen k.cmd ∧ k.ran mode then finish k (j :: q) else stutter s

/-- Beats of a lot run: a beat comes next, and the links have room for it (R137, R152). -/
def TilArr.streaming (x : TilArr) (l : Nat) : Bool :=
  (feeder x.mode.toNat (x.lot l).streams).isSome &&
    (match x.linkCap l with
     | none => true
     | some cap => decide (x.linkRun l < cap))

/-- Reset a strip's arrays (R131): modes, records, groups and buffers; the halted state ends (R147). -/
def State.clearTiller (s : State) (st : Nat) : State := { s with til := s.til.filter (fun p => p.1 / 10 != st) }

end Sys2Proof.Machine
end

