-- ==== Sys2Proof/Machine/Drill.lean ====
section
/-!
DEFINITION. The Drill samplers and edge ingest (chapter 7): graph storage, the sampling modes, the parcel cut and its
block, the SAMPLE command and the batches of new edges. Sampling is written as a function of the bytes it reads; a read
of another module that has not been answered yet ends it with a request (R286).
-/

namespace Sys2Proof.Machine
open Sys2Proof

-- Reading (R259, R286).

/-- What a computation that reads memory gives: an answer, a read of another module that is needed first, an uncorrectable
error, which is reported, or an address out of reach. -/
inductive RdR (α : Type) where
  | ok (s : State) (a : α)
  | need (r : MemRun)
  | ue (s : State)
  | out (s : State)

/-- Go on with an answer. -/
def RdR.bind {α β : Type} (x : RdR α) (f : State → α → RdR β) : RdR β :=
  match x with
  | .ok s a => f s a
  | .need r => .need r
  | .ue t => .ue t
  | .out t => .out t

/-- Go through a list, from the left. -/
def RdR.fold {α β : Type} (f : State → β → α → RdR β) : List α → State → β → RdR β
  | [], s, b => .ok s b
  | a :: r, s, b =>
    match f s b a with
    | .ok t c => RdR.fold f r t c
    | .need q => .need q
    | .ue u => .ue u
    | .out u => .out u

/-- Answers of other modules that have arrived. -/
abbrev Got := List (MemRun × List Byte)

/-- The reach of the Drill: local DRAM below the top 8 GiB and the base-die buffers (R290, R404). -/
def drlReach (a n : Nat) : Bool := spans inJobDram a n || spans inBuf a n

/-- Read at most 4,096 bytes of a module; the target tests the reach of a remote read (R408). -/
def rdRun (src : Nat) (got : Got) (chip a n : Nat) (s : State) : RdR (List Byte) :=
  if chip = s.chip then
    if ¬ drlReach a n then .out s
    else
      match s.read src a n with
      | (t, some bs) => .ok t bs
      | (t, none) => .ue t
  else
    match got.find? (fun g => g.1 == ⟨chip, a, n⟩) with
    | some g => .ok s g.2
    | none => .need ⟨chip, a, n⟩

/-- Read a long run in pieces of 4,096 bytes (R505). -/
def rdLong (src : Nat) (got : Got) (chip : Nat) : Nat → Nat → Nat → State → List Byte → RdR (List Byte)
  | 0, _, _, s, acc => .ok s acc
  | k + 1, a, n, s, acc =>
    if n = 0 then .ok s acc
    else (rdRun src got chip a (min n 4096) s).bind (fun t bs => rdLong src got chip k (a + 4096) (n - 4096) t (acc ++ bs))

-- Graphs (R258 to R265).

/-- A graph descriptor (R258). -/
structure Graph where
  nodeTab : Nat
  aliasIdx : Nat
  partTab : Nat
  nrange : Nat
  shift : Nat
  pool : Nat

def graphOf (bs : List Byte) : Graph :=
  { nodeTab := msgNat bs 0 8 % 2 ^ 48, aliasIdx := msgNat bs 8 8 % 2 ^ 48, partTab := msgNat bs 16 8 % 2 ^ 48,
    nrange := msgNat bs 24 4, shift := msgNat bs 28 1 % 64, pool := msgNat bs 32 8 % 2 ^ 48 }

def graphAddr (s : State) (g : Nat) : Nat := s.fld drlGtab 0 48 + 64 * g

def Graph.valid (g : Graph) (v : Nat) : Bool := v / 2 ^ g.shift < g.nrange

/-- The owner and the record index of a valid node (R259). -/
def nodePlace (src : Nat) (got : Got) (g : Graph) (v : Nat) (s : State) : RdR (Nat × Nat) :=
  (rdRun src got s.chip (g.partTab + 8 * (v / 2 ^ g.shift)) 8 s).bind (fun t bs =>
    .ok t (leNat bs % 2 ^ 16, natBits (leNat bs) 16 32 * 2 ^ g.shift + v % 2 ^ g.shift))

/-- A node record (R260). -/
structure Node where
  base : Nat
  seg : Nat
  baseLen : Nat
  visLen : Nat
  newLen : Nat
  newStep : Nat

def nodeOf (bs : List Byte) : Node :=
  { base := msgNat bs 0 8 % 2 ^ 48, seg := msgNat bs 8 8 % 2 ^ 48, baseLen := msgNat bs 16 4, visLen := msgNat bs 20 4,
    newLen := msgNat bs 24 4, newStep := msgNat bs 28 4 }

/-- The list length that a step sees (R263). -/
def Node.lenAt (n : Node) (step : Nat) : Nat := if step ≥ n.newStep then n.newLen else n.visLen

/-- Edge words as neighbour and time (R261). -/
def edgesOf : Nat → List Byte → List (Nat × Nat)
  | 0, _ => []
  | k + 1, bs => if bs.length < 8 then [] else (msgNat bs 0 5, msgNat bs 5 3) :: edgesOf k (bs.drop 8)

/-- Follow the append segments until the list is long enough or the chain ends; no edge word beyond it is read (R262, R263). -/
def rdSegs (src : Nat) (got : Got) (chip want : Nat) : Nat → Nat → State → List (Nat × Nat) → RdR (List (Nat × Nat))
  | 0, _, s, acc => .ok s acc
  | k + 1, seg, s, acc =>
    if seg = 0 ∨ acc.length ≥ want then .ok s acc
    else (rdRun src got chip seg 16 s).bind (fun t hb =>
      let n := min (msgNat hb 12 2) (want - acc.length)
      (rdRun src got chip (seg + 16) (8 * n) t).bind (fun u bs =>
        rdSegs src got chip want k (msgNat hb 0 8 % 2 ^ 48) u (acc ++ edgesOf n bs)))

/-- The first len edges of a node's list (R261, R264). -/
def rdList (src : Nat) (got : Got) (chip : Nat) (n : Node) (len : Nat) (s : State) : RdR (List (Nat × Nat)) :=
  let b := min len n.baseLen
  (rdLong src got chip (8 * b / 4096 + 1) n.base (8 * b) s []).bind (fun t bs =>
    (rdSegs src got chip len (len + 1) n.seg t (edgesOf b bs)).bind (fun u es => .ok u (es.take len)))

-- Hops and modes (R272 to R278).

/-- One hop of a sampling descriptor (R272). -/
structure Hop where
  mode : Nat
  graph : Nat
  fanout : Nat
  window : Nat

/-- A sampling descriptor (R272). -/
structure Sdesc where
  hops : Nat
  capEdges : Nat
  capNodes : Nat
  capSeeds : Nat
  hop : List Hop

def sdescOf (bs : List Byte) : Sdesc :=
  { hops := msgNat bs 0 1 % 8, capEdges := msgNat bs 4 4, capNodes := msgNat bs 8 4, capSeeds := msgNat bs 12 4,
    hop := (List.range 4).map (fun i =>
      let w := msgNat bs (16 + 8 * i) 8
      { mode := w % 4, graph := natBits w 2 2, fanout := natBits w 8 8, window := natBits w 16 24 }) }

/-- The fields of a sampling descriptor are in range. -/
def Sdesc.ok (d : Sdesc) : Bool :=
  let inR (v lo hi : Nat) : Bool := decide (lo ≤ v) && decide (v ≤ hi)
  inR d.hops 1 4 && inR d.capEdges 1 262144 && inR d.capNodes 1 65536 && inR d.capSeeds 1 4096 &&
    (d.hop.take d.hops).all (fun h => h.mode != 3 && inR h.fanout 1 64)

/-- Word number w of an expansion (R274). -/
def drawWord (s : State) (step mb h v w : Nat) : Nat :=
  (philox s.job.seed.toNat step (2 * 2 ^ 28 + (h - 1) % 4 * 2 ^ 26 + mb % 2 ^ 26) (v % 2 ^ 32)
    (v / 2 ^ 32 % 256 + w / 4 % 65536 * 256)).getD (w % 4) 0

/-- The candidates of R273 as a range [a, b) of positions: those below the first time after T_Q and from lo on. -/
def candidates (es : List (Nat × Nat)) (lo tq : Nat) : Nat × Nat :=
  ((es.filter (fun e => decide (e.2 < lo))).length, (es.filter (fun e => decide (e.2 ≤ tq))).length)

/-- Floyd's choice of m distinct numbers below n (R275). -/
def floyd (word : Nat → Nat) (n m : Nat) : List Nat :=
  (List.range m).foldl (fun chosen i =>
    let j := n - m + i
    let t := word i * (j + 1) / 2 ^ 32
    if chosen.contains t then chosen ++ [j] else chosen ++ [t]) []

/-- Uniform mode: the positions in ascending order (R275). -/
def uniformPick (word : Nat → Nat) (a n k : Nat) : List Nat :=
  let c := floyd word n (min k n)
  ((List.range n).filter (fun x => c.contains x)).map (fun x => a + x)

/-- Recent mode (R276). -/
def recentPick (a b k : Nat) : List Nat := (List.range (min k (b - a))).map (fun i => b - 1 - i)

/-- Counts that sampling adds to the registers of R296. -/
structure DrlCnt where
  remote : Nat := 0
  discard : Nat := 0
  noAlias : Nat := 0
  invalid : Nat := 0

/-- Weighted mode (R277): positions emitted and the draws discarded. -/
def weightedPick (word : Nat → Nat) (tab : List (Nat × Nat)) (es : List (Nat × Nat)) (lo tq k : Nat) : List Nat × Nat :=
  (List.range k).foldl (fun acc i =>
    let x := word (2 * i) * tab.length / 2 ^ 32
    let e := tab.getD x (0, 0)
    let p := if word (2 * i + 1) < e.1 ∨ e.1 = 0xFFFFFFFF then x else e.2
    match es[p]? with
    | some ed => if lo ≤ ed.2 ∧ ed.2 ≤ tq then (acc.1 ++ [p], acc.2) else (acc.1, acc.2 + 1)
    | none => (acc.1, acc.2 + 1)) ([], 0)

/-- The alias table of a node (R265). -/
def rdAlias (src : Nat) (got : Got) (chip idx : Nat) (g : Graph) (s : State) : RdR (List (Nat × Nat)) :=
  if g.aliasIdx = 0 then .ok s []
  else
    (rdRun src got chip (g.aliasIdx + 8 * idx) 8 s).bind (fun t bs =>
      let a := leNat bs % 2 ^ 48
      if a = 0 then .ok t []
      else
        (rdRun src got chip a 8 t).bind (fun u hb =>
          let n := msgNat hb 0 4
          (rdLong src got chip (8 * n / 4096 + 1) (a + 8) (8 * n) u []).bind (fun v eb =>
            .ok v ((List.range n).map (fun i => (msgNat eb (8 * i) 4, msgNat eb (8 * i + 4) 4))))))

/-- One expansion (R273 to R278): the neighbours in their order. A node that is not valid expands to none. -/
def expand (src : Nat) (got : Got) (step mb tq h : Nat) (hop : Hop) (v : Nat) (s : State) (cnt : DrlCnt) :
    RdR (List Nat × DrlCnt) :=
  (rdRun src got s.chip (graphAddr s hop.graph) 64 s).bind (fun s1 gb =>
    let g := graphOf gb
    if ¬ g.valid v then .ok s1 ([], cnt)
    else
      (nodePlace src got g v s1).bind (fun s2 place =>
        (rdRun src got place.1 (g.nodeTab + 32 * place.2) 32 s2).bind (fun s3 nb =>
          let n := nodeOf nb
          let len := n.lenAt step
          (rdList src got place.1 n len s3).bind (fun s4 es =>
            let lo := if hop.window = 0 then 0 else tq - hop.window
            let (a, b) := candidates es lo tq
            let word := drawWord s4 step mb h v
            let cnt1 := if place.1 = s.chip then cnt else { cnt with remote := cnt.remote + 1 }
            let emit (ps : List Nat) : List Nat := ps.map (fun p => (es.getD p (0, 0)).1)
            if hop.mode = 0 then .ok s4 (emit (uniformPick word a (b - a) hop.fanout), cnt1)
            else if hop.mode = 1 then .ok s4 (emit (recentPick a b hop.fanout), cnt1)
            else
              (rdAlias src got place.1 place.2 g s4).bind (fun s5 tab =>
                if tab.isEmpty then
                  .ok s5 (emit (uniformPick word a (b - a) hop.fanout), { cnt1 with noAlias := cnt1.noAlias + 1 })
                else
                  let (ps, d) := weightedPick word tab es lo tq hop.fanout
                  .ok s5 (emit ps, { cnt1 with discard := cnt1.discard + d }))))))

-- The parcel cut (R279 to R285).

/-- A node's neighbours at a hop. -/
structure Expn where
  hop : Nat
  node : Nat
  nbrs : List Nat
deriving DecidableEq, Repr

def findExpn (l : List Expn) (h v : Nat) : Option (List Nat) :=
  (l.find? (fun e => e.hop == h && e.node == v)).map (fun e => e.nbrs)

/-- The new expansions of one hop for a list of nodes. -/
def treeHop (src : Nat) (got : Got) (step mb tq h : Nat) (hop : Hop) (done : List Expn) (vs : List Nat) (s : State)
    (cnt : DrlCnt) : RdR (List Expn × DrlCnt) :=
  RdR.fold (fun t (acc : List Expn × DrlCnt) v =>
    if (findExpn (done ++ acc.1) h v).isSome then .ok t acc
    else (expand src got step mb tq h hop v t acc.2).bind (fun u r => .ok u (acc.1 ++ [⟨h, v, r.1⟩], r.2))) vs s ([], cnt)

/-- The expansions of a seed's tree that the parcel does not hold yet (R283). -/
def tree (src : Nat) (got : Got) (step mb tq : Nat) (d : Sdesc) (done : List Expn) :
    List Nat → List Nat → State → DrlCnt → List Expn → RdR (List Expn × DrlCnt)
  | [], _, s, cnt, acc => .ok s (acc, cnt)
  | h :: hs, front, s, cnt, acc =>
    (treeHop src got step mb tq h (d.hop.getD (h - 1) ⟨0, 0, 0, 0⟩) done front s cnt).bind (fun t r =>
      tree src got step mb tq d done hs ((r.1.map (fun e => e.nbrs)).flatten).eraseDups t r.2 (acc ++ r.1))

/-- The seeds of a parcel so far: index, USER and node; the expansions; the nodes that hold slots. -/
structure Parcel where
  seeds : List (Nat × Nat × Nat) := []
  exps : List Expn := []
  nodes : List Nat := []
  edges : Nat := 0
  cnt : DrlCnt := {}
  spec : Nat := 0
  mbEnd : Bool := false
  mb : Nat
  si : Nat

/-- A seed table: its address and header (R280). -/
structure SeedTab where
  addr : Nat
  ready : Nat
  mbCount : Nat
  seqNow : Nat
  seqNext : Nat

def seedTabAddr (c : QCmd) : Nat := c.a 8 + c.step.toNat % c.u 40 1 * c.u 36 4

def rdSeedTab (src : Nat) (c : QCmd) (s : State) : RdR SeedTab :=
  let a := seedTabAddr c
  (rdRun src [] s.chip a 32 s).bind (fun t bs =>
    .ok t ⟨a, msgNat bs 0 4, msgNat bs 4 4, msgNat bs 8 8, msgNat bs 16 8⟩)

/-- A directory entry: SEEDS, COUNT and T_Q. -/
def rdDir (src : Nat) (tab : SeedTab) (mb : Nat) (s : State) : RdR (Nat × Nat × Nat) :=
  (rdRun src [] s.chip (tab.addr + 32 + 16 * mb) 16 s).bind (fun t bs =>
    .ok t (msgNat bs 0 8 % 2 ^ 48, msgNat bs 8 4, msgNat bs 12 3))

/-- The first micro-batch from mb on that holds seeds. -/
def nextMb (src : Nat) (tab : SeedTab) : Nat → Nat → State → RdR Nat
  | 0, mb, s => .ok s mb
  | k + 1, mb, s =>
    if mb ≥ tab.mbCount then .ok s tab.mbCount
    else (rdDir src tab mb s).bind (fun t d => if d.2.1 = 0 then nextMb src tab k (mb + 1) t else .ok t mb)

/-- The cutter (R283): admit seeds in order while their trees fit. -/
def cut (lead gang : Nat) (got : Got) (step : Nat) (d : Sdesc) (tab : SeedTab) : Nat → State → Parcel → RdR Parcel
  | 0, s, p => .ok s p
  | k + 1, s, p =>
    if p.mb ≥ tab.mbCount then .ok s p
    else
      (rdDir lead tab p.mb s).bind (fun s1 dir =>
        (rdRun lead [] s.chip (dir.1 + 16 * p.si) 16 s1).bind (fun s2 sb =>
          let v := msgNat sb 0 5
          let src := lead + p.si % gang
          (tree src got step p.mb dir.2.2 d p.exps ((List.range d.hops).map (· + 1)) [v] s2 p.cnt []).bind (fun s3 r =>
            let new := (([v] ++ (r.1.map (fun e => e.nbrs)).flatten).eraseDups).filter (fun n => !p.nodes.contains n)
            let de := (r.1.map (fun e => e.nbrs.length)).sum
            if p.seeds.length + 1 > d.capSeeds ∨ p.nodes.length + new.length > d.capNodes ∨ p.edges + de > d.capEdges then
              .ok s3 { p with spec := 1 }
            else
              (rdRun src [] s.chip (graphAddr s3 (d.hop.getD 0 ⟨0, 0, 0, 0⟩).graph) 64 s3).bind (fun s4 gb =>
                let cnt := if (graphOf gb).valid v then r.2 else { r.2 with invalid := r.2.invalid + 1 }
                let q := { p with seeds := p.seeds ++ [(p.si, msgNat sb 8 8, v)], exps := p.exps ++ r.1,
                                  nodes := p.nodes ++ new, edges := p.edges + de, cnt := cnt, si := p.si + 1 }
                if q.si = dir.2.1 then
                  (nextMb lead tab (tab.mbCount + 1) (p.mb + 1) s4).bind (fun s5 m =>
                    .ok s5 { q with mbEnd := true, mb := m, si := 0 })
                else cut lead gang got step d tab k s4 q))))

-- The parcel block (R287, R288).

/-- The edges of a hop in their groups: for each frontier entry its neighbours. -/
def hopEdges (exps : List Expn) (h : Nat) (front : List Nat) : List (Nat × Nat) :=
  (front.zipIdx.map (fun x => ((findExpn exps h x.1).getD []).map (fun n => (x.2, n)))).flatten

/-- Frontier lists F_0 to F_{HOPS − 1} and the edges of every hop, as node IDs. -/
def layers (exps : List Expn) : List Nat → List Nat → List (List Nat) × List (List (Nat × Nat))
  | [], _ => ([], [])
  | h :: hs, front =>
    let es := hopEdges exps h front
    let (fs, rest) := layers exps hs (es.map (·.2)).eraseDups
    (front :: fs, es :: rest)

/-- Pad bytes to the next 64-byte boundary. -/
def pad64 (bs : List Byte) : List Byte := bs ++ List.replicate ((64 - bs.length % 64) % 64) 0

/-- The 4-byte words of up to four values. -/
def words4 (l : List Nat) : List Byte := ((List.range 4).map (fun i => leBytes 4 (l.getD i 0))).flatten

/-- Sections laid out after the 128-byte header, each on a 64-byte boundary, with their offsets. -/
def placeSections : List (List Byte) → Nat → List Nat × List Byte
  | [], _ => ([], [])
  | x :: r, o =>
    let (os, bs) := placeSections r (o + (pad64 x).length)
    (o :: os, pad64 x ++ bs)

/-- The bytes of a parcel block (R287, R288). -/
def parcelBlock (step parcel mb : Nat) (d : Sdesc) (p : Parcel) (last : Bool) : List Byte :=
  let seedNodes := (p.seeds.map (fun x => x.2.2)).eraseDups
  let (fronts, edges) := layers p.exps ((List.range d.hops).map (· + 1)) seedNodes
  let slots := (seedNodes ++ ((edges.map (fun l => l.map (·.2))).flatten)).eraseDups
  let slot (v : Nat) : Nat := slots.findIdx (· == v)
  let hopOf (v : Nat) : Nat :=
    if seedNodes.contains v then 0 else 1 + edges.findIdx (fun l => l.any (fun e => e.2 == v))
  let seedSec := (p.seeds.map (fun x => leBytes 4 (slot x.2.2) ++ leBytes 4 x.1 ++ leBytes 8 x.2.1)).flatten
  let nodeSec := (slots.map (fun v => leBytes 8 (v + hopOf v * 2 ^ 40))).flatten
  let frontSecs := fronts.map (fun f => (f.map (fun v => leBytes 2 (slot v))).flatten)
  let edgeSecs := edges.map (fun l => (l.map (fun e => leBytes 2 e.1 ++ leBytes 2 (slot e.2))).flatten)
  let (offs, body) := placeSections ([seedSec, nodeSec] ++ frontSecs ++ edgeSecs) 128
  let n := d.hops
  let first := match p.seeds with
    | x :: _ => x.1
    | [] => p.si
  leBytes 4 step ++ leBytes 4 parcel ++ leBytes 4 mb ++ leBytes 4 first ++ leBytes 4 p.seeds.length ++
    leBytes 4 slots.length ++ words4 (edges.map (fun l => l.length)) ++ words4 (fronts.map (fun l => l.length)) ++
    leBytes 1 (p.mbEnd.toNat + 2 * last.toNat) ++ leBytes 1 n ++ leBytes 6 0 ++ leBytes 4 (offs.getD 0 0) ++
    leBytes 4 (offs.getD 1 0) ++ words4 ((offs.drop (2 + n)).take n) ++ words4 ((offs.drop 2).take n) ++ leBytes 24 0 ++ body

/-- A whole build: the parcel, its first micro-batch and whether it is the LAST. -/
def runBuild (b : Build) (s : State) : RdR (Parcel × Sdesc × Nat × Bool) :=
  let lead := engDrl b.lead.val
  let c := b.cmd
  (rdRun lead [] s.chip (c.a 16) 64 s).bind (fun s1 db =>
    let d := sdescOf db
    (rdSeedTab lead c s1).bind (fun s2 tab =>
      let mb0 := s.drl.cursorMb
      let si0 := s.drl.cursorSi
      (nextMb lead tab (tab.mbCount + 1) mb0 s2).bind (fun s3 mb =>
        (cut lead (2 ^ b.gangLog) b.got c.step.toNat d tab (d.capSeeds + 1) s3
          { mb := mb, si := if mb = mb0 then si0 else 0 }).bind (fun s4 p =>
            .ok s4 (p, d, mb, decide (p.mb ≥ tab.mbCount))))))

-- SAMPLE (R289 to R291).

/-- A refused command: every matching bit, the TAG of the first, and every member of the gang halts (R291, R654). -/
def State.drlRefuse (s : State) (d : Nat) (c : QCmd) (bits gang : List Nat) : State :=
  let t := s.refuse (drlErr d) bits [] (drlErrTag d) c.tag
  let u := (t.loseCmd (engDrl d)).haltSamplers ((d :: gang).eraseDups)
  u.jobFault (engDrl d) ((u.reg (drlErr d)).toNat % 2 ^ 32) 0 c.tag

/-- An uncorrectable error on a read, which is reported, stops the build of the gang and halts it (R291). -/
def State.drlMemHalt (s : State) (d : Nat) (c : QCmd) : State :=
  let ds := (d :: smpGang c).eraseDups
  let u := (ds.foldl (fun x k => x.setBit (drlErr k) 7) s).haltSamplers ds
  u.jobFault (engDrl d) ((u.reg (drlErr d)).toNat % 2 ^ 32) 0 c.tag

/-- A SAMPLE that has joined is refused with a bit: its gang halts (R291). -/
def State.drlGangHalt (s : State) (d : Nat) (c : QCmd) (bit : Nat) : State :=
  let u := (s.refuse (drlErr d) [bit] [] (drlErrTag d) c.tag).haltSamplers (d :: smpGang c).eraseDups
  u.jobFault (engDrl d) ((u.reg (drlErr d)).toNat % 2 ^ 32) 0 c.tag

/-- A read of a build is refused: an address out of reach, here or at the module asked (R290, R404, R408; log entry 108). -/
def State.drlReachHalt (s : State) (d : Nat) (c : QCmd) : State := s.drlGangHalt d c 3

/-- Take the first command of a sampler if it has the given code. A sampler whose SAMPLER_EN bit is 0 accepts none: a NOP
waits, while a SAMPLE names a disabled sampler and is refused (R290, R295; log entry 108). -/
def drlRun (d : Smp) (op : Nat) (s : State) (body : QCmd → State → State) : Out :=
  let e := engDrl d.val
  match s.headCmd e with
  | none => stutter s
  | some c =>
    if (s.sampler d.val).joined.isSome then stutter s
    else if ¬ s.bit drlCtrl d.val ∧ ¬ (s.sampler d.val).halted ∧ c.op ≠ 1 then stutter s
    else
      let t := s.takeCmd e
      if (s.sampler d.val).halted then .next (t.loseCmd e)
      else if c.op > 1 then .next (t.drlRefuse d.val c (broken [(true, 0), (c.badSig, 4)]) [])
      else if c.op ≠ op then stutter s
      else .next (body c t)

/-- DRL_NOP (R290). -/
def execDrlNop (d : Smp) (s : State) : Out :=
  drlRun d 0 s (fun c t => if c.badSig then t.drlRefuse d.val c [4] [] else t.finishCmd (engDrl d.val) c)

/-- The gang rules of R290 for sampler d. -/
def gangBad (s : State) (d : Nat) (c : QCmd) : Bool :=
  let g := 2 ^ smpGangLog c
  let base := smpBase c
  decide (smpGangLog c > 4) || decide (d < base) || decide (d ≥ base + g) || decide (base % g ≠ 0) || decide (base + g > 16) ||
    (smpGang c).any (fun k => !s.bit drlCtrl k) ||
    (smpGang c).any (fun k => match (s.sampler k).joined with
      | some q => decide (q.a 8 ≠ c.a 8 ∨ q.a 16 ≠ c.a 16 ∨ q.a 24 ≠ c.a 24 ∨ q.u 41 1 ≠ c.u 41 1)
      | none => false)

/-- STEP and PARCEL of the previous build: the one that runs, or the last that has ended (R285). -/
def State.lastBuild (s : State) : Option (BitVec 32 × BitVec 32) :=
  match s.drl.build with
  | some b => some (b.cmd.step, b.cmd.parcel)
  | none => s.drl.prev

/-- PARCEL is out of sequence, or the step is closed (R285). -/
def seqBad (s : State) (c : QCmd) : Bool :=
  s.drl.closed == some c.step ||
    (match s.lastBuild with
     | some (st, p) => if st = c.step then decide (c.parcel ≠ p + 1) else decide (c.parcel ≠ 0)
     | none => decide (c.parcel ≠ 0))

/-- SAMPLE (R281, R282, R285, R289, R290): the command is checked and joins its gang. -/
def execSample (d : Smp) (s : State) : Out :=
  drlRun d 1 s (fun c t =>
    let addr := !drlReach (c.a 8) ((c.u 40 1 - 1) * c.u 36 4 + 32) || !drlReach (c.a 16) 64 || decide (c.a 16 % 64 ≠ 0) ||
      !drlReach (c.a 24) (c.u 32 4) || decide (c.a 24 % 64 ≠ 0)
    let early := broken [(gangBad t d.val c, 2), (addr, 3), (c.badSig, 4), (seqBad t c, 5)]
    let ring := decide (c.u 40 1 = 0) || decide (c.u 36 4 % 64 ≠ 0)
    if ¬ drlReach (c.a 16) 64 then t.drlRefuse d.val c (broken [(ring, 1)] ++ early) (smpGang c)
    else
      match t.read (engDrl d.val) (c.a 16) 64 with
      | (u, none) => (u.loseCmd (engDrl d.val)).drlMemHalt d.val c
      | (u, some db) =>
        let x := sdescOf db
        let need := 128 + 16 * x.capSeeds + 8 * x.capNodes + 2 * x.hops * x.capNodes + 4 * x.capEdges + 640
        let bad := broken [(ring || !x.ok || decide (c.u 32 4 < need), 1)] ++ early
        if bad ≠ [] then u.drlRefuse d.val c bad (smpGang c)
        else u.setSampler d.val { joined := some c, halted := false })

-- The build (R282 to R285).

/-- The gang led by a sampler has joined whole, on one STEP and PARCEL. -/
def State.gangReady (s : State) (lead : Nat) : Option QCmd :=
  match (s.sampler lead).joined with
  | none => none
  | some c =>
    if smpBase c = lead ∧ (smpGang c).all (fun k => match (s.sampler k).joined with
        | some q => decide (q.step = c.step ∧ q.parcel = c.parcel)
        | none => false) then some c
    else none

/-- The seed table holds another step (R281). -/
def State.seedWaits (s : State) (c : QCmd) : Bool := s.viewNat (seedTabAddr c) 4 != c.step.toNat

/-- The lowest gang that is ready and whose seed table holds its step, or cannot be read. -/
def State.readyBuild (s : State) : Option (Smp × QCmd) :=
  (List.finRange 16).findSome? (fun d =>
    match s.gangReady d.val with
    | none => none
    | some c => if ¬ s.seedWaits c ∨ (s.failLine (seedTabAddr c) 4).isSome then some (d, c) else none)

/-- The TAG of the Drill's latest remote read. -/
def State.drlTag (s : State) : Nat := 0xD0000000 + s.drl.reads.toNat

/-- Ask another module for bytes (R286, R505); a chip that is not a live member counts as a refusal (R408). -/
def State.askRun (s : State) (r : MemRun) : State × Bool :=
  if s.live r.chip then
    let t := { s with drl := { s.drl with reads := s.drl.reads + 1 } }
    t.sendTry (mkMsg 2 0x21 r.chip false
      (leBytes 8 r.addr ++ leBytes 2 s.chip ++ leBytes 2 r.len ++ leBytes 4 t.drlTag ++ leBytes 16 0))
  else (s, false)

/-- Go on with a build: it asks for what is missing, stops on an uncorrectable error, and otherwise waits to be closed. -/
def State.workBuild (s : State) (b : Build) : State :=
  match runBuild b s with
  | .ok _ _ => { s with drl := { s.drl with build := some b } }
  | .ue t => t.drlMemHalt b.lead.val b.cmd
  | .out t => t.drlReachHalt b.lead.val b.cmd
  | .need r =>
    match s.askRun r with
    | (t, true) =>
      ({ t with drl := { t.drl with build := some { b with asked := some r } } }).count (drlCnt 3) 1
    | (t, false) => t.drlReachHalt b.lead.val b.cmd

/-- PARCEL_BUILD_START (R268, R271, R282): sampling of a step begins. A gang that joined before the build that ended last is
looked at again, and refused where its PARCEL or its step is no longer due (R285). -/
def execParcelBuildStart (s : State) : Out :=
  if s.drl.build.isSome ∨ s.closed 5 0 then stutter s
  else
    match s.readyBuild with
    | none => stutter s
    | some (d, c) =>
      if seqBad s c then .next (s.drlGangHalt d.val c 5)
      else
      match rdSeedTab (engDrl d.val) c s with
      | .ok t tab =>
        let mask := (smpGang c).foldl (fun v k => v + 2 ^ k) 0
        let t1 := t.setReg drlBuild (BitVec.ofNat 64 (c.parcel.toNat + mask * 2 ^ 32 + 2 ^ 48))
        let t2 := t1.setFld drlSampled 0 32 c.step.toNat
        let t3 := { t2 with drl := { t2.drl with build := some { lead := d, gangLog := smpGangLog c, cmd := c, got := [], asked := none },
                                                 seqNext := some (c.step, BitVec.ofNat 64 tab.seqNext),
                                                 cursorMb := if c.parcel = 0 then 0 else t2.drl.cursorMb,
                                                 cursorSi := if c.parcel = 0 then 0 else t2.drl.cursorSi } }
        let t4 := if c.step = 0 ∧ c.parcel = 0 ∧ (t3.reg drlIngSeq).toNat < tab.seqNow then
            let u := t3.setBit (drlErr d.val) 6
            u.jobFault (engDrl d.val) ((u.reg (drlErr d.val)).toNat % 2 ^ 32) 0 c.tag
          else t3
        .next (t4.workBuild { lead := d, gangLog := smpGangLog c, cmd := c, got := [], asked := none })
      | .ue t => .next (t.drlMemHalt d.val c)
      | .out t => .next (t.drlReachHalt d.val c)
      | .need _ => stutter s

/-- The answer to a Drill read arrives with a status (R286, R505): the bytes, a refusal or an uncorrectable error. -/
def State.drlData (s : State) (tag status : Nat) (bs : List Byte) : State :=
  if tag ≠ s.drlTag then s else
  match s.drl.build with
  | none => s
  | some b =>
    match b.asked with
    | none => s
    | some r =>
      if status = 0 then s.workBuild { b with got := b.got ++ [(r, bs)], asked := none }
      else if status = 3 then s.drlMemHalt b.lead.val b.cmd
      else s.drlReachHalt b.lead.val b.cmd

/-- A member of a gang completes: its running plan takes LAST, and its command signals (R285, R290). -/
def finishMember (last : Bool) (s : State) (d : Nat) : State :=
  match (s.sampler d).joined with
  | none => s
  | some c =>
    let e := s.eng (engDrl d)
    let s1 := s.setEng (engDrl d) { e with running := e.running.map (fun p => { p with last := p.last || last }) }
    (s1.setSampler d { s1.sampler d with joined := none }).finishCmd (engDrl d) c

/-- PARCEL_BUILD_DONE (R283, R285, R287, R288): the parcel closes, its block is written and the members signal. -/
def execParcelBuildDone (s : State) : Out :=
  match s.drl.build with
  | none => stutter s
  | some b =>
    match runBuild b s with
    | .need _ => stutter s
    | .ue t => .next (t.drlMemHalt b.lead.val b.cmd)
    | .out t => .next (t.drlReachHalt b.lead.val b.cmd)
    | .ok t (p, d, mb, last) =>
      let c := b.cmd
      let t1 := t.write (engDrl b.lead.val) (c.a 24) (parcelBlock c.step.toNat c.parcel.toNat mb d p last)
      let t2 := { t1 with drl := { t1.drl with build := none, prev := some (c.step, c.parcel),
                                               closed := if last then some c.step else t1.drl.closed,
                                               cursorMb := p.mb, cursorSi := p.si } }
      let t3 := ((t2.clrBit drlBuild 48).count (drlCnt 0) 1).count (drlCnt 1) p.edges
      let t4 := ((t3.count (drlCnt 2) p.spec).count (drlCnt 4) p.cnt.discard).count (drlCnt 5) p.cnt.noAlias
      .next ((smpGang c).foldl (finishMember last) (t4.count (drlCnt 6) p.cnt.invalid))

-- Edge ingest (R266 to R270).

/-- The source of the ingest unit (R443). -/
def srcIngest : Nat := 0x1F8

/-- SAMPLED_STEP, none when all ones (R268). -/
def State.sampledStep (s : State) : Option Nat :=
  let v := s.fld drlSampled 0 32
  if v = 2 ^ 32 - 1 then none else some v

/-- A batch's place in the order (R267, R268). -/
inductive BatchFit where
  | duplicate
  | refused (bits : List Nat)
  | applicable
  | waits
deriving DecidableEq, Repr

def State.batchFit (s : State) (b : Batch) : BatchFit :=
  let last := (s.reg drlIngSeq).toNat
  if b.seq.toNat ≤ last then .duplicate
  else if b.seq.toNat > last + 1 then .waits
  else
    let a := b.applyStep.toNat
    let late : Bool := match s.sampledStep with
      | some k => decide (a ≤ k)
      | none => false
    let order : Bool := match s.drl.lastApply with
      | some x => decide (a < x.toNat)
      | none => false
    if late ∨ order then .refused (broken [(late, 0), (order, 1)])
    else
      match s.sampledStep with
      | some k => if k + 1 ≥ a then .applicable else .waits
      | none => if a = 0 then .applicable else .waits

/-- The last segment of a chain, and its COUNT (R262). -/
def tailSeg : Nat → Nat → State → RdR (Option (Nat × Nat))
  | 0, _, s => .ok s none
  | k + 1, a, s =>
    if a = 0 then .ok s none
    else
      (rdRun srcIngest [] s.chip a 16 s).bind (fun t hb =>
        let next := msgNat hb 0 6
        if next = 0 then .ok t (some (a, msgNat hb 12 2)) else tailSeg k next t)

/-- The 48-bit address that a word of memory holds. -/
def rdLink (a : Nat) (s : State) : RdR Nat :=
  (rdRun srcIngest [] s.chip a 8 s).bind (fun t bs => .ok t (msgNat bs 0 6))

/-- Free segments of a graph's list, at most a bound: the word at POOL names the first, NEXT the following ones. -/
def freeSegs : Nat → Nat → State → List Nat → RdR (List Nat)
  | 0, _, s, acc => .ok s acc
  | k + 1, a, s, acc => if a = 0 then .ok s acc else (rdLink a s).bind (fun t next => freeSegs k next t (acc ++ [a]))

/-- What becomes of one record (R269). -/
inductive RecFit where
  | foreign
  | invalid
  | stored (record : Nat)
deriving DecidableEq, Repr

def recFit (g : Graph) (r : BitVec 40 × BitVec 24 × BitVec 40) (s : State) : RdR RecFit :=
  if ¬ g.valid r.1.toNat then .ok s .invalid
  else
    (nodePlace srcIngest [] g r.1.toNat s).bind (fun t p =>
      if p.1 ≠ s.chip then .ok t .foreign
      else if ¬ g.valid r.2.2.toNat then .ok t .invalid
      else .ok t (.stored (g.nodeTab + 32 * p.2)))

/-- The counts of a batch under way. -/
structure IngCnt where
  skipped : Nat := 0
  foreign : Bool := false
  invalid : Bool := false
  stored : Nat := 0
  clamped : Nat := 0
  free : List Nat

/-- The TIME of a node's last edge: in its last segment, or in the base run; 0 for an empty list (R261, R269). -/
def lastTime (n : Node) (tail : Option (Nat × Nat)) (s : State) : RdR Nat :=
  match tail with
  | some (ta, k) =>
    if k = 0 then .ok s 0 else (rdRun srcIngest [] s.chip (ta + 16 + 8 * (k - 1)) 8 s).bind (fun t bs => .ok t (msgNat bs 5 3))
  | none =>
    if n.newLen = 0 then .ok s 0
    else (rdRun srcIngest [] s.chip (n.base + 8 * (n.newLen - 1)) 8 s).bind (fun t bs => .ok t (msgNat bs 5 3))

/-- Put an edge word at the end of a node's list: into its last segment, or into a free segment that is linked to the
chain. The answer is the state, the free segments left and the first segment of the node (R262, R269). -/
def putEdge (n : Node) (tail : Option (Nat × Nat)) (free : List Nat) (word : List Byte) (s : State) : State × List Nat × Nat :=
  match tail with
  | some (ta, k) =>
    if k < 510 then
      (((s.write srcIngest (ta + 16 + 8 * k) word).writeNat srcIngest (ta + 12) 2 (k + 1)), free, n.seg)
    else
      match free with
      | [] => (s, [], n.seg)
      | f :: r =>
        let u := s.write srcIngest f (leBytes 8 0 ++ leBytes 4 n.newLen ++ leBytes 2 1 ++ leBytes 2 0 ++ word)
        (u.writeNat srcIngest ta 8 f, r, n.seg)
  | none =>
    match free with
    | [] => (s, [], n.seg)
    | f :: r => (s.write srcIngest f (leBytes 8 0 ++ leBytes 4 n.newLen ++ leBytes 2 1 ++ leBytes 2 0 ++ word), r, f)

/-- Append one edge to a node's list (R269, R270). -/
def appendEdge (a : Nat) (step dst time : Nat) (s : State) (cnt : IngCnt) : RdR IngCnt :=
  (rdRun srcIngest [] s.chip a 32 s).bind (fun s1 nb =>
    let n := nodeOf nb
    (tailSeg (n.newLen + 2) n.seg s1).bind (fun s2 tail =>
      (lastTime n tail s2).bind (fun s3 low =>
        let word := leBytes 8 (dst + max time low * 2 ^ 40)
        let (s4, free, seg) := putEdge n tail cnt.free word s3
        let fresh := n.newStep < step
        let out := leBytes 8 n.base ++ leBytes 8 seg ++ leBytes 4 n.baseLen ++
          leBytes 4 (if fresh then n.newLen else n.visLen) ++ leBytes 4 (n.newLen + 1) ++
          leBytes 4 (if fresh then step else n.newStep)
        .ok (s4.write srcIngest a out)
          { cnt with free := free, stored := cnt.stored + 1, clamped := cnt.clamped + (if time < low then 1 else 0) })))

/-- Apply the records of a batch in order. -/
def applyRecs (g : Graph) (step : Nat) (rs : List (BitVec 40 × BitVec 24 × BitVec 40)) (s : State) (cnt : IngCnt) :
    RdR IngCnt :=
  RdR.fold (fun t (c : IngCnt) r =>
    (recFit g r t).bind (fun u f =>
      match f with
      | .foreign => .ok u { c with skipped := c.skipped + 1, foreign := true }
      | .invalid => .ok u { c with skipped := c.skipped + 1, invalid := true }
      | .stored a => appendEdge a step r.2.2.toNat r.2.1.toNat u c)) rs s cnt

/-- Append segments that a node's new edges need beyond those in its tail (R269). -/
def segsFor (a k : Nat) (s : State) : RdR Nat :=
  (rdRun srcIngest [] s.chip a 32 s).bind (fun t nb =>
    let n := nodeOf nb
    (tailSeg (n.newLen + 2) n.seg t).bind (fun u tail =>
      let room := match tail with
        | some (_, c) => 510 - c
        | none => 0
      .ok u (ceilDiv (k - room) 510)))

/-- The exact number of append segments of a batch (R269). -/
def segsNeeded (g : Graph) (b : Batch) (s : State) : RdR Nat :=
  (RdR.fold (fun t (acc : List Nat) r => (recFit g r t).bind (fun u f =>
    match f with
    | .stored a => .ok u (acc ++ [a])
    | _ => .ok u acc)) b.recs s []).bind (fun t as =>
      RdR.fold (fun u (n : Nat) a => (segsFor a (as.count a) u).bind (fun v k => .ok v (n + k))) as.eraseDups t 0)

/-- The result that EDGES reports for a batch (R551). -/
structure BatchResult where
  batch : Batch
  result : Nat
  skipped : Nat

/-- A batch leaves the queue; whether or not it was refused, it counts as applied for the order (R267, R269). -/
def State.closeBatch (s : State) (i : Nat) (b : Batch) : State :=
  { s with drl := { s.drl with ingest := s.drl.ingest.eraseIdx i } }.setReg drlIngSeq b.seq

/-- Batches that closed sessions have left over go into the ingest queue of 64 as it has room (R267, R542). -/
def State.takeOwed (s : State) : State :=
  match s.drl.owed with
  | [] => s
  | l =>
    let n := 64 - s.drl.ingest.length
    { s with drl := { s.drl with ingest := s.drl.ingest ++ l.take n, owed := l.drop n } }

/-- The next batch that is a duplicate, refused or applicable. -/
def State.nextBatch (s : State) : Option (Nat × Batch) :=
  (s.drl.ingest.zipIdx.find? (fun x => s.batchFit x.1 != .waits)).map (fun x => (x.2, x.1))

/-- Apply, refuse or discard the next batch (R267 to R271); none if none can go. On an uncorrectable error the batch
stays queued with no effect, and the error is reported; a graph whose pointers lie out of reach leaves it queued too (R404;
log entry 108). -/
def State.applyBatch (s : State) : Option (State × Option BatchResult) :=
  if ¬ s.bit drlCtrl 16 then none
  else
    match s.nextBatch with
    | none => none
    | some (i, b) =>
      match s.batchFit b with
      | .waits => none
      | .duplicate =>
        some (({ s with drl := { s.drl with ingest := s.drl.ingest.eraseIdx i } }).count (drlCnt 9) 1, some ⟨b, 1, 0⟩)
      | .refused bits =>
        some ((s.closeBatch i b).setBits drlIngErr (bitMask bits), some ⟨b, if bits.contains 0 then 2 else 3, 0⟩)
      | .applicable =>
        let work := (rdRun srcIngest [] s.chip (graphAddr s b.graph.toNat) 64 s).bind (fun s1 gb =>
          let g := graphOf gb
          (segsNeeded g b s1).bind (fun s2 n =>
            (if n = 0 then .ok s2 0 else rdLink g.pool s2).bind (fun s3 first =>
              (freeSegs n first s3 []).bind (fun s4 free =>
                if free.length < n then .ok s4 (none : Option IngCnt)
                else
                  (match free.getLast? with
                   | some l => rdLink l s4
                   | none => .ok s4 first).bind (fun s5 rest =>
                    (applyRecs g b.applyStep.toNat b.recs s5 { free := free }).bind (fun s6 cnt =>
                      .ok (if n = 0 then s6 else s6.writeNat srcIngest g.pool 8 (cnt.free.headD rest)) (some cnt)))))))
        let undo (t : State) : State := { t with mem := s.mem, flips := s.flips, lost := s.lost }
        match work with
        | .need _ => none
        | .ue t => some (undo t, none)
        | .out t => some (undo t, none)
        | .ok t none => some ((t.closeBatch i b).setBit drlIngErr 2, some ⟨b, 4, 0⟩)
        | .ok t (some cnt) =>
          let t1 := (t.closeBatch i b).setBits drlIngErr (bitMask (broken [(cnt.foreign, 3), (cnt.invalid, 4)]))
          let t2 := (t1.count (drlCnt 7) cnt.stored).count (drlCnt 8) cnt.clamped
          let t3 := { t2 with drl := { t2.drl with lastApply := some b.applyStep } }
          some (t3, some ⟨b, 0, cnt.skipped⟩)

/-- Reset the Drill block: samplers and builds (R291); the ingest queue and the sequence number stay. -/
def State.clearDrill (s : State) : State :=
  { s with drl := { s.drl with smp := [], build := none, prev := none, closed := none, cursorMb := 0, cursorSi := 0 } }

end Sys2Proof.Machine
end

