-- ==== Sys2Proof/Machine/Rows.lean ====
section
/-!
DEFINITION. Embedding rows as Glean and Sheaf share them (chapters 8 and 9): table descriptors, ownership, node lists,
the hot directory and its slots, and the merge banks.
-/

namespace Sys2Proof.Machine
open Sys2Proof

-- Tables and rows (R297 to R304).

/-- A table descriptor (R297). -/
structure TableD where
  base : Nat
  ownTab : Nat
  nrange : Nat
  shift : Nat
  vfmt : Nat
  moments : Nat
  dim : Nat
  stride : Nat
  idLo : Nat
  idHi : Nat

/-- Where the descriptor of a table lies. -/
def State.tableAddr (s : State) (t : Nat) : Nat := s.fld glnTtab 0 48 + 64 * t

/-- A descriptor out of reach is not read: the table has no rows (R404; log entry 109). -/
def State.table (s : State) (t : Nat) : TableD :=
  let b := if jobReach (s.tableAddr t) 64 then s.views (s.tableAddr t) 64 else []
  { base := msgNat b 0 8 % 2 ^ 48, ownTab := msgNat b 8 8 % 2 ^ 48, nrange := msgNat b 16 4, shift := msgNat b 20 1 % 64,
    vfmt := msgNat b 21 1 % 16, moments := natBits (msgNat b 21 1) 4 2, dim := msgNat b 22 2, stride := msgNat b 24 4,
    idLo := msgNat b 32 5, idHi := msgNat b 40 5 }

/-- VFMT and DIM are ones that R297 lists. -/
def TableD.sound (d : TableD) : Bool := decide (d.vfmt ≤ 4) && decide (d.dim % 32 = 0) && decide (32 ≤ d.dim) && decide (d.dim ≤ 2048)

/-- Bytes of a row's values. -/
def TableD.valBytes (d : TableD) : Nat := d.dim * fmtBits d.vfmt / 8
/-- Bytes 0 to 15 + V of a record. -/
def TableD.rowBytes (d : TableD) : Nat := 16 + d.valBytes
/-- The record size (R300). -/
def TableD.recBytes (d : TableD) : Nat := 16 + d.valBytes + 33 * (d.dim / 32) * d.moments

def TableD.valid (d : TableD) (row : Nat) : Bool := row / 2 ^ d.shift < d.nrange

/-- The ownership word of a row: owner and LRANGE (R299). -/
def TableD.ownAddr (d : TableD) (row : Nat) : Nat := d.ownTab + 8 * (row / 2 ^ d.shift)

/-- A word out of reach is not read: it names no chip (R404; log entry 109). -/
def State.ownWord (s : State) (d : TableD) (row : Nat) : Nat × Nat :=
  if jobReach (d.ownAddr row) 8 then
    let w := s.viewNat (d.ownAddr row) 8
    (w % 2 ^ 16, natBits w 16 32)
  else (2 ^ 16, 0)

/-- What the owner of a row is read from: the descriptor and the ownership word, where they lie in reach. -/
def State.ownRanges (s : State) (t r : Nat) : List (Nat × Nat) :=
  [(s.tableAddr t, 64), ((s.table t).ownAddr r, 8)].filter (fun x => jobReach x.1 x.2)

/-- The address of a row's home record on its owner (R299). -/
def State.homeAddr (s : State) (d : TableD) (row : Nat) : Nat :=
  d.base + d.stride * ((s.ownWord d row).2 * 2 ^ d.shift + row % 2 ^ d.shift)

/-- The tables of a set. -/
def tableSet (tset ntab : Nat) : List Nat := (List.range (ntab + 1)).map (fun i => tset + i)

/-- The table and row of a node ID: the first table of the set whose range contains it; none for a zero row (R298,
R304). -/
def State.mapId (s : State) (ts : List Nat) (x : Nat) : Option (Nat × Nat) :=
  match ts.find? (fun t => decide ((s.table t).idLo ≤ x) && decide (x < (s.table t).idHi)) with
  | none => none
  | some t => let d := s.table t; if d.valid (x - d.idLo) then some (t, x - d.idLo) else none

/-- No two tables of a set overlap in ID range (R303). -/
def State.noOverlap (s : State) : List Nat → Bool
  | [] => true
  | t :: r =>
    let d := s.table t
    r.all (fun u =>
      let e := s.table u
      decide (d.idHi ≤ d.idLo) || decide (e.idHi ≤ e.idLo) || decide (d.idHi ≤ e.idLo) || decide (e.idHi ≤ d.idLo)) &&
      s.noOverlap r

/-- Bytes of a list entry (R303). -/
def listSize (lfmt : Nat) : Nat := if lfmt = 2 then 4 else 8
/-- The node ID that a list entry holds. -/
def listId (lfmt : Nat) (bs : List Byte) : Nat := if lfmt = 2 then leNat (bs.take 4) else leNat (bs.take 5)

/-- Plot SRAM of any strip, or the base-die buffers. -/
def sramReach (a n : Nat) : Bool := spans inPlot a n || spans inBuf a n

/-- The requester code of the serve unit (R443). -/
def srcServe : Nat := 0x1F0

-- The hot directory (R315 to R320).

def dirLog2 (s : State) : Nat := s.fld glnDir 48 5
def dirBankAddr (s : State) (b : Bool) : Nat := s.fld glnDir 0 48 + b.toNat * 2 ^ (dirLog2 s + 6)

/-- The directory lies in the base-die buffers; a base elsewhere holds no entries. -/
def dirPlaced (s : State) : Bool := spans inBuf (s.fld glnDir 0 48) (2 ^ (dirLog2 s + 7))

/-- The bucket of a row (R316). -/
def dirBucket (l t r : Nat) : Nat :=
  ((r ^^^ (r / 2 ^ l)) ^^^ ((r / 2 ^ (2 * l)) ^^^ (t * 2 ^ (l - 4)))) % 2 ^ l

/-- The address of a bucket: one line, which a lookup or an edit reads (R316). -/
def bucketAddr (s : State) (b : Bool) (t r : Nat) : Nat := dirBankAddr s b + 64 * dirBucket (dirLog2 s) t r

/-- The addresses of a bucket's four entries. -/
def dirEntries (s : State) (b : Bool) (t r : Nat) : List Nat :=
  let a := bucketAddr s b t r
  [a, a + 16, a + 32, a + 48]

/-- The kind of an entry; 0 for an empty one. -/
def entryKind (s : State) (a : Nat) : Nat := natBits (s.viewNat a 8) 44 2

/-- What resolving a read of a row reads beside the row (R299, R310, R311): its descriptor, its ownership word, its bucket. -/
def State.rowRanges (s : State) (t r : Nat) : List (Nat × Nat) :=
  s.ownRanges t r ++
    (if dirPlaced s then [(bucketAddr s s.gln.cur t r, 64)] else [])

/-- The entry of a row in a bank: its address, kind and slot (R316). -/
def State.dirLookup (s : State) (b : Bool) (t r : Nat) : Option (Nat × Nat × Nat) :=
  if ¬ dirPlaced s then none
  else
    match (dirEntries s b t r).find? (fun a =>
        decide (entryKind s a ≠ 0) && decide (s.viewNat a 8 % 2 ^ 44 = r % 2 ^ 40 + t * 2 ^ 40)) with
    | none => none
    | some a => some (a, entryKind s a, s.viewNat (a + 8) 4)

/-- The number of a slot in the slot table: COPY slots first, then VOL slots from 16,384 on (R335). -/
def slotIndex (kind slot : Nat) : Nat := if kind = 2 then 16384 + slot else slot

def State.slotSt (s : State) (i : Nat) : SlotSt := Tab.get s.gln.slots {} i
def State.setSlot (s : State) (i : Nat) (x : SlotSt) : State := { s with gln := { s.gln with slots := Tab.put s.gln.slots i x } }

def SlotSt.free (x : SlotSt) : Bool := !x.valid && !x.busy && !x.held && !x.inCur && !x.inNext && x.refs == 0

/-- The address of a slot (R317). -/
def State.slotAddr (s : State) (i : Nat) : Nat :=
  let stride := s.fld glnCtrl 16 16
  if i < 16384 then s.fld glnCopy 0 48 + i * stride else s.fld glnVol 0 48 + (i - 16384) * stride

/-- COPY_SLOTS and VOL_SLOTS, at most 16,384 and 32,768 (R317). -/
def State.copySlots (s : State) : Nat := min 16384 (s.fld glnCopy 48 15)
def State.volSlots (s : State) : Nat := min 32768 (s.fld glnVol 48 16)

/-- A slot's bytes lie in reach; one that does not is neither read nor written (R404; log entry 109). -/
def State.slotReach (s : State) (i : Nat) : Bool := jobReach (s.slotAddr i) (s.fld glnCtrl 16 16)

/-- A slot may answer reads of a step (R310). -/
def State.usable (s : State) (i step : Nat) : Bool :=
  let x := s.slotSt i
  x.valid && x.ver.toNat == step && !x.busy && !x.held && decide (x.refs.toNat < 2 ^ 16 - 1) && s.slotReach i

/-- Rank of a chip among the live members (R327). -/
def State.rankOf (s : State) (chip : Nat) : Option Nat :=
  let k := s.liveList.findIdx (· == chip)
  if k < s.liveList.length then some k else none

/-- A VOL slot lies in a member's quota (R327). -/
def State.inQuota (s : State) (chip slot : Nat) : Bool :=
  match s.rankOf chip with
  | none => false
  | some i =>
    let q := s.volSlots / max 1 s.liveList.length
    decide (i * q ≤ slot) && decide (slot < i * q + q)

/-- The result of an edit of the next bank (R319), by GLN_DIR_RES.CODE. -/
inductive DirRes where
  | done (s : State)
  | code (s : State) (n : Nat)

/-- An edit reads its bucket of the next bank. An uncorrectable error there is reported, and the edit is refused. -/
def State.touchBucket (s : State) (t r : Nat) : State × Bool :=
  if dirPlaced s then s.touch srcServe [(bucketAddr s (!s.gln.cur) t r, 64)] else (s, true)

/-- Insert an entry into the next bank: the first empty place of its bucket (R319). `quota` is the chip whose quota a VOL
slot must lie in. A bucket that cannot be read offers no place, and a COPY whose owner cannot be read is refused as one that
this module does not own (DESIGN CHOICE, log entry 109). -/
def State.dirInsertAt (s0 : State) (t r kind slot quota : Nat) : DirRes :=
  let (sb, ok) := s0.touchBucket t r
  let (s, known) := if kind = 1 then sb.touch srcServe (sb.ownRanges t r) else (sb, true)
  let b := !s.gln.cur
  let es := dirEntries s b t r
  let i := slotIndex kind slot
  let room := if ¬ ok then none else if dirPlaced s then es.find? (fun a => decide (entryKind s a = 0)) else none
  let exists_ := kind != 1 || decide (slot < s.copySlots)
  let d := s.table t
  let kindOk := (kind == 1 && known && (s.ownWord d r).1 == s.chip) || (kind == 2 && s.inQuota quota slot)
  match room with
  | none => .code s 1
  | some a =>
    if (s.dirLookup b t r).isSome then .code s 4
    else if ¬ (s.slotSt i).free ∨ ¬ exists_ then .code s 2
    else if ¬ kindOk then .code s 6
    else
      let s1 := s.write srcServe a (leBytes 8 (r % 2 ^ 40 + t % 16 * 2 ^ 40 + kind * 2 ^ 44) ++ leBytes 4 slot ++ leBytes 4 0)
      .done (s1.setSlot i { s1.slotSt i with inNext := true, valid := false, table := t, row := r })

/-- A slot that leaves both banks is no longer VALID (R320). -/
def SlotSt.settle (x : SlotSt) : SlotSt := if x.inCur || x.inNext then x else { x with valid := false }

/-- Remove the entry of a row from the next bank (R319). In a bucket that cannot be read no entry is found (DESIGN CHOICE,
log entry 109). -/
def State.dirRemoveAt (s0 : State) (t r : Nat) : DirRes :=
  let (s, ok) := s0.touchBucket t r
  match (if ok then s.dirLookup (!s.gln.cur) t r else none) with
  | none => .code s 3
  | some (a, kind, slot) =>
    let i := slotIndex kind slot
    let s1 := s.write srcServe a (leBytes 16 0)
    .done (s1.setSlot i ({ s1.slotSt i with inNext := false }.settle))

/-- The candidate table lies in reach (R404). -/
def State.candReach (s : State) : Bool := jobReach (s.fld glnCand 0 48) 0x20000

/-- The entries of the candidate table that lie in lines which hold a byte or an error; every other entry is empty. -/
def State.candEntries (s : State) : List Nat :=
  let b := s.fld glnCand 0 48
  let as := s.mem.map (fun c => c.1) ++ s.flips.map (fun p => p.1)
  (((as.filter (fun a => decide (b ≤ a) && decide (a < b + 0x20000))).map (fun a => (a - b) / 64)).eraseDups).flatMap
    (fun l => [4 * l, 4 * l + 1, 4 * l + 2, 4 * l + 3])

/-- LOCAL + REMOTE of an entry of the candidate table. -/
def State.candSum (s : State) (i : Nat) : Nat :=
  let b := s.fld glnCand 0 48
  s.viewNat (b + 16 * i + 8) 4 + s.viewNat (b + 16 * i + 12) 4

/-- Halve every count of the candidate table (R330); an entry that cannot be read is reported and stays (log entry 109). -/
def State.halveCands (s : State) : State :=
  let b := s.fld glnCand 0 48
  if ¬ s.candReach then s
  else s.candEntries.foldl (fun t i =>
    match t.read srcServe (b + 16 * i + 8) 8 with
    | (u, none) => u
    | (u, some bs) =>
      let l := msgNat bs 0 4
      let r := msgNat bs 4 4
      if l = 0 ∧ r = 0 then u else u.write srcServe (b + 16 * i + 8) (leBytes 4 (l / 2) ++ leBytes 4 (r / 2))) s

/-- A directory flip (R320). -/
def State.dirFlip (s : State) : State :=
  let slots := s.gln.slots.map (fun (p : Nat × SlotSt) => (p.1, { p.2 with inCur := p.2.inNext }.settle))
  let s1 := { s with gln := { s.gln with cur := !s.gln.cur, syncing := true, slots := slots } }
  let s2 := s1.setFld glnDepoch 0 32 (s1.fld glnDepoch 0 32 + 1)
  (s2.setReg glnFlipAt 0).halveCands

/-- Copy buckets from one bank to the other through the protection code. A bucket that cannot be read is reported and copied
as empty (DESIGN CHOICE, log entry 109). -/
def copyBuckets (a b : Nat) : List Nat → State → State
  | [], s => s
  | k :: r, s =>
    match s.read srcServe (a + 64 * k) 64 with
    | (t, some bs) => copyBuckets a b r (t.write srcServe (b + 64 * k) bs)
    | (t, none) => copyBuckets a b r (t.wipe srcServe (b + 64 * k) 64)

/-- Copy the current bank into the next, by the buckets that hold a byte or an error; then the DROPs that waited (R320,
R329). -/
def State.dirSync (s : State) : State :=
  let a := dirBankAddr s s.gln.cur
  let b := dirBankAddr s (!s.gln.cur)
  let n := 2 ^ (dirLog2 s + 6)
  let ks := (((s.mem.map (fun c => c.1) ++ s.flips.map (fun p => p.1)).filter
    (fun x => decide (a ≤ x) && decide (x < a + n))).map (fun x => (x - a) / 64)).eraseDups
  let s1 := if dirPlaced s then copyBuckets a b ks (s.wipe srcServe b n) else s
  s.gln.drops.foldl (fun t p =>
    match t.dirRemoveAt p.1 p.2 with
    | .done u => u
    | .code u _ => u) { s1 with gln := { s1.gln with syncing := false, drops := [] } }

/-- Every count of the candidate table becomes 0. -/
def State.clearCands (s : State) : State := if s.candReach then s.wipe srcServe (s.fld glnCand 0 48) 0x20000 else s

/-- The hit counters of this module's VOL slots (R330), where they lie in reach. -/
def State.hitsReach (s : State) : Bool := jobReach (s.fld glnHits 0 48) (4 * s.volSlots)
def State.clearHits (s : State) : State := if s.hitsReach then s.wipe srcServe (s.fld glnHits 0 48) (4 * s.volSlots) else s

/-- Forget the directory, the slots and every count (R332). -/
def State.clearDir (s : State) : State :=
  let s1 := if dirPlaced s then s.wipe srcServe (s.fld glnDir 0 48) (2 ^ (dirLog2 s + 7)) else s
  let s2 := s1.clearCands.clearHits
  { s2 with gln := { s2.gln with slots := [], jobs := [], syncing := false, drops := [], volHits := [] } }

/-- Count an answered read in the candidate table (R330), whose used entries are searched through the protection code. A
search that meets an uncorrectable entry is reported and counts nothing (DESIGN CHOICE, log entry 109). -/
def State.countCand (s0 : State) (t r : Nat) (remote : Bool) : State :=
  let b := s0.fld glnCand 0 48
  if ¬ s0.bit glnCtrl 1 ∨ ¬ s0.candReach then s0
  else
    let used := s0.candEntries
    match s0.touch srcServe (used.map (fun i => (b + 16 * i, 16))) with
    | (s, false) => s
    | (s, true) =>
      let named (i : Nat) : Bool := decide (s.candSum i ≠ 0) && decide (s.viewNat (b + 16 * i) 8 % 2 ^ 44 = r + t * 2 ^ 40)
      let o := if remote then 12 else 8
      match used.find? named with
      | some i => s.writeNat srcServe (b + 16 * i + o) 4 (satAdd 32 (s.viewNat (b + 16 * i + o) 4) 1)
      | none =>
        let take (i n : Nat) : State :=
          s.write srcServe (b + 16 * i)
            (leBytes 8 (r + t * 2 ^ 40) ++ (if remote then leBytes 4 0 ++ leBytes 4 n else leBytes 4 n ++ leBytes 4 0))
        match (List.range 8192).find? (fun i => !used.contains i || decide (s.candSum i = 0)) with
        | some i => take i 1
        | none =>
          let j := (List.range 8192).foldl (fun best i => if s.candSum i < s.candSum best then i else best) 0
          take j (min (2 ^ 32 - 1) (s.candSum j + 1))

/-- Count a local read answered by a VOL slot (R330); a counter that cannot be read is reported and stays (log entry 109). -/
def State.countHit (s : State) (slot : Nat) : State :=
  let b := s.fld glnHits 0 48
  if ¬ s.bit glnCtrl 1 ∨ ¬ s.hitsReach then s
  else
    match s.read srcServe (b + 4 * slot) 4 with
    | (t, none) => t
    | (t, some bs) => t.writeNat srcServe (b + 4 * slot) 4 (satAdd 32 (msgNat bs 0 4) 1)

/-- Send flits to every member of a multicast group (R503). -/
def State.sendGroup (s : State) (fs : List Flit) : State := fs.foldl (fun t f => t.replicate none f) s

-- Merge banks (R347 to R352).

/-- The engine of a row and the first probe (R349). -/
def rowHash (t r : Nat) : Nat := (r ^^^ (r / 2 ^ 17)) ^^^ ((r / 2 ^ 34) ^^^ (t * 32))
def rowEngine (t r : Nat) : Nat := rowHash t r % 48

def bankLog2 (s : State) (e : Nat) : Nat := s.fld (shfBank e) 48 5
def entryStride (s : State) : Nat := s.fld shfGeom 0 16

/-- The address of entry i of bank b of an engine (R347). -/
def entryAddr (s : State) (e b i : Nat) : Nat :=
  s.fld (shfBank e) 0 48 + (b * 2 ^ bankLog2 s e + i) * entryStride s

/-- STATE of an entry: 0 FREE, 1 FOREIGN, 2 OWNED, 3 GONE (R348). -/
def entryState (s : State) (a : Nat) : Nat := natBits (s.viewNat a 8) 44 2

/-- The banks of an engine lie in local DRAM that jobs reach (R347, R404). -/
def bankReach (s : State) (e : Nat) : Bool := spans inJobDram (s.fld (shfBank e) 0 48) (2 * 2 ^ bankLog2 s e * entryStride s)

/-- The entries of a bank, in ascending order, that lie where a byte or an error is; every other entry is FREE. -/
def bankList (s : State) (e b : Nat) : List Nat :=
  let n := 2 ^ bankLog2 s e
  let a := entryAddr s e b 0
  let w := max 1 (entryStride s)
  let is := (((s.mem.map (fun c => c.1) ++ s.flips.map (fun (p : Nat × _) => p.1)).filter
    (fun x => decide (a ≤ x) && decide (x < a + n * w))).map (fun x => (x - a) / w)).eraseDups
  ((List.range n).filter (fun i => is.contains i)).map (entryAddr s e b)

/-- What a probe sequence finds (R349): the entry, a place for it, neither, or an uncorrectable error. -/
inductive Probe where
  | found (a : Nat)
  | free (a : Nat)
  | full
  | bad

def probeFrom (s : State) (e b key : Nat) : Nat → Nat → Probe
  | 0, _ => .full
  | k + 1, i =>
    let a := entryAddr s e b (i % 2 ^ bankLog2 s e)
    let st := entryState s a
    if st = 0 then .free a
    else if st ≠ 3 ∧ s.viewNat a 8 % 2 ^ 44 = key then .found a
    else probeFrom s e b key k (i + 1)

/-- The entries that a probe sequence looks at. -/
def probeWalk (s : State) (e b key : Nat) : Nat → Nat → List Nat
  | 0, _ => []
  | k + 1, i =>
    let a := entryAddr s e b (i % 2 ^ bankLog2 s e)
    let st := entryState s a
    if st = 0 ∨ (st ≠ 3 ∧ s.viewNat a 8 % 2 ^ 44 = key) then [a] else a :: probeWalk s e b key k (i + 1)

/-- Look a row up in bank b of its engine. -/
def State.probe (s : State) (b t r : Nat) : Probe :=
  let e := rowEngine t r
  probeFrom s e b (r % 2 ^ 40 + t * 2 ^ 40) 64 (rowHash t r / 48 % 2 ^ bankLog2 s e)

/-- The engine of a row looks it up, reading the entries through the protection code. -/
def State.probeRead (s : State) (b t r : Nat) : State × Probe :=
  let e := rowEngine t r
  let as := probeWalk s e b (r % 2 ^ 40 + t * 2 ^ 40) 64 (rowHash t r / 48 % 2 ^ bankLog2 s e)
  match s.touch (engShf e) (as.map (fun a => (a, 16))) with
  | (u, false) => (u, .bad)
  | (u, true) => (u, s.probe b t r)

/-- The bank of a step is open for it at an engine (R351). -/
def ShfEng.openFor (x : ShfEng) (step : BitVec 32) : Bool :=
  if step.toNat % 2 = 0 then x.open0 == some step else x.open1 == some step

/-- What `sheaf_pending` reads: the entries that its probe sequence looks at (R349, R352). -/
def State.pendingRanges (s : State) (t r k : Nat) : List (Nat × Nat) :=
  let e := rowEngine t r
  if (s.sheaf e).openFor (BitVec.ofNat 32 k) then
    (probeWalk s e (k % 2) (r % 2 ^ 40 + t * 2 ^ 40) 64 (rowHash t r / 48 % 2 ^ bankLog2 s e)).map (fun a => (a, 16))
  else []

/-- `sheaf_pending` of R352. -/
def State.sheafPending (s : State) (t r k : Nat) : Bool :=
  (s.sheaf (rowEngine t r)).openFor (BitVec.ofNat 32 k) &&
    (match s.probe (k % 2) t r with
     | .found a => entryState s a == 2 && decide (s.viewNat (a + 8) 4 = k)
     | _ => false)

end Sys2Proof.Machine
end

