-- ==== Sys2Proof/Machine/Glean.lean ====
section
/-!
DEFINITION. Glean (chapter 8): the gather ports, the serve unit with its row fences, the hot directory's edits, REFRESH
and the volunteer messages. A read takes and drops its slot reference within one step, so REFS stays 0 between steps.
-/

namespace Sys2Proof.Machine
open Sys2Proof

-- Halting (R313, R333, R337).

/-- The read indices of a port whose responses are still to come. -/
def GlnPort.owed (x : GlnPort) : List Nat := x.reads.map (fun p => p.1) ++ x.dead

/-- A read index whose response is not still to come (R308, R312). -/
def GlnPort.freeIndex (x : GlnPort) : Option Nat :=
  (List.range 1024).find? (fun i => (Tab.look x.reads i).isNone && !x.dead.contains i)

/-- 1,024 reads are outstanding and a list entry waits (R338). -/
def GlnPort.full (p : GlnPort) : Bool := p.freeIndex.isNone && p.runs.any (fun g => !g.listDone)

/-- Where a port is full and what follows ends that, GLN_CNT_FULL takes the clk of the wait (R338; log entry 8). -/
def State.endFull (s : State) (port : Nat) : State := if (s.gport port).full then s.clk (glnCnt port 7) else s

/-- A port enters HALTED: its reads stay outstanding until their responses, which it discards, have come, and its plan never
completes (R333). -/
def State.haltPort (s0 : State) (port : Nat) : State :=
  let s := s0.endFull port
  let x := s.gport port
  (s.setGport port { halted := true, reads := x.reads, dead := x.dead, nextId := x.nextId }).stickEng (engGln port)

/-- A job fault of a port with its error register. -/
def State.glnFault (s : State) (port tag : Nat) : State :=
  s.jobFault (engGln port) ((s.reg (glnErr port)).toNat % 2 ^ 32) 0 tag

/-- A refused command (R333, R654). -/
def State.glnRefuse (s : State) (port : Nat) (c : QCmd) (bits : List Nat) : State :=
  ((s.refuse (glnErr port) bits [(32, 4, c.op)] (glnErrTag port) c.tag).haltPort port).glnFault port c.tag

/-- A halt that refuses no command: an uncorrectable error or a NOT_OWNER answer (R313). -/
def State.glnHalt (s : State) (port b : Nat) : State := ((s.setBit (glnErr port) b).haltPort port).glnFault port 0

-- Fields of GATHER (R303).

def gaFirst (c : QCmd) : Nat := c.u 40 4
def gaCount (c : QCmd) : Nat := c.u 44 4
def gaMax (c : QCmd) : Nat := c.u 48 4
def gaStride (c : QCmd) : Nat := c.u 52 4
def gaLfmt (c : QCmd) : Nat := c.b 56 0 2
def gaTset (c : QCmd) : Nat := c.b 57 0 4
def gaNtab (c : QCmd) : Nat := c.b 57 4 2
def gaOfmt (c : QCmd) : Nat := c.b 58 0 4
def gaRaw (c : QCmd) : Bool := c.b 58 4 1 = 1
def gaDedup (c : QCmd) : Bool := c.b 58 5 1 = 1
def gaTables (c : QCmd) : List Nat := tableSet (gaTset c) (gaNtab c)

/-- Bytes of an output row of a table (R306). -/
def outBytes (d : TableD) (raw : Bool) (ofmt : Nat) : Nat := if raw then d.valBytes else d.dim * fmtBits ofmt / 8

/-- The command's output row size. -/
def State.gaRowSize (s : State) (c : QCmd) : Nat :=
  (gaTables c).foldl (fun m t => max m (outBytes (s.table t) (gaRaw c) (gaOfmt c))) 0

/-- What a GATHER breaks (R303, R306). -/
def gatherBad (s : State) (c : QCmd) : List Nat :=
  let inR (v lo hi : Nat) : Bool := decide (lo ≤ v) && decide (v ≤ hi)
  let setOk := decide (gaTset c + gaNtab c ≤ 15)
  let sound := setOk && (gaTables c).all (fun t => (s.table t).sound) && s.noOverlap (gaTables c)
  let fmtOk := gaRaw c || decide (gaOfmt c ≤ 2)
  let size := if sound && fmtOk then s.gaRowSize c else 0
  let geom := inR (gaCount c) 1 (if gaDedup c then 262144 else 65536) && inR (gaMax c) 1 65536 && fmtOk && sound &&
    decide (gaStride c % 16 = 0) && decide (size ≤ gaStride c)
  let es := listSize (gaLfmt c)
  let rows := min (gaCount c) (gaMax c)
  let a := c.a 8 + es * gaFirst c
  let list := sramReach a (es * gaCount c) || spans inJobDram a (es * gaCount c)
  let addr := (!setOk || (gaTables c).all (fun t => jobReach (s.tableAddr t) 64)) && list && (!gaDedup c || sramReach (c.a 16) (2 * gaCount c)) && decide (c.a 24 % 16 = 0) &&
    sramReach (c.a 24) ((rows - 1) * gaStride c + size) && (!gaRaw c || c.a 32 == 0 || sramReach (c.a 32) rows)
  broken [(decide (gaLfmt c = 3), 0), (!geom, 1), (!addr, 2)]

-- Rows (R304 to R307).

/-- Write a row that has arrived, bytes 0 to 15 + V of its record (R306). -/
def State.putRow (s : State) (port : Nat) (r : RowRead) (bs : List Byte) : State :=
  let src := engGln port
  let d := s.table r.table
  let vals := bs.drop 16
  if r.raw then
    let s1 := s.write src r.outAddr (vals.take d.valBytes)
    (if r.scaleAddr = 0 then s1 else s1.write src r.scaleAddr (bs.take 1)).count (glnCnt port 0) 1
  else
    let all := leNat (vals.take d.valBytes)
    let k := toSigned 8 (msgNat bs 0 1)
    let w := fmtBits d.vfmt
    let es := (List.range d.dim).map (fun i => encEl r.ofmt none false ((decEl d.vfmt (natBits all (w * i) w)).scale (-k)))
    let s1 := s.write src r.outAddr (packElems (fmtBits r.ofmt) (es.map (fun e => e.1)))
    (s1.count (glnCnt port 0) 1).count (glnCnt port 6) ((es.map (fun e => e.2.narrow)).sum)

/-- Write a zero row (R304, R306). -/
def State.putZeroRow (s : State) (port : Nat) (c : QCmd) (out scale : Nat) : State :=
  let s1 := s.write (engGln port) out (List.replicate (s.gaRowSize c) 0)
  ((if scale = 0 then s1 else s1.write (engGln port) scale [0]).count (glnCnt port 0) 1).count (glnCnt port 5) 1

/-- A row that a port awaited arrives with a status (R313): 0 OK, 1 INVALID, 2 NOT_OWNER, 3 MEM. Responses to reads of before
a halt or a per-block reset are discarded, and their indices are free again (R333, R334). -/
def State.deliverRow (s0 : State) (port index status : Nat) (bs : List Byte) : State :=
  let s := s0.endFull port
  let g := s.gport port
  match Tab.look g.reads index with
  | none => s.setGport port { g with dead := g.dead.filter (fun i => i != index) }
  | some r =>
    let s1 := s.setGport port { g with reads := Tab.drop g.reads index }
    if g.halted then s1
    else
      match status with
      | 0 => s1.putRow port r bs
      | 1 =>
        match g.runs.find? (fun x => x.id == r.run) with
        | some x => s1.putZeroRow port x.cmd r.outAddr r.scaleAddr
        | none => s1
      | 2 => s1.glnHalt port 6
      | _ => s1.glnHalt port 7

-- The serve unit (R311 to R314, R321 to R324).

/-- Send a GRESP (R313); nothing is sent to a chip that is not live (R522). -/
def State.sendResp (s : State) (chip tag status source : Nat) (bs : List Byte) : State :=
  if s.live chip then
    s.send (mkMsg 3 0x30 chip false
      (leBytes 2 tag ++ leBytes 1 status ++ leBytes 1 source ++ leBytes 4 bs.length ++ leBytes 8 0 ++ bs))
  else s

/-- Give an answer to whoever asked. -/
def State.answer (s : State) (q : Parked) (status source : Nat) (bs : List Byte) : State :=
  match q.asker with
  | .here port i => s.deliverRow port.val i status bs
  | .remote chip tag => s.sendResp chip.toNat tag.toNat status source bs

/-- An asker on another module. -/
def Parked.isRemote (q : Parked) : Bool :=
  match q.asker with
  | .here _ _ => false
  | .remote _ _ => true

/-- An answer is given and counted: in SERVED, in the candidate table, and a row served to a port here in LOCAL (R330, R338,
R340). -/
def State.serveReply (s : State) (q : Parked) (status source : Nat) (bs : List Byte) : State :=
  let s1 := ((s.count (glnCntServe 0) 1).count (glnCntServe 1) source).countCand q.table q.row q.isRemote
  let s2 := match q.asker with
    | .here port _ => if status = 0 then s1.count (glnCnt port.val 3) 1 else s1
    | .remote _ _ => s1
  s2.answer q status source bs

/-- A local read that a VOL slot has answered counts at GLN_HITS (R330). -/
def State.countAnswer (s : State) (q : Parked) (slot : Option Nat) : State :=
  match slot with
  | some i => if 16384 ≤ i ∧ ¬ q.isRemote then s.countHit (i - 16384) else s
  | none => s

/-- Answer from an address: the home record, or a slot of the given number. One out of reach is not read, and the answer is
MEM (R404; log entry 109). -/
def State.answerFrom (s : State) (q : Parked) (a : Nat) (slot : Option Nat) : State :=
  let d := s.table q.table
  if ¬ jobReach a d.rowBytes then s.serveReply q 3 0 []
  else
    match s.read srcServe a d.rowBytes with
    | (t, none) => t.serveReply q 3 0 []
    | (t, some bs) => (t.countAnswer q slot).serveReply q 0 slot.isSome.toNat bs

/-- The fence lets a read of a step through to the home record (R311, R322, R323). -/
def State.fenceOpen (s : State) (q : Parked) : Bool :=
  let k := q.step.toNat
  decide (s.fld glnFence 32 32 ≥ k) || (decide (s.fld glnFence 0 32 ≥ k) && (k == 0 || !s.sheafPending q.table q.row (k - 1)))

/-- What the fence reads for a request: the entries by which `sheaf_pending` answers, where it is asked (R311). -/
def State.fenceRanges (s : State) (q : Parked) : List (Nat × Nat) :=
  let k := q.step.toNat
  if k = 0 ∨ s.fld glnFence 32 32 ≥ k ∨ s.fld glnFence 0 32 < k then [] else s.pendingRanges q.table q.row (k - 1)

/-- Serve a valid row of this module: from a slot, from home, or park it; an uncorrectable bank entry gives MEM (R313). -/
def State.serveRow (s : State) (q : Parked) : State :=
  let d := s.table q.table
  let slot := match s.dirLookup s.gln.cur q.table q.row with
    | some (_, kind, n) =>
      let i := slotIndex kind n
      if s.usable i q.step.toNat then some i else none
    | none => none
  match slot with
  | some i => s.answerFrom q (s.slotAddr i) (some i)
  | none =>
    match s.touch srcServe (s.fenceRanges q) with
    | (t, false) => t.serveReply q 3 0 []
    | (t, true) =>
      if t.fenceOpen q then t.answerFrom q (t.homeAddr d q.row) none
      else { t with gln := { t.gln with parked := t.gln.parked ++ [q] } }.count (glnCntServe 2) 1

/-- Serve a read (R311, R313): a row that is not valid gets INVALID, a row of another owner NOT_OWNER; an uncorrectable error
in the descriptor, the ownership word or the bucket gives MEM. -/
def State.serve (s : State) (q : Parked) : State :=
  let (t, ok) := s.touch srcServe (s.rowRanges q.table q.row)
  let d := t.table q.table
  if ¬ ok then t.serveReply q 3 0 []
  else if ¬ d.valid q.row then t.serveReply q 1 0 []
  else if ¬ jobReach (d.ownAddr q.row) 8 then t.serveReply q 3 0 []
  else if (t.ownWord d q.row).1 ≠ t.chip then t.serveReply q 2 0 []
  else t.serveRow q

/-- The serve unit may take one more request: it is enabled and its fence list has room (R324, R339). -/
def State.serveRoom (s : State) : Bool := s.bit glnCtrl 0 && decide (s.gln.parked.length < 4096)

/-- Take queued requests in order as long as the serve unit accepts them. -/
def acceptAll : List Parked → State → State
  | [], s => s
  | q :: r, s =>
    if s.serveRoom then acceptAll r (s.serve q)
    else { s with gln := { s.gln with requests := s.gln.requests ++ (q :: r) } }

def State.acceptRequests (s : State) : State := acceptAll s.gln.requests { s with gln := { s.gln with requests := [] } }

/-- A request reaches the serve unit. -/
def State.request (s : State) (q : Parked) : State :=
  if s.gln.requests.isEmpty ∧ s.serveRoom then s.serve q
  else { s with gln := { s.gln with requests := s.gln.requests ++ [q] } }

/-- One entry of a GREQ: a request of another module reaches the serve unit (R311, R312). -/
def greqEntry (s : State) (bs : List Byte) : State :=
  s.request ⟨msgNat bs 5 1 % 16, msgNat bs 0 5, BitVec.ofNat 32 (msgNat bs 8 4),
    .remote (BitVec.ofNat 16 (msgNat bs 6 2)) (BitVec.ofNat 16 (msgNat bs 12 2))⟩

/-- Cut bytes into entries of n bytes. -/
def chunks (n : Nat) : Nat → List Byte → List (List Byte)
  | 0, _ => []
  | k + 1, bs => if bs.length < n then [] else bs.take n :: chunks n k (bs.drop n)

def execGreq (p : Port) (f : Flit) (s : State) : Out :=
  match s.rx p.val 2 0x20 [f] with
  | .unfit => stutter s
  | .taken t => .next t
  | .msg t _ bs => .next ((chunks 32 7 bs).foldl greqEntry t)

-- GATHER (R303 to R310).

/-- Store a run back in its port, in its place. -/
def State.putRun (s : State) (port : Nat) (g : GatherRun) : State :=
  let x := s.gport port
  s.setGport port { x with runs := x.runs.map (fun y => if y.id = g.id then g else y) }

/-- Resolve a row read whose descriptor, ownership word and bucket are read (R310): a volunteer here, the serve unit here, or
the owner's. -/
def State.resolveRow (s : State) (port : Strip) (c : QCmd) (r : RowRead) : State :=
  let n := port.val
  let step := c.step.toNat
  let d := s.table r.table
  let vol := match s.dirLookup s.gln.cur r.table r.row with
    | some (_, kind, slot) => if kind = 2 ∧ s.usable (16384 + slot) step then some slot else none
    | none => none
  match vol with
  | some slot =>
    match s.read (engGln n) (s.slotAddr (16384 + slot)) d.rowBytes with
    | (t, none) => t.glnHalt n 7
    | (t, some bs) => ((t.count (glnCnt n 2) 1).countHit slot).putRow n r bs
  | none =>
    let x := s.gport n
    match x.freeIndex with
    | none => s
    | some i =>
      let held := s.setGport n { x with reads := Tab.put x.reads i r }
      let owner := (s.ownWord d r.row).1
      if owner = s.chip then
        held.request ⟨r.table, r.row, c.step, .here port i⟩
      else if s.live owner then
        (held.count (glnCnt n 4) 1).send (mkMsg 2 0x20 owner false
          (leBytes 5 r.row ++ leBytes 1 r.table ++ leBytes 2 s.chip ++ leBytes 4 step ++ leBytes 2 (n + 64 * i) ++ leBytes 18 0))
      else s.glnRefuse n c [6]

/-- Resolve a row read. An uncorrectable error on the way halts the port with MEM; an ownership word out of reach is refused
with ADDR (R337, R404; log entry 109). -/
def State.resolve (s : State) (port : Strip) (c : QCmd) (r : RowRead) : State :=
  match s.touch (engGln port.val) (s.rowRanges r.table r.row) with
  | (t, false) => t.glnHalt port.val 7
  | (t, true) =>
    if jobReach ((t.table r.table).ownAddr r.row) 8 then t.resolveRow port c r else t.glnRefuse port.val c [2]

/-- Process the list entries of a GATHER in order, as long as a row read may be issued (R304, R305, R307, R308). -/
def gatherWork (port : Strip) : Nat → State → GatherRun → State
  | 0, s, g => s.putRun port.val { g with listDone := true }
  | k + 1, s, g =>
    let n := port.val
    let c := g.cmd
    if (s.gport n).halted then s
    else if (s.gport n).freeIndex.isNone then s.putRun n g
    else
      let es := listSize (gaLfmt c)
      match s.read (engGln n) (c.a 8 + es * (gaFirst c + g.next)) es with
      | (t, none) => t.glnHalt n 7
      | (t, some bs) =>
        let hit := t.mapId (gaTables c) (listId (gaLfmt c) bs)
        let key := match hit with
          | some p => p
          | none => (16, g.next)
        let old := if gaDedup c then g.pairs.findIdx? (fun p => p == key) else none
        let j := old.getD g.rows
        if old.isNone ∧ g.rows ≥ gaMax c then t.glnRefuse n c [4]
        else
          let t1 := if gaDedup c then t.writeNat (engGln n) (c.a 16 + 2 * g.next) 2 j else t
          let g1 := { g with next := g.next + 1 }
          let out := c.a 24 + j * gaStride c
          let scale := if gaRaw c ∧ c.a 32 ≠ 0 then c.a 32 + j else 0
          match old with
          | some _ => gatherWork port k (t1.count (glnCnt n 1) 1) g1
          | none =>
            let g2 := { g1 with pairs := if gaDedup c then g1.pairs ++ [key] else [], rows := g1.rows + 1 }
            match hit with
            | none => gatherWork port k (t1.putZeroRow n c out scale) g2
            | some (tb, row) =>
              let r : RowRead := { run := g.id, table := tb, row := row, outAddr := out, scaleAddr := scale,
                                   raw := gaRaw c, ofmt := gaOfmt c }
              gatherWork port k (t1.resolve port c r) g2

/-- Go on with the list of a port's last GATHER after a read has returned (R308). -/
def State.gatherMore (s : State) (port : Strip) : State :=
  match (s.gport port.val).runs.getLast? with
  | none => s
  | some g => if g.listDone then s else gatherWork port (gaCount g.cmd - g.next) s g

/-- Every port goes on with its list, and the serve unit with its requests, as far as they may. -/
def State.goOn (s : State) : State := (List.finRange 64).foldl State.gatherMore s.acceptRequests

/-- PARKED_READ_ANSWER (R324): a parked read whose fence has opened is answered from home; queued requests and stopped GATHERs
go on. An uncorrectable bank entry gives MEM (R313). -/
def execParkedReadAnswer (pos : Nat) (s : State) : Out :=
  match s.gln.parked[pos]? with
  | none => stutter s
  | some q =>
    let (t0, ok) := s.touch srcServe (s.fenceRanges q)
    let t := { t0 with gln := { t0.gln with parked := t0.gln.parked.eraseIdx pos } }
    if ¬ ok then .next ((t.serveReply q 3 0 []).goOn)
    else if ¬ t.fenceOpen q then stutter s
    else .next ((t.answerFrom q (t.homeAddr (t.table q.table) q.row) none).goOn)

/-- GRESP: a row arrives at its port (R313). -/
def execGresp (p : Port) (fs : List Flit) (s : State) : Out :=
  match s.rx p.val 3 0x30 fs with
  | .unfit => stutter s
  | .taken t => .next t
  | .msg t _ bs =>
    let tag := msgNat bs 0 2
    let port : Strip := ⟨tag % 64, Nat.mod_lt _ (by decide)⟩
    .next ((t.deliverRow port.val (tag / 64) (msgNat bs 2 1) ((bs.drop 16).take (msgNat bs 4 4))).gatherMore port)

-- Commands (R302).

/-- What every Glean command may break. -/
def glnBasic (s : State) (port : Nat) (c : QCmd) : List Nat :=
  broken [(decide (c.op > 3), 0), (c.badSig || (decide (48 ≤ c.gateCtr) && decide (c.gateCtr ≤ 62)), 3),
    (!s.bit glnPortEn port, 8)]

/-- Start the first command of a port once its gate passes, if it has the given code (R302, R308, R333). -/
def glnRun (port : Strip) (op : Nat) (s : State) (body : QCmd → List Nat → State → State) : Out :=
  let n := port.val
  let e := engGln n
  match s.headCmd e with
  | none => stutter s
  | some c =>
    let x := s.gport n
    if x.halted then .next ((s.takeCmd e).loseCmd e)
    else if x.refreshing.isSome ∨ ¬ x.runs.all (fun g => g.listDone) then stutter s
    else if c.op > 3 then .next ((s.takeCmd e).glnRefuse n c (glnBasic s n c))
    else if c.op ≠ op then stutter s
    else
      match s.gateCmd e c with
      | (t, false) => .next t
      | (t, true) => .next (body c (glnBasic t n c) (t.takeCmd e))

/-- GLN_NOP (R302). -/
def execGlnNop (port : Strip) (s : State) : Out :=
  glnRun port 0 s (fun c bits t => if bits ≠ [] then t.glnRefuse port.val c bits else t.finishCmd (engGln port.val) c)

/-- The descriptors of a command's tables, which it reads at its start (log entry 109). -/
def State.tableRanges (s : State) (ts : List Nat) : List (Nat × Nat) :=
  ((ts.filter (fun t => decide (t ≤ 15))).map (fun t => (s.tableAddr t, 64))).filter (fun r => jobReach r.1 r.2)

/-- GATHER (R303 to R308): the command starts, and its list is processed as far as reads may be outstanding. -/
def execGather (port : Strip) (s : State) : Out :=
  glnRun port 1 s (fun c bits t0 =>
    let (t, ok) := t0.touch (engGln port.val) (t0.tableRanges (gaTables c))
    let bad := bits ++ gatherBad t c
    if ¬ ok then (if bits = [] then t.glnHalt port.val 7 else t.glnRefuse port.val c bits)
    else if bad ≠ [] then t.glnRefuse port.val c bad
    else
      let x := t.gport port.val
      let g : GatherRun := { id := x.nextId, cmd := c, next := 0, pairs := [], rows := 0, listDone := false }
      gatherWork port (gaCount c) (t.setGport port.val { x with runs := x.runs ++ [g], nextId := x.nextId + 1 }) g)

/-- GATHER_DONE (R309): a GATHER whose rows are all written completes and signals. -/
def execGatherDone (port : Strip) (s : State) : Out :=
  let x := s.gport port.val
  match x.runs.find? (fun g => g.listDone && x.reads.all (fun r => r.2.run != g.id)) with
  | none => stutter s
  | some g =>
    .next ((s.setGport port.val { x with runs := x.runs.filter (fun y => y.id != g.id) }).finishCmd (engGln port.val) g.cmd)

/-- MARK (R322): a fence field becomes STEP + 1. -/
def execMark (port : Strip) (s : State) : Out :=
  glnRun port 2 s (fun c bits t =>
    let v := (c.u 12 4 + 1) % 2 ^ 32
    let merged := t.fld glnFence 0 32
    let applied := t.fld glnFence 32 32
    let bad := if c.b 8 0 1 = 0 then decide (v < merged) else decide (v < applied) || decide (v > merged)
    let all := bits ++ broken [(bad, 5)]
    if all ≠ [] then t.glnRefuse port.val c all
    else (t.setFld glnFence (if c.b 8 0 1 = 0 then 0 else 32) 32 v).finishCmd (engGln port.val) c)

-- REFRESH and volunteers (R325 to R329).

/-- A slot write is queued: the slot is HELD until it is written (R326). -/
def State.queueSlot (s : State) (j : SlotJob) : State :=
  let s1 := s.setSlot j.slot { s.slotSt j.slot with held := true }
  { s1 with gln := { s1.gln with jobs := s1.gln.jobs ++ [j] } }

/-- The header of a volunteer message (R328). -/
def volBytes (kind table chip slot row ver : Nat) (image : List Byte) : List Byte :=
  leBytes 1 kind ++ leBytes 1 table ++ leBytes 2 chip ++ leBytes 4 slot ++ leBytes 5 row ++ leBytes 3 0 ++ leBytes 4 ver ++
    leBytes 12 0 ++ image

/-- The home record of a slot's row, with its descriptor and its ownership word, lies in reach. -/
def State.homeReach (s : State) (i : Nat) : Bool :=
  let x := s.slotSt i
  let d := s.table x.table
  jobReach (s.tableAddr x.table) 64 && jobReach (d.ownAddr x.row) 8 && jobReach (s.homeAddr d x.row) d.rowBytes

/-- One slot of a REFRESH (R325); the flag says that nothing it reads has an uncorrectable error. -/
def refreshSlot (n k : Nat) (s0 : State) (i : Nat) : State × Bool :=
  let x := s0.slotSt i
  let d := s0.table x.table
  let (s, ok) := s0.touch (engGln n) [(s0.tableAddr x.table, 64), (d.ownAddr x.row, 8)]
  if ¬ ok then (s, false)
  else
  match s.read (engGln n) (s.homeAddr d x.row) d.rowBytes with
  | (t, none) => (t, false)
  | (t, some bs) =>
    let bump := x.valid && x.ver.toNat == k && decide (msgNat bs 4 4 ≠ k)
    let ver := BitVec.ofNat 32 (k + 1)
    let t1 := t.queueSlot ⟨i, if bump then none else some bs, ver, true⟩
    if i < 16384 then (t1, true)
    else
      let kind := if ¬ x.inCur ∧ x.inNext then 2 else if bump then 1 else 0
      let msg := volBytes kind x.table t1.chip (i - 16384) x.row ver.toNat (if kind = 1 then [] else bs)
      (t1.sendGroup (mkMsg 3 0x34 0 true msg), true)

/-- The slots of a REFRESH in order, until one fails. -/
def refreshAll (n k : Nat) : List Nat → State → State × Bool
  | [], s => (s, true)
  | i :: r, s =>
    match refreshSlot n k s i with
    | (t, true) => refreshAll n k r t
    | (t, false) => (t, false)

/-- REFRESH (R325): every listed COPY slot and VOL slot of this module's quota is bumped or rewritten for step k + 1. -/
def execRefresh (port : Strip) (s : State) : Out :=
  glnRun port 3 s (fun c bits t =>
    let n := port.val
    let k := c.u 8 4
    let bad := bits ++ broken [(decide (t.fld glnFence 32 32 ≠ (k + 1) % 2 ^ 32), 5)]
    if bad ≠ [] then t.glnRefuse n c bad
    else
      let named := (t.gln.slots.filter (fun p => (p.2.inCur || p.2.inNext) &&
        (decide (p.1 < 16384) || t.inQuota t.chip (p.1 - 16384)))).map (fun p => p.1)
      if ¬ named.all t.homeReach then t.glnRefuse n c [2]
      else
      match refreshAll n k named t with
      | (u, false) => u.glnHalt n 7
      | (u, true) =>
        (u.setGport n { u.gport n with refreshing := some c }).endRefresh)

/-- SLOT_WRITE (R326): once REFS is 0, the slot's image is written and its version set. -/
def execSlotWrite (slot : Fin 49152) (s : State) : Out :=
  match s.gln.jobs.find? (fun j => j.slot == slot.val) with
  | none => stutter s
  | some j =>
    let x := s.slotSt j.slot
    if x.refs ≠ 0 then stutter s
    else
      let s1 := { s with gln := { s.gln with jobs := s.gln.jobs.erase j } }
      let more := s1.gln.jobs.any (fun q => q.slot == j.slot)
      let s2 := match j.image with
        | some bs =>
          (if s1.slotReach j.slot then s1.write srcServe (s1.slotAddr j.slot) bs else s1).count (glnCntServe 3) 1
        | none => s1.count (glnCntServe 4) 1
      let valid := match j.image with
        | some _ => true
        | none => x.valid
      .next ((s2.setSlot j.slot { x with held := more, busy := false, valid := valid, ver := j.ver }).endRefresh)

/-- A volunteer message of a kind arrives: fields are SRC_CHIP, SLOT, TABLE, ROW, VER and the image (R328, R329). One for a
slot outside the sender's quota is discarded. -/
def volRx (p : Port) (fs : List Flit) (kind : Nat) (s : State)
    (act : State → (table row slot chip ver : Nat) → List Byte → State) : Out :=
  match s.rx p.val 3 0x34 fs with
  | .unfit => stutter s
  | .taken t => .next t
  | .msg t _ bs =>
    if msgNat bs 0 1 % 4 ≠ kind then stutter s
    else
      let chip := msgNat bs 2 2
      let slot := msgNat bs 4 4
      if ¬ t.inQuota chip slot then .next (t.setBit glnErrVol 2)
      else .next (act t (msgNat bs 1 1 % 16) (msgNat bs 8 5) slot chip (msgNat bs 16 4) (bs.drop 32))

/-- ADD inserts into the next bank and writes the slot; while the bank is being copied it is refused, as an edit is (R320,
R329; log entry 109). -/
def execVolAdd (p : Port) (fs : List Flit) (s : State) : Out :=
  volRx p fs 2 s (fun t table row slot chip ver image =>
    if t.gln.syncing then t.setBit glnErrVol 1
    else
      match t.dirInsertAt table row 2 slot chip with
      | .code u n => u.setBit glnErrVol (if n = 1 then 0 else 1)
      | .done u => u.queueSlot ⟨16384 + slot, some image, BitVec.ofNat 32 ver, false⟩)

def execVolRefresh (p : Port) (fs : List Flit) (s : State) : Out :=
  volRx p fs 0 s (fun t _ _ slot _ ver image =>
    t.queueSlot ⟨16384 + slot, some image, BitVec.ofNat 32 ver, false⟩)

/-- BUMP sets VER on a VALID slot. -/
def execVolBump (p : Port) (fs : List Flit) (s : State) : Out :=
  volRx p fs 1 s (fun t _ _ slot _ ver _ =>
    if (t.slotSt (16384 + slot)).valid then t.queueSlot ⟨16384 + slot, none, BitVec.ofNat 32 ver, false⟩ else t)

/-- DROP removes the entry from the next bank; while the bank is being copied it waits for the copy (log entry 109). -/
def execVolDrop (p : Port) (fs : List Flit) (s : State) : Out :=
  volRx p fs 3 s (fun t table row _ _ _ _ =>
    if t.gln.syncing then { t with gln := { t.gln with drops := t.gln.drops ++ [(table, row)] } }
    else
      match t.dirRemoveAt table row with
      | .done u => u
      | .code u _ => u)

/-- VHITS: volunteer hit counts of a member arrive at the owner, which sums them (R331, R487). -/
def execVhits (p : Port) (f : Flit) (s : State) : Out :=
  match s.rx p.val 2 0x23 [f] with
  | .unfit => stutter s
  | .taken t => .next t
  | .msg t _ bs =>
    .next ((chunks 16 15 bs).foldl (fun u e =>
      let slot := msgNat e 0 4
      { u with gln := { u.gln with volHits := Tab.put u.gln.volHits slot (Tab.get u.gln.volHits 0 slot + msgNat e 4 4) } }) t)

/-- The slots of a member's quota that have hits, with their counts. -/
def State.quotaHits (s : State) (chip : Nat) : List (Nat × Nat) :=
  ((List.range s.volSlots).filter (fun j => s.inQuota chip j)).filterMap (fun j =>
    let n := s.viewNat (s.fld glnHits 0 48 + 4 * j) 4
    if n = 0 then none else some (j, n))

/-- Cut a list into runs of n, the last one shorter. -/
def runsOf (n : Nat) : Nat → List (Nat × Nat) → List (List (Nat × Nat))
  | 0, _ => []
  | k + 1, l => if l.isEmpty then [] else l.take n :: runsOf n k (l.drop n)

/-- Send the hit counts of a member's quota to it, 15 entries a flit (R486, R487). -/
def State.sendHits (s : State) (chip : Nat) : State :=
  (runsOf 15 32768 (s.quotaHits chip)).foldl (fun t es =>
    t.send (mkMsg 2 0x23 chip false (es.flatMap (fun p => leBytes 4 p.1 ++ leBytes 4 p.2 ++ leBytes 8 0)))) s

/-- The end of every 16th step: the sums of this module's own slots begin again with its own hits, the other members get
theirs, and the counts are cleared (R331). Which steps these are, and that the counts leave at the end tick, at which the
reduction phase begins, the manual leaves open (DESIGN CHOICE, log entry 46). -/
def State.shareHits (s : State) : State :=
  if ¬ s.hitsReach ∨ s.volSlots = 0 then s
  else
    let s1 := (s.touch srcServe [(s.fld glnHits 0 48, 4 * s.volSlots)]).1
    let s2 := { s1 with gln := { s1.gln with volHits := s1.quotaHits s1.chip } }
    ((s2.liveList.filter (fun c => c != s2.chip)).foldl State.sendHits s2).clearHits

-- Directory edits (R319, R339).

/-- An edit by GLN_DIR_CMD with GLN_DIR_ARG: INSERT (1) or REMOVE (2); the result goes to GLN_DIR_RES. An owner that
removes a volunteer sends DROP. -/
def State.dirCommand (s : State) (v : Word) : State :=
  let cmd := natBits v.toNat 0 2
  let arg := (s.reg glnDirArg).toNat
  let row := natBits arg 0 40
  let t := natBits arg 40 4
  let kind := natBits arg 44 2
  let slot := natBits v.toNat 32 32
  let done (u : State) (code : Nat) : State := u.setReg glnDirRes (BitVec.ofNat 64 (1 + 2 * code))
  if cmd = 0 ∨ cmd = 3 then s
  else if s.gln.syncing then done s 5
  else if cmd = 1 then
    match s.dirInsertAt t row kind slot s.chip with
    | .code u n => done u n
    | .done u => done u 0
  else
    match s.dirRemoveAt t row with
    | .code u _ => done u 3
    | .done u =>
      match s.dirLookup (!s.gln.cur) t row with
      | some (_, k, n) =>
        if k = 2 ∧ s.inQuota s.chip n then
          done (u.sendGroup (mkMsg 3 0x34 0 true (volBytes 3 t u.chip n row 0 []))) 0
        else done u 0
      | none => done u 0

/-- DIR_INSERT: a write of GLN_DIR_CMD with CMD 1 (R319). -/
def execDirInsert (v : Word) (s : State) : Out := if natBits v.toNat 0 2 ≠ 1 then stutter s else .next (s.dirCommand v)

/-- DIR_REMOVE: a write of GLN_DIR_CMD with CMD 2 (R319). -/
def execDirRemove (v : Word) (s : State) : Out := if natBits v.toNat 0 2 ≠ 2 then stutter s else .next (s.dirCommand v)

/-- DIR_SYNC_DONE (R320): the copy of the new current bank is complete, and edits are accepted again. -/
def execDirSyncDone (s : State) : Out := if s.gln.syncing then .next s.dirSync else stutter s

/-- A write to GLN_DIR: BASE, and LOG2 unless it lies outside 10 to 16 (R339). -/
def State.glnDirSet (s : State) (v : Word) : State :=
  let l := natBits v.toNat 48 5
  if 10 ≤ l ∧ l ≤ 16 then s.writePlain glnDir v
  else s.writePlain glnDir (putBits v 48 5 (s.fld glnDir 48 5))

def execGlnDirWrite (v : Word) (s : State) : Out := .next (s.glnDirSet v)

/-- Reset every port, the fence list, the directory and its slots (R334). -/
def State.clearGlean (s : State) : State :=
  { s with gln := { s.gln with ports := [], parked := [], requests := [] } }.clearDir

end Sys2Proof.Machine
end

