-- ==== Sys2Proof/Machine/Sheaf.lean ====
section
/-!
DEFINITION. Sheaf (chapter 9): contributions and merge records (R342 to R352), ABSORB, DACC, DSUM and FLUSH with its
messages, the norm and the clip factor (R361 to R363), and the ledger (R376, R377). The optimiser step stands in
`Machine/Optimiser.lean`.
-/

namespace Sys2Proof.Machine
open Sys2Proof

-- Halting (R378).

/-- A job fault of an engine with its error register. -/
def State.shfFault (s : State) (e tag : Nat) : State := s.jobFault (engShf e) ((s.reg (shfErr e)).toNat % 2 ^ 32) 0 tag

/-- The steps of the ABSORBs of an engine that have not completed: the one in progress, those that it has fetched, and those
of the rest of its plan. -/
def State.openAbsorbs (s : State) (e : Nat) : List (BitVec 32) :=
  (match (s.sheaf e).absorb with
   | some r => if r.cmd.op = 1 then [r.cmd.step] else []
   | none => []) ++
    (((s.eng (engShf e)).cmds.filter (fun c => c.op == 1)).map (fun c => c.step)) ++ s.restAbsorbs (engShf e)

/-- An engine enters HALTED: its plan never completes, nor does any ABSORB that it drops. -/
def State.haltSheaf (s : State) (e : Nat) : State :=
  let x := s.sheaf e
  (s.setSheaf e { x with halted := true, bankWait := false, flush := none, absorb := none,
                         lost := x.lost ++ s.openAbsorbs e }).stickEng (engShf e)

/-- A command of an engine never completes: an ABSORB is noted (R360). -/
def State.noteLost (s : State) (e : Nat) (c : QCmd) : State :=
  if c.op = 1 then s.setSheaf e { s.sheaf e with lost := (s.sheaf e).lost ++ [c.step] } else s

/-- A refused command (R378, R654). -/
def State.shfRefuse (s : State) (e : Nat) (c : QCmd) (bits : List Nat) : State :=
  ((((s.refuse (shfErr e) bits [(32, 4, c.op)] (shfErrTag e) c.tag).noteLost e c).haltSheaf e)).shfFault e c.tag

/-- A halt that refuses no command: a full merge bank, an uncorrectable error, an acknowledgement that is not OK. -/
def State.shfHalt (s : State) (e b : Nat) : State := ((s.setBit (shfErr e) b).haltSheaf e).shfFault e 0

-- Contributions (R342, R343).

/-- The integer of a stored element: whether it was clamped, and how many elements R89 replaced. -/
def contrib (fmt : Nat) (gscale g : Int) (bits : Nat) : Int × Bool × Nat :=
  let (x, cv) := replace89 fmt true (decEl fmt bits)
  let c := ((x.scale (-gscale)).floorAt g).1
  let d := clampInt c (-(2 ^ 62)) (2 ^ 62)
  (d, decide (c ≠ d), cv.repl)

/-- The magnitude that contribution rows add: 2^64 − 1 once a contribution was clamped. -/
def contribMag (cs : List (Int × Bool × Nat)) : Nat :=
  if cs.any (fun c => c.2.1) then 2 ^ 64 - 1 else min (2 ^ 64 - 1) ((cs.map (fun c => c.1.natAbs)).sum)

/-- The elements of a row of a floating format as contributions. -/
def contribRow (fmt : Nat) (gscale g : Int) (n : Nat) (bs : List Byte) : List (Int × Bool × Nat) :=
  let all := leNat bs
  let w := fmtBits fmt
  (List.range n).map (fun i => contrib fmt gscale g (natBits all (w * i) w))

/-- The sum at an address, an i64. -/
def State.sumAt (s : State) (a : Nat) : Int := toSigned 64 (s.viewNat a 8)

/-- Wrapped element sums as bytes. -/
def sumBytes (l : List Int) : List Byte := (l.map (fun v => leBytes 8 (ofSigned 64 v))).flatten

-- Merge entries (R347 to R350).

def setState (v st : Nat) : Nat := v - natBits v 44 2 * 2 ^ 44 + st * 2 ^ 44

/-- An engine replaces STATE of an entry. -/
def State.markEntry (s : State) (e a st : Nat) : State := s.writeNat (engShf e) a 8 (setState (s.viewNat a 8) st)

/-- An entry is taken from FREE in a bank. -/
def ShfEng.use (x : ShfEng) (b : Nat) : ShfEng := if b = 0 then { x with used0 := x.used0 + 1 } else { x with used1 := x.used1 + 1 }

/-- An engine adds a record into an entry, whose bytes 0 to 63 and sums it has read (R343). -/
def State.addEntry (s : State) (e a : Nat) (old : List Byte) (cs : List Int) (mag cnt : Nat) : State :=
  let sums := (List.range cs.length).map (fun i => toSigned 64 (msgNat old (64 + 8 * i) 8) + cs.getD i 0)
  (s.write (engShf e) (a + 12)
    (leBytes 4 (satAdd 32 (msgNat old 12 4) cnt) ++ leBytes 8 (satAdd 64 (msgNat old 16 8) mag))).write (engShf e) (a + 64)
      (sumBytes sums)

/-- How the merge of a record ends: done, or with a bit of the merging engine's SHF_ERR. -/
inductive MergeRes where
  | done (s : State)
  | stop (s : State) (bit : Nat)

/-- The merging engine merges a record of a row and step into its bank (R349, R350): FULL when 64 probes find no place, MEM at
an uncorrectable error (R378), ADDR where the banks or the ownership word are out of reach (R404; log entry 110). -/
def State.mergeRow (s : State) (t r step : Nat) (cs : List Int) (mag cnt : Nat) : MergeRes :=
  let e := rowEngine t r
  let b := step % 2
  if ¬ bankReach s e ∨ ¬ jobReach ((s.table t).ownAddr r) 8 then .stop s 2
  else
    match s.touch (engShf e) (s.ownRanges t r) with
    | (s0, false) => .stop s0 8
    | (s0, true) =>
      match s0.probeRead b t r with
      | (s1, .full) => .stop s1 4
      | (s1, .bad) => .stop s1 8
      | (s1, .found a) =>
        match s1.read (engShf e) a (64 + 8 * cs.length) with
        | (s2, none) => .stop s2 8
        | (s2, some old) => .done (s2.addEntry e a old cs mag cnt)
      | (s1, .free a) =>
        let st := if (s1.ownWord (s1.table t) r).1 = s1.chip then 2 else 1
        let s2 := s1.write (engShf e) a (leBytes 8 (r % 2 ^ 40 + t % 16 * 2 ^ 40 + st * 2 ^ 44) ++ leBytes 4 step ++
          leBytes 4 (min (2 ^ 32 - 1) cnt) ++ leBytes 8 (min (2 ^ 64 - 1) mag) ++ List.replicate 40 0 ++ sumBytes cs)
        .done (s2.setSheaf e ((s2.sheaf e).use b))

/-- Where an optimiser descriptor lies (R364). -/
def State.optAddr (s : State) (d : Nat) : Nat := s.fld shfOtab 0 48 + 64 * d

/-- The descriptors of tables as ranges to read; a descriptor out of reach is not read and refuses the command (R404). -/
def State.optRanges (s : State) (ds : List Nat) : List (Nat × Nat) :=
  (ds.map (fun d => (s.optAddr d, 64))).filter (fun x => jobReach x.1 x.2)
def State.optReach (s : State) (ds : List Nat) : Bool := ds.all (fun d => jobReach (s.optAddr d) 64)

/-- The anchor G of an optimiser descriptor (R364). -/
def State.anchorOf (s : State) (d : Nat) : Int := toSigned 16 (s.viewNat (s.optAddr d + 40) 2)

-- Commands (R353).

/-- What every Sheaf command may break. -/
def shfBasic (s : State) (e : Nat) (c : QCmd) : List Nat :=
  broken [(decide (c.op > 8), 0), (c.badSig || (decide (48 ≤ c.gateCtr) && decide (c.gateCtr ≤ 62)), 3), (!s.bit shfCtrl e, 9)]

/-- Run the first command of an engine once its gate passes, if it has the given code (R353, R378). The body gets the bits that
its header breaks, so that every broken rule is noted at once (R654), and takes the command from the queue. -/
def shfRun (e : Eng) (op : Nat) (s : State) (body : QCmd → List Nat → State → Out) : Out :=
  let i := engShf e.val
  match s.headCmd i with
  | none => stutter s
  | some c =>
    let x := s.sheaf e.val
    if x.halted then .next (((s.takeCmd i).loseCmd i).noteLost e.val c)
    else if x.flush.isSome || x.absorb.isSome || x.absorbStuck then stutter s
    else if c.op > 8 then .next ((s.takeCmd i).shfRefuse e.val c (shfBasic s e.val c))
    else if c.op ≠ op then stutter s
    else
      match s.gateCmd i c with
      | (t, false) => .next t
      | (t, true) => body c (shfBasic t e.val c) t

/-- Refuse the command, or take it and go on. -/
def shfCheck (e : Eng) (c : QCmd) (bad : List Nat) (s : State) (go : State → State) : Out :=
  let t := s.takeCmd (engShf e.val)
  if bad ≠ [] then .next (t.shfRefuse e.val c bad) else .next (go t)

/-- The same for a command that has read what its checks need; `ok` says that no error there is uncorrectable (R378). -/
def shfGo (e : Eng) (c : QCmd) (bad : List Nat) (ok : Bool) (s : State) (go : State → State) : Out :=
  let t := s.takeCmd (engShf e.val)
  if bad ≠ [] then .next (t.shfRefuse e.val c bad)
  else if ok then .next (go t)
  else .next ((t.noteLost e.val c).shfHalt e.val 8)

/-- SHF_NOP. -/
def execShfNop (e : Eng) (s : State) : Out :=
  shfRun e 0 s (fun c bits t => shfCheck e c bits t (fun u => u.finishCmd (engShf e.val) c))

-- ABSORB (R354 to R356).

def abCount (c : QCmd) : Nat := c.u 28 4
def abStride (c : QCmd) : Nat := c.u 32 4
def abLfmt (c : QCmd) : Nat := c.b 36 0 2
def abTables (c : QCmd) : List Nat := tableSet (c.b 37 0 4) (c.b 37 4 2)
def abGfmt (c : QCmd) : Nat := c.b 38 0 4
def abScale (c : QCmd) : Int := toSigned 8 (c.u 39 1)
/-- The address of list entry j of an ABSORB. -/
def abEntry (c : QCmd) (j : Nat) : Nat := c.a 8 + listSize (abLfmt c) * (c.u 24 4 + j)

/-- What an ABSORB breaks: each rule is looked at as far as the fields that it needs are sound (R654). -/
def absorbBad (s : State) (c : QCmd) : List Nat :=
  let n := abCount c
  let setOk := decide (c.b 37 0 4 + c.b 37 4 2 ≤ 15)
  let geom := decide (abLfmt c ≤ 2) && decide (abGfmt c ≤ 2) && decide (1 ≤ n) && decide (n ≤ 262144) && setOk
  let ts := (abTables c).filter (fun t => decide (t ≤ 15))
  let dim := ts.foldl (fun m t => max m (s.table t).dim) 0
  let es := listSize (abLfmt c)
  let list := decide (abLfmt c > 2) || sramReach (abEntry c 0) (es * n) || spans inJobDram (abEntry c 0) (es * n)
  let rows := decide (abGfmt c > 2) || !setOk || decide (n = 0) ||
    sramReach (c.a 16) ((n - 1) * abStride c + dim * fmtBits (abGfmt c) / 8)
  let places := ts.all (fun t => jobReach (s.tableAddr t) 64) && s.optReach ts
  let addr := list && decide (c.a 16 % 16 = 0) && decide (abStride c % 16 = 0) && rows && places
  broken [(!geom, 1), (!addr, 2)]

/-- How a reading command's pass ends: every entry passed on, an uncorrectable error, or a row without a place. -/
inductive ReadEnd where
  | ok
  | ue
  | full

/-- The merging engine of a row stops with a bit of SHF_ERR (R349, R378). -/
def State.mergeStop (s : State) (t r bit : Nat) : State := s.shfHalt (rowEngine t r) bit

/-- Read, convert and merge gradient row j for a row whose bank is open (R355). A row counts where it is merged, a replaced
element at the engine that reads and converts it (log entry 98). -/
def absorbRow (e : Nat) (c : QCmd) (s : State) (x : Nat × Nat × Nat) : State × ReadEnd :=
  let (j, t, r) := x
  let dim := (s.table t).dim
  match s.read (engShf e) (c.a 16 + j * abStride c) (dim * fmtBits (abGfmt c) / 8) with
  | (s1, none) => (s1, .ue)
  | (s1, some bs) =>
    let cs := contribRow (abGfmt c) (abScale c) (s1.anchorOf t) dim bs
    match s1.mergeRow t r c.step.toNat (cs.map (fun x => x.1)) (contribMag cs) 1 with
    | .stop s2 b => (s2.mergeStop t r b, .full)
    | .done s2 => ((s2.count (shfCnt (rowEngine t r) 0) 1).count (shfCnt e 6) ((cs.map (fun x => x.2.2)).sum), .ok)

/-- Read the entries of the list from j on and add those whose bank is open; `left` collects the others (R351, R355). A row
without a place ends the reading (R349). -/
def absorbFrom (e : Nat) (c : QCmd) : Nat → Nat → State → List (Nat × Nat × Nat) → State × List (Nat × Nat × Nat) × ReadEnd
  | 0, _, s, left => (s, left, .ok)
  | k + 1, j, s, left =>
    match s.read (engShf e) (abEntry c j) (listSize (abLfmt c)) with
    | (s1, none) => (s1, left, .ue)
    | (s1, some idb) =>
      match s1.mapId (abTables c) (listId (abLfmt c) idb) with
      | none => absorbFrom e c k (j + 1) (s1.count (shfCnt e 5) 1) left
      | some (t, r) =>
        if ¬ (s1.sheaf (rowEngine t r)).openFor c.step then absorbFrom e c k (j + 1) s1 (left ++ [(j, t, r)])
        else
          match absorbRow e c s1 (j, t, r) with
          | (s2, .ok) => absorbFrom e c k (j + 1) s2 left
          | (s2, x) => (s2, left, x)

/-- What follows a pass: the command completes, waits with BANK_WAIT for the entries left, halts its engine, or never completes
because a merging engine has halted (R349, R351, R378). -/
def absorbEnd (e : Nat) (c : QCmd) (s : State) (left : List (Nat × Nat × Nat)) (stuck : Bool) : ReadEnd → State
  | .ue => (s.setSheaf e { s.sheaf e with absorb := some ⟨c, left⟩ }).shfHalt e 8
  | .full =>
    s.setSheaf e { s.sheaf e with absorb := some ⟨c, left⟩, absorbStuck := true, bankWait := !left.isEmpty }
  | .ok =>
    if stuck then s.setSheaf e { s.sheaf e with absorb := some ⟨c, left⟩, bankWait := !left.isEmpty }
    else if left.isEmpty then (s.setSheaf e { s.sheaf e with absorb := none, bankWait := false }).finishCmd (engShf e) c
    else s.setSheaf e { s.sheaf e with absorb := some ⟨c, left⟩, bankWait := true }

/-- ABSORB (R354 to R356): the list is read, and every gradient row whose bank is open is merged; the others wait (R351). -/
def execAbsorb (e : Eng) (s : State) : Out :=
  shfRun e 1 s (fun c bits t0 =>
    let (t, ok) := t0.touch (engShf e.val) (t0.tableRanges (abTables c) ++ t0.optRanges (abTables c))
    shfGo e c (bits ++ absorbBad t c) ok t (fun u =>
      let (w, left, r) := absorbFrom e.val c (abCount c) 0 u []
      absorbEnd e.val c w left false r))

-- Dense buffers (R371 to R373).

/-- The header of a dense buffer. -/
structure Dense where
  g : Int
  elems : Nat
  step : Nat
  cnt : Nat
  mag : Nat

def denseOf (bs : List Byte) : Dense :=
  { g := toSigned 16 (msgNat bs 0 2), elems := msgNat bs 4 4, step := msgNat bs 8 4, cnt := msgNat bs 12 4, mag := msgNat bs 16 8 }

def bufEngine (a : Nat) : Nat := a / 64 % 48

/-- A dense buffer may lie in the base-die buffers or in DRAM open to jobs. -/
def denseReach (a n : Nat) : Bool := decide (a % 64 = 0) && (spans inBuf a n || spans inJobDram a n)

/-- The bits that a buffer's place and size break, with its header; `ok` says that the header could be read. -/
def denseBad (s : State) (ok : Bool) (a : Nat) : List Nat × Dense :=
  let d := denseOf (s.views a 64)
  if ¬ denseReach a 64 then ([2], d)
  else if ¬ ok then ([], d)
  else if d.elems = 0 ∨ d.elems > 65536 then ([1], d)
  else if ¬ denseReach a (64 + 8 * d.elems) then ([2], d)
  else ([], d)

/-- Set the STEP, COUNT and MAG of a dense buffer. -/
def State.denseHead (s : State) (src a step cnt mag : Nat) : State := s.write src (a + 8) (leBytes 4 step ++ leBytes 4 cnt ++ leBytes 8 mag)

/-- Start a dense buffer afresh for a step if it holds another (R372). -/
def State.denseFresh (s : State) (src a step : Nat) (d : Dense) : State × Dense :=
  if d.step = step then (s, d)
  else
    ((s.denseHead src a step 0 0).write src (a + 64) (List.replicate (8 * d.elems) 0), { d with step := step, cnt := 0, mag := 0 })

/-- Add sums into a dense buffer from element o on, with a magnitude and a count (R343); no state on an uncorrectable
error. -/
def State.denseAdd (s : State) (src a o : Nat) (d : Dense) (cs : List Int) (mag cnt : Nat) : State × Bool :=
  match s.read src (a + 64 + 8 * o) (8 * cs.length) with
  | (t, none) => (t, false)
  | (t, some bs) =>
    let sums := (List.range cs.length).map (fun i => toSigned 64 (msgNat bs (8 * i) 8) + cs.getD i 0)
    ((t.denseHead src a d.step (satAdd 32 d.cnt cnt) (satAdd 64 d.mag mag)).write src (a + 64 + 8 * o) (sumBytes sums), true)

/-- What a DACC breaks (R372). -/
def daccBad (s : State) (ok : Bool) (c : QCmd) : List Nat :=
  let n := c.u 28 4
  let (bb, d) := denseBad s ok (c.a 16)
  let geom := decide (c.b 32 0 4 > 2) || (ok && denseReach (c.a 16) 64 && decide (c.u 24 4 + n > d.elems))
  let src := decide (c.a 8 % 16 = 0) && (decide (c.b 32 0 4 > 2) || sramReach (c.a 8) (n * fmtBits (c.b 32 0 4) / 8))
  bb ++ broken [(geom, 1), (!src, 2)]

/-- The header of a dense buffer as a range to read, where it lies in reach. -/
def headRange (a : Nat) : List (Nat × Nat) := if denseReach a 64 then [(a, 64)] else []

/-- Add the source of a DACC to its buffer, whose bank is open, as one contribution row (R372). An uncorrectable error in the
buffer halts the buffer's engine, and the command then never completes (log entry 110). -/
def daccAdd (e : Nat) (c : QCmd) (s : State) : State × ReadEnd :=
  let m := bufEngine (c.a 16)
  let n := c.u 28 4
  let fmt := c.b 32 0 4
  match s.read (engShf e) (c.a 8) (n * fmtBits fmt / 8) with
  | (v, none) => (v, .ue)
  | (v, some bs) =>
    match v.read (engShf m) (c.a 16) 64 with
    | (v1, none) => (v1.shfHalt m 8, .full)
    | (v1, some hd) =>
      let d := denseOf hd
      let cs := contribRow fmt (toSigned 8 (c.u 33 1)) d.g n bs
      let (w, d1) := v1.denseFresh (engShf m) (c.a 16) c.step.toNat d
      match w.denseAdd (engShf m) (c.a 16) (c.u 24 4) d1 (cs.map (fun x => x.1)) (contribMag cs) 1 with
      | (x, false) => (x.shfHalt m 8, .full)
      | (x, true) => ((x.count (shfCnt m 0) 1).count (shfCnt e 6) ((cs.map (fun y => y.2.2)).sum), .ok)

/-- DACC (R372): its contribution waits until the bank of its buffer's engine is open (R351). -/
def execDacc (e : Eng) (s : State) : Out :=
  shfRun e 2 s (fun c bits t0 =>
    let (t, ok) := t0.touch (engShf e.val) (headRange (c.a 16))
    shfGo e c (bits ++ daccBad t ok c) ok t (fun u =>
      if (u.sheaf (bufEngine (c.a 16))).openFor c.step then
        let (w, r) := daccAdd e.val c u
        absorbEnd e.val c w [] false r
      else absorbEnd e.val c u [(0, 0, 0)] false .ok))

/-- The engine that a waiting contribution waits for. -/
def AbsRun.target (r : AbsRun) (x : Nat × Nat × Nat) : Nat :=
  if r.cmd.op = 1 then rowEngine x.2.1 x.2.2 else bufEngine (r.cmd.a 16)

/-- Add the waiting contributions of a command whose bank is open now; those that are left, and how it ends. A row without a
place does not keep the others, which were passed on before (R349). -/
def absorbLeft (e : Nat) (r : AbsRun) : List (Nat × Nat × Nat) → State → List (Nat × Nat × Nat) → ReadEnd →
    State × List (Nat × Nat × Nat) × ReadEnd
  | [], s, left, z => (s, left, z)
  | x :: xs, s, left, z =>
    if ¬ (s.sheaf (r.target x)).openFor r.cmd.step then absorbLeft e r xs s (left ++ [x]) z
    else
      match (if r.cmd.op = 1 then absorbRow e r.cmd s x else daccAdd e r.cmd s) with
      | (t, .ok) => absorbLeft e r xs t left z
      | (t, .full) => absorbLeft e r xs t left .full
      | (t, .ue) => (t, left ++ xs, .ue)

/-- A bank has opened: the contributions of an engine's command that waited for it are added. -/
def State.resumeAbsorb (s : State) (e : Nat) : State :=
  match (s.sheaf e).absorb with
  | none => s
  | some r =>
    let (t, left, z) := absorbLeft e r r.left s [] .ok
    absorbEnd e r.cmd t left (s.sheaf e).absorbStuck z

/-- The same for every engine whose command waits. -/
def State.resumeAbsorbs (s : State) : State :=
  (List.range 48).foldl (fun t e => if (t.sheaf e).bankWait then t.resumeAbsorb e else t) s

/-- What a DSUM breaks (R373). -/
def dsumBad (s : State) (ok : Bool) (c : QCmd) : List Nat :=
  let (b1, d1) := denseBad s ok (c.a 8)
  let (b2, d2) := denseBad s ok (c.a 16)
  let r1 := ok && denseReach (c.a 8) 64
  let r2 := ok && denseReach (c.a 16) 64
  b1 ++ b2 ++ broken [(r1 && r2 && (decide (d1.g ≠ d2.g) || decide (d1.elems ≠ d2.elems)), 1),
    (r1 && decide (d1.step ≠ c.step.toNat), 6)]

/-- The engine m that runs a DSUM meets an uncorrectable error and halts; the command of engine e never completes (R371; log
entry 110). -/
def State.dsumHalt (s : State) (e m : Nat) (c : QCmd) : State :=
  let t := s.shfHalt m 8
  if m = e then t else absorbEnd e c t [] false .full

/-- DSUM (R373): the engine of the destination adds one dense buffer into another (R353, R371); checks, completion and signals
are those of the engine whose plan holds the command. -/
def execDsum (e : Eng) (s : State) : Out :=
  shfRun e 3 s (fun c bits t0 =>
    let m := bufEngine (c.a 16)
    let src := engShf m
    let (t, ok) := t0.touch src (headRange (c.a 8) ++ headRange (c.a 16))
    shfCheck e c (bits ++ dsumBad t ok c) t (fun u =>
      if ¬ ok then u.dsumHalt e.val m c
      else
        let d1 := denseOf (u.views (c.a 8) 64)
        match u.read src (c.a 8 + 64) (8 * d1.elems) with
        | (v, none) => v.dsumHalt e.val m c
        | (v, some sb) =>
          let (w, d2) := v.denseFresh src (c.a 16) c.step.toNat (denseOf (v.views (c.a 16) 64))
          let cs := (List.range d1.elems).map (fun i => toSigned 64 (msgNat sb (8 * i) 8))
          match w.denseAdd src (c.a 16) 0 d2 cs d1.mag d1.cnt with
          | (x, false) => x.dsumHalt e.val m c
          | (x, true) => x.finishCmd (engShf e.val) c))

-- FLUSH and its messages (R357 to R360).

/-- A plan of a step holds an ABSORB: its commands are looked at where they lie. -/
def planAbsorbs (s : State) (step : BitVec 32) (p : Plan) : Bool :=
  p.step == step && (List.range p.cmdCount.toNat).any (fun i => s.viewNat (p.cmdAddr.toNat + 64 * i) 1 % 16 == 1)

/-- An entry of a posting FIFO is a Sheaf plan of a step that holds an ABSORB. -/
def postAbsorbs (s : State) (step : BitVec 32) : Post → Bool
  | .plan e p => decide (0x110 ≤ e) && decide (e < 0x140) && planAbsorbs s step p
  | .command _ _ => false

/-- Some ABSORB of a step has not completed on this module (R360): it runs, waits, is queued, or was posted; or it was refused,
stopped or discarded, and never completes. -/
def State.absorbing (s : State) (step : BitVec 32) : Bool :=
  (List.range 48).any (fun e =>
    (s.openAbsorbs e).contains step || (s.sheaf e).lost.contains step || (s.eng (engShf e)).queue.any (planAbsorbs s step)) ||
    s.fifos.any (fun p => p.2.any (postAbsorbs s step))

/-- The entries of an engine's bank with a STATE, in ascending order. -/
def State.bankEntries (s : State) (e b st : Nat) : List Nat := (bankList s e b).filter (fun a => entryState s a == st)

/-- An engine reads the heads of the entries of its bank for a step, where it is open for it. -/
def State.touchBank (s : State) (e : Nat) (step : BitVec 32) : State × Bool :=
  if (s.sheaf e).openFor step then s.touch (engShf e) ((bankList s e (step.toNat % 2)).map (fun a => (a, 24))) else (s, true)

/-- The entries with a STATE of an engine's bank for a step, where it is open for it. -/
def State.openEntries (s : State) (e : Nat) (step : BitVec 32) (st : Nat) : List Nat :=
  if (s.sheaf e).openFor step then s.bankEntries e (step.toNat % 2) st else []

/-- The table and the row that an entry names. -/
def State.entryTable (s : State) (a : Nat) : Nat := s.viewNat (a + 5) 1 % 16
def State.entryRow (s : State) (a : Nat) : Nat := s.viewNat a 5

/-- The bytes of an entry in use. -/
def State.entryRange (s : State) (a : Nat) : Nat × Nat := (a, 64 + 8 * (s.table (s.entryTable a)).dim)

/-- The tables of a list of entries. -/
def State.entryTables (s : State) (es : List Nat) : List Nat := (es.map s.entryTable).eraseDups

/-- The gradient message of an entry (R358). -/
def gradBytes (s : State) (e a step : Nat) : List Byte :=
  let row := s.entryRow a
  let t := s.entryTable a
  let blocks := (List.range ((s.table t).dim / 32)).map (fun b => s.views (a + 64 + 256 * b) 256)
  let here := blocks.map (fun b => b.any (fun x => x != 0))
  let gmask := here.foldr (fun b acc => 2 * acc + b.toNat) 0
  leBytes 5 row ++ leBytes 1 t ++ leBytes 1 e ++ leBytes 1 0 ++ leBytes 2 s.chip ++ leBytes 2 0 ++ leBytes 4 step ++
    leBytes 4 (s.viewNat (a + 12) 4) ++ leBytes 4 0 ++ leBytes 8 (s.viewNat (a + 16) 8) ++ leBytes 8 gmask ++ leBytes 8 0 ++
    ((blocks.filter (fun b => b.any (fun x => x != 0))).flatten)

/-- The owner of an entry's row. -/
def State.entryOwner (s : State) (a : Nat) : Nat := (s.ownWord (s.table (s.entryTable a)) (s.entryRow a)).1

/-- Read an entry, send its gradient message and set it GONE (R357); the flag says that it could be read. -/
def flushEntry (e step : Nat) (s : State) (a : Nat) : State × Bool :=
  match s.touch (engShf e) [s.entryRange a] with
  | (t, false) => (t, false)
  | (t, true) => (((t.send (mkMsg 1 0x10 (t.entryOwner a) false (gradBytes t e a step))).markEntry e a 3).count (shfCnt e 1) 1, true)

/-- Entries in ascending order, until one cannot be read. -/
def flushAll (e step : Nat) : List Nat → State → State × Bool
  | [], s => (s, true)
  | a :: r, s =>
    match flushEntry e step s a with
    | (t, true) => flushAll e step r t
    | (t, false) => (t, false)

/-- FLUSH (R357, R360). -/
def execFlush (e : Eng) (s : State) : Out :=
  shfRun e 4 s (fun c bits t0 =>
    let (t1, ok1) := t0.touchBank e.val c.step
    let es := t1.openEntries e.val c.step 1
    let (t, ok2) := t1.touch (engShf e.val) (es.flatMap (fun a => t1.ownRanges (t1.entryTable a) (t1.entryRow a)))
    let ok := ok1 && ok2
    let bad := bits ++ broken [(t.absorbing c.step, 6), (ok && es.any (fun a => !t.live (t.entryOwner a)), 5)]
    shfGo e c bad ok t (fun u =>
      match flushAll e.val c.step.toNat es u with
      | (v, false) => v.shfHalt e.val 8
      | (v, true) => v.setSheaf e.val { v.sheaf e.val with flush := some ⟨c, es.length, 0⟩ }))

/-- FLUSH_DONE (R357): every message has been acknowledged with OK. -/
def execFlushDone (e : Eng) (s : State) : Out :=
  let x := s.sheaf e.val
  match x.flush with
  | none => stutter s
  | some f =>
    if f.acked < f.sent then stutter s
    else .next ((s.setSheaf e.val { x with flush := none }).finishCmd (engShf e.val) f.cmd)

/-- The sums of a gradient message: omitted blocks count as 0 (R359). -/
def gradSums (gmask : Nat) : Nat → Nat → List Byte → List Int
  | 0, _, _ => []
  | k + 1, b, bs =>
    if gmask / 2 ^ b % 2 = 1 then
      (List.range 32).map (fun i => toSigned 64 (msgNat bs (8 * i) 8)) ++ gradSums gmask k (b + 1) (bs.drop 256)
    else List.replicate 32 0 ++ gradSums gmask k (b + 1) bs

/-- GRAD: a gradient message reaches the owner (R359). Where the owner's engine meets an uncorrectable error it halts, and the
message has no answer (log entry 110). -/
def execGrad (p : Port) (fs : List Flit) (s : State) : Out :=
  match s.rx p.val 1 0x10 fs with
  | .unfit => stutter s
  | .taken t => .next t
  | .msg t0 _ bs =>
    let row := msgNat bs 0 5
    let tb := msgNat bs 5 1 % 16
    let step := msgNat bs 12 4
    let m := rowEngine tb row
    let (t, ok) := t0.touch (engShf m) (t0.ownRanges tb row)
    let d := t.table tb
    let ack (u : State) (st : Nat) : State :=
      if ¬ u.live (msgNat bs 8 2) then u else u.send (mkMsg 3 0x33 (msgNat bs 8 2) false
        (leBytes 2 (msgNat bs 8 2) ++ leBytes 1 (msgNat bs 6 1 % 64) ++ leBytes 1 st ++ leBytes 4 1 ++ leBytes 8 0))
    let refuse (st b : Nat) : State := ack ((t.setBit (shfErr m) b).shfFault m 0) st
    if ¬ ok then .next (t.shfHalt m 8)
    else if ¬ d.valid row ∨ (t.ownWord d row).1 ≠ t.chip then .next (refuse 1 5)
    else if ¬ (t.sheaf m).openFor (BitVec.ofNat 32 step) then .next (refuse 2 6)
    else
      match t.mergeRow tb row step (gradSums (msgNat bs 32 8) (d.dim / 32) 0 (bs.drop 48)) (msgNat bs 24 8) (msgNat bs 16 4) with
      | .stop u 4 => .next (ack ((u.setBit (shfErr m) 4).shfFault m 0) 3)
      | .stop u b => .next (u.shfHalt m b)
      | .done u => .next (ack (u.count (shfCnt m 2) 1) 0)

/-- SACK: an acknowledgement reaches the engine whose FLUSH awaits it (R357, R359). -/
def execSack (p : Port) (f : Flit) (s : State) : Out :=
  match s.rx p.val 3 0x33 [f] with
  | .unfit => stutter s
  | .taken t => .next t
  | .msg t _ bs =>
    let e := msgNat bs 2 1 % 64
    let x := t.sheaf e
    match x.flush with
    | none => .next t
    | some r =>
      if msgNat bs 3 1 ≠ 0 then .next (t.shfHalt e 5)
      else .next (t.setSheaf e { x with flush := some { r with acked := r.acked + msgNat bs 4 4 } })

-- The norm (R361 to R363).

def State.nsum (s : State) : Nat := (s.reg shfNsumLo).toNat + (s.reg shfNsumHi).toNat * 2 ^ 64

/-- Add to NSUM, saturating (R361). -/
def State.addNsum (s : State) (v : Nat) : State :=
  let n := min (2 ^ 128 - 1) (s.nsum + v)
  (s.setReg shfNsumLo (BitVec.ofNat 64 n)).setReg shfNsumHi (BitVec.ofNat 64 (n / 2 ^ 64))

/-- NSUM becomes 0 at the end tick of a step (R362). -/
def State.clearNsum (s : State) : State := (s.setReg shfNsumLo 0).setReg shfNsumHi 0

/-- The norm term of a sum (R361). -/
def normTerm (v g nanchor : Int) : Nat := ((Ex.ofInt (v * v)).scale (2 * g - nanchor)).floor.toNat

def State.nanchor (s : State) : Int := toSigned 16 (s.fld shfNormCtrl 0 16)

/-- The norm of an entry's elements. -/
def entryNorm (s : State) (a : Nat) : Nat :=
  let t := s.entryTable a
  ((List.range (s.table t).dim).map (fun i => normTerm (s.sumAt (a + 64 + 8 * i)) (s.anchorOf t) s.nanchor)).sum

/-- An entry is in range (R344). -/
def inRange (s : State) (a : Nat) : Bool := s.viewNat (a + 16) 8 < 2 ^ 63

/-- NORM (R361). -/
def execNorm (e : Eng) (s : State) : Out :=
  shfRun e 5 s (fun c bits t0 =>
    let (t1, ok1) := t0.touchBank e.val c.step
    let es := (t1.openEntries e.val c.step 2).filter (inRange t1)
    let ts := t1.entryTables es
    let (t, ok2) := t1.touch (engShf e.val) (t1.tableRanges ts ++ t1.optRanges ts ++ es.map t1.entryRange)
    let ok := ok1 && ok2
    shfGo e c (bits ++ broken [(ok && !t1.optReach ts, 2)]) ok t (fun u =>
      (u.addNsum ((es.map (entryNorm u)).sum)).finishCmd (engShf e.val) c))

/-- ADVANCE (R365): T of a descriptor is raised by 1, saturating. -/
def execAdvance (e : Eng) (s : State) : Out :=
  shfRun e 6 s (fun c bits t =>
    shfCheck e c (bits ++ broken [(!t.optReach [c.u 8 1], 2)]) t (fun u =>
      let a := u.optAddr (c.u 8 1) + 4
      match u.read (engShf e.val) a 4 with
      | (v, none) => v.shfHalt e.val 8
      | (v, some bs) => (v.writeNat (engShf e.val) a 4 (satAdd 32 (leNat bs) 1)).finishCmd (engShf e.val) c))

-- The ledger (R376, R377).

def State.ledger (s : State) (i : Nat) : Ledger := Tab.get s.shf.ledger {} i
def State.setLedger (s : State) (i : Nat) (x : Ledger) : State := { s with shf := { s.shf with ledger := Tab.put s.shf.ledger i x } }

def Ledger.writing (x : Ledger) (n : Nat) : Bool := if n % 2 = 0 then x.writing0 else x.writing1
def Ledger.users (x : Ledger) (n : Nat) : Nat := if n % 2 = 0 then x.users0.toNat else x.users1.toNat
def Ledger.setWriting (x : Ledger) (n : Nat) (w : Bool) : Ledger :=
  if n % 2 = 0 then { x with writing0 := w } else { x with writing1 := w }
def Ledger.setUsers (x : Ledger) (n v : Nat) : Ledger :=
  if n % 2 = 0 then { x with users0 := BitVec.ofNat 24 v } else { x with users1 := BitVec.ofNat 24 v }

def ldEntry (c : QCmd) : Nat := c.u 8 1
def ldVersion (c : QCmd) : Nat := c.u 12 4

/-- A waiting TAKE or GATE may go on. -/
def LedgerWait.ready (s : State) (w : LedgerWait) : Bool :=
  let x := s.ledger (ldEntry w.cmd)
  let n := ldVersion w.cmd
  if w.gate then decide (x.users n = 0) else decide (n ≤ x.pub.toNat)

/-- A TAKE or GATE that waits no longer: it takes effect and completes; a TAKE of a full count is refused. -/
def State.ledgerGo (s : State) (w : LedgerWait) : State :=
  let i := ldEntry w.cmd
  let x := s.ledger i
  let n := ldVersion w.cmd
  if w.gate then (s.setLedger i (x.setWriting n true)).finishCmd (engShf w.eng.val) w.cmd
  else if x.users n = 2 ^ 24 - 1 then s.shfRefuse w.eng.val w.cmd [7]
  else (s.setLedger i (x.setUsers n (x.users n + 1))).finishCmd (engShf w.eng.val) w.cmd

/-- Let waiting TAKEs and GATEs go on, oldest first, as long as one may. -/
def ledgerTest : Nat → State → State
  | 0, s => s
  | k + 1, s =>
    match s.shf.waits.find? (fun w => w.ready s) with
    | none => s
    | some w => ledgerTest k (({ s with shf := { s.shf with waits := s.shf.waits.erase w } }).ledgerGo w)

/-- A LEDGER command of a sub-operation: what it breaks, and its effect (R376). It leaves the queue at once (R377). -/
def ledgerRun (e : Eng) (sub : Nat) (s : State) (bad : Ledger → Nat → Bool) (go : QCmd → Ledger → State → State) : Out :=
  shfRun e 8 s (fun c bits t =>
    if c.b 9 0 2 ≠ sub then stutter s
    else
      let x := t.ledger (ldEntry c)
      shfCheck e c (bits ++ broken [(bad x (ldVersion c), 7)]) t (fun u => go c x u))

/-- Start a TAKE or GATE: at once, or in the list of waits, which holds 256. -/
def State.ledgerStart (s : State) (w : LedgerWait) : State :=
  if w.ready s then ledgerTest s.shf.waits.length (s.ledgerGo w)
  else if s.shf.waits.length ≥ 256 then s.shfRefuse w.eng.val w.cmd [7]
  else { s with shf := { s.shf with waits := s.shf.waits ++ [w] } }

def execLedgerTake (e : Eng) (s : State) : Out :=
  ledgerRun e 0 s (fun x n => decide (x.pub.toNat ≥ n + 2) || (x.writing n && decide (x.pub.toNat = n + 1)))
    (fun c _ u => u.ledgerStart ⟨e, c, false⟩)

def execLedgerDrop (e : Eng) (s : State) : Out :=
  ledgerRun e 1 s (fun x n => decide (x.users n = 0))
    (fun c x u =>
      let n := ldVersion c
      let v := (u.setLedger (ldEntry c) (x.setUsers n (x.users n - 1))).finishCmd (engShf e.val) c
      ledgerTest v.shf.waits.length v)

def execLedgerGate (e : Eng) (s : State) : Out :=
  ledgerRun e 2 s (fun x n => decide (x.pub.toNat + 1 ≠ n) || x.writing n)
    (fun c _ u => u.ledgerStart ⟨e, c, true⟩)

def execLedgerPublish (e : Eng) (s : State) : Out :=
  ledgerRun e 3 s (fun x n => !x.writing n || decide (x.pub.toNat + 1 ≠ n))
    (fun c x u =>
      let n := ldVersion c
      let v := (u.setLedger (ldEntry c) { x.setWriting n false with pub := BitVec.ofNat 32 n }).finishCmd (engShf e.val) c
      ledgerTest v.shf.waits.length v)

-- Registers (R381, R383).

/-- SHF_CFADDR takes 0 or a 16-byte aligned address of the base-die buffers (R383). -/
def State.shfCfaddrSet (s : State) (v : Word) : State :=
  let a := v.toNat % 2 ^ 48
  if a = 0 ∨ (a % 16 = 0 ∧ inBuf a) then s.writePlain shfCfaddr v else s

def execShfCfaddrWrite (v : Word) (s : State) : Out := .next (s.shfCfaddrSet v)

/-- SHF_BANK: BASE, and MLOG2 unless it lies outside 10 to 16 (R381). -/
def State.shfBankSet (s : State) (e : Nat) (v : Word) : State :=
  let l := natBits v.toNat 48 5
  if 10 ≤ l ∧ l ≤ 16 then s.writePlain (shfBank e) v
  else s.writePlain (shfBank e) (putBits v 48 5 (s.fld (shfBank e) 48 5))

def execShfBankWrite (e : Eng) (v : Word) (s : State) : Out := .next (s.shfBankSet e.val v)

-- Opening and clearing (R351, R378, R379).

/-- Open the banks of every engine for a step and the next (R351). -/
def State.openBanks (s : State) (step : BitVec 32) : State :=
  (List.range 48).foldl (fun t e =>
    let x := t.sheaf e
    t.setSheaf e (if step.toNat % 2 = 0 then { x with open0 := some step, open1 := some (step + 1) }
      else { x with open1 := some step, open0 := some (step + 1) })) s

/-- Clear a dense buffer (R379). -/
def clearDense (s : State) (a : Nat) : State :=
  let d := denseOf (s.views a 64)
  let src := engShf (bufEngine a)
  if ¬ denseReach a (64 + 8 * d.elems) then s
  else (s.write src (a + 8) (leBytes 4 0xFFFFFFFF ++ leBytes 4 0 ++ leBytes 8 0)).wipe src (a + 64) (8 * d.elems)

/-- Zero the merge banks of an engine, where they lie in reach. -/
def clearBanks (s : State) (e : Nat) : State :=
  if bankReach s e then s.wipe (engShf e) (s.fld (shfBank e) 0 48) (2 * 2 ^ bankLog2 s e * entryStride s) else s

/-- The merge banks of every engine. -/
def State.clearAllBanks (s : State) : State :=
  let t := (List.range 48).foldl clearBanks s
  { t with shf := { t.shf with engs := t.shf.engs.map (fun (p : Nat × ShfEng) => (p.1, { p.2 with used0 := 0, used1 := 0 })) } }

/-- Dense buffers, the norm sums, the clip factor and the ledger's waits. -/
def State.clearSums (s : State) : State :=
  let s1 := s.job.dense.foldl clearDense s
  let s2 := (([shfNsumLo, shfNsumHi, shfGnsumLo, shfGnsumHi, shfCf]).foldl (fun t o => t.setReg o 0) s1)
  { s2 with shf := { s2.shf with waits := [], cfStep := none } }

/-- What R379 clears: banks, dense buffers, the norm sums, the clip factor and the ledger's waits. For which steps the banks are
open, and what an engine has under way, stay. -/
def State.clearSheaf (s : State) : State := s.clearAllBanks.clearSums

/-- Return an engine's state to reset (R378). -/
def State.resetSheafEng (s : State) (e : Nat) : State := s.setSheaf e {}

end Sys2Proof.Machine
end

