-- ==== Sys2Proof/Machine/Optimiser.lean ====
section
/-!
DEFINITION. The optimiser step of Sheaf (R363 to R370): the clip factor, the bias correction, the update of an element
and of a row record, APPLY; and the scale rule of R107.
-/

namespace Sys2Proof.Machine
open Sys2Proof

-- FP32 arithmetic with one rounding to nearest even (R80, R87, R101 under sat).

/-- The value of an FP32 word. -/
def f32 (b : Nat) : FV := decFloat 0 b
/-- One rounding to FP32. -/
def rne (v : FV) : FV := f32 (encEl 0 none false v).1
def fmul (a b : FV) : FV := rne (a.mul b)
def fadd (a b : FV) : FV := rne (a.add b)
def ffma (a b c : FV) : FV := rne ((a.mul b).add c)
def fdiv (a b : FV) : FV := f32 (encRes 0 none false (FV.div a b)).1
def fsqrt (a : FV) : FV := rne a.sqrt
def fone : FV := .fin false (Ex.ofInt 1)

/-- The largest k with h × 2^k at most fmax (R107). -/
def largestShift (h fmax : Ex) : Int :=
  let k := fmax.log2 - h.log2
  if Ex.lt fmax (h.scale k) then k - 1 else k

/-- The scale exponent of R107 for a magnitude, a target format and a margin. -/
def scaleFor (h : Ex) (fmt margin : Nat) : Int :=
  if h.isZero then 0 else clampInt (largestShift h (maxFin fmt) - margin) (-64) 63

-- The clip factor (R363).

def clipFactor (n : Nat) (nanchor : Int) (clip : Nat) : Nat :=
  let q := rne (.fin false ((Ex.ofInt n).scale nanchor))
  let c := f32 clip
  let cc := rne (c.mul c)
  let within := match q, cc with
    | .nan, _ => false
    | _, .nan => false
    | _, _ => !cc.below q
  let cf := if c.isZero || within then fone else fdiv c (fsqrt q)
  (encEl 0 none false cf).1

/-- SHF_GNSUM is written for a step: the clip factor goes to SHF_CF and to the word at SHF_CFADDR (R362, R363). -/
def State.deliverGnsum (s : State) (step : BitVec 32) (v : Nat) : State :=
  let n := min (2 ^ 128 - 1) v
  let cf := clipFactor n s.nanchor (s.fld shfNormCtrl 32 32)
  let sat : Nat := if n = 2 ^ 128 - 1 then 1 else 0
  let s1 := (s.setReg shfGnsumLo (BitVec.ofNat 64 n)).setReg shfGnsumHi (BitVec.ofNat 64 (n / 2 ^ 64))
  let s2 := s1.setReg shfCf (BitVec.ofNat 64 (cf + step.toNat % 2 ^ 31 * 2 ^ 32 + sat * 2 ^ 63))
  let s3 := { s2 with shf := { s2.shf with cfStep := some step } }
  let a := s3.fld shfCfaddr 0 48
  if a = 0 then s3 else s3.write engRed a (leBytes 4 cf ++ leBytes 4 step.toNat ++ leBytes 8 0)

-- The update of an element (R367, R368).

/-- The bits of t from bit j − 1 down, as R367 raises b to t. -/
def powrFrom (b : FV) (t : Nat) : Nat → FV → FV
  | 0, p => p
  | j + 1, p =>
    let q := fmul p p
    powrFrom b t j (if t / 2 ^ j % 2 = 1 then fmul q b else q)

def powr (b : FV) (t : Nat) : FV := powrFrom b t 32 fone

/-- The bias factor (R367). -/
def biasFactor (b : FV) (t : Nat) : FV := if t ≥ 2 ^ 20 then fone else fdiv fone (fadd fone (powr b t).neg)

/-- An optimiser descriptor (R364). -/
structure OptD where
  kind : Nat
  sr : Bool
  margin : Nat
  t : Nat
  lr : FV
  beta1 : FV
  ob1 : FV
  beta2 : FV
  ob2 : FV
  eps : FV
  wd : FV
  site : Nat
  g : Int

def State.optDesc (s : State) (d : Nat) : OptD :=
  let b := s.views (s.optAddr d) 64
  let w (o : Nat) : FV := f32 (msgNat b o 4)
  { kind := msgNat b 0 1 % 4, sr := msgNat b 0 1 / 4 % 2 = 1, margin := msgNat b 1 1 % 4, t := msgNat b 4 4, lr := w 8,
    beta1 := w 12, ob1 := w 16, beta2 := w 20, ob2 := w 24, eps := w 28, wd := w 32, site := msgNat b 36 4 % 2 ^ 28,
    g := toSigned 16 (msgNat b 40 2) }

/-- The bias factors of a descriptor, the same for every element of an APPLY. -/
def OptD.bias (d : OptD) : FV × FV := if d.kind = 2 then (biasFactor d.beta1 d.t, biasFactor d.beta2 d.t) else (fone, fone)

/-- The new value and moments of an element (R368). -/
def updateEl (d : OptD) (bc : FV × FV) (cf : FV) (sum : Int) (stored m0 v0 : FV) : FV × FV × FV :=
  let g := fmul (rne (.fin false ((Ex.ofInt sum).scale d.g))) cf
  let w := rne stored
  let m := rne m0
  let v := rne v0
  let (dd, m1, v1) :=
    match d.kind with
    | 0 => (g, m, v)
    | 1 => let m1 := ffma d.beta1 m g; (m1, m1, v)
    | _ =>
      let m1 := ffma d.beta1 m (fmul d.ob1 g)
      let v1 := ffma d.beta2 v (fmul d.ob2 (fmul g g))
      (fdiv (fmul m1 bc.1) (fadd (fsqrt (fmul v1 bc.2)) d.eps), m1, v1)
  (ffma d.lr.neg (ffma d.wd w dd) w, m1, v1)

-- Row records (R300, R369).

/-- The values of a block format in a record: mantissas, then one exponent code for each 32 (R85, R86). -/
def momentAt (f : Nat) (bs : List Byte) (o dim i : Nat) : FV :=
  .fin false (decBlock f true (msgNat bs (o + dim + i / 32) 1) (msgNat bs (o + i) 1))

/-- Moments as M8 blocks with rne (R90): mantissas, then codes; with the number of moments that R89 replaces. -/
def momentBytes (sgn : Bool) (dim : Nat) (xs : List FV) : List Byte × Nat :=
  let rs := (xs.take dim).map (fun x => replace89 0 sgn x)
  let blocks := (List.range (dim / 32)).map (fun b => alignBlock 8 sgn (((rs.drop (32 * b)).take 32).map (fun x => (x.1, none))))
  (((blocks.map (fun b => (b.2.1.map (fun m => leBytes 1 (ofSigned 8 m))).flatten)).flatten) ++ blocks.map (fun b => BitVec.ofNat 8 b.1),
    (rs.map (fun x => x.2.repl)).sum)

/-- The largest finite magnitude of a list of values. -/
def largestFinite (xs : List FV) : Ex :=
  xs.foldl (fun acc x => match x with
    | .fin _ y => if Ex.lt acc y.abs then y.abs else acc
    | _ => acc) Ex.zero

/-- The row scale of R369. -/
def rowScale (vfmt margin : Nat) (ws : List FV) : Int := if vfmt ≤ 1 then 0 else scaleFor (largestFinite ws) vfmt margin

/-- The record that an update writes, with the number of moments that R89 replaces (R369, R382). -/
def updatedRecord (s : State) (td : TableD) (d : OptD) (cf : FV) (row step : Nat) (sums : List Int) (old : List Byte) :
    List Byte × Nat :=
  let scale := toSigned 8 (msgNat old 0 1)
  let w := fmtBits td.vfmt
  let vals := leNat ((old.drop 16).take td.valBytes)
  let m0 := 16 + td.valBytes
  let v0 := m0 + 33 * (td.dim / 32)
  let bc := d.bias
  let news := (List.range td.dim).map (fun i =>
    updateEl d bc cf (sums.getD i 0) ((decEl td.vfmt (natBits vals (w * i) w)).scale (-scale))
      (if td.moments ≥ 1 then momentAt 12 old m0 td.dim i else .fin false Ex.zero)
      (if td.moments ≥ 2 then momentAt 13 old v0 td.dim i else .fin false Ex.zero))
  let ws := news.map (fun x => x.1)
  let k := rowScale td.vfmt d.margin ws
  let bits := (List.range td.dim).map (fun i =>
    let dith := if d.sr then some (s.dither step (d.site + row / 2 ^ 23) 0 (row % 2 ^ 23 * 2 ^ 11 + i)) else none
    (encEl td.vfmt dith false ((ws.getD i .nan).scale k)).1)
  let first := if td.moments ≥ 1 then momentBytes true td.dim (news.map (fun x => x.2.1)) else ([], 0)
  let second := if td.moments ≥ 2 then momentBytes false td.dim (news.map (fun x => fsqrt x.2.2)) else ([], 0)
  (leBytes 1 (ofSigned 8 k) ++ leBytes 3 0 ++ leBytes 4 step ++ leBytes 8 0 ++ packElems w bits ++ first.1 ++ second.1,
    first.2 + second.2)

-- APPLY (R366).

/-- Apply one OWNED entry: a RANGE entry is left out (R345). The flag is false on an uncorrectable error in the entry or in the
record. -/
def applyEntry (e step : Nat) (cf : FV) (s0 : State) (a : Nat) : State × Bool :=
  match s0.touch (engShf e) [s0.entryRange a] with
  | (s, false) => (s, false)
  | (s, true) =>
    let t := s.entryTable a
    let row := s.entryRow a
    let td := s.table t
    if ¬ inRange s a then
      let s1 := s.count (shfCnt e 4) 1
      (if s1.bit shfCtrl 48 then s1.shfFault e 0 else s1, true)
    else
      let h := s.homeAddr td row
      match s.read (engShf e) h td.recBytes with
      | (s1, none) => (s1, false)
      | (s1, some old) =>
        let sums := (List.range td.dim).map (fun i => s1.sumAt (a + 64 + 8 * i))
        let (new, repl) := updatedRecord s1 td (s1.optDesc t) cf row step sums old
        (((s1.write (engShf e) h new).markEntry e a 3).count (shfCnt e 3) 1 |>.count (shfCnt e 6) repl, true)

/-- Entries in ascending order, until one fails. -/
def applyAll (e step : Nat) (cf : FV) : List Nat → State → State × Bool
  | [], s => (s, true)
  | a :: r, s =>
    match applyEntry e step cf s a with
    | (t, true) => applyAll e step cf r t
    | (t, false) => (t, false)

/-- Every entry of a bank becomes FREE, and the bank opens for a step (R366). -/
def State.freeBank (s : State) (e b : Nat) (step : BitVec 32) : State :=
  let es := (bankList s e b).filter (fun a => entryState s a != 0)
  let t := es.foldl (fun u a => u.markEntry e a 0) s
  let x := t.sheaf e
  t.setSheaf e (if b = 0 then { x with used0 := 0, open0 := some step } else { x with used1 := 0, open1 := some step })

/-- The record of an entry's row lies in reach (R404). -/
def State.recReach (s : State) (a : Nat) : Bool :=
  let td := s.table (s.entryTable a)
  jobReach (s.homeAddr td (s.entryRow a)) td.recBytes

/-- What an APPLY breaks (R366). -/
def applyBad (s : State) (e : Nat) (c : QCmd) (es : List Nat) : List Nat :=
  let k := c.step.toNat
  let ds := (s.entryTables es).map s.optDesc
  broken [(ds.any (fun d => d.kind == 3), 0), (!(s.optReach (s.entryTables es) && es.all (fun a => !inRange s a || s.recReach a)), 2),
    (decide (s.shf.cfStep ≠ some c.step) || decide (s.fld glnFence 0 32 ≠ (k + 1) % 2 ^ 32) ||
      ds.any (fun d => d.kind == 2 && d.t == 0) || !(s.sheaf e).openFor c.step, 6)]

/-- APPLY (R366 to R369). The bank that it frees opens for step k + 2, and contributions that waited for it are added (R351). -/
def execApply (e : Eng) (s : State) : Out :=
  shfRun e 7 s (fun c bits t0 =>
    let k := c.step.toNat
    let (t1, ok1) := t0.touchBank e.val c.step
    let es := (t1.openEntries e.val c.step 2).filter (fun a => decide (t1.viewNat (a + 8) 4 = k))
    let ts := t1.entryTables es
    let (t, ok2) := t1.touch (engShf e.val) (t1.tableRanges ts ++ t1.optRanges ts ++
      es.flatMap (fun a => t1.ownRanges (t1.entryTable a) (t1.entryRow a)))
    let ok := ok1 && ok2
    let bad := bits ++ (if ok then applyBad t e.val c es else applyBad t e.val c [])
    shfGo e c bad ok t (fun u =>
      match applyAll e.val k (f32 (u.fld shfCf 0 32)) es u with
      | (v, false) => v.shfHalt e.val 8
      | (v, true) => ((v.freeBank e.val (k % 2) (c.step + 2)).finishCmd (engShf e.val) c).resumeAbsorbs))

end Sys2Proof.Machine
end

