-- ==== Sys2Proof/Machine/Harrow.lean ====
section
/-!
DEFINITION. The Harrow DMA channels (chapter 12): starting and refusing descriptors, the moves of bytes between segments
here and on other modules, bit planes, interleaving, sparse packing, completion, retries and the channel reset.
-/

namespace Sys2Proof.Machine
open Sys2Proof

-- Fields (R451).

def hwChan (c : QCmd) : Nat := c.b 0 4 2
def hwStart (c : QCmd) : Nat := c.b 0 6 2
def hwWb (c : QCmd) : Bool := c.b 1 6 1 = 1
def hwOwn (c : QCmd) : Bool := c.b 1 7 1 = 1
def hwLen (c : QCmd) : Nat := c.u 24 4
def hwFlag (c : QCmd) (b : Nat) : Bool := c.b 31 b 1 = 1
def hwSlist (c : QCmd) : Bool := hwFlag c 1
def hwDlist (c : QCmd) : Bool := hwFlag c 2
def hwSrem (c : QCmd) : Bool := hwFlag c 3
def hwDrem (c : QCmd) : Bool := hwFlag c 4
/-- FMT of SPLIT, MERGE and SPACK. -/
def hwFmt (c : QCmd) : Nat := c.b 32 0 4
/-- Bytes of a unit of SPLIT and MERGE (R456). -/
def hwUnit (c : QCmd) : Nat := (if c.b 32 4 1 = 1 then 128 else 4) * fmtBits (hwFmt c)
def hwSstride (c : QCmd) : Nat := c.u 36 4
def hwDstride (c : QCmd) : Nat := c.u 40 4
/-- Bytes of an element, the number of streams and KSTRIDE of ILV and DILV (R458). -/
def hwElem (c : QCmd) : Nat := 2 ^ c.b 32 0 3
def hwWays (c : QCmd) : Nat := c.u 33 1
def hwKstride (c : QCmd) : Nat := c.u 36 4
/-- KREQ, KGRP, NROWS, TTAG and DLIM of SPACK (R459). -/
def hwKreq (c : QCmd) : Nat := c.b 32 5 2
def hwKgrp (c : QCmd) : Nat := c.b 33 0 4
def hwNrows (c : QCmd) : Nat := c.u 34 2
def hwDlim (c : QCmd) : Nat := c.u 40 4
/-- The dense size of R387. -/
def denseSize (nrows kgrp w : Nat) : Nat := nrows * kgrp * (4 * w + 1)

/-- The engine and the strip and channel of a channel number. -/
def chStrip (ch : Nat) : Nat := ch / 4
def chEng (ch : Nat) : Nat := engHrw (chStrip ch)
def chErr (ch : Nat) : Nat := hrwErr (chStrip ch) (ch % 4)
def chCnt (ch i : Nat) : Nat := hrwCnt (chStrip ch) (ch % 4) i

-- Failing and refusing (R465 to R468).

/-- A channel enters HALTED with its descriptor lost, and a job fault is raised. -/
def State.haltChan (s : State) (ch : Nat) (c : QCmd) : State :=
  let x := s.chan ch
  let t := ((s.paceEnds ch).setChan ch { x with halted := true, running := none, startWait := false }).loseCmd (chEng ch)
  t.jobFault (chEng ch) ((t.reg (chErr ch)).toNat % 2 ^ 32) 0 c.tag

/-- A refused descriptor, already taken from its queue (R467). -/
def State.hrwRefuse (s : State) (ch : Nat) (c : QCmd) (bits : List Nat) : State :=
  (s.refuse (chErr ch) bits [(32, 4, c.op)] (hrwErrTag (chStrip ch) (ch % 4)) c.tag).haltChan ch c

/-- Write a descriptor's status back, then clear OWN (R462). -/
def State.hrwBack (s : State) (ch : Nat) (r : HrwRun) (status result : Nat) : State :=
  if ¬ hwWb r.cmd then s
  else
    let a := r.cmd.addr.toNat
    let s1 := s.write (chEng ch) (a + 48) (leBytes 1 status ++ leBytes 1 (min 255 r.retries) ++ leBytes 2 (r.cmd.u 50 2) ++
      leBytes 4 (min (2 ^ 32 - 1) r.doneBytes) ++ leBytes 4 result)
    s1.writeNat (chEng ch) (a + 1) 1 (r.cmd.u 1 1 % 128)

/-- A descriptor fails (R465, R466): the error bit, the address of the access, the status and a job fault. -/
def State.hrwFail (s : State) (ch : Nat) (r : HrwRun) (b : Nat) (addr : Word) : State :=
  let s1 := (s.refuse (chErr ch) [b] [(32, 4, r.cmd.op)] (hrwErrTag (chStrip ch) (ch % 4)) r.cmd.tag).setReg
    (hrwErrAddr (chStrip ch) (ch % 4)) addr
  (s1.hrwBack ch r 2 0).haltChan ch r.cmd

-- Segments (R452 to R454).

/-- The reach of a local address (R452). -/
def hwReach (modeF : Bool) (a n : Nat) : Bool := jobReach a n || spans inTiles a n || (modeF && spans inDram a n)

/-- A segment from an address field: on this module, or where a fabric address says. -/
def State.segOf (s : State) (rem : Bool) (v len : Nat) : MemRun :=
  if rem then ⟨v / 2 ^ 48 % 65536, v % 2 ^ 48, len⟩ else ⟨s.chip, v % 2 ^ 48, len⟩

/-- A segment within its reach: a fabric address reaches what R408 permits. -/
def segOk (modeF rem : Bool) (m : MemRun) : Bool := if rem then jobReach m.addr m.len else hwReach modeF m.addr m.len

/-- Segments of a list in entry order (R453). -/
def State.listSegs (s : State) (rem : Bool) : Nat → List Byte → List MemRun
  | 0, _ => []
  | n + 1, bs => s.segOf rem (msgNat bs 0 8) (msgNat bs 8 4) :: s.listSegs rem n (bs.drop 16)

def segSum (l : List MemRun) : Nat := (l.map (fun m => m.len)).sum

/-- The number of list entries of a FILL, which names none: up to the entry at which the lengths reach LEN, at most 4,096
(log entry 14). -/
def State.fillCount (s : State) (a len : Nat) : Nat → Nat → Nat → Nat
  | 0, n, _ => n
  | k + 1, n, sum =>
    if n > 0 ∧ sum ≥ len then n else s.fillCount a len k (n + 1) (sum + s.viewNat (a + 16 * n + 8) 4)

/-- What the source or the destination of a descriptor gives: its segments and the refusal bits, or an uncorrectable
error in its list. -/
inductive Segs where
  | ok (s : State) (l : List MemRun) (bits : List Nat)
  | ue (s : State) (addr : Nat)

def State.segments (s : State) (ch : Nat) (c : QCmd) (isList rem : Bool) (field count : Nat) : Segs :=
  let v := c.u field 8
  if ¬ isList then
    let m := s.segOf rem v (hwLen c)
    .ok s [m] (broken [(!segOk c.modeF rem m, 2)])
  else
    let a := v % 2 ^ 48
    if count = 0 ∨ count > 4096 then .ok s [] [1]
    else if ¬ (jobReach a (16 * count) || (c.modeF && spans inDram a (16 * count))) then .ok s [] [2]
    else
      match s.read (chEng ch) a (16 * count) with
      | (t, none) => .ue t (s.failAddr a (16 * count))
      | (t, some bs) =>
        let l := t.listSegs rem count bs
        .ok t l (broken [(l.any (fun m => decide (m.len = 0)) || decide (segSum l ≠ hwLen c), 1),
          (!l.all (segOk c.modeF rem), 2)])

/-- Two extents share a byte. -/
def extentsMeet (a n b m : Nat) : Bool := decide (0 < n) && decide (0 < m) && decide (a < b + m) && decide (b < a + n)

-- Checks (R448, R452 to R462, R464, R467).

/-- What the head of every descriptor may break. -/
def hwBasic (s : State) (ch : Nat) (c : QCmd) : List Nat :=
  broken [(decide (c.op > 7) || decide (hwStart c = 3), 0),
    (c.badSig || (decide (48 ≤ c.gateCtr) && decide (c.gateCtr ≤ 62)), 3),
    (hwWb c && !hwOwn c, 4), (!s.bit (hrwCtrl (chStrip ch)) (ch % 4), 9)]

/-- FMT is one of the formats with bit planes. -/
def hwFmtOk (c : QCmd) : Bool := decide (8 ≤ hwFmt c) && decide (hwFmt c ≤ 11)

/-- Local source and destination extents of an operation other than COPY and FILL. A command of another FMT has no unit and
no tile size: of its extents only the first bytes are known. -/
def hwExtents (c : QCmd) : Nat × Nat :=
  let n := hwLen c
  if ¬ hwFmtOk c ∧ c.op ≠ 5 ∧ c.op ≠ 6 then (1, 1)
  else match c.op with
  | 3 => (if n = 0 then 0 else (n - 1) * hwSstride c + hwUnit c, if n = 0 then 0 else (n - 1) * hwDstride c + hwUnit c)
  | 4 => (if n = 0 then 0 else (n - 1) * hwSstride c + hwUnit c, if n = 0 then 0 else (n - 1) * hwDstride c + hwUnit c)
  | 5 => (if n = 0 then 0 else (hwWays c - 1) * hwKstride c + n * hwElem c, n * hwWays c * hwElem c)
  | 6 => (n * hwWays c * hwElem c, if n = 0 then 0 else (hwWays c - 1) * hwKstride c + n * hwElem c)
  | _ => let d := denseSize (hwNrows c) (hwKgrp c) (fmtBits (hwFmt c)); (d, d + 16)

/-- The geometry of an operation other than COPY and FILL. -/
def hwGeom (c : QCmd) : Bool :=
  match c.op with
  | 5 => decide (c.b 32 0 3 ≤ 6) && decide (2 ≤ hwWays c) && decide (hwWays c ≤ 16) && decide (hwKstride c % hwElem c = 0) &&
      decide (hwLen c * hwElem c ≤ hwKstride c)
  | 6 => decide (c.b 32 0 3 ≤ 6) && decide (2 ≤ hwWays c) && decide (hwWays c ≤ 16) && decide (hwKstride c % hwElem c = 0) &&
      decide (hwLen c * hwElem c ≤ hwKstride c)
  | 7 => hwFmtOk c && decide (hwKreq c ≠ 0) && decide (1 ≤ hwKgrp c) && decide (hwKgrp c ≤ 8) && decide (1 ≤ hwNrows c) &&
      decide (denseSize (hwNrows c) (hwKgrp c) (fmtBits (hwFmt c)) + 16 ≤ hwDlim c)
  | _ => hwFmtOk c && decide (hwSstride c % 16 = 0) && decide (hwDstride c % 16 = 0) && decide (hwUnit c ≤ hwSstride c) &&
      decide (hwUnit c ≤ hwDstride c)

/-- The alignment that an operation asks of SRC and DST. -/
def hwAlign (c : QCmd) : Nat := if c.op = 5 ∨ c.op = 6 then hwElem c else 16

/-- What a SPLIT, MERGE, ILV, DILV or SPACK breaks. -/
def hwLocalBad (c : QCmd) : List Nat :=
  let src := c.u 8 8 % 2 ^ 48
  let dst := c.u 16 8 % 2 ^ 48
  let (n, m) := hwExtents c
  let plain := !hwSlist c && !hwDlist c
  let local_ := !hwSrem c && !hwDrem c && decide (src % hwAlign c = 0) && decide (dst % hwAlign c = 0)
  let reach := hwReach c.modeF src n && hwReach c.modeF dst m && !extentsMeet src n dst m
  broken [(!hwGeom c || !plain, 1), (!local_ || !reach, 2)]

/-- A descriptor's segments and everything that it breaks, or an uncorrectable error in a list with what it breaks besides. -/
inductive Checked where
  | ok (s : State) (src dst : List MemRun) (bits : List Nat)
  | ue (s : State) (addr : Nat) (bits : List Nat)

def hwCheck (s : State) (ch : Nat) (c : QCmd) : Checked :=
  let basic := hwBasic s ch c
  match c.op with
  | 1 =>
    match s.segments ch c (hwSlist c) (hwSrem c) 8 (c.u 32 4) with
    | .ue t a =>
      match t.segments ch c (hwDlist c) (hwDrem c) 16 (c.u 36 4) with
      | .ue u _ => .ue u a basic
      | .ok u _ b2 => .ue u a (basic ++ b2)
    | .ok t l1 b1 =>
      match t.segments ch c (hwDlist c) (hwDrem c) 16 (c.u 36 4) with
      | .ue u a => .ue u a (basic ++ b1)
      | .ok u l2 b2 =>
        let direct := !hwSlist c && !hwDlist c
        let meet := match l1, l2 with
          | [x], [y] => direct && x.chip == s.chip && y.chip == s.chip && extentsMeet x.addr x.len y.addr y.len
          | _, _ => false
        .ok u l1 l2 (basic ++ b1 ++ b2 ++ broken [(meet, 2)])
  | 2 =>
    let n := if hwDlist c then s.fillCount (c.u 16 8 % 2 ^ 48) (hwLen c) 4096 0 0 else 0
    match s.segments ch c (hwDlist c) (hwDrem c) 16 n with
    | .ue t a => .ue t a basic
    | .ok t l b => .ok t [] l (basic ++ b)
  | 0 => .ok s [] [] (basic ++ broken [(hwSlist c || hwDlist c, 1), (hwSrem c || hwDrem c, 2)])
  | _ => .ok s [] [] (basic ++ (if c.op ≤ 7 then hwLocalBad c else []))

-- Queues and starting (R447, R448).

/-- The place of the first descriptor of a channel in its engine's list. -/
def hwFind (ch : Nat) (cs : List QCmd) : Option (Nat × QCmd) :=
  match cs.findIdx? (fun c => hwChan c == ch % 4) with
  | none => none
  | some k => (cs[k]?).map (fun c => (k, c))

/-- The gate of a channel's head descriptor. -/
def State.hwGate (s : State) (ch : Chan) (c : QCmd) : State × Bool :=
  if c.gateCtr ≥ 48 then (s, true)
  else
    match (s.chan ch.val).gate with
    | .passed => (s, true)
    | .waiting => (s, false)
    | .idle =>
      let s1 := (s.setChan ch.val { s.chan ch.val with gate := .waiting }).beginWait c.core c.gateCtr ⟨.channel ch, c.gateTgt⟩
      (s1, (s1.chan ch.val).gate == .passed)

/-- START of a descriptor allows it at `ns` after the last tick. -/
def State.hwMayStart (s : State) (ch : Nat) (c : QCmd) (ns : Nat) : Bool :=
  match hwStart c with
  | 1 => decide (c.u 28 2 * 100 ≤ (s.furCount.toNat - (s.eng (chEng ch)).startTick.toNat) * s.periodNs + ns)
  | 2 => decide ((s.chan ch).baton ≠ 0)
  | _ => true

/-- A descriptor with START 2 subtracts 1 from the baton as it starts (R448). -/
def State.takeBaton (s : State) (ch : Nat) (c : QCmd) : State :=
  if hwStart c = 2 then s.setChan ch { s.chan ch with baton := (s.chan ch).baton - 1 } else s

/-- HRW_DESC_START (R448): the head descriptor of a channel meets its gate and its start condition; it is refused, or it
runs. A HALTED channel discards it (R468). -/
def execHrwDescStart (ch : Chan) (ns : Nat) (s : State) : Out :=
  let e := chEng ch.val
  match hwFind ch.val (s.eng e).cmds with
  | none => stutter s
  | some (k, c) =>
    let x := s.chan ch.val
    if x.halted then .next ((((s.waitEnds ch.val).setChan ch.val { x with gate := .idle, startWait := false }).withdraw (chStrip ch.val) (.channel ch)).takeAt e k |>.loseCmd e)
    else if x.running.isSome ∨ s.closed 4 ch.val then stutter s
    else
      match s.hwGate ch c with
      | (t, false) => .next t
      | (t, true) =>
        if ¬ t.hwMayStart ch.val c ns then .next (t.setChan ch.val { t.chan ch.val with startWait := true })
        else
          let t1 := if (t.chan ch.val).startWait then t.clk (chCnt ch.val 3) else t
          let u := (t1.setChan ch.val { t1.chan ch.val with startWait := false, gate := .idle }).takeAt e k
          let run : HrwRun := { cmd := c, src := [], dst := [], moved := false, pos := 0, hold := [], retries := 0,
                                doneBytes := 0, result := 0, acc := none }
          match hwCheck u ch.val c with
          | .ue v a bits =>
            if bits ≠ [] then .next (v.hrwRefuse ch.val c bits)
            else .next ((v.takeBaton ch.val c).hrwFail ch.val run 7 (fabricAddr v.chip a))
          | .ok v src dst bits =>
            if bits ≠ [] then .next (v.hrwRefuse ch.val c bits)
            else
              let w := v.takeBaton ch.val c
              .next (w.setChan ch.val { w.chan ch.val with running := some { run with src := src, dst := dst } })

-- Moving bytes (R454, R455).

/-- The segment at an offset of a stream: chip, address and the bytes left in it. -/
def segAt : List MemRun → Nat → Option (Nat × Nat × Nat)
  | [], _ => none
  | m :: r, o => if o < m.len then some (m.chip, m.addr + o, m.len - o) else segAt r (o - m.len)

/-- A piece stays within a line. -/
def pieceLen (a left : Nat) : Nat := min left (64 - a % 64)

/-- Bytes of a FILL from a stream offset on. -/
def fillBytes (pat : List Byte) (o n : Nat) : List Byte := (List.range n).map (fun i => pat.getD ((o + i) % 8) 0)

/-- A local byte that the descriptor's source holds too: what is written there depends on timing (R464). -/
def State.timingByte (s : State) (l : List MemRun) (a : Nat) : Bool :=
  l.any (fun m => m.chip == s.chip && decide (m.addr ≤ a) && decide (a < m.addr + m.len))

/-- The bytes that a local piece leaves: free where source and destination overlap. -/
def timedBytes (s : State) (l : List MemRun) : Nat → List Byte → List Byte
  | _, [] => []
  | a, b :: r => (if s.timingByte l a then Config.freeByte (s.draws + a) else b) :: timedBytes s l (a + 1) r

/-- Send a remote access and await its answer; a chip that is not live counts as a refusal (R408, R465). -/
def State.hwRemote (s : State) (ch chip a n : Nat) (write : Bool) (data : List Byte) (r : HrwRun) (tries : Nat) : State :=
  if ¬ s.live chip then s.hrwFail ch { r with acc := none } 6 (fabricAddr chip a)
  else
    let x := s.chan ch
    let tag := BitVec.ofNat 32 (ch + 256 * x.accesses.toNat)
    let acc : RemAcc := { addr := fabricAddr chip a, write := write, data := data, len := n, tries := tries, backoff := false, tag := tag }
    let t := s.setChan ch { x with accesses := x.accesses + 1, running := some { r with acc := some acc } }
    t.send (mkMsg 2 (if write then 0x22 else 0x21) chip false
      (leBytes 8 a ++ leBytes 2 s.chip ++ leBytes 2 n ++ leBytes 4 tag.toNat ++ leBytes 16 0 ++ data))

/-- n bytes of a descriptor's destination have been written. -/
def HrwRun.wrote (r : HrwRun) (n : Nat) : HrwRun :=
  { r with pos := r.pos + n, hold := r.hold.drop n, doneBytes := r.doneBytes + n, acc := none }

/-- Move pieces until the stream is done, an access is outstanding or the descriptor fails. -/
def hwMove (ch : Nat) : Nat → State → HrwRun → State
  | 0, s, r => s.setChan ch { s.chan ch with running := some r }
  | k + 1, s, r =>
    if r.pos ≥ hwLen r.cmd then s.setChan ch { s.chan ch with running := some { r with moved := true } }
    else if r.hold = [] then
      if r.cmd.op = 2 then
        hwMove ch k s { r with hold := fillBytes (leBytes 8 (r.cmd.u 32 8)) r.pos (min 64 (hwLen r.cmd - r.pos)) }
      else
        match segAt r.src r.pos with
        | none => s
        | some (chip, a, left) =>
          let n := pieceLen a left
          if chip = s.chip then
            match s.read (chEng ch) a n with
            | (t, none) => t.hrwFail ch r 7 (fabricAddr chip (s.failAddr a n))
            | (t, some bs) => hwMove ch k t { r with hold := bs }
          else s.hwRemote ch chip a n false [] r 0
    else
      match segAt r.dst r.pos with
      | none => s
      | some (chip, a, left) =>
        let n := min r.hold.length (pieceLen a left)
        if chip = s.chip then
          let t := (s.write (chEng ch) a (timedBytes s r.src a (r.hold.take n))).count (chCnt ch 0) n
          hwMove ch k t (r.wrote n)
        else s.hwRemote ch chip a n true (r.hold.take n) r 0

/-- Run the descriptor in progress of a channel if it has the given code and its data has not moved. -/
def hwRun (ch : Chan) (op : Nat) (s : State) (body : HrwRun → State → State) : Out :=
  match (s.chan ch.val).running with
  | none => stutter s
  | some r =>
    if r.cmd.op ≠ op ∨ r.moved ∨ r.acc.isSome then stutter s
    else .next (body r s)

/-- The data of a descriptor has all moved. -/
def State.hwMoved (s : State) (ch : Nat) (r : HrwRun) : State :=
  s.setChan ch { s.chan ch with running := some { r with moved := true } }

/-- HRW_NOP moves nothing (R451). -/
def execHrwNop (ch : Chan) (s : State) : Out := hwRun ch 0 s (fun r t => t.hwMoved ch.val r)

/-- COPY (R454, R455). -/
def execCopy (ch : Chan) (s : State) : Out :=
  hwRun ch 1 s (fun r t => hwMove ch.val (2 * hwLen r.cmd + 1) { t with draws := t.draws + 2 ^ 48 } r)

/-- FILL (R455). -/
def execFill (ch : Chan) (s : State) : Out := hwRun ch 2 s (fun r t => hwMove ch.val (2 * hwLen r.cmd + 1) t r)

/-- The answer to a remote access of a channel (R465, R505, R506): data or an acknowledgement, a refusal, or an
uncorrectable error there. An answer to no access in progress is discarded. -/
def State.hrwAnswer (s : State) (tag status : Nat) (write : Bool) (bs : List Byte) : State :=
  let ch := tag % 256
  match (s.chan ch).running with
  | none => s
  | some r =>
    match r.acc with
    | none => s
    | some a =>
      if a.tag.toNat ≠ tag ∨ a.write ≠ write ∨ a.backoff then s
      else
        let r1 := { r with acc := none }
        if status = 1 then s.hrwFail ch r1 6 a.addr
        else if status ≠ 0 then s.hrwFail ch r1 7 a.addr
        else if write then hwMove ch (2 * hwLen r.cmd + 1) (s.count (chCnt ch 0) a.len) (r1.wrote a.len)
        else hwMove ch (2 * hwLen r.cmd + 1) s { r1 with hold := bs }

/-- HRW_REMOTE_TIMEOUT (R465): no answer within TIMEOUT: a retry is scheduled, or the channel halts with BUS. -/
def execHrwRemoteTimeout (ch : Chan) (s : State) : Out :=
  match (s.chan ch.val).running with
  | none => stutter s
  | some r =>
    match r.acc with
    | none => stutter s
    | some a =>
      if a.backoff then stutter s
      else if a.tries ≥ s.fld (hrwCtrl (chStrip ch.val)) 4 3 then .next (s.hrwFail ch.val { r with acc := none } 5 a.addr)
      else .next (s.setChan ch.val { s.chan ch.val with running := some { r with acc := some { a with backoff := true } } })

/-- HRW_RETRY (R465): the backoff ends, and the same access is sent again. -/
def execHrwRetry (ch : Chan) (s : State) : Out :=
  match (s.chan ch.val).running with
  | none => stutter s
  | some r =>
    match r.acc with
    | none => stutter s
    | some a =>
      if ¬ a.backoff then stutter s
      else
        .next ((s.count (chCnt ch.val 2) 1).hwRemote ch.val (a.addr.toNat / 2 ^ 48) (a.addr.toNat % 2 ^ 48) a.len a.write a.data
          { r with retries := r.retries + 1 } (a.tries + 1))

-- Bit planes (R456).

/-- The bits of a number in rising order, gathered from given bit positions of another, as bytes. -/
def gatherBits (v n : Nat) (f : Nat → Nat) : List Byte :=
  (List.range n).map (fun k => BitVec.ofNat 8 ((List.range 8).foldr (fun b acc => 2 * acc + natBits v (f (8 * k + b)) 1) 0))

/-- A unit from element layout to bit planes: `rows` is 1 for VECTOR and 32 for SQUARE. -/
def splitUnit (w rows : Nat) (bs : List Byte) : List Byte :=
  gatherBits (leNat bs) bs.length (fun d => w * (d % (32 * rows)) + d / (32 * rows))

/-- A unit from bit planes back to element layout. -/
def mergeUnit (w rows : Nat) (bs : List Byte) : List Byte :=
  gatherBits (leNat bs) bs.length (fun m => 32 * rows * (m % w) + m / w)

/-- Transform pieces in order: each is read, changed and written; a source that cannot be read fails the descriptor. -/
def hwPieces (ch n : Nat) (src dst : Nat → Nat) (f : List Byte → List Byte) : Nat → Nat → State → HrwRun → State
  | 0, _, s, r => s.hwMoved ch r
  | k + 1, u, s, r =>
    match s.read (chEng ch) (src u) n with
    | (t, none) => t.hrwFail ch r 7 (fabricAddr t.chip (s.failAddr (src u) n))
    | (t, some bs) =>
      hwPieces ch n src dst f k (u + 1) ((t.write (chEng ch) (dst u) (f bs)).count (chCnt ch 0) n) (r.wrote n)

/-- SRC and DST of a local descriptor. -/
def hwSrc (c : QCmd) : Nat := c.u 8 8 % 2 ^ 48
def hwDst (c : QCmd) : Nat := c.u 16 8 % 2 ^ 48

/-- SPLIT (R456). -/
def execSplit (ch : Chan) (s : State) : Out :=
  hwRun ch 3 s (fun r t =>
    let c := r.cmd
    hwPieces ch.val (hwUnit c) (fun u => hwSrc c + u * hwSstride c) (fun u => hwDst c + u * hwDstride c)
      (splitUnit (fmtBits (hwFmt c)) (if c.b 32 4 1 = 1 then 32 else 1)) (hwLen c) 0 t r)

/-- MERGE (R456). -/
def execMerge (ch : Chan) (s : State) : Out :=
  hwRun ch 4 s (fun r t =>
    let c := r.cmd
    hwPieces ch.val (hwUnit c) (fun u => hwSrc c + u * hwSstride c) (fun u => hwDst c + u * hwDstride c)
      (mergeUnit (fmtBits (hwFmt c)) (if c.b 32 4 1 = 1 then 32 else 1)) (hwLen c) 0 t r)

/-- The two places of element u of an interleaving: in its stream and in the joined tensor (R458). -/
def ilvStream (c : QCmd) (base u : Nat) : Nat := base + u % hwWays c * hwKstride c + u / hwWays c * hwElem c
def ilvJoined (c : QCmd) (base u : Nat) : Nat := base + u * hwElem c

/-- ILV (R458). -/
def execIlv (ch : Chan) (s : State) : Out :=
  hwRun ch 5 s (fun r t =>
    let c := r.cmd
    hwPieces ch.val (hwElem c) (ilvStream c (hwSrc c)) (ilvJoined c (hwDst c)) (fun b => b) (hwLen c * hwWays c) 0 t r)

/-- DILV (R458). -/
def execDilv (ch : Chan) (s : State) : Out :=
  hwRun ch 6 s (fun r t =>
    let c := r.cmd
    hwPieces ch.val (hwElem c) (ilvJoined c (hwSrc c)) (ilvStream c (hwDst c)) (fun b => b) (hwLen c * hwWays c) 0 t r)

-- Sparse packing (R387 to R391, R459, R460).

/-- The entries of block b of a row: position within the row and mantissa. -/
def blockEntries (w : Nat) (body : List Byte) (blk b code : Nat) : List (Nat × Nat) :=
  if code = 0 then []
  else
    let v := leNat ((body.drop (blk * 4 * w)).take (4 * w))
    ((List.range 32).map (fun j => (32 * b + j, (List.range w).foldr (fun p acc => 2 * acc + natBits v (32 * p + j) 1) 0))).filter
      (fun e => decide (e.2 ≠ 0))

/-- A row of a dense tile: per block its exponent code and entries. -/
def tileRow (w kgrp nrows : Nat) (body : List Byte) (r : Nat) : List (Nat × List (Nat × Nat)) :=
  (List.range kgrp).map (fun b =>
    let blk := r * kgrp + b
    let code := (body.getD (nrows * kgrp * 4 * w + blk) 0).toNat
    (code, blockEntries w body blk b code))

/-- Pad to a multiple of 4 bytes. -/
def pad4 (bs : List Byte) : List Byte := bs ++ List.replicate ((4 - bs.length % 4) % 4) 0

def rowEntries (row : List (Nat × List (Nat × Nat))) : List (Nat × Nat) := (row.map (fun b => b.2)).flatten
def rowCodes (row : List (Nat × List (Nat × Nat))) : List Byte :=
  (row.filter (fun b => !b.2.isEmpty)).map (fun b => BitVec.ofNat 8 b.1)

/-- A bitmap-32 record (R388). -/
def bitmapRow (w : Nat) (row : List (Nat × List (Nat × Nat))) : List Byte :=
  pad4 ((row.map (fun b => leBytes 4 ((b.2.map (fun e => 2 ^ (e.1 % 32))).sum))).flatten ++ rowCodes row ++
    packElems w ((rowEntries row).map (fun e => e.2)))

/-- A chunk of a row that has entries (R389). -/
def chunkRow (w r : Nat) (row : List (Nat × List (Nat × Nat))) : List Byte :=
  let es := rowEntries row
  if es.isEmpty then []
  else
    let emask := row.foldr (fun b acc => 2 * acc + (!b.2.isEmpty).toNat) 0
    pad4 (leBytes 2 r ++ leBytes 1 (es.length - 1) ++ leBytes 1 emask ++ rowCodes row ++ es.map (fun e => BitVec.ofNat 8 e.1) ++
      packElems w (es.map (fun e => e.2)))

/-- The dense form without blocks that hold no entry (R460). -/
def denseForm (w : Nat) (body : List Byte) (rows : List (List (Nat × List (Nat × Nat)))) : List Byte :=
  let blocks := rows.flatten
  ((List.range blocks.length).map (fun i =>
    if (blocks.getD i (0, [])).2.isEmpty then List.replicate (4 * w) 0 else (body.drop (i * 4 * w)).take (4 * w))).flatten ++
    blocks.map (fun b => if b.2.isEmpty then 0 else BitVec.ofNat 8 b.1)

/-- The tile that SPACK writes: its header, its body and whether it is raw (R385, R391, R460). -/
def packTile (c : QCmd) (body : List Byte) : List Byte × List Byte × Bool :=
  let w := fmtBits (hwFmt c)
  let n := hwNrows c
  let rows := (List.range n).map (tileRow w (hwKgrp c) n body)
  let bitmap := (rows.map (bitmapRow w)).flatten
  let csr := ((List.range n).map (fun r => chunkRow w r (rows.getD r []))).flatten
  let kind := if hwKreq c = 3 then (if bitmap.length ≤ csr.length then 1 else 2) else hwKreq c
  let b := if kind = 1 then bitmap else csr
  let raw := decide (b.length > denseSize n (hwKgrp c) w)
  let out := if raw then denseForm w body rows else b
  let nnz := (rows.map (fun r => (rowEntries r).length)).sum
  (leBytes 1 (kind + raw.toNat * 4 + c.b 32 4 1 * 8 + hwFmt c * 16) ++ leBytes 1 (hwKgrp c) ++ leBytes 2 n ++ leBytes 4 nnz ++
    leBytes 4 out.length ++ leBytes 4 (c.u 36 4), out, raw)

/-- Read a range twice, as the two passes of SPACK do (R460). -/
def State.readTwice (s : State) (src a n : Nat) : State × Option (List Byte) :=
  match s.read src a n with
  | (t, none) => (t, none)
  | (t, some _) => t.read src a n

/-- SPACK (R459, R460): the body first, the header last. -/
def execSpack (ch : Chan) (s : State) : Out :=
  hwRun ch 7 s (fun r t =>
    let c := r.cmd
    let size := denseSize (hwNrows c) (hwKgrp c) (fmtBits (hwFmt c))
    match t.readTwice (chEng ch.val) (hwSrc c) size with
    | (u, none) => u.hrwFail ch.val r 7 (fabricAddr u.chip (t.failAddr (hwSrc c) size))
    | (u, some body) =>
      let (head, out, raw) := packTile c body
      let v := ((u.write (chEng ch.val) (hwDst c + 16) out).write (chEng ch.val) (hwDst c) head).count (chCnt ch.val 0) (16 + out.length)
      let x := if raw then v.count (chCnt ch.val 5) 1 else v
      x.hwMoved ch.val { (r.wrote (16 + out.length)) with result := BitVec.ofNat 32 (16 + out.length) })

-- Completion (R449, R461).

/-- A pass to a channel: its baton rises, or overflows with an error bit and a job fault. -/
def State.passBaton (s : State) (ch : Nat) : State :=
  let x := s.chan ch
  if x.baton = 65535 then
    let t := s.setBit (chErr ch) 8
    t.jobFault (chEng ch) ((t.reg (chErr ch)).toNat % 2 ^ 32) 0 0
  else s.setChan ch { x with baton := x.baton + 1 }

/-- HRW_DESC_COMPLETE (R461): write-back, pass, signal. -/
def execHrwDescComplete (ch : Chan) (s : State) : Out :=
  match (s.chan ch.val).running with
  | none => stutter s
  | some r =>
    if ¬ r.moved then stutter s
    else
      let s1 := ((s.paceEnds ch.val).setChan ch.val { s.chan ch.val with running := none }).hrwBack ch.val r 1 r.result.toNat
      let s2 := if hwFlag r.cmd 0 then s1.passBaton (r.cmd.u 30 1) else s1
      .next ((s2.count (chCnt ch.val 1) 1).finishCmd (chEng ch.val) r.cmd)

-- Channel reset (R469).

/-- A channel's descriptor is abandoned, its queue emptied, its baton 0. -/
def State.emptyChan (s : State) (ch : Chan) : State :=
  let e := chEng ch.val
  let g := s.eng e
  let x := s.chan ch.val
  let keep := g.cmds.filter (fun c => hwChan c != ch.val % 4)
  let lost := x.running.isSome || decide (keep.length < g.cmds.length)
  let g1 := { g with cmds := keep, stuck := g.stuck || (lost && g.running.isSome),
                     inFlight := if x.running.isSome then g.inFlight - 1 else g.inFlight }
  ((s.setEng e g1).setChan ch.val { accesses := x.accesses }).withdraw (chStrip ch.val) (.channel ch)

/-- Reset a channel (R469); its counters of time take what was under way. -/
def State.resetChan (s : State) (ch : Chan) : State := ((s.waitEnds ch.val).paceEnds ch.val).emptyChan ch

/-- A channel is idle (R656). -/
def State.chanQuiet (s : State) (c : Nat) : Bool := (s.chan c).running.isNone

/-- Begin the handshake of R587 for a channel, if none of it is under way: an idle channel is reset at once. -/
def State.beginChReset (s : State) (ch : Chan) : State :=
  if s.closed 4 ch.val then s
  else if s.chanQuiet ch.val then
    let t := (s.resetChan ch).setFld rstBlockStatus 1 1 0
    { t with chResets := t.chResets ++ [(ch, true)] }
  else { s with chResets := s.chResets ++ [(ch, false)] }

/-- A write to HRW_RESET resets the channels whose bits are 1, each by the handshake of R587 (R468, R476). -/
def State.hrwResetSet (s : State) (st : Strip) (v : Word) : State :=
  ([0, 1, 2, 3] : List (Fin 4)).foldl (fun t c =>
    if v.getLsbD c.val then t.beginChReset ⟨4 * st.val + c.val, by omega⟩ else t) s

/-- HRW_CHANNEL_RESET: a write to HRW_RESET. -/
def execHrwChannelReset (st : Strip) (v : Word) (s : State) : Out := .next (s.hrwResetSet st v)

end Sys2Proof.Machine
end

