-- ==== Sys2Proof/Machine/Reduce.lean ====
section
/-!
DEFINITION. In-network reduction (R507 to R514) and the fold of the amax records (R107). The bytes of a staging bank are laid
out as a dense buffer is: COUNT at 12, MAG at 16, sums from 64; for an RNORM, NSUM at 32 and the RUN values from 64. Whether a
RID's banks hold the one or the other is what the command or the loaded image uses it for (log entry 15).
-/

namespace Sys2Proof.Machine
open Sys2Proof

-- Fields (R507 to R510).

def rdRid (c : QCmd) : Nat := c.u 24 2
def rdTree (c : QCmd) : Nat := c.b 26 0 3
def rdNorm (c : QCmd) : Bool := c.b 26 3 1 = 1

/-- The address of a RID's table entry. -/
def ridAddr (s : State) (rid : Nat) : Nat := s.fld spxRidtab 0 48 + 16 * rid
def ridStage (s : State) (rid : Nat) : Nat := s.viewNat (ridAddr s rid) 6
def ridElems (s : State) (rid : Nat) : Nat := s.viewNat (ridAddr s rid + 8) 4
def ridG (s : State) (rid : Nat) : Int := toSigned 16 (s.viewNat (ridAddr s rid + 12) 2)
/-- A staging bank's address (R508). -/
def bankAddr (s : State) (rid b : Nat) : Nat := ridStage s rid + b * (64 + 8 * ridElems s rid)

def treeParent (s : State) (t : Nat) : Nat := s.fld (spxRtree t) 0 5
def treeRoot (s : State) (t : Nat) : Bool := s.bit (spxRtree t) 5
def treeChildren (s : State) (t : Nat) : Nat := s.fld (spxRtree t) 32 32

/-- The number of the last chunk of a command (R510). -/
def lastChunk (s : State) (c : QCmd) : Nat := if c.op = 1 then ceilDiv (ridElems s (rdRid c)) 28 else ceilDiv (ridElems s (rdRid c)) 56

-- Halting (R514).

def State.haltRed (s : State) : State := { s with red := { s.red with halted := true, running := none } }.stickEng engRed

/-- A job fault of the reduction engine. -/
def State.redFault (s : State) (tag : Nat) : State := s.jobFault engRed ((s.reg spxErr).toNat % 2 ^ 32) 0 tag

def State.redStop (s : State) (c : QCmd) (b : Nat) : State :=
  let s1 := s.setBit spxErr b
  let first := match s1.red.errTag with
    | some t => some t
    | none => some (BitVec.ofNat 32 c.tag)
  (({ s1 with red := { s1.red with errTag := first } }).haltRed).redFault c.tag

/-- A refused command. -/
def State.redRefuse (s : State) (c : QCmd) : State := s.redStop c 2

/-- An uncorrectable error that no running command has met halts the engine too. -/
def State.redMem (s : State) : State := ((s.setBit spxErr 4).haltRed).redFault 0

/-- The RID table entry of a command or chunk as a range to read, where it lies in reach. -/
def ridRange (s : State) (rid : Nat) : List (Nat × Nat) := if jobReach (ridAddr s rid) 16 then [(ridAddr s rid, 16)] else []

-- Amax records (R105 to R107).

/-- Fold a fabric maximum into an amax record's 80 bytes (R107). -/
def foldRecord (bs : List Byte) (run : Nat) : List Byte :=
  let hb := msgNat bs 64 1
  let head := hb % 16
  let hist := bs.take (4 * head) ++ leBytes 4 run ++ (bs.drop (4 * head + 4)).take (60 - 4 * head)
  let h := largestFinite ((List.range 16).map (fun i => f32 (msgNat hist (4 * i) 4)))
  let k := scaleFor h (msgNat bs 67 1 % 16) (msgNat bs 66 1 % 4)
  hist ++ leBytes 1 (hb - head + (head + 1) % 16) ++ leBytes 1 (ofSigned 8 k) ++ (bs.drop 66).take 2 ++ leBytes 4 0 ++ bs.drop 72

-- Chunks (R510, R511).

/-- Send a chunk to a link neighbour. -/
def State.chunkSend (s : State) (p typ : Nat) (c : QCmd) (chunk : Nat) (data : List Byte) : State :=
  let q := s.port p
  if q.st ≠ .up then s.count (spxCnt p 6) 1
  else
    s.portSend 32 p (mkMsg 1 typ q.nbrChip.toNat false
      (leBytes 2 (rdTree c) ++ leBytes 2 (rdRid c) ++ leBytes 4 c.step.toNat ++ leBytes 4 chunk ++ leBytes 4 0 ++ data))

/-- Where a chunk lies in a bank, and its bytes. -/
def chunkSpan (s : State) (c : QCmd) (chunk : Nat) : Nat × Nat :=
  let n := ridElems s (rdRid c)
  if c.op = 1 then
    if chunk < lastChunk s c then (64 + 224 * chunk, 8 * min 28 (n - 28 * chunk)) else (12, 12)
  else if chunk = 0 then (32, 16)
  else (64 + 224 * (chunk - 1), 4 * min 56 (n - 56 * (chunk - 1)))

/-- The bytes of a chunk as a message carries them: the summary has MAG before COUNT. -/
def toWire (s : State) (c : QCmd) (chunk : Nat) (bs : List Byte) : List Byte :=
  if c.op = 1 ∧ chunk = lastChunk s c then (bs.drop 4).take 8 ++ bs.take 4 else bs

/-- Combine two values of a chunk, in the layout of a bank. -/
def combineChunk (s : State) (c : QCmd) (chunk : Nat) (a b : List Byte) : List Byte :=
  if c.op = 1 then
    if chunk < lastChunk s c then
      ((List.range (a.length / 8)).map (fun i => leBytes 8 ((msgNat a (8 * i) 8 + msgNat b (8 * i) 8) % 2 ^ 64))).flatten
    else leBytes 4 (satAdd 32 (msgNat a 0 4) (msgNat b 0 4)) ++ leBytes 8 (satAdd 64 (msgNat a 4 8) (msgNat b 4 8))
  else if chunk = 0 then leBytes 16 (satAdd 128 (msgNat a 0 16) (msgNat b 0 16))
  else ((List.range (a.length / 4)).map (fun i => leBytes 4 (max (msgNat a (4 * i) 4) (msgNat b (4 * i) 4)))).flatten

/-- The bytes of a chunk from a message's data, in the layout of a bank. -/
def fromWire (s : State) (c : QCmd) (chunk : Nat) (data : List Byte) : List Byte :=
  let n := (chunkSpan s c chunk).2
  let bs := padTo n data
  if c.op = 1 ∧ chunk = lastChunk s c then (bs.drop 8).take 4 ++ bs.take 8 else bs.take n

def redKey (c : QCmd) : Nat := 2 * rdRid c + c.step.toNat % 2
def State.redBank (s : State) (c : QCmd) : RedBank := Tab.get s.red.banks ⟨c.step, BitVec.ofNat 3 (rdTree c), []⟩ (redKey c)
def State.redMask (s : State) (c : QCmd) (chunk : Nat) : BitVec 35 := Tab.get (s.redBank c).masks 0 chunk
def State.markChunk (s : State) (c : QCmd) (chunk b : Nat) : State :=
  let x := s.redBank c
  let m := Tab.get x.masks 0 chunk ||| BitVec.ofNat 35 (2 ^ b)
  { s with red := { s.red with banks := Tab.put s.red.banks (redKey c) { x with masks := Tab.put x.masks chunk m } } }

/-- Add a contribution to a chunk of the bank; the flag is false on an uncorrectable error in the bank. A bank to which nothing
has been added since it was last cleared, or since the engine's reset, holds 0. -/
def State.addChunk (s : State) (c : QCmd) (chunk from_ : Nat) (data : List Byte) : State × Bool :=
  let (o, n) := chunkSpan s c chunk
  let a := bankAddr s (rdRid c) (c.step.toNat % 2) + o
  match s.read engRed a n with
  | (t, none) => (t, false)
  | (t, some bs) =>
    let old := if t.redMask c chunk = 0 then List.replicate n 0 else bs
    ((t.write engRed a (combineChunk t c chunk old data)).markChunk c chunk from_, true)

/-- A chunk has every child's contribution and the local one, and has not gone on. -/
def State.chunkReady (s : State) (c : QCmd) (chunk : Nat) : Bool :=
  let m := (s.redMask c chunk).toNat
  let need := treeChildren s (rdTree c) + 2 ^ 32
  m &&& need == need && m / 2 ^ 33 % 2 == 0

/-- A final chunk: it is written into the node's buffer, which then carries the step, and goes to the children (R511). For an
RNORM it replaces the bank's values. -/
def State.finalChunk (s : State) (c : QCmd) (chunk : Nat) (bs : List Byte) : State :=
  let (o, _) := chunkSpan s c chunk
  let s1 := if c.op = 1 then (s.write engRed (c.a 8 + o) bs).writeNat engRed (c.a 8 + 8) 4 c.step.toNat
    else s.write engRed (bankAddr s (rdRid c) (c.step.toNat % 2) + o) bs
  let s2 := (maskPorts (treeChildren s (rdTree c))).foldl (fun t p => t.chunkSend p 0x12 c chunk (toWire s c chunk bs)) s1
  (s2.markChunk c chunk 33).markChunk c chunk 34

/-- Pass on a chunk that is ready: to the parent, or at the root as final (R511). -/
def State.passChunk (s : State) (c : QCmd) (chunk : Nat) : State × Bool :=
  if ¬ s.chunkReady c chunk then (s, true)
  else
    let (o, n) := chunkSpan s c chunk
    match s.read engRed (bankAddr s (rdRid c) (c.step.toNat % 2) + o) n with
    | (t, none) => (t, false)
    | (t, some bs) =>
      if treeRoot t (rdTree c) then (t.finalChunk c chunk bs, true)
      else ((t.chunkSend (treeParent t (rdTree c)) 0x11 c chunk (toWire t c chunk bs)).markChunk c chunk 33, true)

/-- Clear the bank of a command (R511). -/
def State.clearBank (s : State) (c : QCmd) : State :=
  let t := s.wipe engRed (bankAddr s (rdRid c) (c.step.toNat % 2)) (64 + 8 * ridElems s (rdRid c))
  { t with red := { t.red with banks := Tab.drop t.red.banks (redKey c), running := none } }

/-- Deliver an RDENSE (R512); no state on an uncorrectable error in the buffer. -/
def State.deliverDense (s : State) (c : QCmd) : State × Bool :=
  let n := ridElems s (rdRid c)
  match s.read engRed (c.a 8) (64 + 8 * n) with
  | (t, none) => (t, false)
  | (t, some bs) =>
    let g := ridG t (rdRid c)
    let sums := (List.range n).map (fun i => toSigned 64 (msgNat bs (64 + 8 * i) 8))
    if msgNat bs 16 8 < 2 ^ 63 then
      let out := (sums.map (fun v => leBytes 4 (encEl 0 none false (.fin false ((Ex.ofInt v).scale g))).1)).flatten
      let u := t.write engRed (c.a 16) out
      (if treeRoot u (rdTree c) ∧ rdNorm c then u.addNsum ((sums.map (fun v => normTerm v g u.nanchor)).sum) else u, true)
    else
      let u := (t.write engRed (c.a 16) (List.replicate (4 * n) 0)).count (shfCnt (bufEngine (c.a 8)) 4) 1
      (if u.bit shfCtrl 48 then u.redFault c.tag else u, true)

/-- Fold each site's maximum into its record (R513). -/
def foldSites (c : QCmd) (bank : Nat) : Nat → Nat → State → State × Bool
  | 0, _, s => (s, true)
  | k + 1, i, s =>
    match s.touch engRed [(c.a 8 + 8 * i, 8), (bank + 64 + 4 * i, 4)] with
    | (t, false) => (t, false)
    | (t, true) =>
      let a := t.viewNat (c.a 8 + 8 * i) 6
      match t.read engRed a 80 with
      | (u, none) => (u, false)
      | (u, some bs) => foldSites c bank k (i + 1) (u.write engRed a (foldRecord bs (u.viewNat (bank + 64 + 4 * i) 4)))

/-- Deliver an RNORM (R513). -/
def State.deliverNorm (s : State) (c : QCmd) : State × Bool :=
  let a := bankAddr s (rdRid c) (c.step.toNat % 2)
  match s.read engRed (a + 32) 16 with
  | (t, none) => (t, false)
  | (t, some bs) => foldSites c a (ridElems t (rdRid c)) 0 (t.deliverGnsum c.step (leNat bs))

/-- Header fields of a chunk message. -/
def chTree (bs : List Byte) : Nat := msgNat bs 0 1 % 8
def chRid (bs : List Byte) : Nat := msgNat bs 2 2
def chStep (bs : List Byte) : Nat := msgNat bs 4 4
def chChunk (bs : List Byte) : Nat := msgNat bs 8 4

/-- The command that a chunk belongs to, as far as the chunk tells, for a RID of a given use. -/
def chunkCmd (op : Nat) (bs : List Byte) : QCmd :=
  { addr := 0, word := BitVec.ofNat 512 (op + chRid bs * 2 ^ 192 + chTree bs * 2 ^ 208), core := 0, modeF := false,
    step := BitVec.ofNat 32 (chStep bs), parcel := 0, phase := false, direct := false }

/-- The bank that a command or a chunk needs still holds another step (R511). -/
def State.redBusy (s : State) (c : QCmd) : Bool :=
  match Tab.look s.red.banks (redKey c) with
  | none => false
  | some x => x.step != c.step

/-- A chunk belongs to the running command. -/
def chunkFits (c : QCmd) (bs : List Byte) : Bool :=
  c.op != 0 && chRid bs == rdRid c && chStep bs == c.step.toNat && chTree bs == rdTree c

/-- Discard a chunk (R511). -/
def State.badChunk (s : State) : State := s.setBit spxErr 3

/-- Add one child chunk to the running command's bank; the flag says that the bank could be read. -/
def State.takeChunk (s : State) (c : QCmd) (p : Nat) (bs : List Byte) : State × Bool :=
  let k := chChunk bs
  if k > lastChunk s c ∨ (s.redMask c k).getLsbD p then (s.badChunk, true)
  else s.addChunk c k p (fromWire s c k (bs.drop 16))

/-- The running command, if a chunk belongs to it. -/
def State.chunkRun (s : State) (bs : List Byte) : Option QCmd := s.red.running.filter (fun c => chunkFits c bs)

/-- What the banks of a chunk's RID hold: as the running command it belongs to says, else as the image uses the RID, and as an
RDENSE where that tells nothing (log entry 15). -/
def State.chunkOp (s : State) (bs : List Byte) : Nat :=
  match s.chunkRun bs with
  | some c => c.op
  | none => Tab.get s.red.layouts 1 (chRid bs)

/-- The staging banks of a RID lie where a job reaches (R404). -/
def stageReach (s : State) (rid : Nat) : Bool := jobReach (ridStage s rid) (2 * (64 + 8 * ridElems s rid))

/-- A chunk adds into its bank, unless the bank still holds another step: then it waits in the arrival queue (R511). One whose
bank no early chunk reaches is discarded (R404). The flag is false on an uncorrectable error in the bank. -/
def State.admitChunk (s : State) (p : Port) (g : Flit) : State × Bool :=
  let c := chunkCmd (s.chunkOp g.payload) g.payload
  if (s.chunkRun g.payload).isNone ∧ ¬ stageReach s (chRid g.payload) then (s.badChunk, true)
  else if s.redBusy c then ({ s with red := { s.red with queue := s.red.queue ++ [(p, g)] } }, true)
  else s.takeChunk c p.val g.payload

/-- The chunks of the arrival queue are tried again, oldest first. -/
def admitAll : List (Port × Flit) → State → State × Bool
  | [], s => (s, true)
  | x :: r, s =>
    match s.admitChunk x.1 x.2 with
    | (t, true) => admitAll r t
    | (t, false) => (t, false)

def State.admitQueue (s : State) : State × Bool :=
  admitAll s.red.queue { s with red := { s.red with queue := [] } }

/-- Complete the running command once every chunk has its final value (R511); the cleared bank takes the chunks that waited
for it. -/
def State.redFinish (s : State) (c : QCmd) : State :=
  if (List.range (lastChunk s c + 1)).all (fun k => (s.redMask c k).getLsbD 34) then
    match (if c.op = 1 then s.deliverDense c else s.deliverNorm c) with
    | (t, true) =>
      match (t.clearBank c).admitQueue with
      | (u, true) => u.finishCmd engRed c
      | (u, false) => (u.finishCmd engRed c).redMem
    | (t, false) => t.redStop c 4
  else s

/-- Pass on every chunk of a list that is ready, then complete if all is done. -/
def redPass (c : QCmd) : List Nat → State → State
  | [], s => s.redFinish c
  | k :: r, s =>
    match s.passChunk c k with
    | (t, true) => redPass c r t
    | (t, false) => t.redStop c 4

/-- RUP (R511): a chunk from a child. -/
def execRup (p : Port) (f : Flit) (s : State) : Out :=
  match s.rx p.val 1 0x11 [f] with
  | .unfit => stutter s
  | .taken t => .next t
  | .msg t0 g bs =>
    let rid := chRid bs
    let (t, ok) := t0.touch engRed (if rid ≤ 255 then ridRange t0 rid else [])
    if ¬ ok then .next t.redMem
    else if rid > 255 ∨ ridElems t rid = 0 ∨ ridElems t rid > 65536 ∨ treeChildren t (chTree bs) / 2 ^ p.val % 2 = 0 then .next t.badChunk
    else
      match t.admitChunk p g, t.red.running with
      | (u, true), some c => .next (if chunkFits c bs then redPass c [chChunk bs] u else u)
      | (u, true), none => .next u
      | (u, false), some c => .next (u.redStop c 4)
      | (u, false), none => .next u.redMem

/-- RDOWN (R511): a final chunk from the parent. -/
def execRdown (p : Port) (f : Flit) (s : State) : Out :=
  match s.rx p.val 1 0x12 [f] with
  | .unfit => stutter s
  | .taken t => .next t
  | .msg t _ bs =>
    let tr := chTree bs
    if treeRoot t tr ∨ treeParent t tr ≠ p.val then .next t.badChunk
    else
      match t.red.running with
      | none => .next t.badChunk
      | some c =>
        if ¬ chunkFits c bs ∨ chChunk bs > lastChunk t c then .next t.badChunk
        else .next ((t.finalChunk c (chChunk bs) (fromWire t c (chChunk bs) (bs.drop 16))).redFinish c)

-- Commands (R509).

/-- Run the engine's first command once its gate passes, if it has the given code. -/
def redRun (op : Nat) (s : State) (body : QCmd → State → Out) : Out :=
  match s.headCmd engRed with
  | none => stutter s
  | some c =>
    if s.red.halted then .next ((s.takeCmd engRed).loseCmd engRed)
    else if s.red.running.isSome then stutter s
    else if c.op > 2 then .next ((s.takeCmd engRed).redRefuse c)
    else if c.op ≠ op then stutter s
    else
      match s.gateCmd engRed c with
      | (t, false) => .next t
      | (t, true) =>
        if c.badSig ∨ (48 ≤ c.gateCtr ∧ c.gateCtr ≤ 62) then .next ((t.takeCmd engRed).redRefuse c) else body c t

/-- RED_NOP. -/
def execRedNop (s : State) : Out := redRun 0 s (fun c t => .next ((t.takeCmd engRed).finishCmd engRed c))

/-- A port that the tree names is not UP (R509). -/
def treePortsUp (s : State) (t : Nat) : Bool :=
  (maskPorts (treeChildren s t)).all (fun p => (s.port p).st == .up) &&
    (treeRoot s t || (s.port (treeParent s t)).st == .up)

/-- Addresses of a command within the reach of R452. -/
def redReach (c : QCmd) (a n : Nat) : Bool := hwReach c.modeF a n

/-- An RDENSE may run (R509). -/
def denseFits (s : State) (c : QCmd) : Bool :=
  let n := ridElems s (rdRid c)
  let d := denseOf (s.views (c.a 8) 64)
  decide (rdRid c ≤ 255) && decide (1 ≤ n) && decide (n ≤ 65536) && decide (c.a 8 % 64 = 0) && redReach c (c.a 8) (64 + 8 * n) &&
    decide (d.elems = n) && decide (d.g = ridG s (rdRid c)) && decide (c.a 16 % 16 = 0) && sramReach (c.a 16) (4 * n) &&
    redReach c (ridStage s (rdRid c)) (2 * (64 + 8 * n)) && treePortsUp s (rdTree c)

/-- An RNORM may run (R509). -/
def normFits (s : State) (c : QCmd) : Bool :=
  let n := ridElems s (rdRid c)
  decide (rdRid c ≤ 255) && decide (1 ≤ n) && decide (n ≤ 1024) && decide (c.a 8 % 8 = 0) && redReach c (c.a 8) (8 * n) &&
    redReach c (ridStage s (rdRid c)) (2 * (64 + 8 * n)) && treePortsUp s (rdTree c) &&
    (List.range n).all (fun i =>
      let a := s.viewNat (c.a 8 + 8 * i) 6
      let t := s.viewNat (a + 67) 1 % 16
      decide (a % 16 = 0) && redReach c a 80 && decide (2 ≤ t) && decide (t ≤ 4))

/-- The local contribution to a chunk, in the layout of a bank, from the bytes of the buffer or of the RUN values. -/
def localChunk (s : State) (c : QCmd) (src : List Byte) (chunk : Nat) : List Byte :=
  let (o, n) := chunkSpan s c chunk
  padTo n ((src.drop o).take n)

/-- Add the local contribution to the chunks in turn. -/
def addLocal (c : QCmd) (src : List Byte) : List Nat → State → State × Bool
  | [], s => (s, true)
  | k :: r, s =>
    match s.addChunk c k 32 (localChunk s c src k) with
    | (t, true) => addLocal c src r t
    | (t, false) => (t, false)

/-- The command starts: the local contribution joins the bank, waiting chunks are added, and ready chunks go on. -/
def State.redStart (s : State) (c : QCmd) (src : List Byte) : State :=
  let s1 := { s with red := { s.red with running := some c } }
  let ks := List.range (lastChunk s1 c + 1)
  match addLocal c src ks s1 with
  | (t, false) => t.redStop c 4
  | (t, true) =>
    match t.admitQueue with
    | (u, false) => u.redStop c 4
    | (u, true) => redPass c ks u

/-- RDENSE (R511, R512). -/
def execRdense (s : State) : Out :=
  redRun 1 s (fun c t =>
    if t.redBusy c then stutter t
    else
      let (u, ok) := (t.takeCmd engRed).touch engRed
        (ridRange t (rdRid c) ++ (if redReach c (c.a 8) 64 then [(c.a 8, 64)] else []))
      if ¬ ok then .next (u.redStop c 4)
      else if ¬ denseFits u c then .next (u.redRefuse c)
      else
        match u.read engRed (c.a 8) (64 + 8 * ridElems u (rdRid c)) with
        | (v, none) => .next (v.redStop c 4)
        | (v, some bs) => .next (v.redStart c (if msgNat bs 8 4 = c.step.toNat then bs else [])))

/-- The RUN values of the listed records. -/
def readRuns (c : QCmd) : Nat → Nat → State → List Byte → State × Option (List Byte)
  | 0, _, s, acc => (s, some acc)
  | k + 1, i, s, acc =>
    match s.read engRed (s.viewNat (c.a 8 + 8 * i) 6 + 68) 4 with
    | (t, none) => (t, none)
    | (t, some bs) => readRuns c k (i + 1) t (acc ++ bs)

/-- What the checks of an RNORM read: the list, and byte 67 of each listed record. -/
def normRanges (s : State) (c : QCmd) : List (Nat × Nat) :=
  let n := ridElems s (rdRid c)
  if n ≤ 1024 ∧ redReach c (c.a 8) (8 * n) then
    (c.a 8, 8 * n) :: ((List.range n).map (fun i => (s.viewNat (c.a 8 + 8 * i) 6 + 67, 1))).filter (fun x => redReach c x.1 x.2)
  else []

/-- RNORM (R511, R513). -/
def execRnorm (s : State) : Out :=
  redRun 2 s (fun c t =>
    if t.redBusy c then stutter t
    else
      let (u, ok) := (t.takeCmd engRed).touch engRed (ridRange t (rdRid c) ++ normRanges t c)
      if ¬ ok then .next (u.redStop c 4)
      else if ¬ normFits u c then .next (u.redRefuse c)
      else
        match readRuns c (ridElems u (rdRid c)) 0 u [] with
        | (v, none) => .next (v.redStop c 4)
        | (v, some runs) => .next (v.redStart c (List.replicate 32 0 ++ leBytes 16 v.nsum ++ List.replicate 16 0 ++ runs)))

/-- Reset the reduction engine (R514, R618): its error bits and the TAG of its first refusal stay. -/
def State.resetRed (s : State) : State := { s with red := { errTag := s.red.errTag, layouts := s.red.layouts } }

/-- Clear both staging banks of every RID (R508). -/
def State.clearStaging (s : State) : State :=
  (List.range 256).foldl (fun t rid =>
    let n := ridElems t rid
    if n = 0 ∨ n > 65536 ∨ ¬ stageReach t rid then t
    else t.wipe engRed (ridStage t rid) (2 * (64 + 8 * n))) s

end Sys2Proof.Machine
end

