-- ==== Sys2Proof/Machine/Ports.lean ====
section
/-!
DEFINITION. Septax ports (chapter 13): the port states, HELLO, the delay exchange, forwarding, remote memory access and
the member-state transfer that a port which comes UP may start.
-/

namespace Sys2Proof.Machine
open Sys2Proof

-- Port control and training (R478 to R481, R527).

/-- A port enters TRAIN with its lasers on. -/
def State.trainPort (s : State) (p : Nat) : State := s.setPort p ((s.port p).anew .train)

/-- The link policy of the running seed image enables a port (R479). -/
def State.policyAllows (s : State) (p : Nat) : Bool := s.stile.image.portEn.getLsbD p

/-- The EN bit of a write: 1 enables a port that the policy enables and is otherwise ignored with POLICY set; 0 turns an
enabled port OFF (R479, R480). -/
def State.portEnSet (s : State) (p : Nat) (en : Bool) : State :=
  if en then
    if s.policyAllows p then
      let t := s.setBit (spxPortCtrl p) 0
      if (t.port p).st = .off ∧ ¬ t.linksDark then t.trainPort p else t
    else s.setBit (spxPortErr p) 7
  else if s.bit (spxPortCtrl p) 0 then ((s.clrBit (spxPortCtrl p) 0).fencePort p).offPort p
  else s

/-- A write of SPX_PORT_CTRL: DIR, EN, then FENCE and UNFENCE (R479, R480, R522, R527). -/
def State.portCtrlSet (s : State) (p : Nat) (v : Word) : State :=
  let s1 := s.setFld (spxPortCtrl p) 1 1 (natBits v.toNat 1 1)
  let s2 := s1.portEnSet p (v.getLsbD 0)
  let s3 := if v.getLsbD 2 ∧ (s2.port p).st ≠ .off ∧ (s2.port p).st ≠ .fenced then s2.fencePort p else s2
  if v.getLsbD 3 ∧ (s3.port p).st = .fenced then s3.trainPort p else s3

/-- PORT_ENABLE: a write of SPX_PORT_CTRL that neither fences nor unfences. -/
def execPortEnable (p : Port) (v : Word) (s : State) : Out :=
  if v.getLsbD 2 ∨ v.getLsbD 3 then stutter s else .next (s.portCtrlSet p.val v)

/-- PORT_FENCE: a write of SPX_PORT_CTRL with FENCE 1. -/
def execPortFence (p : Port) (v : Word) (s : State) : Out :=
  if v.getLsbD 2 then .next (s.portCtrlSet p.val v) else stutter s

/-- PORT_UNFENCE: a write of SPX_PORT_CTRL with UNFENCE 1. -/
def execPortUnfence (p : Port) (v : Word) (s : State) : Out :=
  if v.getLsbD 3 then .next (s.portCtrlSet p.val v) else stutter s

/-- FEC_LOCK: a training port locks all four lanes and enters HELLO (R480). -/
def execFecLock (p : Port) (s : State) : Out :=
  let q := s.port p.val
  if q.st ≠ .train then stutter s
  else .next (s.setPort p.val { q.anew .hello with laneLock := 15 })

/-- TRAIN_RESTART: no FEC lock in 200 ms; TRAIN restarts and is counted (R480). -/
def execTrainRestart (p : Port) (s : State) : Out :=
  if (s.port p.val).st ≠ .train then stutter s else .next ((s.trainPort p.val).count (spxCnt p.val 7) 1)

-- The member-state transfer (R520).

/-- The 8 KiB member bitmap: bit j of byte i is chip 8i + j (R516). -/
def bitmapBytes (l : List Nat) : List Byte :=
  (List.range 8192).map (fun i =>
    BitVec.ofNat 8 ((l.filter (fun c => c / 8 = i)).foldl (fun v c => v ||| 2 ^ (c % 8)) 0))

/-- The role map as 4,096 holders (R627). -/
def State.holder (s : State) (r : Nat) : Nat := (Tab.get s.mems.roleMap 0xFFFF r).toNat
def State.roleBytes (s : State) : List Byte := ((List.range 4096).map (fun r => leBytes 2 (s.holder r))).flatten

/-- A BULK message (R612). -/
def bulkBytes (kind role step off : Nat) (data : List Byte) : List Byte :=
  leBytes 1 kind ++ leBytes 1 0 ++ leBytes 2 role ++ leBytes 4 step ++ leBytes 8 off ++ leBytes 4 data.length ++
    leBytes 4 (crc32c data).toNat ++ leBytes 8 0 ++ data

/-- The four messages of a member-state transfer go to a joining chip (R520). -/
def State.sendTransfer (s : State) (chip : BitVec 16) : State :=
  let data := bitmapBytes (s.mems.members.filter (fun c => !s.mems.leaving.contains c)) ++ s.roleBytes
  let s1 := { s with mems := { s.mems with transfer := some chip } }
  [0, 4096, 8192, 12288].foldl (fun t o =>
    t.send (mkMsg 3 0x35 chip.toNat false
      (bulkBytes 2 s.stkEpoch.toNat s.mems.mseq.toNat o ((data.drop o).take 4096)))) s1

/-- A chip that the master may bring in: the neighbour of a port that is UP, reached by a valid route, not a member
and not yet sent the member state. A module alone in its fabric waits for neighbours of lower chip ID (log entry 16). -/
def State.joiner (s : State) : Option (BitVec 16) :=
  if ¬ s.isMaster ∨ s.mems.transfer.isSome ∨ ¬ s.mems.scheduled.isEmpty ∨ s.linksDark then none
  else
    (List.range 32).findSome? (fun p =>
      let q := s.port p
      let c := q.nbrChip.toNat
      if q.st = .up ∧ ¬ s.mems.members.contains c ∧ (s.routeOut 3 c false).isSome ∧
          ¬ s.mems.transferDone.contains c ∧ (s.mems.members.length > 1 ∨ s.chip < c) then some q.nbrChip
      else none)

/-- The master starts the transfer to a joining chip, if there is one. -/
def State.offerMembership (s : State) : State :=
  match s.joiner with
  | none => s
  | some c => s.sendTransfer c

/-- A port comes UP: what waits for it leaves, and the master may bring a chip in. -/
def State.portUp (s : State) (p : Nat) : State := ((s.pumpPort p).linkBack (s.port p).nbrChip.toNat).offerMembership

-- HELLO (R481).

/-- The 32-byte payload of a HELLO of a port: this module's place, fabric tag and grants, and whether the peer is accepted. -/
def State.helloBytes (s : State) (p : Nat) : List Byte :=
  leBytes 2 s.chip ++ leBytes 1 p ++ leBytes 1 0 ++ leBytes 4 (s.fld spxId 16 32) ++ leBytes 2 (classBufs 0) ++
    leBytes 2 (classBufs 1) ++ leBytes 2 (classBufs 2) ++ leBytes 2 (classBufs 3) ++ leBytes 1 (s.port p).accepted.toNat ++
    leBytes 15 0

/-- HELLO_SEND: a HELLO leaves; with the peer accepted it carries ACCEPT, and the port moves to UP once it has also
received ACCEPT. -/
def State.helloOut (s : State) (p : Nat) : State :=
  let q := s.port p
  let t := s.setPort p { q with sentAccept := q.sentAccept || q.accepted, helloSent := s.helloBytes p,
                                st := if q.accepted && q.gotAccept then .up else q.st }
  if q.accepted && q.gotAccept then t.portUp p else t

def execHelloSend (p : Port) (s : State) : Out :=
  if (s.port p.val).st ≠ .hello then stutter s else .next (s.helloOut p.val)

/-- A HELLO is accepted: the neighbour, the credits of its grants and sequence numbers 0. -/
def PortSt.accept (q : PortSt) (bs : List Byte) : PortSt :=
  { q with nbrChip := BitVec.ofNat 16 (msgNat bs 0 2), nbrPort := BitVec.ofNat 5 (msgNat bs 2 1),
           credA := BitVec.ofNat 16 (msgNat bs 8 2), credB := BitVec.ofNat 16 (msgNat bs 10 2),
           credC := BitVec.ofNat 16 (msgNat bs 12 2), credD := BitVec.ofNat 16 (msgNat bs 14 2),
           txSeq := 0, rxSeq := 0, accepted := true, gotAccept := q.gotAccept || decide (msgNat bs 16 1 = 1) }

/-- A HELLO arrives in HELLO: its sender is accepted if FABRIC is this module's and CHIP is not, else refused. -/
def State.helloIn (s : State) (p : Nat) (bs : List Byte) : State :=
  if msgNat bs 4 4 = s.fld spxId 16 32 ∧ msgNat bs 0 2 ≠ s.chip then
    let q := (s.port p).accept bs
    let up := q.gotAccept && q.sentAccept
    let t := s.setPort p { q with st := if up then .up else q.st }
    if up then t.portUp p else t
  else (s.setBit (spxPortErr p) 0).fencePort p

/-- HELLO: a HELLO flit arrives on a port in HELLO, or late on one that is UP. -/
def execHello (p : Port) (f : Flit) (s : State) : Out :=
  let st := (s.port p.val).st
  if (st ≠ .hello ∧ st ≠ .up) ∨ f.cls ≠ 0 ∨ f.typ ≠ 3 ∨ f.isIdle then stutter s
  else if f.crc ≠ f.crcOf.toNat then .next (s.count (spxCnt p.val 2) 1)
  else if st = .up then .next s
  else .next (s.helloIn p.val f.payload)

-- Link layer events.

/-- LINK_DOWN: 10 µs without a good flit in UP (R482). -/
def execLinkDown (p : Port) (s : State) : Out :=
  if (s.port p.val).st ≠ .up then stutter s else .next (s.linkDown p.val 1)

/-- IDLE_FLIT (R485). -/
def execIdleFlit (p : Port) (f : Flit) (s : State) : Out :=
  if (s.port p.val).st ≠ .up ∨ ¬ f.isIdle then stutter s else .next (s.rxFlit p.val f).1

/-- REPLAY_TIMEOUT (R490, R491); a parked port runs no replay timer (R637). -/
def execReplayTimeout (p : Port) (s : State) : Out :=
  let q := s.port p.val
  if q.st ≠ .up ∨ q.replay.isEmpty ∨ (s.linksDark ∧ q.gotPark) then stutter s else .next (s.resend p.val)

/-- FLIT_CRC_FAIL (R484): the flit is discarded whole and counted. What corrupts a flit is an uncorrectable FEC codeword, one
for each such event (R491; DESIGN CHOICE, log entry 8). -/
def execFlitCrcFail (p : Port) (s : State) : Out :=
  let st := (s.port p.val).st
  if st ≠ .up ∧ st ≠ .hello then stutter s else .next ((s.count (spxCnt p.val 2) 1).count (spxCnt p.val 5) 1)

/-- DELAY_REQUEST_SEND (R515). -/
def execDelayRequestSend (p : Port) (t1 : Word) (s : State) : Out :=
  let q := s.port p.val
  if q.st ≠ .up ∨ s.linksDark then stutter s
  else .next (s.portSend 32 p.val (mkMsg 0 0x04 q.nbrChip.toNat false (leBytes 8 0 ++ leBytes 8 t1.toNat ++ leBytes 16 0)))

/-- The link delay from the four timestamps, rounded down to a whole ps (R515). -/
def linkDelay (t1 t2 t3 t4 : Nat) : Int := ((t4 : Int) - t1 - ((t3 : Int) - t2)) / 2

/-- DELAY: a request is answered, or an answer sets SPX_PORT_DELAY (R515). -/
def execDelay (p : Port) (f : Flit) (rx tx : Word) (s : State) : Out :=
  match s.rxLocal p.val 0x04 f with
  | .unfit => stutter s
  | .taken t => .next t
  | .msg t _ bs =>
    if msgNat bs 0 1 = 0 then
      .next (t.portSend 32 p.val (mkMsg 0 0x04 (t.port p.val).nbrChip.toNat false
        (leBytes 8 1 ++ leBytes 8 (msgNat bs 8 8) ++ leBytes 8 rx.toNat ++ leBytes 8 tx.toNat)))
    else
      let d := linkDelay (msgNat bs 8 8) (msgNat bs 16 8) (msgNat bs 24 8) rx.toNat
      .next (t.setFld (spxPortDelay p.val) 0 32 (ofSigned 32 d))

/-- PARK: a port of a module that enters fallow notes it; any other ignores it (R637). -/
def execPark (p : Port) (f : Flit) (s : State) : Out :=
  match s.rxLocal p.val 0x09 f with
  | .unfit => stutter s
  | .taken t => .next t
  | .msg t _ _ => if t.linksDark then .next (t.setPort p.val { t.port p.val with gotPark := true }) else .next t

/-- An ABORT on an input closes the copies of a multicast message that it cuts short (R503, R522). -/
def State.abortCopies (s : State) (p c : Nat) : State :=
  ((List.range 32).filter (fun o => o ≠ p)).foldl (fun t o =>
    let q := t.port o
    let q1 := q.closeCopy p c
    if q1.held.length = q.held.length then t else (t.setPort o q1).settlePort o) s

/-- ABORT: it closes the partial message of its class and the copies sent of it, or follows the message that this router forwards
(R487, R503, R522). -/
def execAbort (p : Port) (f : Flit) (s : State) : Out :=
  if (s.port p.val).st ≠ .up ∨ f.typ ≠ 0xFF ∨ f.isIdle then stutter s
  else
    let (t, ok) := s.bufFlit p.val f
    if ¬ ok then .next t
    else
      let outs := Tab.get (t.port p.val).route [] f.cls
      let t0 := if outs.isEmpty then t.freeBuf p.val f.cls else t
      let q := t0.port p.val
      let t1 := t0.setPort p.val { q with partialMsg := Tab.drop q.partialMsg f.cls, route := Tab.drop q.route f.cls }
      .next (outs.foldl (fun u o => u.portSend p.val o.val [f]) (t1.abortCopies p.val f.cls))

-- Forwarding (R498 to R501).

/-- A flit that a router may pass on: for another chip, and of no link-local type (R487). -/
def transits (s : State) (f : Flit) : Bool :=
  !f.isIdle && !f.mcast && f.dest != s.chip && f.typ != 0xFF && !(f.cls == 0 && (f.typ == 3 || f.typ == 4 || f.typ == 9))

/-- A flit that no output may take is discarded with a ROUTE or HOPS fault. -/
def State.forwardFault (s : State) (p c b : Nat) : State :=
  let t := (s.freeBuf p c).setBit (spxPortErr p) b
  t.jobFault 0 ((t.reg (spxPortErr p)).toNat % 2 ^ 32) 0 0

/-- Forward an accepted flit: the FIRST flit chooses the output, and the others of its message follow it. -/
def State.forward (s : State) (p : Port) (f : Flit) : State :=
  if f.hops ≥ 10 then s.forwardFault p.val f.cls 5
  else
    let q := s.port p.val
    if f.isFirst then
      match s.routeOut f.cls f.dest f.down with
      | none => s.forwardFault p.val f.cls 6
      | some o =>
        let route := if f.isLast then Tab.drop q.route f.cls else Tab.put q.route f.cls [Fin.ofNat 32 o]
        (s.setPort p.val { q with route := route }).portSend p.val o [f]
    else
      let outs := Tab.get q.route [] f.cls
      let s0 := if f.isLast then s.setPort p.val { q with route := Tab.drop q.route f.cls } else s
      let s1 := if outs.isEmpty then s0.freeBuf p.val f.cls else s0
      outs.foldl (fun t o => t.portSend p.val o.val [f]) s1

/-- FLIT_FORWARD. -/
def execFlitForward (p : Port) (f : Flit) (s : State) : Out :=
  if (s.port p.val).st ≠ .up ∨ ¬ transits s f then stutter s
  else if ¬ validType f.cls f.typ then .next (s.badType p.val f)
  else
    let (t, ok) := s.bufFlit p.val f
    .next (if ok then t.forward p f else t)

-- Remote memory access (R408, R425, R505, R506).

/-- The requester code of accesses for another module (R443). -/
def srcRemote : Nat := 0x1FE

/-- Answer a remote read; nothing is sent to a chip that is not live (R505, R522). -/
def State.sendRdata (s : State) (chip tag status : Nat) (bs : List Byte) : State :=
  if s.live chip then
    s.send (mkMsg 3 0x31 chip false
      (leBytes 4 tag ++ leBytes 1 status ++ leBytes 1 0 ++ leBytes 2 bs.length ++ leBytes 8 0 ++ bs))
  else s

/-- Perform one remote read (R505). -/
def State.remoteRead (s : State) (bs : List Byte) : State :=
  let a := msgNat bs 0 6
  let chip := msgNat bs 8 2
  let n := msgNat bs 10 2
  let tag := msgNat bs 12 4
  if 1 ≤ n ∧ n ≤ 4096 ∧ jobReach a n then
    match s.read srcRemote a n with
    | (t, none) => t.sendRdata chip tag 3 []
    | (t, some d) => t.sendRdata chip tag 0 d
  else s.sendRdata chip tag 1 []

/-- RREAD: every entry of the flit. -/
def execRread (p : Port) (f : Flit) (s : State) : Out :=
  match s.rx p.val 2 0x21 [f] with
  | .unfit => stutter s
  | .taken t => .next t
  | .msg t _ bs => .next ((chunks 32 (bs.length / 32) bs).foldl State.remoteRead t)

/-- RWRITE: the write is performed at rank 1 and acknowledged (R506). -/
def State.remoteWrite (s : State) (bs : List Byte) : State :=
  let a := msgNat bs 0 6
  let chip := msgNat bs 8 2
  let n := msgNat bs 10 2
  let good := decide (1 ≤ n) && decide (n ≤ 4096) && jobReach a n && decide (bs.length = 32 + n)
  let t := if good then s.write srcRemote a (bs.drop 32) else s
  if t.live chip then
    t.send (mkMsg 3 0x32 chip false (leBytes 4 (msgNat bs 12 4) ++ leBytes 1 (if good then 0 else 1) ++ leBytes 11 0))
  else t

def execRwrite (p : Port) (fs : List Flit) (s : State) : Out :=
  match s.rx p.val 2 0x22 fs with
  | .unfit => stutter s
  | .taken t => .next t
  | .msg t _ bs => .next (t.remoteWrite bs)

/-- RDATA: the bytes go to the Drill or to the Harrow channel that the TAG names (R286, R465). -/
def execRdata (p : Port) (fs : List Flit) (s : State) : Out :=
  match s.rx p.val 3 0x31 fs with
  | .unfit => stutter s
  | .taken t => .next t
  | .msg t _ bs =>
    let tag := msgNat bs 0 4
    let d := (bs.drop 16).take (msgNat bs 6 2)
    if tag ≥ 0xD0000000 then .next (t.drlData tag (msgNat bs 4 1) d)
    else if tag < 2 ^ 24 then .next (t.hrwAnswer tag (msgNat bs 4 1) false d)
    else .next t

/-- WACK: the acknowledgement goes to the Harrow channel that the TAG names (R465, R506). -/
def execWack (p : Port) (f : Flit) (s : State) : Out :=
  match s.rx p.val 3 0x32 [f] with
  | .unfit => stutter s
  | .taken t => .next t
  | .msg t _ bs =>
    let tag := msgNat bs 0 4
    if tag < 2 ^ 24 then .next (t.hrwAnswer tag (msgNat bs 4 1) true []) else .next t

end Sys2Proof.Machine
end

