-- ==== Sys2Proof/Machine/Member.lean ====
section
/-!
DEFINITION. Membership (R516 to R522) and the leader's side of starting a recovery (R617): MEMBER and HALT messages,
heartbeats, the deputy, alarms.
-/

namespace Sys2Proof.Machine
open Sys2Proof

-- The member set and its changes (R516, R519).

/-- Put a chip into a rising list. -/
def insertChip (c : Nat) : List Nat → List Nat
  | [] => [c]
  | x :: r => if c = x then x :: r else if c < x then c :: x :: r else x :: insertChip c r

/-- The set after a change: KIND 1 joins, the others remove. -/
def changeSet (l : List Nat) (kind chip : Nat) : List Nat := if kind = 1 then insertChip chip l else l.filter (fun c => c != chip)

/-- The bitmap that DIGEST speaks of: members that no applied LEAVE has named. -/
def State.bitmapSet (s : State) : List Nat := s.mems.members.filter (fun c => !s.mems.leaving.contains c)

/-- The same once every scheduled change has been applied, and the MSEQ of the last of them. -/
def State.futureSet (s : State) : List Nat :=
  s.mems.scheduled.foldl (fun l m => changeSet l m.kind.toNat m.chip.toNat) s.bitmapSet
def State.lastMseq (s : State) : BitVec 32 := (s.mems.scheduled.getLast?.map (fun m => m.mseq)).getD s.mems.mseq

def digestOf (l : List Nat) : BitVec 32 := crc32c (bitmapBytes l)

/-- A MEMBER that does not follow, or whose DIGEST disagrees (R519). -/
def State.digestFault (s : State) : State :=
  let t := s.setBit spxErr 0
  t.jobFault 0 ((t.reg spxErr).toNat % 2 ^ 32) 0 0

/-- Fence every port whose neighbour is a chip (R522). -/
def State.fenceChip (s : State) (chip : Nat) : State :=
  (List.range 32).foldl (fun t p =>
    let q := t.port p
    if q.nbrChip.toNat = chip ∧ q.st ≠ .off ∧ q.st ≠ .fenced then t.fencePort p else t) s

/-- A FAIL or LEAVE that names a member is a module fault (R605, R632). -/
def State.moduleFault (s : State) (chip : Nat) : State :=
  (((s.logFault 2 0 0 0 chip).setBit sysFltStatus 1).setFld sysFltStatus 16 16 chip).setAlert 7 true 0 0

/-- A tick-scheduled change that comes at or after its target is a late change (R58). -/
def State.lateFault (s : State) (tick : Nat) : State := if tick ≤ s.furCount.toNat then s.furFaultSet 2 0 else s

/-- A MEMBER is received or issued here: its sequence is checked, a failed chip is fenced and no longer live at once, and
the change and an epoch advance are scheduled for its tick (R49, R58, R244, R516, R519, R522, R626). -/
def State.takeMember (s0 : State) (m : MemberMsg) : State :=
  let s := s0.lateFault m.tick.toNat
  if m.mseq ≠ s.lastMseq + 1 then s.digestFault
  else
    let chip := m.chip.toNat
    let s1 := if m.kind ≠ 1 ∧ s.mems.members.contains chip then s.moduleFault chip else s
    let s2 := if m.kind = 0 then
        let t := s1.fenceChip chip
        { t with mems := { t.mems with dead := insertChip chip t.mems.dead } }.settleSync
      else s1
    if m.tick.toNat ≤ s.furCount.toNat then s2
    else { s2 with mems := { s2.mems with scheduled := s2.mems.scheduled ++ [m] }, stkEpochAt := m.tick }

/-- The 32-byte payload of a MEMBER (R519). -/
def memberBytes (m : MemberMsg) (count issuer : Nat) : List Byte :=
  leBytes 1 m.kind.toNat ++ leBytes 1 0 ++ leBytes 2 m.chip.toNat ++ leBytes 4 m.mseq.toNat ++ leBytes 8 m.tick.toNat ++
    leBytes 4 m.digest.toNat ++ leBytes 2 count ++ leBytes 2 issuer ++ leBytes 8 0

/-- Issue a MEMBER: broadcast on group 0, for a JOIN also to the joining chip, and taken here (R519). -/
def State.issueMember (s : State) (kind chip tick : Nat) : State :=
  let after := changeSet s.futureSet kind chip
  let m : MemberMsg := { kind := BitVec.ofNat 8 kind, chip := BitVec.ofNat 16 chip, mseq := s.lastMseq + 1,
                         tick := BitVec.ofNat 64 tick, digest := digestOf after }
  let bs := memberBytes m after.length s.chip
  let s1 := s.sendGroup (mkMsg 0 0x06 0 true bs)
  let s2 := if kind = 1 then s1.send (mkMsg 0 0x06 chip false bs) else s1
  s2.takeMember m

/-- A membership change clears the directory and what R379 names; the steps for which banks are open and a FLUSH under way stay
(R332, R379). -/
def State.clearMembership (s : State) : State := s.clearDir.clearSheaf.endRefresh

/-- Apply one scheduled change at its tick (R516, R519). -/
def State.applyMember (s : State) (m : MemberMsg) : State :=
  let chip := m.chip.toNat
  if m.digest ≠ digestOf (changeSet s.bitmapSet m.kind.toNat chip) then s.digestFault
  else
    let x := s.mems
    let y := if m.kind = 2 then { x with leaving := insertChip chip x.leaving }
      else { x with members := changeSet x.members m.kind.toNat chip,
                    gone := if m.kind = 1 then x.gone.filter (fun c => c != chip) else insertChip chip x.gone, dead := x.dead.filter (fun c => c != chip),
                    transferDone := x.transferDone.filter (fun c => c != chip), beats := Tab.drop x.beats chip }
    { s with mems := { y with mseq := m.mseq } }.clearMembership

/-- No port toward a chip is fenced: its JOIN may take effect (R519). -/
def State.portsOpen (s : State) (chip : Nat) : Bool :=
  s.ports.all (fun p => p.2.nbrChip.toNat != chip || p.2.st != .fenced)

/-- Apply the changes that are due at the present tick, in order of MSEQ; a JOIN that may not take effect yet waits, and what
follows it (R56, R519, log entry 113). The list is what stays scheduled. -/
def applyDue : List MemberMsg → State → State × List MemberMsg
  | [], s => (s, [])
  | m :: r, s =>
    if s.furCount.toNat < m.tick.toNat then
      let (t, l) := applyDue r s
      (t, m :: l)
    else if m.kind = 1 ∧ ¬ s.portsOpen m.chip.toNat then (s, m :: r)
    else applyDue r (s.applyMember m)

/-- Apply every change that is due at the present tick (R56). -/
def State.applyMembers (s : State) : State :=
  let (t, l) := applyDue s.mems.scheduled { s with mems := { s.mems with scheduled := [] } }
  { t with mems := { t.mems with scheduled := l } }

-- Starting a recovery (R617, R619, R624).

/-- A role entry of the job: chip, buddy, group, flags (R609). -/
def State.role (s : State) (r : Nat) : Nat × Nat × Nat × Nat :=
  match s.job.roles[r]? with
  | none => (0xFFFF, 0xFFFF, 0xFFFF, 0)
  | some (c, b, g, f) => (c.toNat, b.toNat, g.toNat, f.toNat)

/-- The roles of the job. -/
def State.roleList (s : State) : List Nat := List.range s.job.roles.length

/-- The chip that keeps the buddy generations of a role: the named one, or the chip that now holds its role; none when
that chip is not live (R612, R619). -/
def State.buddyChip (s : State) (r : Nat) : Option Nat :=
  let b := (s.role r).2.1
  let c := if s.live b then b else ((s.roleList.find? (fun q => (s.role q).1 == b)).map s.holder).getD 0xFFFF
  if s.live c then some c else none

/-- The chip to which a role's holder pushes: its buddy, unless that is the holder itself (R612). -/
def State.buddyOf (s : State) (r : Nat) : Option Nat := (s.buddyChip r).filter (fun c => c != s.holder r)

/-- A role has a source of order 1 to 3 for its owned regions, as far as the member set tells (R619). -/
def State.hasSource (s : State) (r : Nat) : Bool :=
  let h := s.holder r
  h == 0xFFFF || (s.live h && !s.mems.leaving.contains h) || (s.buddyOf r).isSome

/-- The restore point and whether it is a host restore (R617, R619). -/
def State.restorePoint (s : State) (forceHost : Bool) : BitVec 32 × Bool :=
  let last := BitVec.ofNat 32 (s.fld sysGrnStatus 0 32)
  let host := forceHost || last == 0xFFFFFFFF || !s.roleList.all s.hasSource
  (if host then BitVec.ofNat 32 (s.fld sysGrnHost 0 32) else last, host)

/-- RETRIES once a recovery to k0 begins (R624). -/
def State.retriesFor (s : State) (k0 : BitVec 32) : BitVec 8 :=
  if s.rcv.lastK0 = some k0 then BitVec.ofNat 8 (satAdd 8 s.rcv.retries.toNat 1) else s.rcv.retries

/-- A HALT is received or issued here: a higher RSEQ replaces what is pending; a tick already reached is a late change
(R58, R606, R617). A module in STOPPED notes the RSEQ alone (R620). -/
def State.takeHalt (s0 : State) (h : Halt) : State :=
  let s := s0.lateFault h.tick.toNat
  if h.rseq.toNat ≤ s.rcv.rseq.toNat then s
  else if s.rcv.st = .stopped then { s with rcv := { s.rcv with rseq := h.rseq } }
  else
    let r := { s.rcv with rseq := h.rseq, covered := true, resumeAt := none, readyChips := [], pendingLead := false }
    if h.tick.toNat ≤ s.furCount.toNat then { s with rcv := r }
    else { s with rcv := { r with haltAt := some h, retries := s.retriesFor h.k0, lastK0 := some h.k0 } }

/-- The leader issues HALT for a tick (R617, R624). -/
def State.issueHalt (s : State) (cls chip tick : Nat) (forceHost : Bool) : State :=
  let (k0, host) := s.restorePoint forceHost
  let stop := decide ((s.retriesFor k0).toNat > s.fld sysRecCtrl 8 8)
  let hostStep := s.fld sysGrnHost 0 32
  let h : Halt := { tick := BitVec.ofNat 64 tick, rseq := s.rcv.rseq + 1, k0 := k0, host := host,
                    hostStep := BitVec.ofNat 32 hostStep, stop := stop }
  let bs := recBytes 1 cls chip h.rseq.toNat tick k0.toNat s.chip host.toNat (hostStep + stop.toNat * 2 ^ 32)
  (s.sendGroup (mkMsg 0 0x07 0 true bs)).takeHalt h

/-- A chip is declared failed: MEMBER FAIL, and HALT for the same tick (R518, R617). -/
def State.declareFail (s : State) (chip ns : Nat) : State :=
  let tick := s.targetTick ns
  let s1 := s.issueMember 0 chip tick
  { s1 with mems := { s1.mems with reports := s1.mems.reports.filter (fun r => r.2 != chip),
                                   beats := Tab.drop s1.mems.beats chip } }.issueHalt 2 chip tick false

/-- The master declares a member failed, which SPX_ERR.DECLARED records. -/
def State.masterDeclare (s : State) (chip ns : Nat) : State := (s.setBit spxErr 1).declareFail chip ns

/-- Every link neighbour of a chip reports that all of its links to it are down (R518). -/
def State.linksAllDown (s : State) (chip : Nat) : Bool :=
  let nbrs := s.liveList.filter (fun c => decide (c ≠ chip) && decide (0 < Config.linksBetween c chip))
  !nbrs.isEmpty && nbrs.all (fun c => decide (Config.linksBetween c chip ≤ s.mems.reports.count (c, chip)))

/-- The master acts on complete sets of LINKDOWN reports. -/
def State.judgeLinks (s : State) (ns : Nat) : State :=
  if ¬ s.isMaster then s
  else
    (s.mems.reports.map (fun r => r.2)).eraseDups.foldl (fun t c =>
      if t.live c ∧ t.linksAllDown c then t.masterDeclare c ns else t) s

-- Heartbeats (R517, R518).

/-- The 32-byte payload of a HEARTBEAT. -/
def beatBytes (s : State) : List Byte :=
  leBytes 2 s.chip ++ leBytes 2 0 ++ leBytes 4 s.mems.mseq.toNat ++ leBytes 8 s.furCount.toNat ++ leBytes 16 0

/-- HEARTBEAT_SEND: a live member that is not the master reports its furrow. -/
def execHeartbeatSend (s : State) : Out :=
  match s.master with
  | none => stutter s
  | some m =>
    if m = s.chip ∨ ¬ s.live s.chip ∨ s.linksDark ∨ ¬ s.bit furCtrl 0 then stutter s
    else .next (s.send (mkMsg 0 0x05 m false (beatBytes s)))

/-- HEARTBEAT: the master notes the furrow that it carries. -/
def execHeartbeat (p : Port) (f : Flit) (s : State) : Out :=
  match s.rx p.val 0 0x05 [f] with
  | .unfit => stutter s
  | .taken t => .next t
  | .msg t _ bs =>
    let c := msgNat bs 0 2
    if ¬ t.isMaster then .next t
    else
      let b := Tab.get t.mems.beats {} c
      .next { t with mems := { t.mems with beats := Tab.put t.mems.beats c { b with last := some (BitVec.ofNat 64 (msgNat bs 8 8)),
                                                                                       before := b.last } } }

/-- A heartbeat that carries a furrow has arrived. -/
def Beat.arrived (b : Beat) (furrow : Nat) : Bool :=
  [b.last, b.before].any (fun x => decide (x.map (fun t => t.toNat) = some furrow))

/-- HEARTBEAT_MISS: no heartbeat for furrow t by tick t + 1 plus the member's offset; the third in a row declares the member
failed (R518). -/
def execHeartbeatMiss (chip : BitVec 16) (ns : Nat) (s : State) : Out :=
  let c := chip.toNat
  let b := Tab.get s.mems.beats {} c
  if ¬ s.isMaster ∨ c = s.chip ∨ ¬ s.live c ∨ s.furCount = 0 ∨ s.pow.wakeGrace ∨ s.linksDark ∨
      b.arrived (s.furCount.toNat - 1) ∨ b.judged = s.furCount then stutter s
  else
    let n := if b.misses > 0 ∧ b.judged + 1 = s.furCount then b.misses + 1 else 1
    let s1 := s.count spxCntHbMiss 1
    let s2 := { s1 with mems := { s1.mems with beats := Tab.put s1.mems.beats c { b with misses := n, judged := s.furCount } } }
    .next (if n ≥ 3 then s2.masterDeclare c ns else s2)

-- Messages.

/-- MEMBER: a FAIL, JOIN or LEAVE arrives; another KIND names no change. -/
def execMember (p : Port) (f : Flit) (s : State) : Out :=
  match s.rx p.val 0 0x06 [f] with
  | .unfit => stutter s
  | .taken t => .next t
  | .msg t _ bs =>
    if msgNat bs 0 1 > 2 then .next t
    else
      .next (t.takeMember { kind := BitVec.ofNat 8 (msgNat bs 0 1), chip := BitVec.ofNat 16 (msgNat bs 2 2),
                            mseq := BitVec.ofNat 32 (msgNat bs 4 4), tick := BitVec.ofNat 64 (msgNat bs 8 8),
                            digest := BitVec.ofNat 32 (msgNat bs 16 4) })

/-- MEMBER_STATE_RESEND: no acknowledgement within 1 ms; the whole transfer is sent again (R520). -/
def execMemberStateResend (s : State) : Out :=
  match s.mems.transfer with
  | none => stutter s
  | some c => .next (s.sendTransfer c)

/-- The deputy: the live, eligible member of second-lowest chip ID (R521). -/
def State.deputy (s : State) : Option Nat := (s.liveList.filter s.eligible)[1]?

/-- DEPUTY_TAKEOVER: three ticks without a tick marker from the master. -/
def execDeputyTakeover (ns : Nat) (s : State) : Out :=
  match s.master with
  | none => stutter s
  | some m =>
    if s.deputy ≠ some s.chip ∨ s.mems.markersMissed < 3 ∨ s.pow.wakeGrace ∨ s.fur.holdTick ∨ s.linksDark ∨
        (s.fur.sync = .acquire ∧ s.fur.nextTick = none) then stutter s
    else .next ({ s with mems := { s.mems with markersMissed := 0 } }.declareFail m ns)

/-- ALARM: the master keeps a member's alarm for its reports (R646). -/
def execAlarm (p : Port) (f : Flit) (s : State) : Out :=
  match s.rx p.val 0 0x08 [f] with
  | .unfit => stutter s
  | .taken t => .next t
  | .msg t _ bs => .next (if t.isMaster then t.keepAlarm (bs.take 24) else t)

end Sys2Proof.Machine
end

