-- ==== Sys2Proof/Machine/Blocks.lean ====
section
/-!
DEFINITION. What a reset leaves of each block (R131, R161, R217, R222, R245, R291, R334, R378, R469, R514): the effects that
module resets, per-block resets, LOAD_JOB, fallow and the HALT tick share.
-/

namespace Sys2Proof.Machine
open Sys2Proof

/-- An engine without plans and commands; its counts of R75 and its record of the step's parts stay. -/
def State.resetEng (s : State) (i : Nat) : State :=
  let e := s.eng i
  s.setEng i { e with queue := [], running := none, cmds := [], inFlight := 0, stuck := false, gate := .idle, fetchLeft := 0 }

/-- The waiters of a strip that a reset removes: all but thread 3 of strip 63, which runs firmware (R586). -/
def keepsWaiter (st : Nat) (w : Waiter) : Bool :=
  st == 63 && (match w.who with
    | .thread t => t.val == 3
    | _ => false)

/-- Counters, waiters, node firings and posting FIFOs of a strip (R245). -/
def State.resetStooks (s : State) (st : Nat) : State :=
  { s with stk := s.stk.filter (fun p => p.1 / 48 != st),
           waiters := s.waiters.map (fun (p : Nat × List Waiter) => if p.1 / 48 = st then (p.1, p.2.filter (keepsWaiter st)) else p),
           fires := s.fires.filter (fun p => p.1 != st), fifos := s.fifos.filter (fun p => p.1 / 5 != st) }

/-- The instruction cache of a strip is invalidated (R222). -/
def State.dropCache (s : State) (st : Nat) : State := { s with icache := s.icache.filter (fun p => p.1 / 2 ^ 48 != st) }

/-- The threads of a strip that its reset resets: thread 3 of strip 63 is kept. -/
def resetThreadsOf (st : Nat) : List Nat := (List.range 4).filter (fun t => !(st == 63 && t == 3))
def State.resetThreads (s : State) (st : Nat) : State := { s with thr := s.thr.filter (fun p => p.1 / 4 != st || p.1 == 255) }

/-- Tile registers 0 and the Winnow engine's state (R161). -/
def State.resetWinnow (s : State) (st : Nat) : State :=
  (s.wipe (srcHdl st) (winBaseAddr + st * 0x100000) 0x100000).setWinnow st {}

/-- A Glean port; responses that return later are discarded (R334). -/
def State.resetGport (s : State) (st : Nat) : State :=
  let x := s.gport st
  s.setGport st { dead := x.owed, nextId := x.nextId }

/-- The Harrow channels of a strip (R469). -/
def chansOf (st : Strip) : List Chan := ([0, 1, 2, 3] : List (Fin 4)).map (fun c => ⟨4 * st.val + c.val, by omega⟩)
def State.resetChans (s : State) (st : Strip) : State := (chansOf st).foldl State.emptyChan s

/-- A unit of a strip spends time that a counter counts until it ends: a channel that waits or runs (R450, R475), a thread that
waits (R251), an accumulator read that waits (R213), a Glean port that is full (R338). -/
def State.stripWaits (s : State) (st : Strip) : Bool :=
  (chansOf st).any (fun c => (s.chan c.val).gate == .waiting || (s.chan c.val).startWait || (s.chan c.val).running.isSome) ||
    (resetThreadsOf st.val).any (fun t => (s.thread st.val t).st == .wait || (s.thread st.val t).stalled.isSome) ||
    (s.winnow st.val).accWait.isSome || (s.gport st.val).full

/-- That time ends, and the counters take it. -/
def State.endWaits (s : State) (st : Strip) : State :=
  let k := st.val
  let s1 := (chansOf st).foldl (fun t c => (t.waitEnds c.val).paceEnds c.val) s
  let s2 := (resetThreadsOf k).foldl (fun t i => t.endSpell k i) s1
  (if (s2.winnow k).accWait.isSome then s2.clk (winCntAccwait k) else s2).endFull k

/-- The effect of a per-block reset of a strip (R131, R161, R245, R334, R469, R586). -/
def State.resetStrip (s : State) (st : Strip) : State :=
  let k := st.val
  let s1 := (if s.stripWaits st then s.endWaits st else s).resetChans st
  let s2 := [engTil k, engWin k, engGln k, engHrw k].foldl State.resetEng s1
  (((((s2.resetStooks k).resetThreads k).dropCache k).clearTiller k).resetWinnow k).resetGport k

/-- The effect of a reset of the Drill block (R291). -/
def State.resetDrill (s : State) : State :=
  ((List.range 16).foldl (fun t d => t.resetEng (engDrl d)) s).clearDrill.clrBit drlBuild 48

/-- The effect on the Sheaf engines of a reset of a hedge die (R378); its check-line cache has written its dirty lines back
before the die is idle (R656), and its memory keeps its contents. -/
def State.resetHedge (s0 : State) (die : Nat) : State :=
  let s := s0.clcFlushDie die
  [0, 1, 2, 3].foldl (fun t j => (t.resetEng (engShf (4 * die + j))).resetSheafEng (4 * die + j)) s

/-- The reduction engine's reset with its plans (R514). -/
def State.resetReduce (s : State) : State := (s.resetEng engRed).resetRed

/-- The serve unit's waiting reads (R618). -/
def State.resetServe (s : State) : State := { s with gln := { s.gln with parked := [], requests := [], jobs := [] } }

/-- No response of before a HALT tick is still to come: every serve unit has dropped its reads (R618), and the links have
carried what was in flight (DESIGN CHOICE, log entry 109). -/
def State.freeReads (s : State) : State :=
  { s with gln := { s.gln with ports := s.gln.ports.map (fun p => (p.1, { p.2 with dead := [] })) } }

/-- Thread 3 of strip 63 runs firmware from the place that the seed image gives it (R219). -/
def State.startFirmware (s : State) : State :=
  s.setThread 63 3 { pc := BitVec.ofNat 48 s.stile.image.firmwareAt, modeF := true, st := .run }

/-- Every strip, in index order. -/
def allStrips : List Strip := List.finRange 64

/-- What fallow clears of every strip (R638). -/
def State.resetStrips (s : State) : State := allStrips.foldl State.resetStrip s

end Sys2Proof.Machine
end

