-- ==== Sys2Proof/Machine/Stook.lean ====
section
/-!
DEFINITION. Stook counters beyond R227: register writes (R252, R253), remote signals (R237, R238), barrier trees
(R240 to R243), the end tick of a step (R66, R67) and the epoch advance (R244, R504).
-/

namespace Sys2Proof.Machine
open Sys2Proof

/-- A tree action over one port (R238, R240): to a neighbour that is not live nothing is sent and STK_FAULT.DEST is set;
otherwise the message goes to the neighbour, but over a port that is not UP nothing is sent. It waits inside the core for a
token of the core's bucket and takes it (R239, R496). -/
def State.treeSend (s : State) (st p core ctr add kind srcCtr tick : Nat) : State :=
  let nbr := (s.port p).nbrChip.toNat
  if ¬ s.live nbr then s.syncFault st 1
  else if (s.port p).st ≠ .up then s
  else
    ((s.takeToken st).count (hdlCntRsig st) 1).portSend 32 p
      (mkMsg 0 0x02 nbr false (stookBytes nbr core ctr add kind s.stkEpoch.toNat s.chip st srcCtr tick))

/-- The end tick of the step now running becomes known: E, and S of the next step unless the job pauses after this
one (R66, R67, R73, R552). A tick already reached is a late change (R58). -/
def State.recordEnd (s : State) (e : Nat) : State :=
  if e ≤ s.furCount.toNat then s.furFaultSet 2 0
  else
    let k := s.fld furStep 0 32
    let gap := s.fld furCtrl 8 8
    let f := { s.fur with ends := Tab.put s.fur.ends k (BitVec.ofNat 64 e) }
    let f1 := if s.job.pauseStep = some (BitVec.ofNat 32 k) then f
      else { f with starts := Tab.put f.starts (k + 1) (BitVec.ofNat 64 (e + gap)) }
    ({ s with fur := f1 }).setReg furStepEnd (BitVec.ofNat 64 e)

/-- NODE_FIRE: a tree node acts (R240, R242): UP signals the parent, ROOT releases the tree, STEP_ROOT ends the step
at the tick that R57 gives for a moment `ns` after the last tick. -/
def execNodeFire (st : Strip) (ctr : Fin 48) (ns : Nat) (s : State) : Out :=
  if ¬ s.fires.contains (st.val, ctr.val) then stutter s
  else
    let s1 := { s with fires := s.fires.erase (st.val, ctr.val) }
    let n := (s1.reg (stkNode st.val ctr.val)).toNat
    let ports := maskPorts ((s1.reg (stkChild st.val ctr.val)).toNat % 2 ^ 32)
    let rel := natBits n 44 6
    let e := s1.targetTick ns
    match natBits n 24 2 with
    | 1 => .next (s1.treeSend st.val (natBits n 27 5) (natBits n 32 6) (natBits n 38 6) 1 0 ctr.val 0)
    | 2 =>
      let s2 := s1.signalCtr st.val rel 1
      .next (ports.foldl (fun t p => t.treeSend st.val p st.val ctr.val 0 1 ctr.val 0) s2)
    | 3 =>
      let s2 := (s1.recordEnd e).signalCtr st.val rel 1
      .next (ports.foldl (fun t p => t.treeSend st.val p st.val ctr.val 0 2 ctr.val e) s2)
    | _ => .next s1

/-- A copy of a RELEASE or STEP_END for each port of the node (R242). The copies carry the payload as it came, with the DEST_CHIP
of the first receiver; the header's DEST names the neighbour (DESIGN CHOICE, log entry 115). -/
def State.passRelease (s : State) (core ctr : Nat) (f : Flit) : State :=
  let ports := maskPorts ((s.reg (stkChild core ctr)).toNat % 2 ^ 32)
  ports.foldl (fun t p =>
    if (t.port p).st = .up then t.portSend 32 p [(f.set 16 16 (t.port p).nbrChip.toNat)] else t) s

/-- STOOK: a remote signal, release or step end arrives (R237, R238, R242). A payload of the unassigned KIND 3 acts as a RELEASE, and
a RELEASE at a counter that does not exist signals REL_CTR 0 of a node register that reads 0 (DESIGN CHOICE, log entry 115). -/
def execStook (p : Port) (f : Flit) (s : State) : Out :=
  match s.rx p.val 0 0x02 [f] with
  | .unfit => stutter s
  | .taken t => .next t
  | .msg t g bs =>
    let core := msgNat bs 2 1 % 64
    let ctr := msgNat bs 3 1 % 64
    let kind := msgNat bs 7 1 % 4
    let t1 := if kind = 0 then t else t.passRelease core ctr g
    if msgNat bs 8 2 ≠ t.stkEpoch.toNat then .next (t1.count (stkCntStale core) 1)
    else if kind = 0 then .next (t1.applySignal core ctr (msgNat bs 4 3))
    else
      let rel := natBits (t1.reg (stkNode core ctr)).toNat 44 6
      let t2 := if kind = 2 then t1.recordEnd (msgNat bs 16 8) else t1
      .next ((t2.signalCtr core rel 1).count (stkCntRsigIn core) 1)

/-- STK_VAL is written while FUR_CTRL.ENABLE is 0; otherwise STK_FAULT.CFG is set (R252). -/
def State.stkValSet (s : State) (st c : Nat) (v : Word) : State :=
  if s.bit furCtrl 0 then s.setBit (stkFault st) 2
  else (s.setCtr st c (v.setWidth 24)).updateCtr st c 0

def execStkValWrite (st : Strip) (ctr : Fin 48) (v : Word) (s : State) : Out := .next (s.stkValSet st.val ctr.val v)

/-- STK_NODE_NEXT is written unless DEST_CTR or REL_CTR names no counter (R253). -/
def State.stkNodeNextSet (s : State) (st c : Nat) (v : Word) : State :=
  let d := natBits v.toNat 38 6
  let r := natBits v.toNat 44 6
  if 48 ≤ d ∨ (48 ≤ r ∧ r ≤ 62) then s.setBit (stkFault st) 2 else s.writePlain (stkNodeNext st c) v

def execStkNodeNextWrite (st : Strip) (ctr : Fin 48) (v : Word) (s : State) : Out :=
  .next (s.stkNodeNextSet st.val ctr.val v)

/-- The current copy that an epoch advance loads from a register that holds a next copy (R244, R504). -/
def nextToCur (o : Nat) : Option Nat :=
  if o / 0x1000000 = 4 then
    let r := o % 0x10000
    if 0x400 ≤ r ∧ r < 0x580 then some (o - 0x200) else if 0x800 ≤ r ∧ r < 0x980 then some (o - 0x200) else none
  else if o / 0x1000000 = 10 then
    let r := o - spxBase
    if 0x21080 ≤ r ∧ r < 0x21100 then some (o - 0x80) else if 0x21140 ≤ r ∧ r < 0x21180 then some (o - 0x40)
    else if 0x180000 ≤ r ∧ r < 0x200000 then some (o - 0x80000) else none
  else none

/-- A register that holds a current copy of a tree, route, group or reduction tree. -/
def isCurCopy (o : Nat) : Bool :=
  if o / 0x1000000 = 4 then
    let r := o % 0x10000
    (0x200 ≤ r && r < 0x380) || (0x600 ≤ r && r < 0x780)
  else if o / 0x1000000 = 10 then
    let r := o - spxBase
    (0x21000 ≤ r && r < 0x21080) || (0x21100 ≤ r && r < 0x21140) || (0x100000 ≤ r && r < 0x180000)
  else false

/-- Copy every next copy into its current copy. -/
def copyNext (csr : Tab Word) : Tab Word :=
  csr.foldl (fun acc e =>
    match nextToCur e.1 with
    | some o => Tab.put acc o e.2
    | none => acc) (csr.filter (fun e => !isCurCopy e.1))

/-- The stook epoch advances (R244): the next tables become current, the counters marked EPOCH_CLR clear, and every
counter is tested against its new node. -/
def State.epochAdvance (s : State) : State :=
  let s1 := { s with stkEpoch := s.stkEpoch + 1, stkEpochAt := 0, csr := copyNext s.csr }
  let s2 := { s1 with stk := s1.stk.map (fun (p : Nat × BitVec 24) =>
    if s1.bit (stkNode (p.1 / 48) (p.1 % 48)) 26 then (p.1, 0) else p) }
  (s2.stk.map (fun p => p.1)).foldl (fun t k => t.updateCtr (k / 48) (k % 48) 0) s2

/-- Clear a strip's counters, waiters and pending node firings (R245). -/
def State.clearStooks (s : State) (st : Nat) : State :=
  { s with stk := s.stk.filter (fun p => p.1 / 48 != st), waiters := s.waiters.filter (fun p => p.1 / 48 != st),
           fires := s.fires.filter (fun p => p.1 != st) }

end Sys2Proof.Machine
end

