-- ==== Sys2Proof/Machine/Recovery.lean ====
section
/-!
DEFINITION. Granary snapshots (R608 to R615), the HALT tick, restoring and resuming (R618 to R627), and the RECOVERY and BULK
messages.
-/

namespace Sys2Proof.Machine
open Sys2Proof

-- Snapshots (R610, R611, R615).

def up4k (n : Nat) : Nat := (n + 4095) / 4096 * 4096

/-- BODY_LEN: every region in table order, each starting on a 4 KiB boundary (R611). -/
def State.bodyLen (s : State) : Nat := (s.job.regions.map (fun r => up4k r.2.1)).sum

/-- Regions with their offsets in the body: offset, base, length, replicated. -/
def placeRegions : List (Nat × Nat × Bool) → Nat → List (Nat × Nat × Nat × Bool)
  | [], _ => []
  | (b, n, rep) :: r, o => (o, b, n, rep) :: placeRegions r (o + up4k n)

def State.placed (s : State) : List (Nat × Nat × Nat × Bool) := placeRegions s.job.regions 0

/-- The role that a chip holds (R627). -/
def State.roleOf (s : State) (chip : Nat) : Option Nat := s.roleList.find? (fun r => s.holder r == chip)
def State.myRole (s : State) : Option Nat := s.roleOf s.chip

/-- The header block of a snapshot (R611); MSEQ, ING_SEQ and the ledger are those of the snapshot point. -/
def headerBytes (s : State) (sn : Snap) (role : Nat) (digest : List Byte) (state : Nat) : List Byte :=
  let ledger := ((List.range 256).map (fun i =>
    let x := Tab.get sn.ledger {} i
    leBytes 4 x.pub.toNat ++ leBytes 4 (x.writing0.toNat + 2 * x.writing1.toNat) ++ leBytes 4 x.users0.toNat ++
      leBytes 4 x.users1.toNat)).flatten
  padTo 8192 (leBytes 8 0x47524E5434384C31 ++ leBytes 4 sn.step.toNat ++ leBytes 2 s.chip ++ leBytes 2 role ++
    leBytes 4 sn.mseq.toNat ++ leBytes 4 s.job.regions.length ++ leBytes 8 s.bodyLen ++ s.job.hash ++ padTo 32 digest ++
    leBytes 8 sn.ingSeq.toNat ++ leBytes 1 state ++ leBytes 23 0 ++ ledger)

/-- The address of a record of the granary index (R615). -/
def recordAddr (i : Nat) : Nat := buddyBase + 16384 * i

/-- Who makes the copies of a snapshot: a Harrow channel of strip 0 (R610). -/
def srcGranary : Nat := engHrw 0

/-- Bytes 0 to 63 of a record of the granary index (R615). -/
def State.recordHead (s : State) (role gen state step base : Nat) : List Byte :=
  leBytes 2 role ++ leBytes 1 gen ++ leBytes 1 state ++ leBytes 4 step ++ leBytes 8 base ++ leBytes 8 s.bodyLen ++
    leBytes 8 0 ++ padTo 32 s.job.hash

/-- Rewrite a record of the granary index: the header copy first, then bytes 0 to 63 (R615). A header that is lost to an
uncorrectable error is reported and not copied. -/
def State.putRecord (s : State) (i role gen state step base : Nat) : State :=
  let a := recordAddr i
  let s1 := match s.read srcGranary base 8192 with
    | (t, none) => t
    | (t, some h) => t.write srcGranary (a + 8192) h
  s1.write srcGranary a (s1.recordHead role gen state step base)

/-- A record holds a complete snapshot of a step of this job (R615, R619). -/
def State.holds (s : State) (i step : Nat) : Bool :=
  let b := s.views (recordAddr i) 64
  msgNat b 3 1 == 2 && msgNat b 4 4 == step && decide ((b.drop 32).take 32 = padTo 32 s.job.hash)

/-- The same as read for the choice of a source: errors are counted and reported, and a record that is lost holds nothing. -/
def State.readHolds (s : State) (i step : Nat) : State × Bool :=
  let (t, ok) := s.touch srcGranary [(recordAddr i, 64)]
  (t, ok && t.holds i step)

def genOf (s : State) (step : Nat) : Nat := step / max 1 s.job.every % 2
def buddyRecord (r g : Nat) : Nat := 1 + 2 * r + g

/-- Where this chip keeps a buddy generation of a role: the areas of roles with one BUDDY follow each other (log
entry 18). -/
def State.buddyArea (s : State) (r g : Nat) : Nat :=
  let same := ((List.range r).filter (fun q => (s.role q).2.1 == (s.role r).2.1)).length
  (if g = 0 then s.job.buddy0 else s.job.buddy1) + same * s.job.areaLen

/-- The regions as they stand, read through the protection code, padded to 4 KiB each. -/
def readRegions : List (Nat × Nat × Bool) → State → List Byte → State × Option (List Byte)
  | [], s, acc => (s, some acc)
  | (b, n, _) :: r, s, acc =>
    match s.read srcGranary b n with
    | (t, none) => (t, none)
    | (t, some bs) => readRegions r t (acc ++ padTo (up4k n) bs)

/-- The snapshot before step k's is sealed, or k's is the first (R613). -/
def State.sealReady (s : State) (k : Nat) : Bool :=
  let last := s.fld sysGrnStatus 0 32
  decide (k < s.job.every) || (decide (last ≠ 0xFFFFFFFF) && decide (k ≤ last + s.job.every)) ||
    s.rcv.restoredK0 == some (BitVec.ofNat 32 (k - s.job.every))

/-- The copy of a snapshot starts: its header and its record say WRITING (R611, R615). -/
def State.startCopy (s : State) (sn : Snap) (r : Nat) : State :=
  let a := s.job.localArea
  (s.write srcGranary a (headerBytes s sn r [] 1)).putRecord 0 r 0xFF 1 sn.step.toNat a

/-- The snapshot point of a step: ingest is held and the copies are posted (R610). -/
def State.snapPoint (s : State) (k : Nat) : State :=
  match s.myRole with
  | none => s
  | some r =>
    let sn : Snap := { step := BitVec.ofNat 32 k, ingestWas := s.bit drlCtrl 16, ingSeq := s.reg drlIngSeq, mseq := s.mems.mseq,
                       ledger := s.shf.ledger, started := s.sealReady k }
    let s1 := { s.clrBit drlCtrl 16 with rcv := { s.rcv with snap := some sn } }
    if sn.started then s1.startCopy sn r else s1

/-- An update-phase plan of a step. -/
def Plan.phaseOf (q : Plan) (k : BitVec 32) : Bool := q.phase && q.step == k

/-- No phase plan of a step is posted, queued or running (R610). -/
def State.phasesDone (s : State) (k : BitVec 32) : Bool :=
  s.engines.all (fun p =>
    p.2.queue.all (fun q => !q.phaseOf k) &&
    (match p.2.running with
     | none => true
     | some q => !q.phaseOf k)) &&
  s.fifos.all (fun p => p.2.all (fun x => match x with
    | .plan _ q => !q.phaseOf k
    | .command _ _ => true))

-- Sending a snapshot (R612).

/-- The BULK messages of a run of a snapshot, 4,096 bytes each, from an area. Bytes with an uncorrectable error are not sent:
the receiver then misses them and asks again (R612). -/
def State.sendBulk (s : State) (dest kind role step area : Nat) (offs : List Nat) : State :=
  offs.foldl (fun t o =>
    match t.read srcGranary (area + o) 4096 with
    | (u, none) => u
    | (u, some bs) => u.send (mkMsg 3 0x35 dest false (bulkBytes kind role step o bs))) s

/-- Offsets of the header block, and of the regions that pass a test. -/
def headerOffs : List Nat := [0, 4096]
def State.bodyOffs (s : State) (keep : Bool → Bool) : List Nat :=
  (s.placed.filter (fun r => keep r.2.2.2)).flatMap (fun r => (List.range (up4k r.2.2.1 / 4096)).map (fun i => 8192 + r.1 + 4096 * i))

/-- Send a RECOVERY message to one chip. -/
def State.sendRec (s : State) (dest : Nat) (bs : List Byte) : State := s.send (mkMsg 0 0x07 dest false bs)

/-- Push the local copy of a snapshot to the role's buddy, with DONE at the end. -/
def State.pushTo (s : State) (dest r : Nat) (k : BitVec 32) : State :=
  let s1 := s.sendBulk dest 0 r k.toNat s.job.localArea (headerOffs ++ s.bodyOffs (fun _ => true))
  { s1 with rcv := { s1.rcv with pushing := some k } }.sendRec dest
    (recBytes 6 0 s.chip s.rcv.rseq.toNat 0 0 s.chip 0 s.bodyLen)

-- The leader's bookkeeping (R613, R622, R626).

/-- Codes of the recovery states (R632). -/
def recCode : RecState → Nat
  | .run => 0
  | .restore => 1
  | .fill => 2
  | .waitHost => 3
  | .waitSpare => 4
  | .ready => 5
  | .stopped => 6

/-- A STATUS of this module, with its own recovery state (R616). -/
def statusBytes (s : State) (chip step code : Nat) : List Byte :=
  recBytes 2 0 chip s.rcv.rseq.toNat 0 step s.chip (recCode s.rcv.st) code

/-- A seal is received or issued here: SEALED, and a local copy that waited may start (R613, R624). -/
def State.takeSeal (s : State) (k : Nat) : State :=
  let s1 := s.setFld sysGrnStatus 0 32 k
  let s2 := { s1 with rcv := { s1.rcv with retries := 0, lastK0 := none, retireDue := !s1.rcv.retireReq.isEmpty } }
  match s2.rcv.snap, s2.myRole with
  | some sn, some r =>
    if ¬ sn.started ∧ s2.sealReady sn.step.toNat then
      { s2 with rcv := { s2.rcv with snap := some { sn with started := true } } }.startCopy sn r
    else s2
  | _, _ => s2

/-- A chip reports its snapshot; once every role with a holder has reported, the master seals it (R613). -/
def State.notePush (s : State) (chip k : Nat) : State :=
  match s.roleOf chip with
  | none => s
  | some r =>
    let got := insertChip r s.rcv.pushedRoles
    let all := s.roleList.all (fun q => s.holder q == 0xFFFF || got.contains q)
    if all then
      let s1 := { s with rcv := { s.rcv with pushedRoles := [] } }
      (s1.sendGroup (mkMsg 0 0x07 0 true (recBytes 5 0 s.chip s.rcv.rseq.toNat 0 k s.chip 0 0))).takeSeal k
    else { s with rcv := { s.rcv with pushedRoles := got } }

/-- A RESUME is received or issued here (R58, R606, R622). -/
def State.takeResume (s0 : State) (rseq tick step : Nat) : State :=
  let s := s0.lateFault tick
  if rseq ≠ s.rcv.rseq.toNat ∨ ¬ s.rcv.covered then s
  else
    let s1 := { s with rcv := { s.rcv with covered := false, sentFor := none } }
    if tick ≤ s.furCount.toNat then s1
    else { s1 with rcv := { s1.rcv with resumeAt := some (BitVec.ofNat 64 tick, BitVec.ofNat 32 step) } }

/-- The leader issues RESUME once every live member is READY (R622). -/
def State.resumeIfReady (s : State) (ns : Nat) : State :=
  if s.isMaster ∧ s.rcv.covered ∧ s.rcv.st = .ready ∧ s.liveList.all (fun c => s.rcv.readyChips.contains c) then
    let tick := s.targetTick ns
    let step := (s.fld sysRecStep 0 32 + 1) % 2 ^ 32
    (s.sendGroup (mkMsg 0 0x07 0 true (recBytes 3 0 s.chip s.rcv.rseq.toNat tick step s.chip 0 0))).takeResume
      s.rcv.rseq.toNat tick step
  else s

def State.noteReady (s : State) (chip : Nat) : State :=
  { s with rcv := { s.rcv with readyChips := insertChip chip s.rcv.readyChips } }

/-- Report to the leader: by a STATUS, or at once where this module leads. -/
def State.reportPush (s : State) (k code : Nat) : State :=
  match s.master with
  | none => s
  | some m => if m = s.chip then s.notePush s.chip k else s.sendRec m (statusBytes s s.chip k code)

def State.reportReady (s : State) : State :=
  match s.master with
  | none => s
  | some m => if m = s.chip then s.noteReady s.chip else s.sendRec m (statusBytes s s.chip 0 0)

/-- SNAPSHOT_COPY_DONE: the local copy is complete, ingest resumes, and the push begins or is reported as made without a
buddy (R610 to R613). An uncorrectable error leaves the copy unfinished. -/
def execSnapshotCopyDone (s : State) : Out :=
  match s.rcv.snap, s.myRole with
  | some sn, some r =>
    if ¬ sn.started ∨ ¬ s.phasesDone sn.step then stutter s
    else
      match readRegions s.job.regions s [] with
      | (t, none) => .next t
      | (t, some body) =>
        let k := sn.step.toNat
        let a := s.job.localArea
        let t1 := (t.write srcGranary (a + 8192) body).write srcGranary a (headerBytes t sn r (shake256 body 32) 2)
        let t2 := (t1.putRecord 0 r 0xFF 2 k a).setFld sysGrnStatus 32 32 k
        let t3 := if sn.ingestWas then t2.setBit drlCtrl 16 else t2
        let t4 := { t3 with rcv := { t3.rcv with snap := none } }.checkLeaf (sn.step + 1)
        match t4.buddyOf r with
        | none => .next (t4.reportPush k 2)
        | some b => .next (t4.pushTo b r sn.step)
  | _, _ => stutter s

-- Roles and sources (R619, R627).

/-- The lowest live chip that holds no role. -/
def State.spareChip (s : State) : Option Nat :=
  s.liveList.find? (fun c => !s.mems.leaving.contains c && (s.roleOf c).isNone)

/-- Rewrite the words of a table that name a chip (R619). -/
def renameWords (old new : Nat) : Nat → Nat → State → State
  | 0, _, s => s
  | n + 1, a, s =>
    match if jobReach a 8 then s.read srcGranary a 8 else (s, none) with
    | (t, none) => renameWords old new n (a + 8) t
    | (t, some bs) =>
      let w := leNat bs
      renameWords old new n (a + 8) (if w % 2 ^ 16 = old then t.writeNat srcGranary a 8 (w - old + new) else t)

/-- A descriptor of 64 bytes is read; the bytes are none where it is out of reach or lost (R404, R422). -/
def State.readDesc (s : State) (a : Nat) : State × Option (List Byte) :=
  if jobReach a 64 then s.read srcGranary a 64 else (s, none)

/-- Rewrite every ownership and partition word that names a failed chip (R259, R299, R619); words and descriptors out of reach
are left alone (R404). -/
def State.renameChip (s : State) (old new : Nat) : State :=
  let s1 := (List.range 16).foldl (fun t i =>
    match t.readDesc (t.tableAddr i) with
    | (u, none) => u
    | (u, some _) => renameWords old new (u.table i).nrange (u.table i).ownTab u) s
  (List.range 4).foldl (fun t g =>
    match t.readDesc (graphAddr t g) with
    | (u, none) => u
    | (u, some bs) => renameWords old new (graphOf bs).nrange (graphOf bs).partTab u) s1

/-- A role whose holder has failed or leaves. -/
def State.orphan (s : State) (r : Nat) : Bool :=
  let h := s.holder r
  h != 0xFFFF && (!s.live h || s.mems.leaving.contains h)

/-- Give an orphaned role to a spare, drop it, or report that a spare is missing (R619). -/
def placeRole (p : State × Bool) (r : Nat) : State × Bool :=
  let (s, wait) := p
  if ¬ s.orphan r then (s, wait)
  else
    let old := s.holder r
    let put (c : Nat) : State := { s with mems := { s.mems with roleMap := Tab.put s.mems.roleMap r (BitVec.ofNat 16 c) } }
    match s.spareChip with
    | some c => ((put c).renameChip old c, wait)
    | none => if (s.role r).2.2.2 / 2 % 2 = 1 then (put 0xFFFF, wait) else (s, true)

/-- The source of a role's replicated regions: the lowest live chip that held a role of its GROUP at the restore point and is
not the role's holder; a retiring module still serves (R619, R626). -/
def State.groupSource (s : State) (r : Nat) : Option Nat :=
  let g := (s.role r).2.2.1
  let held (q : Nat) : Nat := (Tab.get s.rcv.heldAt 0xFFFF q).toNat
  let cs := ((s.roleList.filter (fun q => (s.role q).2.2.1 == g)).map held).filter (fun c => c != s.holder r)
  if g = 0xFFFF then none else s.liveList.find? (fun c => cs.contains c)

/-- A role of this module has no source left among orders 1 to 3: it waits for the host's copy, and the leader hears of it by
its state, or acts on it at its next tick (R619, R625; log entry 62). -/
def State.noSource (s0 : State) (k : Nat) : State :=
  let s := { s0 with rcv := { s0.rcv with st := .waitHost } }
  match s.master with
  | none => s
  | some m => if m = s.chip then { s with rcv := { s.rcv with hostDue := true } } else s.sendRec m (statusBytes s s.chip k 0)

/-- The chips that hold what orders 2 and 3 name for a role: of its GROUP, and its buddy; the buddy alone once the others have
failed (R619, R625). -/
def State.sourceChips (s : State) (r : Nat) : List Nat :=
  ((if s.rcv.buddyOnly then [] else (s.groupSource r).toList) ++ (s.buddyChip r).toList).eraseDups.filter (fun c => c != s.chip)

/-- Ask the sources of this module's role for its regions, by a STATUS RESEND that names this chip (R625, log entry 62). -/
def State.askFill (s0 : State) (r : Nat) : State :=
  let s := { s0 with rcv := { s0.rcv with asked := true } }
  let l := s.sourceChips r
  if l.isEmpty then s.noSource s.rcv.k0.toNat
  else l.foldl (fun t c => t.sendRec c (statusBytes t t.chip 0 1)) s

/-- The DONE messages that a fill of a role awaits. -/
def State.fillSources (s : State) (r : Nat) : Nat :=
  match s.groupSource r, s.buddyChip r with
  | some g, some b => if s.rcv.buddyOnly || g == b then 1 else 2
  | none, none => 0
  | _, _ => 1

/-- A digest has failed: the regions are fetched once more from the same sources, then from the next, and at last the leader
hears that none is left (R625). -/
def State.fetchAgain (s : State) (r : Nat) : State :=
  let (g, b) := (s.groupSource r, s.buddyChip r)
  if ¬ s.rcv.failed ∧ b ≠ some s.chip then { s with rcv := { s.rcv with failed := true } }.askFill r
  else if ¬ s.rcv.buddyOnly ∧ g.isSome ∧ b.isSome ∧ g ≠ b ∧ b ≠ some s.chip then
    { s with rcv := { s.rcv with failed := false, buddyOnly := true } }.askFill r
  else s.noSource s.rcv.k0.toNat

/-- A digest has failed for the local area of a module whose holder is unchanged: it is copied once more, and then the next
sources are asked (R619, R625). -/
def State.localAgain (s : State) (r k : Nat) : State :=
  if ¬ s.rcv.failed then { s with rcv := { s.rcv with failed := true } }
  else ({ s with rcv := { s.rcv with failed := false } }.putRecord 0 r 0xFF 0 k s.job.localArea).askFill r

/-- Count what a BULK message of a push or fill has brought; its area's STATE stays WRITING until DONE. -/
def State.bulkInto (s : State) (fill : Bool) (role step base off : Nat) (data : List Byte) : State :=
  let same (x : BulkRx) : Bool := x.fill == fill && x.role.toNat == role && x.step.toNat == step
  let old := (s.rcv.rx.find? same).getD ⟨fill, BitVec.ofNat 16 role, BitVec.ofNat 32 step, base, [], 0, 0⟩
  let new := if off < 8192 ∨ old.got.contains off then old
    else { old with got := old.got ++ [off], bytes := old.bytes + data.length }
  let d := if off = 0 then data.take 104 ++ leBytes 1 1 ++ data.drop 105 else data
  let s1 := s.write srcRemote (base + off) d
  { s1 with rcv := { s1.rcv with rx := s1.rcv.rx.filter (fun x => !same x) ++ [new] } }

/-- Such a message for the local area: the first of them sets its record to WRITING (R615). -/
def State.fillInto (s : State) (r k off : Nat) (data : List Byte) : State :=
  let t := s.bulkInto true r k s.job.localArea off data
  if s.rcv.rx.any (fun x => x.fill && x.role.toNat == r && x.step.toNat == k) then t else t.putRecord 0 r 0xFF 1 k t.job.localArea

/-- The header and body of an area agree: BODY_LEN, the bytes received and the DIGEST (R612). -/
def State.pushGood (s : State) (x : BulkRx) (len : Nat) : Bool :=
  let h := s.views x.base 128
  decide (x.bytes = len) && decide (msgNat h 24 8 = len) &&
    decide ((h.drop 64).take 32 = shake256 (s.views (x.base + 8192) len) 32)

/-- What the check of a received area reads. -/
def BulkRx.area (x : BulkRx) (len : Nat) : List (Nat × Nat) := [(x.base, 128), (x.base + 8192, len)]

/-- DONE from one source of a fill; after the last, the local area is COMPLETE or its regions are fetched again. -/
def State.endFill (s : State) (len : Nat) (x : BulkRx) : State :=
  let rest := s.rcv.rx.filter (fun y => y != x)
  if x.dones + 1 < s.fillSources x.role.toNat then
    { s with rcv := { s.rcv with rx := rest ++ [{ x with dones := x.dones + 1 }] } }
  else
    let (s0, ok) := s.touch srcRemote (x.area len)
    let s1 := { s0 with rcv := { s0.rcv with rx := rest } }
    let r := x.role.toNat
    if ok && s0.pushGood x len then (s1.write srcRemote (x.base + 104) (leBytes 1 2)).putRecord 0 r 0xFF 2 x.step.toNat x.base
    else s1.fetchAgain r

/-- A source of the fill that this module awaits has sent DONE alone. -/
def State.lostSource (s : State) (role : Option Nat) (len : Nat) : State :=
  match role with
  | none => s
  | some r =>
    if s.rcv.st = .fill ∨ (s.rcv.st = .restore ∧ s.rcv.asked) then
      s.endFill len ⟨true, BitVec.ofNat 16 r, s.rcv.k0, s.job.localArea, [], 0, 0⟩
    else s

/-- A new holder that keeps the buddy generation of its role itself takes it from there (R612, R619). -/
def State.fillHere (s : State) (r k area : Nat) (offs : List Nat) : State :=
  let s1 := offs.foldl (fun t o =>
    match t.read srcGranary (area + o) 4096 with
    | (u, none) => u
    | (u, some bs) => u.fillInto r k o bs) s
  match s1.rcv.rx.find? (fun x => x.fill) with
  | some x => s1.endFill s1.bodyLen x
  | none => s1

/-- This module sends some offsets of a snapshot that it holds to the holder of a role, with DONE at the end. -/
def State.fillRole (s : State) (r k area : Nat) (offs : List Nat) : State :=
  let dest := s.holder r
  if dest = s.chip then s.fillHere r k area offs
  else (s.sendBulk dest 1 r k area offs).sendRec dest (recBytes 6 0 s.chip s.rcv.rseq.toNat 0 0 s.chip 0 s.bodyLen)

/-- What this module sends for role r at the restore point k, as the one that keeps its buddy generation and as the one of its
GROUP: at the HALT tick its own part, and to a holder that asks all that it has. One without the snapshot sends DONE alone, so
that the holder turns to the next source (R619, R625, log entry 62). -/
def State.sourceRole (s : State) (k r : Nat) (asked : Bool) : State :=
  let (g, b) := (s.groupSource r, s.buddyChip r)
  let me := some s.chip
  if b = me then
    let repl := asked || g.isNone || g == b
    let (t, has) := s.readHolds (buddyRecord r (genOf s k)) k
    t.fillRole r k (t.buddyArea r (genOf t k)) (if has then headerOffs ++ t.bodyOffs (fun rep => !rep || repl) else [])
  else if g = me then
    let (t, has) := s.readHolds 0 k
    t.fillRole r k t.job.localArea (if has then t.bodyOffs id else [])
  else s

-- The HALT tick (R618, R620).

/-- Furrow and step bookkeeping beyond the restore point is forgotten; the replay builds it anew. -/
def State.forgetSteps (s : State) (k0 : BitVec 32) : State :=
  let keep (t : Tab Word) : Tab Word := t.filter (fun p => k0 != 0xFFFFFFFF && decide (p.1 ≤ k0.toNat))
  { s with fur := { s.fur with starts := keep s.fur.starts, ends := keep s.fur.ends, withheld := none,
                               signalled := s.fur.signalled.filter (fun k => k0 != 0xFFFFFFFF && decide (k.toNat ≤ k0.toNat)) },
           engines := s.engines.map (fun (p : Nat × EngSt) => (p.1, { p.2 with parts := [] })) }

/-- A snapshot in progress is abandoned and ingest goes on. -/
def State.dropSnap (s : State) : State :=
  let s1 := match s.rcv.snap with
    | some sn => if sn.ingestWas then s.setBit drlCtrl 16 else s
    | none => s
  { s1 with rcv := { s1.rcv with snap := none, pushing := none, pushedRoles := [], rx := [] } }

/-- The resets of the HALT tick (R618, items 1 to 5); `advanced` says that the stook epoch has advanced at this tick. -/
def State.haltResets (s : State) (advanced : Bool) : State :=
  let s1 := s.resetStrips.resetDrill
  let s2 := ((List.range 12).foldl State.resetHedge s1).resetServe.resetReduce
  let s3 := s2.clearDir.clearSheaf
  let s4 := (s3.mems.dead ++ s3.mems.gone).foldl State.fenceChip s3
  if advanced then s4 else s4.epochAdvance

/-- The values that a restore takes from the snapshot header (R621), whose reads are counted where it is checked. -/
def State.setFromHeader (s : State) (k0 : BitVec 32) : State :=
  let h := s.views s.job.localArea 8192
  let k := k0.toNat
  let n := (k + 1) % 2 ^ 32
  let s1 := ((s.setFld furStep 0 32 n).setReg drlIngSeq (BitVec.ofNat 64 (msgNat h 96 8))).setFld drlSampled 0 32 k
  let s2 := { s1 with drl := { s1.drl with lastApply := none } }.setReg glnFence (BitVec.ofNat 64 (n + n * 2 ^ 32))
  let s3 := s2.job.amax.foldl (fun t a => t.writeNat srcGranary (a + 68) 4 0) s2
  let ledger := (List.range 256).map (fun i =>
    let o := 128 + 16 * i
    let w := msgNat h (o + 4) 4
    (i, ({ pub := BitVec.ofNat 32 (msgNat h o 4), writing0 := w % 2 = 1, writing1 := w / 2 % 2 = 1,
           users0 := BitVec.ofNat 24 (msgNat h (o + 8) 4), users1 := BitVec.ofNat 24 (msgNat h (o + 12) 4) } : Ledger)))
  let s4 := { s3 with shf := { s3.shf with ledger := ledger.filter (fun p => p.2 != ({} : Ledger)) } }.openBanks (BitVec.ofNat 32 n)
  let slots := s4.job.results.map (fun (p : Nat × ResSlot) =>
    if p.2.st ≠ .free ∧ p.2.step.toNat > k then (p.1, { p.2 with st := .free }) else p)
  { s4 with job := { s4.job with results := slots }, rcv := { s4.rcv with restoredK0 := some k0 } }

/-- A module becomes READY and says so (R620). -/
def State.becomeReady (s : State) : State := { s with rcv := { s.rcv with st := .ready } }.reportReady

/-- The recovery state that the HALT tick leads to (R619, R620, R624, R625); a module that enters STOPPED keeps ALERT_N
asserted. -/
def State.enterRecovery (s : State) (h : Halt) (before : Tab (BitVec 16)) (wait : Bool) : State :=
  let kept := s.rcv.st == .ready && s.rcv.restoredK0 == some h.k0
  let goto (t : State) (st : RecState) : State := { t with rcv := { t.rcv with st := st } }
  if h.stop then (goto s .stopped).setAlert 7 true 0 0
  else
    match s.myRole with
    | none => if wait then goto s .waitSpare else s.becomeReady
    | some r =>
      let same := (Tab.get before 0xFFFF r).toNat == s.chip
      if wait then goto s .waitSpare
      else if kept ∧ same then
        match s.touch srcGranary [(s.job.localArea, 8192)] with
        | (t, true) => (t.setFromHeader h.k0).becomeReady
        | (t, false) => (goto t .restore).localAgain r h.k0.toNat
      else if h.host then goto s .waitHost
      else if same then
        let (t, has) := s.readHolds 0 h.k0.toNat
        if has then goto t .restore else (goto t .restore).askFill r
      else
        { goto s .fill with job := { s.job with spare := false } }

/-- The HALT tick (R618): the resets, the new holders of roles, the state of this module and the fills that it sources. -/
def State.haltTick (s : State) (h : Halt) (advanced : Bool) : State :=
  let before := s.mems.roleMap
  let s1 := ((s.haltResets advanced).dropSnap.forgetSteps h.k0).setFld sysRecStep 0 32 h.k0.toNat
  let s2 := { s1 with rcv := { s1.rcv with haltAt := none, k0 := h.k0, heldAt := before, failed := false, buddyOnly := false,
                                           asked := false, hostDue := false } }
  let (s3, wait) := s2.roleList.foldl placeRole (s2, false)
  let s4 := s3.enterRecovery h before wait
  if h.stop ∨ h.host ∨ wait then s4
  else
    (s4.roleList.filter (fun r => s4.holder r != 0xFFFF && s4.holder r != (Tab.get before 0xFFFF r).toNat)).foldl
      (fun t r => t.sourceRole h.k0.toNat r false) s4

-- Restoring (R619 to R621).

/-- The local area holds a complete snapshot of a step of this job whose DIGEST holds. -/
def State.areaGood (s : State) (k : Nat) : Bool :=
  let a := s.job.localArea
  let h := s.views a 128
  decide (msgNat h 0 8 = 0x47524E5434384C31) && decide (msgNat h 8 4 = k) && decide (msgNat h 104 1 = 2) &&
    decide (msgNat h 24 8 = s.bodyLen) && decide ((h.drop 32).take 32 = padTo 32 s.job.hash) &&
    decide ((h.drop 64).take 32 = shake256 (s.views (a + 8192) s.bodyLen) 32)

/-- Copy the regions back from the local area. -/
def State.writeRegions (s : State) : State :=
  s.placed.foldl (fun t r => t.write srcGranary r.2.1 (t.views (t.job.localArea + 8192 + r.1) r.2.2.1)) s

/-- The step that this module restores: in a host restore without k0, SYS_GRN_HOST (R625). -/
def State.restoreStep (s : State) : BitVec 32 :=
  if s.rcv.st = .waitHost then BitVec.ofNat 32 (s.fld sysGrnHost 0 32) else s.rcv.k0

/-- RESTORE_COMPLETE: every region is restored or filled and the DIGEST holds; the state is set from the header and READY is
reported. Where the DIGEST fails, the same source is taken once more and then the next is asked (R625). -/
def execRestoreComplete (s : State) : Out :=
  let k := s.restoreStep
  if (s.rcv.st ≠ .restore ∧ s.rcv.st ≠ .fill ∧ s.rcv.st ≠ .waitHost) ∨ k = 0xFFFFFFFF then stutter s
  else if s.rcv.st ≠ .waitHost ∧ ¬ s.holds 0 k.toNat then stutter s
  else
    match s.myRole with
    | none => stutter s
    | some r =>
      let (u, ok) := s.touch srcGranary [(s.job.localArea, 8192 + s.bodyLen)]
      if ok && u.areaGood k.toNat then
        let s1 := ((u.writeRegions.putRecord 0 r 0xFF 2 k.toNat s.job.localArea).setFld sysGrnStatus 32 32 k.toNat).setFld
          sysRecStep 0 32 k.toNat
        .next ({ s1 with rcv := { s1.rcv with k0 := k } }.setFromHeader k).becomeReady
      else if s.rcv.st = .waitHost then stutter s
      else if s.rcv.st = .restore ∧ ¬ s.rcv.asked then .next (u.localAgain r k.toNat)
      else .next ((u.putRecord 0 r 0xFF 0 k.toNat s.job.localArea).fetchAgain r)

-- BULK (R520, R612).

/-- The acknowledgement of a whole member state (R520). -/
def State.ackState (s : State) : State :=
  match s.master with
  | none => s
  | some m => s.sendRec m (recBytes 6 0 s.chip s.rcv.rseq.toNat 0 0 s.chip 0 16384)

/-- Adopt a member state once all four of its messages are here, and acknowledge it (R244, R520). -/
def State.adoptState (s : State) (epoch mseq : Nat) : State :=
  let data := ((List.range 4).map (fun i => Tab.get s.mems.received [] i)).flatten
  let bits := leNat (data.take 8192)
  let members := (List.range 65536).filter (fun c => bits / 2 ^ c % 2 = 1)
  let roles := (List.range 4096).filterMap (fun r =>
    let h := msgNat data (8192 + 2 * r) 2
    if h = 0xFFFF then none else some (r, BitVec.ofNat 16 h))
  { s with stkEpoch := BitVec.ofNat 16 epoch,
           mems := { s.mems with members := members, mseq := BitVec.ofNat 32 mseq, roleMap := roles, dead := [],
                                 leaving := [], gone := [], scheduled := [], received := [] } }.settleSync.ackState

/-- A part of a member-state transfer arrives at a module that is alone in its fabric, or at one that has adopted a state and
awaits its JOIN: a transfer sent again is taken and acknowledged again (R520, log entry 16). -/
def State.takeState (s : State) (epoch mseq off : Nat) (data : List Byte) : State :=
  if (s.mems.members.contains s.chip ∧ ¬ s.mems.members.all (fun c => c == s.chip)) ∨ off % 4096 ≠ 0 ∨ off / 4096 ≥ 4 then s
  else
    let got := Tab.put s.mems.received (off / 4096) data
    let s1 := { s with mems := { s.mems with received := got } }
    if [0, 1, 2, 3].all (fun i => (Tab.look got i).isSome) then s1.adoptState epoch mseq else s1

/-- A BULK message whose CRC holds takes effect by its KIND. -/
def State.takeBulk (s : State) (bs : List Byte) : State :=
  let role := msgNat bs 2 2
  let step := msgNat bs 4 4
  let off := msgNat bs 8 8
  let data := (bs.drop 32).take (msgNat bs 16 4)
  if data.length ≠ msgNat bs 16 4 ∨ (crc32c data).toNat ≠ msgNat bs 20 4 then s
  else
    match msgNat bs 0 1 with
    | 0 =>
      if role < s.job.roles.length ∧ s.buddyOf role = some s.chip ∧ off + data.length ≤ s.job.areaLen then
        let g := genOf s step
        let base := s.buddyArea role g
        let fresh := !s.rcv.rx.any (fun x => !x.fill && x.role.toNat == role && x.step.toNat == step)
        let s1 := s.bulkInto false role step base off data
        if fresh then s1.putRecord (buddyRecord role g) role g 1 step base else s1
      else s
    | 1 =>
      if s.myRole = some role ∧ (s.rcv.st = .restore ∨ s.rcv.st = .fill) ∧ step = s.rcv.k0.toNat ∧
          off + data.length ≤ s.job.areaLen then
        s.fillInto role step off data
      else s
    | 2 => s.takeState role step off data
    | _ => s

/-- BULK. -/
def execBulk (p : Port) (fs : List Flit) (s : State) : Out :=
  match s.rx p.val 3 0x35 fs with
  | .unfit => stutter s
  | .taken t => .next t
  | .msg t _ bs => .next (t.takeBulk bs)

/-- DONE ends a push from a chip: the generation is COMPLETE, or RESEND is asked for (R612). -/
def State.endPush (s : State) (from_ len : Nat) (x : BulkRx) : State :=
  let (s0, ok) := s.touch srcRemote (x.area len)
  let s1 := { s0 with rcv := { s0.rcv with rx := s0.rcv.rx.filter (fun y => y != x) } }
  let r := x.role.toNat
  let g := genOf s x.step.toNat
  if ok && s0.pushGood x len then
    let s2 := (s1.write srcRemote (x.base + 104) (leBytes 1 2)).putRecord (buddyRecord r g) r g 2 x.step.toNat x.base
    s2.sendRec from_ (statusBytes s2 from_ x.step.toNat 0)
  else s1.sendRec from_ (statusBytes s1 from_ x.step.toNat 1)

/-- DONE after which no message of its transfer was accepted: a push is asked for again, and a fill has lost its source (R612,
R625). -/
def State.emptyDone (s : State) (from_ len : Nat) : State :=
  match s.roleOf from_, s.myRole with
  | some q, r =>
    if s.buddyOf q = some s.chip ∧ (s.rcv.st = .run ∨ (r.map s.sourceChips).all (fun l => !l.contains from_)) then
      s.sendRec from_ (statusBytes s from_ 0 1)
    else s.lostSource r len
  | none, r => s.lostSource r len

/-- RECOVERY messages share one arrival. -/
def recRx (p : Port) (f : Flit) (kind : Nat) (s : State) (body : State → List Byte → State) : Out :=
  if f.pay 0 1 ≠ kind then stutter s
  else
    match s.rx p.val 0 0x07 [f] with
    | .unfit => stutter s
    | .taken t => .next t
    | .msg t _ bs => .next (body t bs)

/-- RECOVERY_DONE: the end of a push or of a fill, or a joining chip's acknowledgement (R520, R612). -/
def execRecoveryDone (p : Port) (f : Flit) (s : State) : Out :=
  recRx p f 6 s (fun t bs =>
    let from_ := msgNat bs 20 2
    let len := msgNat bs 24 8
    if t.isMaster ∧ t.mems.transfer = some (BitVec.ofNat 16 from_) ∧ len = 16384 then
      { t with mems := { t.mems with transfer := none, transferDone := insertChip from_ t.mems.transferDone } }
    else
      match t.rcv.rx.find? (fun x => !x.fill && t.roleOf from_ == some x.role.toNat) with
      | some x => t.endPush from_ len x
      | none =>
        match t.rcv.rx.find? (fun x => x.fill) with
        | some x => t.endFill len x
        | none => t.emptyDone from_ len)

-- The other RECOVERY messages.

/-- The leader starts a recovery for a job fault, unless one is pending (R617). -/
def State.leadFault (s : State) (chip ns : Nat) : State :=
  if s.rcv.covered then s else s.issueHalt 1 chip (s.targetTick ns) false

/-- RECOVERY_FAULT: a FAULT reaches the leader (R606, R617). -/
def execRecoveryFault (p : Port) (f : Flit) (ns : Nat) (s : State) : Out :=
  recRx p f 0 s (fun t bs =>
    if t.isMaster ∧ msgNat bs 4 4 ≥ t.rcv.rseq.toNat then t.leadFault (msgNat bs 2 2) ns else t)

/-- RECOVERY_HALT (R617, R624); a reserved ORDER is ignored. -/
def execRecoveryHalt (p : Port) (f : Flit) (s : State) : Out :=
  recRx p f 1 s (fun t bs =>
    if msgNat bs 28 4 > 1 then t
    else
      t.takeHalt { tick := BitVec.ofNat 64 (msgNat bs 8 8), rseq := BitVec.ofNat 32 (msgNat bs 4 4),
                   k0 := BitVec.ofNat 32 (msgNat bs 16 4), host := msgNat bs 22 1 = 1,
                   hostStep := BitVec.ofNat 32 (msgNat bs 24 4), stop := msgNat bs 28 4 = 1 })

/-- RECOVERY_STATUS: a confirmed or refused push, a request for a fill, a push report, a READY, or word that no source
remains (R612, R613, R622, R625). -/
def execRecoveryStatus (p : Port) (f : Flit) (ns : Nat) (s : State) : Out :=
  recRx p f 2 s (fun t bs =>
    let chip := msgNat bs 2 2
    let from_ := msgNat bs 20 2
    let st := msgNat bs 22 1
    let code := msgNat bs 24 8
    if chip = t.chip ∧ from_ ≠ t.chip then
      match t.rcv.pushing, t.myRole with
      | some k, some r =>
        if code = 1 then t.pushTo from_ r k
        else { t with rcv := { t.rcv with pushing := none } }.reportPush k.toNat 0
      | _, _ => t
    else if code = 1 then
      match t.roleOf chip with
      | none => t
      | some r => t.sourceRole t.rcv.k0.toNat r true
    else if ¬ t.isMaster then t
    else if st = 5 then
      if msgNat bs 4 4 = t.rcv.rseq.toNat then (t.noteReady from_).resumeIfReady ns else t
    else if st = 3 then
      if msgNat bs 4 4 = t.rcv.rseq.toNat ∧ t.rcv.covered then t.issueHalt 1 chip (t.targetTick ns) true else t
    else if st = 0 then t.notePush from_ (msgNat bs 16 4)
    else t)

/-- RECOVERY_RESUME (R622). -/
def execRecoveryResume (p : Port) (f : Flit) (s : State) : Out :=
  recRx p f 3 s (fun t bs => t.takeResume (msgNat bs 4 4) (msgNat bs 8 8) (msgNat bs 16 4))

/-- RECOVERY_LINKDOWN: a report that a link to a chip is down reaches the master (R518). -/
def execRecoveryLinkdown (p : Port) (f : Flit) (ns : Nat) (s : State) : Out :=
  recRx p f 4 s (fun t bs =>
    if ¬ t.isMaster then t
    else { t with mems := { t.mems with reports := t.mems.reports ++ [(msgNat bs 20 2, msgNat bs 2 2)] } }.judgeLinks ns)

/-- RECOVERY_SEAL (R613). -/
def execRecoverySeal (p : Port) (f : Flit) (s : State) : Out := recRx p f 5 s (fun t bs => t.takeSeal (msgNat bs 16 4))

/-- A retirement is asked for: a module fault, on which the leader acts at the next seal (R605, R626). -/
def State.noteRetire (s : State) (chip : Nat) : State :=
  let t := s.moduleFault chip
  { t with rcv := { t.rcv with retireReq := insertChip chip t.rcv.retireReq } }

/-- RECOVERY_RETIRE: a request reaches the leader, who acts on it at the next seal. -/
def execRecoveryRetire (p : Port) (f : Flit) (s : State) : Out :=
  recRx p f 7 s (fun t bs => if t.isMaster then t.noteRetire (msgNat bs 2 2) else t)

/-- A write of SYS_REC_CTRL: MAX_RETRY, and with RETIRE 1 a request to the leader (R626, R632). -/
def State.recCtrlSet (s : State) (v : Word) : State :=
  let s1 := s.writePlain sysRecCtrl v
  if ¬ v.getLsbD 0 then s1
  else
    match s1.master with
    | none => s1.moduleFault s.chip
    | some m =>
      if m = s.chip then s1.noteRetire s.chip
      else (s1.moduleFault s.chip).sendRec m (recBytes 7 2 s.chip s.rcv.rseq.toNat 0 0 s.chip 0 0)

/-- RETIRE_WRITE: a write of SYS_REC_CTRL with RETIRE 1. -/
def execRetireWrite (v : Word) (s : State) : Out := if v.getLsbD 0 then .next (s.recCtrlSet v) else stutter s

/-- The retirements that a seal has made due: a LEAVE for each, and recovery without the modules (R626). -/
def State.retireNow (s : State) (ns : Nat) : State :=
  match s.rcv.retireReq with
  | [] => s
  | c :: r =>
    if ¬ s.isMaster ∨ ¬ s.rcv.retireDue ∨ s.rcv.covered then s
    else
      let tick := s.targetTick ns
      let s1 := (c :: r).foldl (fun t x => t.issueMember 2 x tick) { s with rcv := { s.rcv with retireReq := [], retireDue := false } }
      s1.issueHalt 2 c tick false

/-- The RESUME tick: retired members leave, the indices of abandoned row reads are free, and the step after the restore point
may begin (R622, R626). -/
def State.resumeTick (s : State) : State :=
  let gone := s.mems.leaving
  let m := { s.mems with members := s.mems.members.filter (fun c => !gone.contains c), leaving := [],
                         gone := gone.foldl (fun l c => insertChip c l) s.mems.gone }
  let s1 := { s with mems := m, rcv := { s.rcv with st := .run, resumeAt := none } }
  s1.freeReads.settleSync.setAlert 7 false 0 0

end Sys2Proof.Machine
end

