-- ==== Sys2Proof/Machine/Scrub.lean ====
section
/-!
DEFINITION. The scrubbers, the write-back of corrected lines and the hourly counts (R426 to R430, R439).
-/

namespace Sys2Proof.Machine
open Sys2Proof

/-- Bit upsets that a line has met are XORed into its symbols. -/
def State.upset (s : State) (line : Nat) (ups : List (Fin 68 × Byte)) : State :=
  let errs := ups.foldl (fun e u => addErr e (u.1.val, u.2)) (Tab.get s.flips [] line)
  { s with flips := if errs.isEmpty then Tab.drop s.flips line else Tab.put s.flips line errs }

/-- Requester code of the scrubbers (R443). -/
def srcScrub : Nat := 0x1FF

/-- A scrub read of one line: it corrects and queues a write-back, or reports an uncorrectable error (R426, R427). -/
def State.scrubLine (s : State) (line : Nat) : State :=
  let t := s.clcAccess false line 64
  match s.decode line with
  | .clean _ => t
  | .fixed left => (t.countCe line).queueBack line left
  | .bad syn => t.reportUe srcScrub (lineKind line) line syn false

/-- The data lines of a line's check line: 1,024 bytes of its channel (R418). -/
def checkMates (gr line : Nat) : List Nat :=
  let (ch, o) := dramChannel gr line
  checkedLines gr ch (o / 1024)

/-- The check line of a data line has met an uncorrectable error: it is reported once, and the 16 data lines that it covers
can no longer be decoded (R424). -/
def State.loseCheck (s : State) (line : Nat) : State :=
  let gr := ilvBytes (s.fld memCtrl 2 2)
  if (checkMates gr line).any s.lost.contains then s
  else
    let name := checkLineName gr line
    let t := s.reportUe srcScrub .check name (leBytes 4 (Config.freeReading memUeSyn name).toNat) false
    { t with lost := t.lost ++ checkMates gr line }

/-- The next line of the SRAM scrubber: plot SRAM and then the base-die buffers. -/
def nextSram (a : Nat) : Nat :=
  if a + 64 = plotEnd then bufBase else if a + 64 = bufEnd then plotBase else a + 64

def State.sramLine (s : State) : Nat := if inPlot s.sramPos || inBuf s.sramPos then s.sramPos else plotBase

/-- The next line of the DRAM scrubber; a position past the data lines begins again at 0. -/
def State.dramLine (s : State) : Nat :=
  let a := lineOf (s.fld memScrubPos 0 48)
  if a < dramEnd then a else 0

/-- An uncorrectable error of a part with a code of its own is reported with kind OTHER (R425, R442); in a link buffer
SPX_ERR.MEM is set too (R529). -/
def State.codedError (s : State) (x : CodedPart) : State :=
  let report (t : State) (src a : Nat) : State := t.reportUe src .other a (leBytes 4 (Config.freeReading memUeSyn a).toNat) false
  match x with
  | .tile a => report s (engWin ((a.toNat - winBaseAddr) / 0x100000 % 64)) a.toNat
  | .record st => report s (engWin st.val) 0
  | .fifo st => report s (srcHdl st.val) 0
  | .link _ => report (s.setBit spxErr 4) srcRemote 0

/-- SCRUB_READ: one of the scrubbers reads its next line, which may have met upsets; in DRAM its check line, in the cache or in
DRAM, may have met an uncorrectable error (R424, R426). What a part with a code of its own has shown since the last read is
reported with it (log entry 107). -/
def execScrubRead (sram : Bool) (upsets : LineUpsets) (s0 : State) : Out :=
  let s := (upsets.coded.map s0.codedError).getD s0
  if ¬ s.bit memStatus 0 then stutter s0
  else if sram then
    if ¬ s.bit memCtrl 1 ∨ s.bit memStatus 2 then stutter s0
    else
      let a := s.sramLine
      let t := (s.upset a upsets.symbols).scrubLine a
      .next { t with sramPos := nextSram a }
  else if ¬ s.bit memCtrl 0 ∨ s.bit memStatus 1 then stutter s0
  else
    let a := s.dramLine
    let u := s.upset a upsets.symbols
    let t := (if upsets.checkLost then u.loseCheck a else u).scrubLine a
    .next (t.setFld memScrubPos 0 48 (if a + 64 < dramEnd then a + 64 else 0))

/-- SCRUB_WRITEBACK: the oldest corrected line is written back unless a later write has superseded it; the scrubbers stop while
DRAM is in self-refresh and the SRAMs hold at retention voltage (R429, R433). -/
def execScrubWriteback (s : State) : Out :=
  match s.wbq with
  | [] => stutter s
  | w :: r =>
    let t := { s with wbq := r }
    if s.bit memStatus (if inDram w.line then 1 else 2) then stutter s
    else if w.stale then .next (t.count memCntScrubDrop 1)
    else
      let data := applyLeft w.left w.line w.line (t.peeks w.line 64)
      .next ((t.write srcScrub w.line data).count memCntScrubFix 1)

/-- The hour of every channel begins again: HOUR and HIGH clear (R446). -/
def clearHours (csr : Tab Word) : Tab Word :=
  csr.map (fun e =>
    if memBase + 0x1000 ≤ e.1 ∧ e.1 < memBase + 0x1000 + 8 * 384 then (e.1, putBits e.2 32 17 0) else e)

/-- CE_HOUR_ROLLOVER. -/
def execCeHourRollover (s : State) : Out :=
  .next (({ s with csr := clearHours s.csr }.clrBit memStatus 3).setAlert 4 false 0 0)

/-- A write of MEM_SCRUB: each field takes a value in its range and otherwise keeps its own (R439). -/
def State.memScrubSet (s : State) (v : Word) : State :=
  let d := natBits v.toNat 0 16
  let m := natBits v.toNat 16 16
  let s1 := if 60 ≤ d ∧ d ≤ 10080 then s.setFld memScrub 0 16 d else s
  if 10 ≤ m ∧ m ≤ 60000 then s1.setFld memScrub 16 16 m else s1

/-- MEM_SCRUB_WRITE. -/
def execMemScrubWrite (v : Word) (s : State) : Out := .next (s.memScrubSet v)

end Sys2Proof.Machine
end

