-- ==== Sys2Proof/Machine/Health.lean ====
section
/-!
DEFINITION. Alarms of the sensors, stubble gauges and the wear model (R645 to R650).
-/

namespace Sys2Proof.Machine
open Sys2Proof

-- Sensor alarms (R19, R29, R40, R645).

/-- The alert bit of a sensor's source. -/
def sensorBit : Sensor → Nat
  | .vin => 0
  | .tj => 1
  | .coolant => 2

/-- A reading beyond the limit that raises the source: mV or °C. -/
def sensorRaises : Sensor → Nat → Bool
  | .vin, v => decide (v < 44000) || decide (v > 54000)
  | .tj, v => decide (v > 105)
  | .coolant, v => decide (v > 45)

/-- A reading that clears it. -/
def sensorClears : Sensor → Nat → Bool
  | .vin, v => decide (44000 ≤ v) && decide (v ≤ 54000)
  | .tj, v => decide (v ≤ 102)
  | .coolant, v => decide (v ≤ 44)

/-- A reading of a junction sensor also moves TJ_PEAK (R652). -/
def State.sawSensor (s : State) (src : Sensor) (value : Nat) : State := if src = .tj then s.sawJunction value else s

/-- SENSOR_ALARM_RAISE. -/
def execSensorAlarmRaise (src : Sensor) (sensor : BitVec 16) (value : BitVec 32) (s : State) : Out :=
  if ¬ s.pins.supervisory ∨ ¬ sensorRaises src value.toNat then stutter s
  else .next ((s.sawSensor src value.toNat).setAlert (sensorBit src) true value.toNat sensor.toNat)

/-- SENSOR_ALARM_CLEAR. -/
def execSensorAlarmClear (src : Sensor) (sensor : BitVec 16) (value : BitVec 32) (s : State) : Out :=
  if ¬ s.pins.supervisory ∨ ¬ sensorClears src value.toNat then stutter s
  else .next ((s.sawSensor src value.toNat).setAlert (sensorBit src) false value.toNat sensor.toNat)

-- Gauges (R647, R648).

/-- The gauges of a subsystem, by their row of R647. -/
def gaugesOf (sub : Nat) : List Nat :=
  if sub < 64 then [0, 1] else if sub < 72 then [2, 3] else if sub < 84 then [5] else if sub < 101 then [4] else [6]

/-- The fresh and limit values of R647 as whole numbers of one unit, for the gauges read outside. -/
def gaugeScale (g : Nat) : Int × Int :=
  match g with
  | 0 => (0, 4)
  | 1 => (120, 20)
  | 2 => (38, 50)
  | _ => (100, 150)

/-- The margin of a reading (R647). -/
def marginOf (x fresh limit : Int) : Nat := (clampInt (65535 * (limit - x) / (limit - fresh)) 0 65535).toNat

def gaugeKey (sub g : Nat) : Nat := 8 * sub + g

/-- The highest HOUR count of a hedge die's channels (R411, R446). -/
def State.dieHours (s : State) (die : Nat) : Nat :=
  (List.range 32).foldl (fun m i => max m (s.fld (memCeCh (32 * die + i)) 32 16)) 0

/-- The highest erase count of the flash's sectors. -/
def State.mostErased (s : State) : Nat :=
  s.csr.foldl (fun m e => if stbErase 0 ≤ e.1 ∧ e.1 < stbErase 4096 then max m e.2.toNat else m) 0

/-- A gauge is read in IDLE and ACTIVE; in fallow only the retention monitors are (R639, R647). -/
def State.gaugeRuns (s : State) (g : Nat) : Bool := s.pow.st == 0 || s.pow.st == 1 || g == 2

/-- A margin is stored. -/
def State.setMargin (s : State) (sub g m : Nat) : State :=
  { s with pow := { s.pow with margins := Tab.put s.pow.margins (gaugeKey sub g) m } }

/-- One reading. The error counts of the hedge dies and the erase counts of the flash are the module's own. -/
def State.takeReading (s : State) (r : GaugeReading) : State :=
  let g := r.gauge.val
  let sub := r.sub.val
  if ¬ (gaugesOf sub).contains g ∨ ¬ s.gaugeRuns g then s
  else if g = 5 then
    let limit := 10 * s.fld memCeThresh 0 32
    if limit = 0 then s.draw.setMargin sub g (Config.freeMargin s.draws).toNat
    else s.setMargin sub g (marginOf (s.dieHours (sub - 72)) 0 limit)
  else if g = 6 then s.setMargin sub g (marginOf s.mostErased 0 100000)
  else
    let (f, l) := gaugeScale g
    if r.fresh * l = r.limit * f ∧ 0 < r.limit then s.setMargin sub g (marginOf r.x r.fresh r.limit) else s

/-- GAUGE_SAMPLE: the readings of one minute. -/
def execGaugeSample (rs : List GaugeReading) (s : State) : Out := .next (rs.foldl State.takeReading s)

-- The wear model (R648 to R650).

def State.margin (s : State) (sub g : Nat) : Nat := Tab.get s.pow.margins 65535 (gaugeKey sub g)

def ringKey (sub g slot : Nat) : Nat := 32 * gaugeKey sub g + slot

/-- Hours left of a gauge, from its margin and the one 24 hours before (R648). -/
def hoursLeft (h m old : Nat) : Nat :=
  if h < 24 ∨ old ≤ m then 0xFFFFFFFF else min 0xFFFFFFFF (24 * m / (old - m))

def gradeHours (h : Nat) : Nat :=
  if h ≥ 50000 then 0 else if h ≥ 20000 then 1 else if h ≥ 8760 then 2 else if h ≥ 2000 then 3 else 4
def gradeMargin (m : Nat) : Nat :=
  if m ≥ 49152 then 0 else if m ≥ 32768 then 1 else if m ≥ 16384 then 2 else if m ≥ 1 then 3 else 4

/-- What one subsystem's update gives: margin, grade, gauge, hours. -/
structure Wear where
  margin : Nat
  grade : Nat
  gauge : Nat
  hours : Nat

/-- Update the rings of one subsystem and its STB_SUB word (R648, R649). -/
def State.wearSub (s : State) (sub : Nat) : State × Wear :=
  let h := s.pow.hour
  let gs := gaugesOf sub
  let rings := gs.foldl (fun t g => Tab.put t (ringKey sub g (h % 25)) (s.margin sub g)) s.pow.rings
  let hrs := gs.map (fun g => hoursLeft h (s.margin sub g) (Tab.get rings 0 (ringKey sub g ((h + 1) % 25))))
  let g0 := gs.headD 0
  let g := gs.foldl (fun b x => if s.margin sub x < s.margin sub b then x else b) g0
  let m := s.margin sub g
  let hours := hrs.foldl min 0xFFFFFFFF
  let grade := max (gradeHours hours) (gradeMargin m)
  ({ s with pow := { s.pow with rings := rings } }.setReg (stbSub sub)
     (BitVec.ofNat 64 (m + grade * 2 ^ 16 + g * 2 ^ 24 + hours * 2 ^ 32)), ⟨m, grade, g, hours⟩)

/-- Every subsystem in turn; the worst grade with its subsystem and the lowest hours. -/
def wearAll : List Nat → State → Nat × Nat × Nat → State × (Nat × Nat × Nat)
  | [], s, acc => (s, acc)
  | sub :: r, s, (grade, worst, hours) =>
    let (t, w) := s.wearSub sub
    wearAll r t (if w.grade > grade then w.grade else grade, if w.grade > grade then sub else worst, min hours w.hours)

/-- WEAR_UPDATE: a powered hour has passed. -/
def execWearUpdate (s : State) : Out :=
  let (t, (grade, worst, hours)) := wearAll (List.range 102) s (0, 0, 0xFFFFFFFF)
  let t1 := t.setReg stbSummary (BitVec.ofNat 64 (grade + worst * 2 ^ 8 + hours * 2 ^ 32))
  let t2 := { t1 with pow := { t1.pow with hour := t1.pow.hour + 1 } }
  .next (t2.setAlert 6 (decide (grade ≥ 3)) worst worst)

end Sys2Proof.Machine
end

