-- ==== Sys2Proof/Machine/Furrow.lean ====
section
/-!
DEFINITION. The furrow unit (chapter 2): the tick with everything that takes effect at it, markers and the
synchronisation states, and the registers FUR_CTRL and FUR_PERIOD.
-/

namespace Sys2Proof.Machine
open Sys2Proof

-- Synchronisation (R49, R53).

/-- A tick: a fabric without a master gains one here (R49). -/
def State.electAtTick (s : State) : State := { s with fur := { s.fur with masterless := false } }.settleSync

/-- A module that holds no role of its job: a spare, which starts no plan (R627). -/
def State.idleSpare (s : State) : Bool := s.job.spare || (!s.job.roles.isEmpty && s.myRole.isNone)

/-- Engines start plans: LOCKED, HOLDOVER, or FREE on the master, not from a HALT tick to its RESUME nor in STOPPED, and not on
a spare (R49, R53, R618, R624, R627). -/
def State.runsPlans (s : State) : Bool :=
  (s.fur.sync == .locked || s.fur.sync == .holdover || s.isMaster) && s.rcv.st == .run && !s.idleSpare

/-- A port is UP. -/
def State.anyUp (s : State) : Bool := (List.range 32).any (fun p => (s.port p).st == .up)

/-- The module may make a tick now (R45, R53, R636, R641). -/
def State.mayTick (s : State) : Bool :=
  s.bit furCtrl 0 && !s.linksDark && !(s.fur.sync == .acquire && s.fur.nextTick.isNone) && !(s.fur.holdTick && !s.anyUp)

-- Markers (R50, R51).

def markerBytes (tick origin corr period kind hops master : Nat) : List Byte :=
  leBytes 8 tick ++ leBytes 8 origin ++ leBytes 8 corr ++
    leBytes 4 (period % 2 ^ 20 + kind % 16 * 2 ^ 20 + hops % 16 * 2 ^ 24) ++ leBytes 2 master ++ leBytes 2 0

/-- The master sends a marker of a kind on group 0. -/
def State.sendMarker (s : State) (tick origin kind : Nat) : State :=
  s.sendGroup (mkMsg 0 0x01 0 true (markerBytes tick origin 0 s.fur.active.toNat kind 0 s.chip))

/-- TIMING_MARKER_SEND: the master's timing marker, at a moment of its timebase in ns. -/
def execTimingMarkerSend (ns : Word) (s : State) : Out :=
  if ¬ s.isMaster ∨ ¬ s.bit furCtrl 0 ∨ s.linksDark then stutter s
  else .next (s.sendMarker s.furCount.toNat ns.toNat 1)

/-- The period that a marker carries is in use at once (R47). -/
def State.usePeriod (s : State) (p : Nat) : State := { s with fur := { s.fur with active := BitVec.ofNat 20 p } }

/-- Step the timebase and adopt the counter of a marker's furrow; the counter never decreases while a job runs (R44,
R53). A tick marker gives the master's time of that furrow's tick; a timing marker gives a moment within it. -/
def State.adopt (s : State) (count time : Nat) (timing : Bool) : State :=
  let c := if s.job.st == .running then max s.furCount.toNat count else count
  { s with furCount := BitVec.ofNat 64 c,
           fur := { s.fur with sync := .acquire, goodMarkers := 0, timebase := BitVec.ofNat 64 time, stepped := timing,
                               nextTick := some (BitVec.ofNat 64 (c + 1)) } }

/-- What a marker of the elected master does to the synchronisation state; the phase error is in ps (R53). While ENABLE is 0 the
counter holds: ACQUIRE waits with its step of the timebase (R45). -/
def State.syncOn (s : State) (ticks : Bool) (count time : Nat) (timing : Bool) (phase : Int) : State :=
  let near := decide (-50000 ≤ phase) && decide (phase ≤ 50000)
  let far := decide (phase < -1000000) || decide (1000000 < phase)
  let search : State := { s with fur := { s.fur with sync := .acquire, goodMarkers := 0, nextTick := none } }
  match s.fur.sync with
  | .free => if ticks then s.adopt count time timing else search
  | .acquire =>
    if s.fur.nextTick.isNone then (if ticks then s.adopt count time timing else s)
    else if ¬ near then { s with fur := { s.fur with goodMarkers := 0 } }
    else if s.fur.goodMarkers ≥ 15 then { s with fur := { s.fur with sync := .locked, goodMarkers := 0 } }
    else { s with fur := { s.fur with goodMarkers := s.fur.goodMarkers + 1 } }
  | .locked => s
  | .holdover =>
    if near then s.setSync .locked
    else if far then search
    else s

/-- A marker of the elected master takes effect at a module that is not master. -/
def State.takeMarker (s : State) (bs : List Byte) (phase : BitVec 32) : State :=
  let w := msgNat bs 24 4
  let kind := natBits w 20 4
  let tick := msgNat bs 0 8
  let time := if kind = 0 then msgNat bs 8 8 else msgNat bs 8 8 + msgNat bs 16 8 / 1000
  let s1 := { s with fur := { s.fur with hops := BitVec.ofNat 4 (natBits w 24 4), phaseErr := phase },
                     mems := if kind = 0 then { s.mems with markersMissed := 0 } else s.mems }
  let s2 := s1.usePeriod (natBits w 0 20)
  s2.syncOn (s2.bit furCtrl 0) (if kind = 0 then tick - 1 else tick) time (kind ≠ 0) phase.toInt

/-- A marker as the next hop sees it: the delay of the link it came on and its residence here are added, and one hop
(R52). -/
def State.markerOn (s : State) (p : Nat) (f : Flit) (bs : List Byte) (residence : Nat) : Flit :=
  let w := msgNat bs 24 4
  let corr := msgNat bs 16 8 + s.fld (spxPortDelay p) 0 32 + residence
  { f with payload := markerBytes (msgNat bs 0 8) (msgNat bs 8 8) corr (natBits w 0 20) (natBits w 20 4) (natBits w 24 4 + 1)
             (msgNat bs 28 2) }

/-- MARKER: a marker arrives on a port, is discarded or forwarded, and drives the synchronisation state. A marker of a
reserved KIND (2 to 15) is discarded and not forwarded: R51 names no treatment of it (DESIGN CHOICE, log entry 99). -/
def execMarker (p : Port) (f : Flit) (phasePs : BitVec 32) (residencePs : Word) (s : State) : Out :=
  match s.rx p.val 0 0x01 [f] true with
  | .unfit => stutter s
  | .taken t => .next t
  | .msg t g bs =>
    let w := msgNat bs 24 4
    if natBits w 24 4 > 10 ∨ natBits w 20 4 > 1 ∨ t.master ≠ some (msgNat bs 28 2) then .next t
    else
      let u := t.replicate (some p.val) (t.markerOn p.val g bs residencePs.toNat)
      .next (if u.isMaster then u else u.takeMarker bs phasePs)

/-- HOLDOVER_ENTRY: no marker for 150 µs while LOCKED. -/
def execHoldoverEntry (s : State) : Out :=
  if s.fur.sync ≠ .locked then stutter s else .next (s.setSync .holdover)

/-- HOLDOVER_TIMEOUT: more than 40 ms in HOLDOVER (R54). -/
def execHoldoverTimeout (s : State) : Out :=
  if s.fur.sync ≠ .holdover then stutter s else .next (s.furFaultSet 1 0)

-- FUR_CTRL and FUR_PERIOD (R45, R46, R47).

/-- A write of FUR_CTRL: a SLACK of 5 to 7 is ignored and sets CFG. -/
def State.furCtrlSet (s : State) (v : Word) : State :=
  if natBits v.toNat 2 3 ≤ 4 then (s.writePlain furCtrl v).settleSync
  else ((s.writePlain furCtrl (putBits v 2 3 (s.fld furCtrl 2 3))).furFaultSet 4 0).settleSync

/-- FUR_CTRL_WRITE. -/
def execFurCtrlWrite (v : Word) (s : State) : Out := .next (s.furCtrlSet v)

/-- A write of FUR_PERIOD `ns` after the last tick: out of range it sets CFG; on the master it takes effect at the tick
of R57. -/
def State.furPeriodSet (s : State) (v : Word) (ns : Nat) : State :=
  let p := natBits v.toNat 0 20
  if p < 5000 ∨ 1000000 < p then s.furFaultSet 4 0
  else
    let s0 := s.settleSync
    let s1 := s0.setFld furPeriod 0 20 p
    if s1.isMaster then
      { s1 with fur := { s1.fur with
        periodAt := insertPeriod (BitVec.ofNat 64 (s1.targetTick ns), BitVec.ofNat 20 p) s1.fur.periodAt } }
    else s1

/-- FUR_PERIOD_WRITE. -/
def execFurPeriodWrite (v : Word) (ns : Nat) (s : State) : Out := .next (s.furPeriodSet v ns)

-- Runs and step boundaries (R67, R73, R75, R218, R554).

/-- Start the threads that the job image names (R218): none on a spare (R627), nor on a strip that accepts nothing new (R587). -/
def State.beginRun (s : State) (step : BitVec 32) : State :=
  (s.job.threads.filter (fun x => !s.closed 1 x.1.val && !s.idleSpare)).foldl (fun (t : State) (x : Strip × Thread × BitVec 48) =>
    let st := x.1.val
    let th := x.2.1.val
    let regs : Tab Word := [(1, BitVec.ofNat 64 st), (2, BitVec.ofNat 64 th), (3, step.setWidth 64)]
    (((t.endSpell st th).withdraw st (.thread x.2.1)).setThread st th { pc := x.2.2, regs := regs, st := .run }).setWctx st th {}) s

/-- A slot passes from FREE to FILLING at S of its step (R554). -/
def fillSlot (k : Nat) (s : State) (x : Nat × Nat) : State :=
  let r := s.resSlot x.1 x.2
  if r.st = .free then s.setResSlot x.1 x.2 { r with st := .filling, step := BitVec.ofNat 32 k } else s

/-- A slot passes from FILLING to HELD and takes a generation (R554). -/
def holdSlot (k : Nat) (s : State) (x : Nat × Nat) : State :=
  let r := s.resSlot x.1 x.2
  if r.st = .filling ∧ r.step = BitVec.ofNat 32 k then
    (s.setResSlot x.1 x.2 { r with st := .held, gen := s.reg fgtGen }).setReg fgtGen (s.reg fgtGen + 1)
  else s

/-- A step starts at the present tick. -/
def State.startStep (s : State) (k : Nat) : State :=
  let s0 := if s.drl.build.isNone then { s with drl := { s.drl with cursorMb := 0, cursorSi := 0 } } else s
  let s1 := (s0.setFld furStep 0 32 k).setReg furStepStart s.furCount
  let s2 := { s1 with engines := s1.engines.map (fun (p : Nat × EngSt) => (p.1, { p.2 with slipMax := 0 })) }
  let s3 := (s2.slotsOf k).foldl (fillSlot k) s2
  if s3.job.runStep = some (BitVec.ofNat 32 k) then
    { s3 with job := { s3.job with runStep := none } }.beginRun (BitVec.ofNat 32 k)
  else s3

/-- The steps that a table of ticks names for a tick. -/
def stepsAt (t : Tab Word) (tick : Nat) : List Nat := (t.filter (fun p => p.2.toNat == tick)).map (fun p => p.1)

/-- The steps that start, end and finish their update phase at the present tick. -/
def State.stepsStart (s : State) : List Nat := stepsAt s.fur.starts s.furCount.toNat
def State.stepsEnd (s : State) : List Nat := stepsAt s.fur.ends s.furCount.toNat
def State.stepsClose (s : State) : List Nat := stepsAt s.fur.ends (s.furCount.toNat - s.job.phase)

/-- A granary snapshot point is due for a step (R610). -/
def State.snapDue (s : State) (k : Nat) : Bool := s.job.st == .running && decide (0 < s.job.every) && decide ((k + 1) % s.job.every = 0)

-- Power of the furrow that ends (R642 to R644).

/-- The limit of a power class in W; class 0 has none. -/
def classLimit (c : Nat) : Nat := [0, 600, 800, 1000, 1200, 1400, 1600, 1750, 1850].getD c 0

/-- Add a furrow's average power to a subscription (R651). -/
def addWatts (w : Nat) (x : Sess) : Sess :=
  match x.sub with
  | none => x
  | some b => { x with sub := some { b with furrows := b.furrows + 1, wattSum := b.wattSum + w, wattMax := max b.wattMax w } }

/-- The average power of the furrow that ends at this tick. -/
def State.furrowPower (s : State) (w : Nat) : State :=
  let s1 := (s.setFld pwrInput 32 16 w).setFld pwrInput 48 16 (max w (s.fld pwrInput 48 16))
  let s2 := { s1 with sess := s1.sess.map (fun (p : Nat × Sess) => (p.1, addWatts w p.2)) }
  let lim := classLimit s.job.clas
  if lim = 0 then s2
  else if w > lim then
    let n := s2.pow.overRun + 1
    let s3 := { s2 with pow := { s2.pow with overRun := n, underRun := 0 } }.count pwrCntOver 1
    if n ≥ 16 then s3.setAlert 3 true w 0 else s3
  else
    let n := s2.pow.underRun + 1
    let s3 := { s2 with pow := { s2.pow with overRun := 0, underRun := n } }
    if n ≥ 16 then s3.setAlert 3 false w 0 else s3

-- The history ring (R631).

/-- The row of the furrow that begins: overruns counted and plans started with a slip at its tick. -/
def State.noteHist (before s : State) : State :=
  let busyNow := (before.engines.filter (fun p => p.2.running.isSome)).length
  let slips := (s.engines.filter (fun p =>
    (before.eng p.1).running.isNone && p.2.running.isSome && p.2.startTick == s.furCount && p.2.slipNow != 0)).length
  let row : Hist := { count := s.furCount, step := BitVec.ofNat 32 (s.fld furStep 0 32), overruns := BitVec.ofNat 32 busyNow,
                      slips := BitVec.ofNat 32 slips, mseq := s.mems.mseq, rseq := s.rcv.rseq,
                      recState := BitVec.ofNat 8 (recCode s.rcv.st) }
  { s with hist := Tab.put s.hist (s.furCount.toNat % 4096) row }

-- Fallow entry (R636 to R638).

/-- The ports that are UP. -/
def State.upPorts (s : State) : List Nat := (List.range 32).filter (fun p => (s.port p).st == .up)

/-- Fallow entry in one step: PWR_PARK, one PARK per port that is UP, dark ports, self-refresh and retention voltage, UCIe
attachments off, and the state that fallow clears. -/
def State.enterFallow (s : State) : State :=
  let up := s.upPorts
  let s1 := s.setReg pwrPark (BitVec.ofNat 64 (up.foldl (fun n p => n + 2 ^ p) 0))
  let s2 := up.foldl (fun t p =>
    (t.portSend 32 p (mkMsg 0 0x09 (t.port p).nbrChip.toNat false (List.replicate 32 0))).offPort p) s1
  let s3 := (List.range 32).foldl (fun t p =>
    if (t.port p).st = .train ∨ (t.port p).st = .hello then t.offPort p else t) s2
  let s4 := ((s3.resetStrips.clcFlush.setBits memStatus 6).setFld memStatus 16 12 0).count pwrCntFallow 1
  { s4 with pow := { s4.pow with st := 2, fallowAt := none }, mems := { s4.mems with markersMissed := 0 } }

/-- The tick T_F of a scheduled fallow entry is here. -/
def State.fallowDue (s : State) : Bool :=
  match s.pow.fallowAt with
  | none => false
  | some t => decide (t.toNat ≤ s.furCount.toNat)

-- The tick (R56).

/-- The period changes that are due at a count take effect, the latest written last (R47). -/
def FurSt.changePeriod (f : FurSt) (n : Word) : FurSt :=
  let due := f.periodAt.filter (fun c => c.1.toNat ≤ n.toNat)
  { f with active := (due.getLast?.map (fun c => c.2)).getD f.active, periodAt := f.periodAt.filter (fun c => n.toNat < c.1.toNat) }

/-- The time from the last point of the timebase to this tick in ns: a whole period, or what is left of one after a step
within the furrow, a moment that the model does not follow (log entry 99). -/
def State.sinceTick (s : State) : Nat :=
  if s.fur.stepped then (Config.freeReading furCountReg s.draws).toNat % max 1 s.periodNs + 1 else s.periodNs

/-- Item 1: the counter, the timebase and the scheduled period changes. -/
def State.tickCount (s : State) : State :=
  let n := s.furCount + 1
  let f := { s.fur with timebase := s.fur.timebase + BitVec.ofNat 64 s.sinceTick, stepped := false, holdTick := false }
  { s with furCount := n, fur := f.changePeriod n, draws := s.draws + s.fur.stepped.toNat }

/-- Item 2: membership changes, and the RESUME that is due (R56, R622). -/
def State.tickMembers (s : State) : State :=
  let s1 := s.applyMembers.electAtTick
  match s1.rcv.resumeAt with
  | none => s1
  | some (t, k) =>
    if s1.furCount.toNat < t.toNat then s1
    else
      let s2 := s1.resumeTick
      if s2.myRole.isNone then s2
      else if s2.job.pauseStep.isSome ∧ s2.job.pauseStep = some (k - 1) then { s2 with job := { s2.job with spare := false } }
      else
        { s2 with fur := { s2.fur with starts := Tab.put s2.fur.starts k.toNat s2.furCount, badPeriod := false },
                  job := { s2.job with st := .running, spare := false, runStep := some k } }

/-- Items 3 and 4: the directory flip and the stook epoch. The flag says that the epoch advanced. -/
def State.tickFlips (s : State) : State × Bool :=
  let due (a : Word) : Bool := a != 0 && decide (a.toNat ≤ s.furCount.toNat)
  let s1 := if due (s.reg glnFlipAt) then s.dirFlip else s
  if due s.stkEpochAt then (s1.epochAdvance, true) else (s1, false)

/-- Item 5: the snapshot point; then the result slots of a closing step and what a starting step begins with. -/
def State.tickSteps (s : State) : State :=
  let s1 := (s.stepsClose.filter s.snapDue).foldl State.snapPoint s
  let s2 := s1.stepsClose.foldl (fun t k => (t.slotsOf k).foldl (holdSlot k) t) s1
  s2.stepsStart.foldl State.startStep s2

/-- A running job that declares another period than ACTIVE raises a job fault, once for each time this begins to hold (R42,
R74). -/
def State.checkPeriod (s : State) : State :=
  let bad := s.job.st == .running && s.job.period.toNat != s.fur.active.toNat
  let t := { s with fur := { s.fur with badPeriod := bad } }
  if bad && !s.fur.badPeriod then t.furFaultSet 5 0 else t

/-- Item 6: engines start plans under R70; then NSUM clears at the end tick of a step (R362). -/
def State.tickPlans (s : State) : State :=
  let s1 := s.tickEngines s.runsPlans
  let s2 := if s.stepsEnd.isEmpty then s1 else s1.clearNsum
  let s3 := if s.stepsEnd.any (fun k => k % 16 == 15) then s2.shareHits else s2
  s.noteHist s3

/-- The HALT that is due at this tick, after the actions of R56 (R618). -/
def State.tickHalt (s : State) (advanced : Bool) : State :=
  match s.rcv.haltAt with
  | none => s
  | some h => if h.tick.toNat ≤ s.furCount.toNat then s.haltTick h advanced else s

/-- The JOINs of chips whose transfer has completed (R519, R520). -/
def State.issueJoins (s : State) : State :=
  s.mems.transferDone.foldl (fun t c =>
    if t.mems.members.contains c ∨ t.mems.scheduled.any (fun m => m.chip.toNat == c) then t
    else t.issueMember 1 c (t.targetTick 0)) s

/-- The leader starts recovery again: a spare has joined while roles wait for one, or it knows of a role without a source
(R619, R620, R625). -/
def State.restartDue (s : State) (ns : Nat) : State :=
  if s.rcv.hostDue ∧ s.rcv.covered then
    { s with rcv := { s.rcv with hostDue := false } }.issueHalt 1 s.chip (s.targetTick ns) true
  else
    match s.spareChip with
    | some c => if s.rcv.st = .waitSpare ∧ s.rcv.haltAt = none then s.issueHalt 2 c (s.targetTick ns) false else s
    | none => s

/-- What the master and the leader of recovery do at a tick with what has gathered since the last one. -/
def State.tickLeader (s : State) : State :=
  if ¬ s.isMaster then { s with mems := { s.mems with markersMissed := s.mems.markersMissed + 1 } }
  else
    let s1 := (s.sendMarker (s.furCount.toNat + 1) s.fur.timebase.toNat 0).judgeLinks 0
    let s2 := if s1.rcv.pendingLead then
        { s1 with rcv := { s1.rcv with pendingLead := false } }.leadFault s1.chip 0
      else s1
    (((s2.retireNow 0).issueJoins.offerMembership).restartDue 0).resumeIfReady 0

/-- FURROW_TICK: the tick, with the average power of the furrow that it ends. -/
def execFurrowTick (watts : BitVec 16) (s : State) : Out :=
  if ¬ s.mayTick then stutter s
  else
    let (s1, advanced) := (s.tickCount.tickMembers).tickFlips
    let s2 := ((s1.tickSteps.checkPeriod.furrowPower watts.toNat).tickPlans.tickHalt advanced).tickLeader
    .next (if s2.fallowDue then s2.enterFallow else s2)

/-- PLAN_COMPLETE: every command of an engine's plan has completed. -/
def execPlanComplete (engine : Fin 321) (s : State) : Out :=
  if (s.eng engine.val).finished then .next (s.endPlan engine.val) else stutter s

end Sys2Proof.Machine
end

