-- ==== Sys2Proof/Machine/Boot.lean ====
section
/-!
DEFINITION. Power, pins and reset (R19 to R30, R570 to R588): what power loss and the two kinds of reset leave, the
strap, fuses and trim, verification and choice of the seed image, the release order, the watchdog and per-block resets.
-/

namespace Sys2Proof.Machine
open Sys2Proof

-- What a reset leaves (R434, R572).

/-- Erase counts are read from the flash and outlive every reset (R647, R653). -/
def isErase (o : Nat) : Bool := stbErase 0 ≤ o && o < stbErase 4096

/-- Erase counts, and the powered time, which restarts at power-up alone (R650). -/
def isWear (o : Nat) : Bool := isErase o || o == stbPowered || (stbTjhist 0 ≤ o && o < stbTjhist 7)

/-- The alarms that a mask names as they stand. The supervisory logic measures the input voltage, the junctions and the
coolant whatever the main rails do: their alarms outlive a cold reset, and with them that of a fuse fault the loss of the
rails (R24, R581, R645). -/
def sensorAlerts (csr : Tab Word) (mask : Word) : Tab Word :=
  let v := ((Tab.look csr pwrAlert).getD 0) &&& mask
  if v = 0 then [] else [(pwrAlert, v)]

/-- Stile after a reset: fuses, flash and what is written in them stay, as do the outputs that a load has committed (R579);
all else is read afresh at step 1. -/
def StileSt.afresh (x : StileSt) : StileSt :=
  { fuses := x.fuses, outputs := x.outputs, trim := x.trim, flash := x.flash, slotA := x.slotA, slotB := x.slotB }

/-- Pins after a reset has joined: levels and latches stay (R572). -/
def PinSt.held (x : PinSt) (causes : List Cause) : PinSt :=
  { x with causes := causes, hostUp := false, ilvSet := false, releasing := false }

/-- A cold reset: DRAM and SRAM are zeroed and every register takes its reset value (R572). Wear history goes on (R650). -/
def State.coldClear (s : State) (causes : List Cause) : State :=
  let p : PowSt := { margins := s.pow.margins, rings := s.pow.rings, hour := s.pow.hour }
  { csr := sensorAlerts s.csr 7 ++ s.csr.filter (fun e => isWear e.1), pins := s.pins.held causes, stile := s.stile.afresh, pow := p,
    sent := s.sent, draws := s.draws, pending := s.pending }

/-- The registers that a warm reset leaves listed. -/
def warmCsr (csr : Tab Word) : Tab Word :=
  csr.filterMap (fun e => if isWear e.1 then some e else if warmReg e.1 e.2 = regReset e.1 then none else some (e.1, warmReg e.1 e.2))

/-- A warm reset: DRAM with its errors, FUR_COUNT and the kept registers stay; the candidate table is cleared wherever it lies
(R334, R432, R572). -/
def State.warmClear (s : State) (causes : List Cause) : State :=
  let t := s.coldClear causes
  let w := s.clearCands
  { t with csr := warmCsr s.csr, pins := { t.pins with ilvSet := s.pins.ilvSet }, furCount := s.furCount, hclk := s.hclk,
           mem := w.mem.filter (fun c => inDram c.1), flips := w.flips.filter (fun e => inDram e.1), lost := w.lost,
           clc := { lines := w.clcFlush.clc.lines } }

/-- A reset source is cold (R570). -/
def Cause.isCold : Cause → Bool
  | .powerOn => true
  | .coldPin => true
  | _ => false

/-- RST_STATUS.CAUSE codes (R602). -/
def Cause.code : Cause → Nat
  | .powerOn => 0
  | .coldPin => 1
  | .warmPin => 2
  | .message => 3
  | .watchdog => 4
  | .fatal => 5
  | .bootFail => 6

/-- The cause that a joined reset completes as (R573). -/
def joinedCause (l : List Cause) : Option Cause :=
  match l.find? Cause.isCold with
  | some c => some c
  | none => l.head?

/-- A reset source acts: it starts a reset or joins the one under way (R573). A warm reset is counted when it starts. -/
def State.resetBy (s : State) (c : Cause) : State :=
  let l := s.pins.causes ++ [c]
  if c.isCold then s.coldClear l
  else if s.pins.causes.isEmpty then (s.count rstCntWarm 1).warmClear l
  else s.warmClear l

/-- The module after it loses its rails: everything but pins, latches, fuses, flash, the gauges' physical margins and, while
the supervisory rail stays up, the alarms of its sensors and of a fuse fault is lost (R19, R24, R30, R434, R645, R650). -/
def State.railsDown (s : State) (x : PinSt) : State :=
  let up := x.supervisory && s.pins.supervisory
  { csr := (if up then sensorAlerts s.csr 263 else []) ++ s.csr.filter (fun e => isErase e.1),
    pins := { x with pwrGood := false, causes := [], hostUp := false, pulse := .none, ilvSet := false, releasing := false },
    stile := { s.stile.afresh with outputs := 0, trim := 0, fuseFault := up && s.stile.fuseFault }, pow := { margins := s.pow.margins },
    sent := s.sent, draws := s.draws, pending := s.pending }

-- Power (R19, R20, R27, R30).

/-- POWER_ON: P48V rises through 42.5 V. -/
def execPowerOn (s : State) : Out :=
  if s.pins.supervisory then stutter s
  else .next (s.railsDown { s.pins with supervisory := true })

/-- RAILS_IN_REGULATION: PWR_GOOD goes high, and the cold reset of power-on is under way. -/
def execRailsInRegulation (s : State) : Out :=
  let x := s.pins
  if ¬ x.supervisory ∨ x.pwrGood ∨ x.ovLatch ∨ x.tripLatch then stutter s
  else .next { s with pins := { x with pwrGood := true, causes := [.powerOn] } }

/-- POWER_DOWN: P48V below 41.0 V for more than 50 µs; the latches clear. -/
def execPowerDown (s : State) : Out :=
  if ¬ s.pins.supervisory then stutter s
  else .next (s.railsDown { s.pins with supervisory := false, ovLatch := false, tripLatch := false })

/-- OVERVOLTAGE_SHUTDOWN: latched until power-down. The input stands outside its range, so its alarm is present (R19, R645);
the shutdown comes before an ALARM could leave. -/
def execOvervoltageShutdown (s : State) : Out :=
  if ¬ s.pins.supervisory then stutter s else .next ((s.setBit pwrAlert 0).railsDown { s.pins with ovLatch := true })

/-- THERMAL_TRIP: a junction sensor reads 110 °C or more, which is above the junction limit too (R29, R30). -/
def execThermalTrip (sensor : Fin 128) (celsius : BitVec 8) (s : State) : Out :=
  if ¬ s.pins.supervisory ∨ celsius.toNat < 110 then stutter s
  else .next ((s.setAlert 1 true celsius.toNat sensor.val).railsDown { s.pins with tripLatch := true })

-- RESET_N and WP_N (R25, R28, R571).

/-- RESET_N_FALL; a pulse while PWR_GOOD is low is ignored but for the level. -/
def execResetNFall (s : State) : Out :=
  if ¬ s.pins.supervisory ∨ ¬ s.pins.resetN then stutter s
  else .next { s with pins := { s.pins with resetN := false, pulse := if s.pins.pwrGood then .measuring else .none } }

/-- WARM_RESET_ENTRY: RESET_N is still low after 50 µs. -/
def execWarmResetEntry (s : State) : Out :=
  if s.pins.pulse ≠ .measuring then stutter s
  else
    let t := s.resetBy .warmPin
    .next { t with pins := { t.pins with pulse := .warm } }

/-- RESET_N_COLD: RESET_N is still low after 20 ms. -/
def execResetNCold (s : State) : Out :=
  if s.pins.pulse ≠ .warm then stutter s
  else
    let t := s.resetBy .coldPin
    .next { t with pins := { t.pins with pulse := .cold } }

/-- RESET_N_RISE: the pulse ends. -/
def execResetNRise (s : State) : Out :=
  if ¬ s.pins.supervisory ∨ s.pins.resetN then stutter s
  else .next { s with pins := { s.pins with resetN := true, pulse := .none } }

/-- Program bytes. -/
def program : List Byte → Nat → Tab Byte → Tab Byte
  | [], _, f => f
  | b :: r, a, f => program r (a + 1) (Tab.put f a b)

/-- Program bytes of the flash from an address on. -/
def State.flashWrite (s : State) (a : Nat) (bs : List Byte) : State :=
  { s with stile := { s.stile with flash := program bs a s.stile.flash } }

/-- WP_N falls while a WRITE is programmed: the flash command under way runs to its end, and the rest is blocked, so that a
free number of the bytes that were left are programmed (R25). -/
def State.wpFalls (s : State) : State :=
  match s.stile.staging with
  | none => s
  | some g =>
    let n := (Config.freeReading stbPowered s.draws).toNat % (g.left.length + 1)
    let t := s.draw.flashWrite g.at_ (g.left.take n)
    { t with stile := { t.stile with staging := some { g with at_ := g.at_ + n, left := g.left.drop n, cut := true } } }

/-- WP_N_CHANGE. -/
def execWpNChange (high : Bool) (s : State) : Out :=
  if ¬ s.pins.supervisory then stutter s
  else
    let t := if high then s else s.wpFalls
    .next { t with pins := { t.pins with wpN := high } }

-- Strap (R574 to R576).

/-- The bin of a code; 16 for code 0 and 17 for codes above 240. -/
def strapBin (c : Nat) : Nat := if c = 0 then 16 else if c ≤ 240 then (c - 1) / 15 else 17

/-- Up to so many sets of eight conversions; the flag says that no set was stable. -/
def strapCode : Nat → Nat → List (List Byte) → Nat × Bool
  | 0, last, _ => (last, true)
  | _ + 1, last, [] => (last, false)
  | k + 1, last, c :: r =>
    let l := (c.getLast?.map (fun b => b.toNat)).getD last
    if c.all (fun b => strapBin b.toNat == strapBin l) then (l, false) else strapCode k l r

/-- Effective mode and the bit of RST_STRAP that a code reports (R576). -/
def strapMode (code : Nat) (mfgIntact : Bool) : Nat × Nat :=
  let b := strapBin code
  if b ≤ 7 then (b, 0)
  else if b = 8 then (if mfgIntact then (8, 0) else (0, 2 ^ 19))
  else if b ≤ 15 then (0, 2 ^ 18)
  else if b = 16 then (0, 2 ^ 16)
  else (0, 2 ^ 17)

/-- The effective mode as RST_STRAP reports it. -/
def State.strapModeNow (s : State) : Nat := s.fld rstStrap 8 4

-- Fuses and trim (R577 to R580, R598).

/-- A field of the fuse block. -/
def fuseField (f : BitVec 4096) (lo w : Nat) : Nat := natBits f.toNat lo w
/-- The blown bits of SVN_FUSE as a mask of 64 bits. -/
def svnMask (f : BitVec 4096) : Nat := fuseField f 4032 64

/-- Bits set in a 64-bit number. -/
def ones64 (n : Nat) : Nat := ((List.range 64).filter (fun i => n / 2 ^ i % 2 = 1)).length

/-- A pair of fuse reads agrees outside SVN_FUSE, and the CRC holds over the first. -/
def fusePairOk (p : BitVec 4096 × BitVec 4096) : Bool :=
  decide (fuseField p.1 0 4032 = fuseField p.2 0 4032) &&
    decide ((crc32c (leBytes 500 p.1.toNat)).toNat = fuseField p.1 4000 32)

/-- Read pairs up to so many times, where reads beyond those given return what is there: the good pair, and the number of
pairs repeated. -/
def readPairs {w : Nat} (ok : BitVec w × BitVec w → Bool) (there : BitVec w) :
    Nat → List (BitVec w × BitVec w) → Nat → Option (BitVec w × BitVec w) × Nat
  | 0, _, n => (none, n)
  | k + 1, l, n =>
    let p := l.headD (there, there)
    if ok p then (some p, n) else readPairs ok there k l.tail (if k = 0 then n else n + 1)

/-- A trim code with its overlay offset (R578). -/
def trimCode (code offset : Nat) : Nat := (clampInt ((code : Int) + toSigned 8 offset) 0 255).toNat

/-- The 256 committed trim codes. -/
def trimOf (codes : BitVec 2048) (overlay : List Byte) : BitVec 2048 :=
  BitVec.ofNat 2048 (leNat ((List.range 256).map (fun i =>
    BitVec.ofNat 8 (trimCode (natBits codes.toNat (8 * i) 8) (overlay.getD i 0).toNat))))

-- The seed flash and its images (R589 to R592).

def slotBase (b : Bool) : Nat := if b then 0x07800000 else 0
def State.flashBytes (s : State) (a n : Nat) : List Byte := (List.range n).map (fun i => Tab.get s.stile.flash 0xFF (a + i))

/-- A slot's state as STL_SLOTS codes it. -/
def StileSt.slot (x : StileSt) (b : Bool) : Nat := if b then x.slotB else x.slotA
def StileSt.setSlot (x : StileSt) (b : Bool) (v : Nat) : StileSt := if b then { x with slotB := v } else { x with slotA := v }

/-- The sections of an image: type, offset, length, CRC. -/
def imageSects (h : List Byte) : List (Nat × Nat × Nat × Nat) :=
  (List.range (msgNat h 20 2)).map (fun i =>
    (msgNat h (128 + 16 * i) 1, msgNat h (132 + 16 * i) 4, msgNat h (136 + 16 * i) 4, msgNat h (140 + 16 * i) 4))

/-- The bytes of the section of a type. -/
def sectOf (img : List Byte) (l : List (Nat × Nat × Nat × Nat)) (typ : Nat) : List Byte :=
  match l.find? (fun x => x.1 == typ) with
  | none => []
  | some (_, o, n, _) => (img.drop o).take n

/-- Exactly one section of each of types 1 to 7, no other type, inside the image, with CRCs that hold; the overlay's own CRC
is tested at the trim load (R578, R591). -/
def sectsOk (img : List Byte) (l : List (Nat × Nat × Nat × Nat)) : Bool :=
  l.length == 7 && [1, 2, 3, 4, 5, 6, 7].all (fun t => (l.filter (fun x => x.1 == t)).length == 1) &&
    l.all (fun x => decide (x.2.1 + x.2.2.1 ≤ img.length) &&
      decide ((crc32c ((img.drop x.2.1).take x.2.2.1)).toNat = x.2.2.2))

/-- What an image's sections say (R591). -/
def parseImage (b : Bool) (img : List Byte) (l : List (Nat × Nat × Nat × Nat)) : SeedImage :=
  let idn := sectOf img l 3
  let sec := sectOf img l 5
  let lim := sectOf img l 6
  let fw := sectOf img l 1
  let keys := (List.range ((sec.length - 32) / 4)).filterMap (fun i =>
    let f := msgNat sec (34 + 4 * i) 1
    if f / 2 % 2 = 1 then some (BitVec.ofNat 16 (msgNat sec (32 + 4 * i) 2), decide (f % 2 = 1)) else none)
  { slotB := b, svn := msgNat img 12 2, svnBurn := msgNat img 14 1 % 2 = 1, hash := shake256 img 32,
    chip := BitVec.ofNat 16 (msgNat idn 0 2), fabric := BitVec.ofNat 32 (msgNat idn 4 4), mac := BitVec.ofNat 48 (msgNat idn 8 6),
    vlan := BitVec.ofNat 16 (msgNat idn 14 2), ipv6 := BitVec.ofNat 128 (msgNat idn 16 16), ipv4 := BitVec.ofNat 32 (msgNat idn 32 4),
    udp := BitVec.ofNat 16 (msgNat idn 36 2), portEn := BitVec.ofNat 32 (msgNat (sectOf img l 4) 0 4), rootSecret := sec.take 32,
    keys := keys.take 256, volMin := msgNat lim 0 4, copyMin := msgNat lim 4 4, classMax := msgNat lim 8 1,
    ilv := BitVec.ofNat 2 (msgNat (sectOf img l 7) 0 1), overlay := sectOf img l 2, firmwareAt := msgNat fw 0 8,
    firmware := fw.drop 8 }

/-- What verification of a slot gives. -/
inductive Verdict where
  | good (image : SeedImage)
  /-- the bit of STL_ERR that the first failed check sets -/
  | bad (bit : Nat)

/-- Verify a slot in the order of R592. -/
def State.verifySlot (s : State) (b : Bool) : Verdict :=
  let base := slotBase b
  let h := s.flashBytes base 512
  let len := msgNat h 16 4
  let nsect := msgNat h 20 2
  let f := s.stile.outputs
  if msgNat h 0 8 ≠ 0x534545445434384C ∨ len < 512 ∨ 33554432 < len ∨ nsect < 1 ∨ 16 < nsect then .bad 3
  else
    let img := s.flashBytes base len
    let pub := (h.drop 32).take 68
    let l := imageSects h
    if leNat (shake256 pub 32) ≠ fuseField f 96 256 then .bad 0
    else if ¬ Config.xmssVerify pub img (s.flashBytes (base + len) 2820) then .bad 0
    else if msgNat h 8 2 ≠ fuseField f 64 16 ∨ msgNat h 10 2 ≠ fuseField f 80 16 then .bad 2
    else if msgNat h 12 2 < s.stile.minSvn then .bad 1
    else if ¬ sectsOk img l then .bad 3
    else .good (parseImage b img l)

-- Boot records (R589, R594) and the index log (R600, R601), as bytes of the flash.

/-- Erase a flash sector of 64 KiB. -/
def State.eraseSector (s : State) (i : Nat) : State :=
  { s with stile := { s.stile with flash := s.stile.flash.filter (fun (e : Nat × Byte) => e.1 / 65536 != i) } }.count (stbErase i) 1

/-- The 16-byte places of a region from its start on up to the last that is not erased. -/
def StileSt.used (x : StileSt) (base size : Nat) : Nat :=
  x.flash.foldl (fun n e => if base ≤ e.1 ∧ e.1 < base + size then max n ((e.1 - base) / 16 + 1) else n) 0

/-- The 16 bytes at an address, and whether the CRC-32C in their last four holds over the others. -/
def StileSt.entry (x : StileSt) (a : Nat) : List Byte := (List.range 16).map (fun i => Tab.get x.flash 0xFF (a + i))
def entryOk (b : List Byte) : Bool := decide ((crc32c (b.take 12)).toNat = msgNat b 12 4)

/-- 16 bytes with their CRC-32C. -/
def withCrc (b : List Byte) : List Byte := padTo 12 b ++ leBytes 4 (crc32c (padTo 12 b)).toNat

/-- A boot record (R594): its type, the slot, and for a TRY the count of trial boots. -/
inductive BootRec where
  | pending (slotB : Bool)
  | tryRec (slotB : Bool) (tries : Nat)
  | active (slotB : Bool)
  | clear
deriving DecidableEq, Repr

def recordBase : Nat := 0x0F000000
def recordSize : Nat := 0x100000

/-- Bytes 0 to 2: TYPE, whose codes R594 does not give (DESIGN CHOICE, log entry 66), SLOT and TRIES. -/
def recHead : BootRec → List Byte
  | .pending b => [1, BitVec.ofNat 8 b.toNat, 0]
  | .tryRec b n => [2, BitVec.ofNat 8 b.toNat, BitVec.ofNat 8 n]
  | .active b => [3, BitVec.ofNat 8 b.toNat, 0]
  | .clear => [4, 0, 0]

/-- The record that valid bytes hold. -/
def parseRec (b : List Byte) : Option BootRec :=
  let slot := decide (msgNat b 1 1 = 1)
  match msgNat b 0 1 with
  | 1 => some (.pending slot)
  | 2 => some (.tryRec slot (msgNat b 2 1))
  | 3 => some (.active slot)
  | 4 => some .clear
  | _ => none

/-- The entries of a region whose CRC holds, oldest first. -/
def StileSt.entries (x : StileSt) (base size : Nat) : List (List Byte) :=
  ((List.range (x.used base size)).map (fun i => x.entry (base + 16 * i))).filter entryOk

/-- The boot records whose CRC holds, oldest first. -/
def StileSt.records (x : StileSt) : List BootRec := (x.entries recordBase recordSize).filterMap parseRec

/-- The 16 bytes of the next record: SEQ is one above that of the last. -/
def StileSt.recBytes (x : StileSt) (r : BootRec) : List Byte :=
  let seq := match (x.entries recordBase recordSize).getLast? with
    | none => 0
    | some b => msgNat b 4 4 + 1
  withCrc (padTo 4 (recHead r) ++ leBytes 4 (seq % 2 ^ 32))

/-- The start of a half of the index log, its size, and the entries that it holds. -/
def logBase (half : Bool) : Nat := 0x0F100000 + half.toNat * 0x400000
def logSize : Nat := 0x400000
def indexCap : Nat := 262144

/-- The 64 sectors of a half of the index log (R589). -/
def indexSectors (half : Bool) : List Nat := (List.range 64).map (fun i => 3856 + 64 * half.toNat + i)

/-- An entry of the index log: b, its complement, and the CRC-32C (R600). -/
def indexEntry (b : Nat) : List Byte := withCrc (leBytes 4 b ++ leBytes 4 (2 ^ 32 - 1 - b))
def indexOk (b : List Byte) : Bool := entryOk b && msgNat b 0 4 + msgNat b 4 4 == 2 ^ 32 - 1

/-- The blocks that the valid entries of both halves reserve. -/
def StileSt.indexBlocks (x : StileSt) : List Nat :=
  ((x.entries (logBase false) logSize ++ x.entries (logBase true) logSize).filter indexOk).map (fun b => msgNat b 0 4)

/-- The active half: the one that is not erased; where an interruption has left both, the one that is not full (R601). -/
def StileSt.activeHalf (x : StileSt) : Bool :=
  let n := x.used (logBase false) logSize
  decide (0 < x.used (logBase true) logSize) && (n == 0 || decide (indexCap ≤ n))

/-- Some record or log entry has a CRC that fails, so that it is skipped. -/
def StileSt.skips (x : StileSt) : Bool :=
  [(recordBase, recordSize), (logBase false, logSize), (logBase true, logSize)].any (fun r =>
    (List.range (x.used r.1 r.2)).any (fun i => !entryOk (x.entry (r.1 + 16 * i))))

-- Boot choice (R593, R594).

/-- The active slot: what the records say last; slot A before any record. -/
def activeSlot (l : List BootRec) : Bool :=
  l.foldl (fun a r => match r with
    | .active b => b
    | .pending b => !b
    | .tryRec b _ => !b
    | .clear => a) false

/-- The pending trial: its slot and the trial boots made. -/
def pendingTrial (l : List BootRec) : Option (Bool × Nat) :=
  match l.getLast? with
  | some (.pending b) => some (b, 0)
  | some (.tryRec b n) => some (b, n)
  | _ => none

/-- FAILS (R593). -/
def State.bootFails (s : State) : Nat := s.fld stlSlots 10 4

/-- The slots to try in turn: slot, trial, fallback. -/
def State.bootOrder (s : State) (mode : Nat) : List (Bool × Bool × Bool) :=
  let a := activeSlot s.stile.records
  if mode = 1 then [(false, false, false)]
  else if mode = 2 then [(true, false, false)]
  else if mode = 3 then []
  else
    match pendingTrial s.stile.records with
    | some (b, _) => [(b, true, false), (!b, false, false)]
    | none => if s.bootFails < 2 then [(a, false, false), (!a, false, true)] else [(!a, false, true), (a, false, false)]

/-- A full region of boot records is erased before the next one goes into it, and begins again with the slot that is active, a
point that R594 leaves open (DESIGN CHOICE, log entry 66). -/
def State.recordRoom (s : State) : State :=
  if 16 * s.stile.used recordBase recordSize < recordSize then s
  else
    let t := ((List.range 16).map (fun i => 3840 + i)).foldl State.eraseSector s
    t.flashWrite recordBase (t.stile.recBytes (.active (activeSlot s.stile.records)))

/-- Program the first n bytes of a boot record behind the last; with WP_N low nothing is appended (R594). A record that is cut
short fails its CRC. -/
def State.appendPart (s : State) (r : BootRec) (n : Nat) : State :=
  if s.pins.wpN then
    let t := s.recordRoom
    t.flashWrite (recordBase + 16 * t.stile.used recordBase recordSize) ((s.stile.recBytes r).take n)
  else s

/-- Append a boot record. -/
def State.appendRec (s : State) (r : BootRec) : State := s.appendPart r 16

/-- The first n bytes of the record of a trial boot, which is made before the boot begins. -/
def State.recordTry (s : State) (n : Nat) : State :=
  match pendingTrial s.stile.records with
  | none => s
  | some (b, k) => s.appendPart (.tryRec b (k + 1)) n

/-- A failed trial boot: after the second the trial is cleared (R594). -/
def State.trialFailed (s : State) : State :=
  match pendingTrial s.stile.records with
  | none => s
  | some (b, n) =>
    if n < 2 ∨ ¬ s.pins.wpN then s
    else
      let t := s.appendRec .clear
      if t.stile.slot b = 3 then { t with stile := t.stile.setSlot b 1 } else t

/-- An error of a slot in STL_ERR. -/
def State.slotErr (s : State) (b : Bool) (bit : Nat) : State := (s.setBit stlErr bit).setFld stlErr 16 1 b.toNat

/-- A slot whose image has failed a check (R592). -/
def State.slotBad (s : State) (b : Bool) (bit : Nat) : State := { s with stile := s.stile.setSlot b 0 }.slotErr b bit

/-- A slot whose image has verified is booted, as a trial or as a fallback (R593, R594). -/
def State.bootSlot (s : State) (b trial fb : Bool) (img : SeedImage) : State :=
  { s with stile := { s.stile.setSlot b (if trial then 3 else 1) with image := img, trial := trial, fallback := fb } }

/-- Try one slot; the flag says that its image boots. A slot that is being staged is taken by no boot (R597): the boot of it
has failed. A slot whose bytes the flash does not give fails with FLASH (R603). -/
def State.trySlot (s : State) (b trial fb flashBad : Bool) : State × Bool :=
  let s1 := if trial then s.recordTry 16 else s
  let fail (t : State) : State := if trial then t.trialFailed else t
  if s1.stile.slot b = 2 then (fail (s1.slotErr b 5), false)
  else if flashBad then (fail (s1.slotBad b 4), false)
  else
    match s1.verifySlot b with
    | .bad e => (fail (s1.slotBad b e), false)
    | .good img => (s1.bootSlot b trial fb img, true)

/-- Try the slots in turn; the first that verifies is booted. The flag `flashBad` is that of the first slot. -/
def tryBoot : List (Bool × Bool × Bool) → Bool → State → State × Bool
  | [], _, s => (s, false)
  | (b, trial, fb) :: r, flashBad, s =>
    if (s.trySlot b trial fb flashBad).2 then s.trySlot b trial fb flashBad else tryBoot r false (s.trySlot b trial fb flashBad).1

/-- The image that a recovery boot runs under: identity and key are fixed (R595). -/
def recoveryImage (f : BitVec 4096) : SeedImage :=
  let n := fuseField f 0 24
  { mac := BitVec.ofNat 48 (0x02D7A0 * 2 ^ 24 + n),
    ipv6 := BitVec.ofNat 128 (0xFE80 * 2 ^ 112 + 0x00D7A0FFFE * 2 ^ 24 + n),
    rootSecret := leBytes 32 (fuseField f 352 256), keys := [(0, true)] }

-- The release order (R582, R583).

/-- A reset is under way and nothing holds its release, which has not begun. -/
def State.releaseDue (s : State) : Bool := s.pins.pwrGood && s.pins.resetN && !s.pins.causes.isEmpty && !s.pins.releasing

/-- Every joined source was warm. -/
def State.warmKind (s : State) : Bool := !s.pins.causes.any Cause.isCold

/-- STEP and CAUSE of RST_STATUS. -/
def State.releaseStep (s : State) (step : Nat) : State :=
  let c := ((joinedCause s.pins.causes).map Cause.code).getD 0
  s.setReg rstStatus (BitVec.ofNat 64 (step + (if step = 10 then 16 else 0) + c * 32))

/-- RST_STATUS after a release has stopped or ended at a step. -/
def State.releaseEnds (s : State) (step : Nat) : State :=
  let t := s.releaseStep step
  { t with pins := { t.pins with causes := [] } }

/-- A release that is cut off with so many steps complete: its reset is still under way (R573, R579). -/
def State.releaseCut (s : State) (step : Nat) : State :=
  let t := s.releaseStep step
  { t with pins := { t.pins with releasing := true } }

/-- A fuse or trim load that fails all four pairs (R580). -/
def State.fuseStop (s : State) (step : Nat) : State :=
  ({ s with stile := { s.stile with fuseFault := true } }.setBit stlErr 7).setAlert 8 true 0 0 |>.releaseEnds step

/-- Step 1 up to the boot choice: fuses, whose good read is committed to the outputs, strap, and signature indices. -/
def State.releaseFuses (s : State) (inp : ReleaseInput) : State × Bool :=
  let (good, rep) := readPairs fusePairOk s.stile.fuses 4 inp.fuseReads 0
  let s1 := s.count rstCntShadow rep
  match good with
  | none => (s1, false)
  | some (a, b) =>
    let (code, unstable) := strapCode 4 s1.pins.strap.toNat inp.strap
    let (m, fl) := if unstable then (0, 2 ^ 20) else strapMode code (fuseField a 864 1 = 0)
    let next := match s1.stile.indexBlocks.max? with
      | none => 0
      | some n => 1024 * (n + 1)
    let svn := svnMask a ||| svnMask b
    let x := { s1.stile with outputs := a, svnRead := svn, minSvn := ones64 svn, nextIdx := next, endIdx := next }
    let t := { s1 with pins := { s1.pins with strap := BitVec.ofNat 8 code }, stile := x }.setReg rstStrap
      (BitVec.ofNat 64 (code + m * 2 ^ 8 + fl))
    (if x.skips then t.setBit stlErr 6 else t, true)

/-- The boot choice of step 2 where no slot gives an image, or the strap asks for none: a recovery boot (R595). -/
def State.toRecovery (s : State) : State :=
  { s with stile := { s.stile with image := recoveryImage s.stile.outputs, recoveryBoot := true } }

/-- Step 1 with the boot choice; the first flag says that the fuse load succeeded, the second that a slot boots. -/
def State.releaseOne (s : State) (inp : ReleaseInput) : State × Bool × Bool :=
  let (s1, ok) := s.releaseFuses inp
  if ok then
    let (s2, booted) := tryBoot (s1.bootOrder s1.strapModeNow) inp.flashBad s1
    (if booted then s2 else s2.toRecovery, true, booted)
  else (s1, false, false)

/-- Step 2: the trim load with the image's overlay; a recovery boot has none. -/
def State.releaseTrim (s : State) (inp : ReleaseInput) : State × Bool :=
  let o := s.stile.image.overlay
  let crcOk := s.stile.recoveryBoot || decide ((crc32c (o.take 256)).toNat = msgNat o 256 4)
  let there := BitVec.ofNat 2048 (fuseField s.stile.fuses 865 2048)
  let (good, rep) := readPairs (fun p => decide (p.1 = p.2) && crcOk) there 4 inp.trimReads 0
  let s1 := s.count rstCntShadow rep
  match good with
  | none => (s1, false)
  | some (a, _) => ({ s1 with stile := { s1.stile with trim := trimOf a o } }, true)

/-- Step 4: memory. The first release after a cold reset takes the interleave granularity of its image; a later one keeps it
and shows a difference (R413, R437, R438). -/
def State.releaseMem (s : State) : State :=
  let img := s.stile.image
  let pend := s.pins.ilvSet && decide (s.fld memCtrl 2 2 ≠ img.ilv.toNat)
  let s1 := if s.pins.ilvSet then s
    else { s.setFld memCtrl 2 2 img.ilv.toNat with pins := { s.pins with ilvSet := true } }
  s1.setReg memStatus (BitVec.ofNat 64 (1 + pend.toNat * 16 + 0xFFF * 2 ^ 16))

/-- Step 7: firmware, placed in buffers that hold no error after a reset, its thread, and the module's identity. -/
def State.releaseFirmware (s : State) : State :=
  let img := s.stile.image
  let s3 := if spans inBuf img.firmwareAt img.firmware.length then s.poke img.firmwareAt img.firmware else s
  let s4 := s3.startFirmware
  let s5 := s4.setReg spxId (BitVec.ofNat 64 (img.chip.toNat + img.fabric.toNat * 2 ^ 16))
  { s5 with mems := { s5.mems with members := [img.chip.toNat] } }.settleSync

/-- Step 8: the host port. -/
def State.releaseHost (s : State) : State := { s with pins := { s.pins with hostUp := true } }

/-- Step 9: the laser sequence, which strap mode 6 holds back (R479, R583). -/
def State.releaseLinks (s : State) : State :=
  if s.strapModeNow = 6 then s
  else ((List.range 32).filter s.policyAllows).foldl (fun t p => t.portEnSet p true) s

/-- Steps 3 to 9 of a boot, as far as the first n steps go; the clocks of step 3, the fabric of 5 and the plot dies of 6 leave
nothing in the state beyond what the reset has left. -/
def State.releaseTo (s : State) (n : Nat) : State :=
  let s4 := if 4 ≤ n then s.releaseMem else s
  let s7 := if 7 ≤ n then s4.releaseFirmware else s4
  let s8 := if 8 ≤ n then s7.releaseHost else s7
  if 9 ≤ n then s8.releaseLinks else s8

/-- Set SVN bits from the lowest clear one upward until n are set, at most k of them now (R598). -/
def burnMask : Nat → Nat → Nat → Nat
  | 0, m, _ => m
  | k + 1, m, n => if ones64 m < n then burnMask k (m ||| (m + 1)) n else m

/-- Blow SVN_FUSE bits one at a time, at most k of them, until MIN_SVN is the image's SVN (R598). -/
def State.burnSvn (s : State) (k : Nat) : State :=
  let x := s.stile
  if x.fallback ∨ ¬ x.image.svnBurn ∨ x.image.svn ≤ x.minSvn then s
  else
    let m := burnMask k x.svnRead x.image.svn % 2 ^ 64
    { s with stile := { x with fuses := x.fuses ||| BitVec.ofNat 4096 ((m ^^^ (m &&& x.svnRead)) * 2 ^ 4032), svnRead := m, minSvn := ones64 m } }

/-- A trial that reaches step 10 becomes the active slot; the first n bytes of its record are programmed (R594). -/
def State.recordActive (s : State) (n : Nat) : State :=
  if s.stile.trial ∧ s.pins.wpN then
    let t := s.appendPart (.active s.stile.image.slotB) n
    if n < 16 then t else { t with stile := t.stile.setSlot s.stile.image.slotB 1 }
  else s

/-- Step 10: Ready; a trial becomes the active slot, FAILS clears, and SVN_FUSE is burnt where the image asks for it. -/
def State.releaseReady (s : State) : State :=
  let cold := !s.warmKind
  let s2 := (((s.recordActive 16).setFld stlSlots 10 4 0).burnSvn 64).releaseEnds 10
  if cold ∧ s2.strapModeNow = 7 then s2.enterFallow else s2

/-- Step 1 as far as it has come where the release is cut off within it (R579, R594). -/
def State.cutOne (s : State) (inp : ReleaseInput) (part : Nat) : State :=
  if part = 0 then s
  else
    let (t, ok) := s.releaseFuses inp
    if ¬ ok then s
    else if t.strapModeNow = 1 ∨ t.strapModeNow = 2 ∨ t.strapModeNow = 3 ∨ (pendingTrial t.stile.records).isNone then t
    else
      let u := t.recordTry (part - 1)
      if part ≤ 16 ∨ ¬ u.pins.wpN then u else { u with stile := { u.stile with trial := true } }

/-- Step 10 as far as it has come where the release is cut off within it (R594, R598). -/
def State.cutTen (s : State) (part : Nat) : State :=
  let t := s.recordActive (min 16 part)
  if part ≤ 16 then t else (t.setFld stlSlots 10 4 0).burnSvn (part - 16)

/-- Steps 3 to 10 after a choice of image and a trim load, or what a recovery boot has of them (R595). -/
def State.releaseRest (s : State) (booted : Bool) (cut : Option ReleaseCut) : State :=
  match booted, cut with
  | true, none => (s.releaseTo 9).releaseReady
  | true, some c => (if c.steps.val = 9 then (s.releaseTo 9).cutTen c.part else s.releaseTo c.steps.val).releaseCut c.steps.val
  | false, none => s.releaseHost.releaseEnds 3
  | false, some c => if c.steps.val = 2 then s.releaseCut 2 else s.releaseHost.releaseEnds 3

/-- RELEASE_ORDER: the release, with what its measurements and reads return, to its end or to where it is cut off. A cut within
steps 1 or 2 discards what their shadow registers hold (R579). -/
def execReleaseOrder (inp : ReleaseInput) (s : State) : Out :=
  if ¬ s.releaseDue then stutter s
  else if (inp.cut.map (fun c => c.steps.val)) = some 0 then .next ((s.cutOne inp ((inp.cut.map (fun c => c.part)).getD 0)).releaseCut 0)
  else
    let (s1, ok1, booted) := s.releaseOne inp
    if ¬ ok1 then .next (s1.fuseStop 0)
    else if (inp.cut.map (fun c => c.steps.val)) = some 1 then .next (s1.releaseCut 1)
    else
      let (s2, ok2) := s1.releaseTrim inp
      if ¬ ok2 then .next (s2.fuseStop 1) else .next (s2.releaseRest booted inp.cut)

-- LEDs (R26).

/-- The patterns of an LED. -/
inductive Led where
  | off
  | blink4
  | blink1
  | steady
deriving DecidableEq, Repr

def State.ledA (s : State) : Led :=
  if ¬ s.pins.pwrGood ∨ ¬ s.pins.resetN then .off
  else if s.pow.st = 2 then .blink1
  else if s.ready ∧ s.pins.causes.isEmpty then .steady
  else .blink4

/-- LED_B shows a trip or a fuse fault at every moment, and all else from release step 7 (R26, R30, R581). -/
def State.ledB (s : State) : Led :=
  if ¬ s.pins.supervisory then .off
  else if s.pins.tripLatch ∨ s.stile.fuseFault then .steady
  else if ¬ s.pastStep7 then .off
  else if s.bit sysDump 0 then .steady
  else if s.alertLow then .blink1
  else .off

-- Watchdog and RST_CTRL (R585, R602).

/-- The watchdog runs: from step 10, enabled, and not in fallow (R638). -/
def State.watchdogRuns (s : State) : Bool := s.ready && s.bit rstCtrl 0 && !s.linksDark && s.pow.st != 4

/-- WATCHDOG_EXPIRY. -/
def execWatchdogExpiry (s : State) : Out := if s.watchdogRuns then .next (s.resetBy .watchdog) else stutter s

/-- WATCHDOG_RESTART: a write of RST_WDOG; the model follows no time, so the period that 0x5EED restarts is not state. -/
def execWatchdogRestart (v : Word) (s : State) : Out := .next (s.writePlain rstWdog v)

/-- A write of RST_CTRL: WDOG_MS takes 10 to 60,000. -/
def State.rstCtrlSet (s : State) (v : Word) : State :=
  let m := natBits v.toNat 16 16
  if 10 ≤ m ∧ m ≤ 60000 then s.writePlain rstCtrl v else s.writePlain rstCtrl (putBits v 16 16 (s.fld rstCtrl 16 16))

/-- RST_CTRL_WRITE. -/
def execRstCtrlWrite (v : Word) (s : State) : Out := .next (s.rstCtrlSet v)

-- Per-block reset (R586 to R588, R656).

/-- The number of blocks of a type. -/
def blockCount (typ : Nat) : Nat := [0, 64, 12, 32, 256, 1, 1].getD typ 0

/-- A GO may start (R586, R588). -/
def State.goAllowed (s : State) (typ index : Nat) : Bool :=
  s.block.isNone && s.chResets.isEmpty && decide (index < blockCount typ) && !((typ == 2 || typ == 6) && s.bit furCtrl 0)

/-- A write of RST_BLOCK: TYPE, INDEX and, with GO, the handshake or its refusal. -/
def State.rstBlockSet (s : State) (v : Word) : State :=
  let typ := natBits v.toNat 0 3
  let index := natBits v.toNat 8 8
  if ¬ v.getLsbD 16 then s.writePlain rstBlock v
  else if s.goAllowed typ index then
    { s.writePlain rstBlock v with block := some ⟨BitVec.ofNat 3 typ, BitVec.ofNat 8 index, false⟩ }
  else s.setBit rstBlockStatus 2

/-- BLOCK_RESET_GO: a write of RST_BLOCK with GO 1. -/
def execBlockResetGo (v : Word) (s : State) : Out := if v.getLsbD 16 then .next (s.rstBlockSet v) else stutter s

/-- No plan of an engine runs and no command of it is in flight. -/
def EngSt.quiet (e : EngSt) : Bool := e.running.isNone && e.inFlight == 0 && e.cmds.isEmpty

/-- A strip is idle (R656). -/
def State.stripIdle (s : State) (st : Nat) : Bool :=
  [engTil st, engWin st, engGln st, engHrw st].all (fun e => (s.eng e).quiet) &&
    (List.range 4).all (fun c => s.chanQuiet (4 * st + c)) &&
    (List.range 10).all (fun a => (s.tiller st a).loading.isNone && (s.tiller st a).lots.all (fun l => l.2.streams.isEmpty)) &&
    (s.winnow st).accWait.isNone && (s.winnow st).later.isEmpty &&
    (List.range 4).all (fun t => (s.wctx st t).queue.isEmpty && ((st == 63 && t == 3) || (s.thread st t).st != .run)) &&
    (s.gport st).runs.isEmpty && (s.gport st).reads.isEmpty && (s.gport st).refreshing.isNone

/-- A port is idle (R656): every flit that it has sent is acknowledged, and no message is partly forwarded through it, neither
one of which the rest still waits for credit nor one that has partly come in. -/
def State.portIdle (s : State) (p : Nat) : Bool :=
  let x := s.port p
  x.replay.isEmpty && x.route.isEmpty && x.cur.isEmpty && x.partialMsg.all (fun m => m.2.isEmpty) &&
    [0, 1, 2, 3].all (fun c => match takeClass c x.waiting with
      | none => true
      | some y => y.1.2.isFirst)

/-- A block is idle for R587. -/
def State.blockIdle (s : State) (typ index : Nat) : Bool :=
  match typ with
  | 1 => s.stripIdle index
  | 2 => [0, 1, 2, 3].all (fun j => (s.eng (engShf (4 * index + j))).quiet && (s.sheaf (4 * index + j)).flush.isNone)
  | 3 => s.portIdle index
  | 4 => s.chanQuiet index
  | 5 => s.drl.build.isNone
  | 6 => (List.range 32).all (fun p => s.portIdle p && (s.port p).waiting.isEmpty && (s.port p).held.isEmpty) &&
      s.red.running.isNone
  | _ => true

/-- A port reset: fenced, then OFF with its lasers dark (R586). -/
def State.resetPort (s : State) (p : Nat) : State := (s.fencePort p).offPort p

/-- The effect of a per-block reset (R586). -/
def State.blockEffect (s : State) (typ index : Nat) : State :=
  match typ with
  | 1 => s.resetStrip (Fin.ofNat 64 index)
  | 2 => s.resetHedge index
  | 3 => s.resetPort index
  | 4 => s.resetChan (Fin.ofNat 256 index)
  | 5 => s.resetDrill
  | 6 => (List.range 32).foldl State.resetPort s.resetReduce
  | _ => s

/-- The reset of the block under way is applied, forced or not. -/
def State.blockApply (s : State) (b : BlockReset) (forced : Bool) : State :=
  let t := (s.blockEffect b.type.toNat b.index.toNat).setFld rstBlockStatus 1 1 forced.toNat
  { t with block := some { b with applied := true } }

/-- The first channel in the handshake of HRW_RESET whose reset is not applied, idle or not. -/
def State.chPending (s : State) (idle : Bool) : Option Chan :=
  (s.chResets.find? (fun r => !r.2 && s.chanQuiet r.1.val == idle)).map (fun r => r.1)

/-- Apply the reset of a channel in that handshake. -/
def State.chApply (s : State) (ch : Chan) (forced : Bool) : State :=
  let t := (s.resetChan ch).setFld rstBlockStatus 1 1 forced.toNat
  { t with chResets := t.chResets.map (fun r => if r.1 = ch then (ch, true) else r) }

/-- BLOCK_RESET_APPLY: a block has become idle: that of RST_BLOCK, or else a channel of HRW_RESET (log entry 111). -/
def execBlockResetApply (s : State) : Out :=
  match s.block, s.chPending true with
  | some b, c =>
    if ¬ b.applied ∧ s.blockIdle b.type.toNat b.index.toNat then .next (s.blockApply b false)
    else match c with
      | some ch => .next (s.chApply ch false)
      | none => stutter s
  | none, some ch => .next (s.chApply ch false)
  | none, none => stutter s

/-- BLOCK_RESET_TIMEOUT: IDLE_US passes before the block is idle. -/
def execBlockResetTimeout (s : State) : Out :=
  match s.block, s.chPending false with
  | some b, c =>
    if ¬ b.applied ∧ ¬ s.blockIdle b.type.toNat b.index.toNat then .next ((s.blockApply b true).count rstCntForced 1)
    else match c with
      | some ch => .next ((s.chApply ch true).count rstCntForced 1)
      | none => stutter s
  | none, some ch => .next ((s.chApply ch true).count rstCntForced 1)
  | none, none => stutter s

/-- A channel runs from its reset state, and the fetch of its engine's plan goes on. -/
def State.chEnd (s : State) (ch : Chan) : State :=
  { s with chResets := s.chResets.filter (fun r => r.1 ≠ ch) }.refill (chEng ch.val)

/-- BLOCK_RESET_END: BUSY clears. -/
def execBlockResetEnd (s : State) : Out :=
  match s.block, s.chResets.find? (fun r => r.2) with
  | some b, c =>
    if b.applied then
      let t := { s with block := none }
      .next (if b.type.toNat = 4 then t.refill (chEng b.index.toNat) else t)
    else match c with
      | some (ch, _) => .next (s.chEnd ch)
      | none => stutter s
  | none, some (ch, _) => .next (s.chEnd ch)
  | none, none => stutter s

end Sys2Proof.Machine
end

