-- ==== Sys2Proof/Machine/Csr.lean ====
section
/-!
DEFINITION. Reads and writes of CSR space (R8, R406): registers that show other state are computed here, and a write that
does more than its access code is passed to the operation of its chapter.
-/

namespace Sys2Proof.Machine
open Sys2Proof

-- Reading.

/-- A word from fields: place and value. -/
def packWord (l : List (Nat × Nat)) : Word := BitVec.ofNat 64 ((l.map (fun x => x.2 * 2 ^ x.1)).sum)

/-- A mask from a test of 0 to n − 1. -/
def maskOf (n : Nat) (f : Nat → Bool) : Nat := (List.range n).foldl (fun m i => m + (f i).toNat * 2 ^ i) 0

/-- Codes of the synchronisation states, threads, ports, jobs (R72, R247, R527, R567). -/
def Sync.code : Sync → Nat
  | .free => 0
  | .acquire => 1
  | .locked => 2
  | .holdover => 3

def ThrState.code : ThrState → Nat
  | .idle => 0
  | .run => 1
  | .wait => 2
  | .halted => 3

def PortState.code : PortState → Nat
  | .off => 0
  | .train => 1
  | .hello => 2
  | .up => 3
  | .fenced => 4

def JobState.code : JobState → Nat
  | .none => 0
  | .loading => 1
  | .loaded => 2
  | .running => 3
  | .paused => 4

def gateWaits (e : EngSt) : Nat := (e.gate == .waiting).toNat

/-- Furrow registers (R46, R48, R72, R75). MASTER_ID reads 0 while the fabric has no master, which R72 does not say (DESIGN
CHOICE, log entry 99). -/
def State.readFur (s : State) (o : Nat) : Word :=
  if o = furPeriod then packWord [(0, s.fld furPeriod 0 20), (32, s.fur.active.toNat)]
  else if o = furCountReg then s.furCount
  else if o = furStatus then
    packWord [(0, s.fur.sync.code), (2, s.isMaster.toNat), (3, (s.fld furPeriod 0 20 != s.fur.active.toNat).toNat),
      (4, s.fur.hops.toNat), (16, s.master.getD 0), (32, s.fur.phaseErr.toNat)]
  else if furEngStat 0 ≤ o then
    let e := s.eng ((o - furEngStat 0) / 8)
    packWord [(0, e.overruns.toNat), (32, e.slipNow.toNat), (40, e.slipMax.toNat), (48, e.queue.length),
      (51, e.running.isSome.toNat)]
  else s.reg o

/-- Tiller registers of an array (R152, R156). -/
def State.readTil (s : State) (st o : Nat) : Word :=
  let a := o / 0x1000
  let x := s.tiller st a
  if o ≥ 0xA000 then s.reg (tilBase st + o)
  else if o % 0x1000 = 0 then
    packWord [(0, x.mode.toNat), (2, ((List.range 8).any x.streaming).toNat), (3, x.loading.isSome.toNat), (4, x.halted.toNat),
      (8, ((s.eng (engTil st)).cmds.filter (fun c => c.arr == a || (a == 0 && c.arr > 9))).length),
      (16, maskOf 8 (fun l => (x.lot l).shadowState == .ready)), (32, x.tag.toNat)]
  else if o % 0x1000 = 0x20 then packWord [(0, x.drain0.toNat), (32, x.drain1.toNat)]
  else s.reg (tilBase st + o)

/-- Winnow registers (R209, R214, R215). -/
def State.readWin (s : State) (st o : Nat) : Word :=
  let w := s.winnow st
  if o = 8 then
    packWord [(0, w.accWait.isSome.toNat), (1, w.halted.toNat), (2, w.accWait.isSome.toNat),
      (8, maskOf 8 (fun p => (Tab.get w.luts {} p).valid))]
  else if 0x80 ≤ o ∧ o < 0xA0 then
    let c := w.thread ((o - 0x80) / 8)
    packWord [(0, c.c0), (13, c.c1), (26, c.c2), (39, c.c3), (52, c.queue.length)]
  else if 0x100 ≤ o ∧ o < 0x140 then
    let p : LutPair := Tab.get w.luts {} ((o - 0x100) / 8)
    packWord [(0, p.valid.toNat), (1, p.exp2.toNat), (8, p.sh.toNat), (32, p.lo.toNat)]
  else s.reg (winBase st + o)

/-- Headland registers (R247, R250). -/
def State.readHdl (s : State) (st o : Nat) : Word :=
  if o < 0x20 then
    let t := s.thread st (o / 8)
    packWord [(0, t.st.code), (2, t.modeF.toNat), (3, t.stalled.isSome.toNat), (4, t.waitCtr.toNat), (16, t.pc.toNat)]
  else if o = 0x50 then
    packWord [(0, (s.fifo st 0).length), (4, (s.fifo st 1).length), (8, (s.fifo st 2).length), (12, (s.fifo st 3).length),
      (16, (s.fifo st 4).length)]
  else s.reg (hdlBase st + o)

/-- Stook registers (R252, R255). -/
def State.readStk (s : State) (st o : Nat) : Word :=
  if o < 0x180 then
    let ws := Tab.get s.waiters [] (ctrKey st (o / 8))
    packWord [(0, (s.ctr st (o / 8)).toNat), (24, (!ws.isEmpty).toNat)]
  else if o = 0xA00 then s.stkEpoch.setWidth 64
  else if o = 0xA08 then s.stkEpochAt
  else s.reg (stkBase st + o)

/-- A sampler waits for members of its gang (R282). -/
def State.gangWaits (s : State) (d : Nat) : Bool :=
  match (s.sampler d).joined with
  | none => false
  | some c => (s.gangReady (smpBase c)).isNone

/-- A sampler whose build does not run yet waits for the seed table of its step (R281). -/
def State.waitsSeed (s : State) (d : Nat) : Bool :=
  match (s.sampler d).joined with
  | none => false
  | some c => s.seedWaits c && !s.drl.build.any (fun b => (smpGang b.cmd).contains d)

/-- Drill registers (R293, R295). -/
def State.readDrl (s : State) (o : Nat) : Word :=
  if o = 0xF010 then packWord [(0, s.drl.cursorSi), (32, s.drl.cursorMb)]
  else if o = 0xF028 then packWord [(0, s.drl.ingest.length), (7, (!s.drl.ingest.isEmpty && s.nextBatch.isNone).toNat)]
  else if o < 0xF000 ∧ o % 0x1000 = 0 then
    let d := o / 0x1000
    let x := s.sampler d
    packWord [(0, (s.eng (engDrl d)).running.isSome.toNat), (1, x.halted.toNat),
      (2, (s.waitsSeed d).toNat), (3, (s.gangWaits d).toNat),
      (4, (s.drl.build.map (fun b => b.lead.val)).getD 0), (32, (x.joined.map (fun c => c.tag)).getD 0)]
  else s.reg (drlBase + o)

/-- The TAG of the command that runs on a port. -/
def GlnPort.tag (p : GlnPort) : Nat :=
  match p.runs, p.refreshing with
  | r :: _, _ => r.cmd.tag
  | [], some c => c.tag
  | [], none => 0

/-- Glean registers (R336, R339, R341). -/
def State.readGln (s : State) (o : Nat) : Word :=
  if o < 0x40000 then
    if o % 0x1000 = 0 then
      let n := o / 0x1000
      let p := s.gport n
      packWord [(0, (!p.runs.isEmpty || p.refreshing.isSome).toNat), (1, p.halted.toNat), (2, gateWaits (s.eng (engGln n))),
        (8, p.reads.length), (32, p.tag)]
    else s.reg (glnBase + o)
  else if o = 0x40018 then s.reg glnDir ||| packWord [(53, s.gln.cur.toNat)]
  else if o = 0x40070 then packWord [(0, s.gln.parked.length)]
  else if o ≥ 0x100000 then
    let x : SlotSt := Tab.get s.gln.slots {} ((o - 0x100000) / 8)
    packWord [(0, x.refs.toNat), (16, x.valid.toNat), (17, x.busy.toNat), (18, x.held.toNat), (19, x.inCur.toNat),
      (20, x.inNext.toNat), (21, x.free.toNat), (32, x.ver.toNat)]
  else s.reg (glnBase + o)

/-- The command that an engine of Sheaf runs. -/
def State.shfRunning (s : State) (e : Nat) : Option QCmd :=
  match (s.sheaf e).flush, (s.sheaf e).absorb with
  | some f, _ => some f.cmd
  | none, some r => some r.cmd
  | none, none => (s.shf.waits.find? (fun w => w.eng.val == e)).map (fun w => w.cmd)

/-- Sheaf registers (R381, R384). -/
def State.readShf (s : State) (o : Nat) : Word :=
  if o < 0x30000 then
    let e := o / 0x1000
    let x := s.sheaf e
    if o % 0x1000 = 0 then
      let c := s.shfRunning e
      packWord [(0, c.isSome.toNat), (1, x.halted.toNat), (2, gateWaits (s.eng (engShf e))), (3, x.bankWait.toNat),
        (4, x.flush.isSome.toNat), (32, (c.map QCmd.tag).getD 0)]
    else if o % 0x1000 = 0x20 then packWord [(0, x.used0), (32, x.used1)]
    else s.reg (shfBase + o)
  else if o ≥ 0x50000 then
    let x := s.ledger ((o - 0x50000) / 16)
    if o % 16 = 0 then packWord [(0, x.pub.toNat), (32, x.writing0.toNat), (33, x.writing1.toNat)]
    else packWord [(0, x.users0.toNat), (24, x.users1.toNat)]
  else s.reg (shfBase + o)

/-- Harrow registers of a channel (R472). -/
def State.readHrw (s : State) (st o : Nat) : Word :=
  if o < 0x4000 ∧ o % 0x1000 = 0 then
    let c := 4 * st + o / 0x1000
    let x := s.chan c
    let queued := if x.halted then 0 else ((s.eng (engHrw st)).cmds.filter (fun q => hwChan q == o / 0x1000)).length
    packWord [(0, x.running.isSome.toNat), (1, x.halted.toNat), (2, (x.gate == .waiting).toNat), (3, x.startWait.toNat),
      (8, min 4 queued), (16, x.baton.toNat), (32, (x.running.map (fun r => r.cmd.tag)).getD 0)]
  else s.reg (hrwBase st + o)

/-- Septax registers (R527, R529). SPX_DIGEST reads its reset value while no chip is a member. -/
def State.readSpx (s : State) (o : Nat) : Word :=
  let p := s.port (o / 0x1000)
  if o < 0x20000 ∧ o % 0x1000 = 0x008 then
    packWord [(0, p.st.code), (8, p.nbrChip.toNat), (24, p.nbrPort.toNat), (32, p.laneLock.toNat)]
  else if o < 0x20000 ∧ o % 0x1000 = 0x018 then
    packWord [(0, p.credA.toNat), (16, p.credB.toNat), (32, p.credC.toNat), (48, p.credD.toNat)]
  else if o = 0x20010 then packWord [(0, s.mems.members.length), (32, s.mems.mseq.toNat)]
  else if o = 0x20018 then (if s.mems.members.isEmpty then 0 else (digestOf s.mems.members).setWidth 64)
  else if o = 0x20030 then
    packWord [(0, s.red.running.isSome.toNat), (1, s.red.halted.toNat), (2, gateWaits (s.eng engRed)),
      (32, match s.red.running with
        | some c => c.tag
        | none => (s.red.errTag.map BitVec.toNat).getD 0)]
  else if 0x22000 ≤ o ∧ o < 0x24000 then
    let i := (o - 0x22000) / 8
    BitVec.ofNat 64 ((s.mems.members.filter (fun c => c / 64 = i)).foldl (fun n c => n + 2 ^ (c % 64)) 0)
  else s.reg (spxBase + o)

/-- Slots in a state. -/
def State.slotCount (s : State) (st : SlotState) : Nat := (s.job.results.filter (fun r => r.2.st == st)).length

/-- Fieldgate registers (R567, R568). -/
def State.readFgt (s : State) (o : Nat) : Word :=
  let img := s.stile.image
  if o = 0x08 then
    let m := s.strapModeNow
    packWord [(0, s.pins.hostUp.toNat), (1, if m = 4 then 1 else if m = 5 then 2 else 0), (3, s.fur.withheld.isSome.toNat),
      (4, s.job.st.code), (8, (s.sess.filter (fun x => x.2.isOpen)).length)]
  else if o = 0x10 then
    packWord [(0, img.udp.toNat), (16, natBits img.vlan.toNat 0 12), (28, natBits img.vlan.toNat 15 1), (29, (img.ipv4 != 0).toNat)]
  else if o = 0x18 then img.mac.setWidth 64
  else if o = 0x20 then img.ipv6.setWidth 64
  else if o = 0x28 then (img.ipv6 >>> 64).setWidth 64
  else if o = 0x30 then img.ipv4.setWidth 64
  else if o = 0x40 then packWord [(0, s.slotCount .held), (32, s.slotCount .filling)]
  else if o ≥ 0x1000 then
    let x := s.session ((o - 0x1000) / 8)
    packWord [(0, x.isOpen.toNat), (1, x.mgmt.toNat), (16, x.keyId.toNat), (32, x.epoch.toNat)]
  else s.reg (fgtBase + o)

/-- Step 1 of the release has completed since the last reset. -/
def State.fusesRead (s : State) : Bool := s.fld rstStatus 0 4 != 0

/-- Stile registers (R603). -/
def State.readStl (s : State) (o : Nat) : Word :=
  let x := s.stile
  if o = 0x00 then
    packWord [(0, x.image.slotB.toNat), (1, x.fallback.toNat), (2, x.trial.toNat), (3, x.recoveryBoot.toNat), (4, s.pins.wpN.toNat),
      (5, (fuseField x.outputs 864 1 == 0 && s.fusesRead).toNat), (16, x.image.svn), (32, x.minSvn)]
  else if o = 0x08 then
    let t := pendingTrial x.records
    packWord [(0, x.slotA), (2, x.slotB), (4, (activeSlot x.records).toNat), (5, t.isSome.toNat), (8, (t.map (fun p => p.2)).getD 0 % 4),
      (10, s.bootFails)]
  else if o = 0x10 then packWord [(0, x.nextIdx % 2 ^ 40)]
  else if o = 0x18 then packWord [(0, x.endIdx % 2 ^ 40)]
  else if 0x20 ≤ o ∧ o < 0x40 then BitVec.ofNat 64 (msgNat x.image.hash (o - 0x20) 8)
  else if 0x40 ≤ o ∧ o < 0x88 then
    if s.fusesRead then
      BitVec.ofNat 64 (msgNat ((Config.xmssmtPublic (BitVec.ofNat 256 (fuseField x.outputs 608 256))).take 68) (o - 0x40) 8)
    else 0
  else if o = 0x88 then (if s.fusesRead then BitVec.ofNat 64 (fuseField x.outputs 0 64) else 0)
  else s.reg (stlBase + o)

/-- A dump slot's header says that it is complete. -/
def State.dumpDone (s : State) (slot : Nat) : Bool := s.viewNat (dumpBase + slot * 2 ^ 31 + 27) 1 == 1
def State.dumpSeq (s : State) (slot : Nat) : Nat := s.viewNat (dumpBase + slot * 2 ^ 31 + 8) 8

/-- The slot of the newest complete dump. -/
def State.newestDump (s : State) : Nat := if s.dumpDone 1 ∧ (¬ s.dumpDone 0 ∨ s.dumpSeq 0 < s.dumpSeq 1) then 1 else 0

/-- Recovery registers (R632). -/
def State.readSys (s : State) (o : Nat) : Word :=
  if o = 0x10 then
    packWord [(0, recCode s.rcv.st), (3, s.isMaster.toNat), (8, s.rcv.retries.toNat), (32, s.rcv.rseq.toNat)]
  else if o = 0x30 then s.reg sysDump ||| packWord [(1, s.newestDump)]
  else s.reg (sysBase + o)

/-- PWR_STATE.STATE (R633): IDLE or ACTIVE by the job, or the fallow states. -/
def State.powerState (s : State) : Nat :=
  if s.pow.st ≥ 2 then s.pow.st.toNat else if s.job.st = .running then 1 else 0

/-- The highest power class that the seed image admits (R643). -/
def State.classMax (s : State) : Nat := if 1 ≤ s.stile.image.classMax ∧ s.stile.image.classMax ≤ 8 then s.stile.image.classMax else 8

def State.readPwr (s : State) (o : Nat) : Word :=
  if o = 0 then packWord [(0, s.powerState), (8, s.job.clas), (16, s.classMax)] else s.reg (pwrBase + o)

/-- The stored or shown contents of the register at an offset, as a read returns them but for free readings. -/
def State.csrValue (s : State) (o : Nat) : Word :=
  match o / 0x1000000 with
  | 0 => if o < 0x10000 then s.reg o else s.readFur o
  | 1 => s.readTil (o / 0x10000 % 64) (o % 0x10000)
  | 2 => s.readWin (o / 0x10000 % 64) (o % 0x10000)
  | 3 => s.readHdl (o / 0x10000 % 64) (o % 0x10000)
  | 4 => s.readStk (o / 0x10000 % 64) (o % 0x10000)
  | 5 => s.readDrl (o - drlBase)
  | 6 => s.readGln (o - glnBase)
  | 7 => s.readShf (o - shfBase)
  | 8 => if o = memCntClcHit then BitVec.ofNat 64 s.clc.hits else if o = memCntClcMiss then BitVec.ofNat 64 s.clc.misses else s.reg o
  | 9 => s.readHrw (o / 0x10000 % 64) (o % 0x10000)
  | 10 => s.readSpx (o - spxBase)
  | 11 => s.readFgt (o - fgtBase)
  | 12 => if o = rstBlockStatus then s.reg o ||| packWord [(0, (s.block.isSome || !s.chResets.isEmpty).toNat)] else s.reg o
  | 13 => s.readStl (o - stlBase)
  | 14 => s.readSys (o - sysBase)
  | 15 => s.readPwr (o - pwrBase)
  | _ => s.reg o

/-- The bits of a register that show an analogue reading of the moment (R652, log entry 8). -/
def freeBits (o : Nat) : Nat :=
  if o = pwrInput then mask 31 0 else if o = pwrTemp then mask 14 0 + mask 23 16 else 0

/-- What a counter of time or of FEC codewords counts goes on at present, so that a reading may find it further on. The
counter also moves where a state that it times comes to its end. -/
def State.timeRuns (s : State) (o : Nat) : Bool :=
  let st := o / 0x10000 % 64
  let r := o % 0x10000
  match o / 0x1000000 with
  | 1 =>
    let x := s.tiller st (r / 0x1000)
    decide (r < 0xA000) && ((r % 0x1000 == 0x48 && (List.range 8).any x.streaming) ||
      (r % 0x1000 == 0x50 && x.lots.any (fun p => p.2.streams.any (fun j => j.stalled))))
  | 2 => r == 0x50 && (s.winnow st).accWait.isSome
  | 3 => (r == 0x88 && (List.range 4).any (fun k => (s.thread st k).st == .wait)) ||
      (r == 0x90 && (List.range 4).any (fun k => (s.thread st k).stalled.isSome))
  | 6 => decide (o - glnBase < 0x40000) && o % 0x1000 == 0x78 && (s.gport ((o - glnBase) / 0x1000)).full
  | 9 =>
    let c := s.chan (4 * st + r / 0x1000)
    decide (r < 0x4000) && ((r % 0x1000 == 0x58 && (c.gate == .waiting || c.startWait)) ||
      (r % 0x1000 == 0x60 && c.running.any (fun x => hwRate x.cmd != 0)))
  | 10 => decide (o - spxBase < 0x20000) && o % 0x1000 == 0x60 &&
      (s.port ((o - spxBase) / 0x1000)).st != .off
  | 16 => o == stbPowered || (decide (stbTjhist 0 ≤ o) && decide (o < stbTjhist 7))
  | _ => false

/-- Read the register at an offset of CSR space: 0 where none is assigned (R406). A counter of time goes on first by an
amount that the model does not follow; an analogue reading is drawn, and TJ_PEAK keeps the highest junction (log entry 8). -/
def State.readCsr (s : State) (o : Nat) : State × Word :=
  if (regInfo o).isNone then (s, 0)
  else if s.timeRuns o then (s.clk o, (s.clk o).csrValue o)
  else if freeBits o = 0 then (s, s.csrValue o)
  else
    let m := BitVec.ofNat 64 (freeBits o)
    let v := Config.freeReading o s.draws &&& m
    let t := if o = pwrTemp then s.draw.sawJunction (natBits v.toNat 0 8) else s.draw
    (t, v ||| (t.csrValue o &&& ~~~m))

-- Writing.

/-- A tick-scheduled change arrives at or after its target: it is not applied (R58). -/
def State.tickWrite (s : State) (v : Word) (body : State) : State :=
  if v ≠ 0 ∧ v.toNat ≤ s.furCount.toNat then s.furFaultSet 2 0 else body

/-- Writes in the stook block of a strip. -/
def State.stkWrite (s : State) (st o : Nat) (v : Word) : State :=
  let r := o % 0x10000
  if r < 0x180 then s.stkValSet st (r / 8) v
  else if 0x400 ≤ r ∧ r < 0x580 then s.stkNodeNextSet st ((r - 0x400) / 8) v
  else if r = 0xA08 then s.tickWrite v { s with stkEpochAt := v }
  else s.writePlain o v

/-- Writes of Glean registers. -/
def State.glnWrite (s : State) (o : Nat) (v : Word) : State :=
  if o = glnDir then s.glnDirSet v
  else if o = glnDirCmd then (if natBits v.toNat 0 2 = 1 ∨ natBits v.toNat 0 2 = 2 then s.dirCommand v else s)
  else if o = glnFlipAt then s.tickWrite v (s.writePlain o v)
  else if o = glnCtrl then
    let t := s.writePlain o v
    if t.bit glnCtrl 0 then t.goOn else t
  else s.writePlain o v

/-- Writes of Sheaf registers. -/
def State.shfWrite (s : State) (o : Nat) (v : Word) : State :=
  let r := o - shfBase
  if o = shfCfaddr then s.shfCfaddrSet v
  else if r < 0x30000 ∧ r % 0x1000 = 0x18 then s.shfBankSet (r / 0x1000) v
  else s.writePlain o v

/-- Writes of memory registers; MEM_SCRUB_POS is written by firmware only (R440). -/
def State.memWrite (s : State) (o : Nat) (v : Word) (firmware : Bool) : State :=
  if o = memScrub then s.memScrubSet v
  else if o = memScrubPos then (if firmware then s.writePlain o v else s)
  else if o = memCtrl then
    let t := s.writePlain o v
    t.setAlert 4 (t.bit memStatus 3 && t.bit memCtrl 4) 0 0
  else s.writePlain o v

/-- A write of FGT_CTRL: the alert of a withheld signal follows ALERT_RESULT_EN (R558). -/
def State.fgtCtrlSet (s : State) (v : Word) : State :=
  let t := s.writePlain fgtCtrl v
  t.setAlert 5 (t.fur.withheld.isSome && t.bit fgtCtrl 0) 0 0

/-- A write of SYS_FLT_STATUS: with no job under way, clearing JOB ends the alert (R604), as does clearing the last fault bit. -/
def State.fltStatusSet (s : State) (v : Word) : State :=
  let t := s.writePlain sysFltStatus v
  let idle := t.job.st == .none || t.job.st == .loading || t.job.st == .loaded
  if idle ∧ ¬ t.bit sysFltStatus 0 ∧ (s.bit sysFltStatus 0 ∨ t.fld sysFltStatus 0 2 = 0) then t.setAlert 7 false 0 0 else t

/-- A software write of the register at an offset, `ns` after the last tick, by firmware or by the host. Clearing a bit of
TIL_CTRL.ARRAY_EN only keeps commands from the array from then on (R151): the array keeps its mode, buffers and records, and what
it has dispatched runs on, of which the manual says nothing (DESIGN CHOICE, log entry 101). -/
def State.writeCsr (s : State) (o : Nat) (v : Word) (ns : Nat) (firmware : Bool) : State :=
  if (regInfo o).isNone then s
  else
    match o / 0x1000000 with
    | 0 => if o = furCtrl then s.furCtrlSet v else if o = furPeriod then s.furPeriodSet v ns else s.writePlain o v
    | 4 => s.stkWrite (o / 0x10000 % 64) o v
    | 6 => s.glnWrite o v
    | 7 => s.shfWrite o v
    | 8 => s.memWrite o v firmware
    | 9 => if o % 0x10000 = 0xF008 then s.hrwResetSet (Fin.ofNat 64 (o / 0x10000 % 64)) v else s.writePlain o v
    | 10 =>
      let r := o - spxBase
      if r < 0x20000 ∧ r % 0x1000 = 0 then s.portCtrlSet (r / 0x1000) v else s.writePlain o v
    | 11 => if o = fgtCtrl then s.fgtCtrlSet v else s.writePlain o v
    | 12 => if o = rstCtrl then s.rstCtrlSet v else if o = rstBlock then s.rstBlockSet v else s.writePlain o v
    | 14 =>
      if o = sysRecCtrl then s.recCtrlSet v else if o = sysFltStatus then s.fltStatusSet v else s.writePlain o v
    | _ => s.writePlain o v

/-- A moment of the present furrow that the model does not follow, in ns after the last tick (log entry 8). -/
def State.freeMoment (s : State) (o : Nat) : State × Nat :=
  (s.draw, (Config.freeReading o s.draws).toNat % max 1 s.periodNs)

/-- A register whose writes have a row of their own. -/
def ownRow (o : Nat) (v : Word) : Bool :=
  let r := o % 0x10000
  match o / 0x1000000 with
  | 0 => o == furCtrl || o == furPeriod
  | 4 => decide (r < 0x180) || (decide (0x400 ≤ r) && decide (r < 0x580))
  | 6 => o == glnDir || (o == glnDirCmd && (natBits v.toNat 0 2 == 1 || natBits v.toNat 0 2 == 2))
  | 7 => o == shfCfaddr || (decide (o - shfBase < 0x30000) && o % 0x1000 == 0x18)
  | 8 => o == memScrub
  | 9 => r == 0xF008
  | 10 => decide (o - spxBase < 0x20000) && o % 0x1000 == 0
  | 12 => o == rstCtrl || o == rstWdog || (o == rstBlock && v.getLsbD 16)
  | 14 => o == sysRecCtrl && v.getLsbD 0
  | _ => false

/-- CSR_WRITE_PLAIN: a write of a register that has no row of its own. -/
def execCsrWritePlain (addr : BitVec 48) (v : Word) (s : State) : Out :=
  let a := addr.toNat
  if ¬ inCsr a ∨ a % 8 ≠ 0 ∨ ownRow (a - csrBase) v then stutter s else .next (s.writeCsr (a - csrBase) v 0 true)

-- The fault dump (R630, R631).

/-- Read registers in order, as address and value pairs. -/
def dumpRegs : List Nat → State → List Byte → State × List Byte
  | [], s, acc => (s, acc)
  | o :: r, s, acc =>
    let (t, v) := s.readCsr o
    dumpRegs r t (acc ++ leBytes 8 (csrBase + o) ++ leBytes 8 v.toNat)

/-- Every defined register. -/
def State.dumpCsrs (s : State) : State × List Byte :=
  dumpRegs (((List.range (0x11000000 / 8)).map (fun i => 8 * i)).filter (fun o => (regInfo o).isSome)) s []

/-- The furrow history ring, and the fault log. -/
def State.dumpHist (s : State) : List Byte :=
  (List.range 4096).flatMap (fun i =>
    match Tab.look s.hist i with
    | none => leBytes 32 0
    | some h =>
      leBytes 8 h.count.toNat ++ leBytes 4 h.step.toNat ++ leBytes 4 h.overruns.toNat ++ leBytes 4 h.slips.toNat ++
        leBytes 4 h.mseq.toNat ++ leBytes 4 h.rseq.toNat ++ leBytes 1 h.recState.toNat ++ leBytes 3 0)

def State.dumpLog (s : State) : List Byte :=
  (List.range 1024).flatMap (fun i => [0, 1, 2, 3].flatMap (fun w => leBytes 8 (s.reg (sysFltLog i w)).toNat))

/-- The tile registers of every strip, data and exponent parts. -/
def State.dumpTiles (s : State) : List Byte := (List.range 64).flatMap (fun st => s.views (winBaseAddr + st * 0x100000) 0x42000)

/-- The sections in order; those whose layout the manual leaves to firmware are free (log entry 9). -/
def State.dumpSections (s : State) : State × List (Nat × List Byte) :=
  let (t, csrs) := s.dumpCsrs
  (t, [(1, csrs), (2, Config.dumpSection 2 t.draws), (3, t.dumpTiles), (4, Config.dumpSection 4 t.draws),
   (5, Config.dumpSection 5 t.draws), (6, Config.dumpSection 6 t.draws), (7, t.dumpHist), (8, t.dumpLog)])

/-- Section table entries, each section after those before it. -/
def sectTable : List (Nat × List Byte) → Nat → List Byte
  | [], _ => []
  | (t, b) :: r, o =>
    leBytes 4 t ++ leBytes 4 o ++ leBytes 4 b.length ++ leBytes 4 (crc32c b).toNat ++ sectTable r (o + b.length)

/-- Firmware writes a dump into the slot whose header is not complete, or else the one with the lower SEQ. -/
def State.writeDump (s : State) (cause : Nat) : State :=
  let slot := if ¬ s.dumpDone 0 then 0 else if ¬ s.dumpDone 1 then 1 else if s.dumpSeq 0 ≤ s.dumpSeq 1 then 0 else 1
  let base := dumpBase + slot * 2 ^ 31
  let (t, secs) := s.dumpSections
  let seq := s.dumpSeq (1 - slot) + 1
  let hdr := leBytes 8 0x44554D505434384C ++ leBytes 8 seq ++ leBytes 8 s.furCount.toNat ++ leBytes 2 s.chip ++ leBytes 1 cause ++
    leBytes 1 1 ++ leBytes 4 secs.length ++ padTo 32 s.stile.image.hash ++ sectTable secs 1088
  (t.draw.write (srcHdl 63) base (padTo 1088 hdr ++ secs.flatMap (fun x => x.2))).setBit sysDump 0

/-- A fatal fault of a hedge die that has become unreachable takes its bit of HEDGE_UP down (R414, R438). -/
def State.hedgeLost (s : State) : FatalCause → State
  | .hedgeDown die => s.clrBit memStatus (16 + die.val)
  | _ => s

/-- FATAL_FAULT at or after step 10: logged, dumped, and a warm reset (R605, R607). -/
def execFatalFault (cause : FatalCause) (s : State) : Out :=
  if ¬ s.ready then stutter s
  else
    let t := ((s.hedgeLost cause).logFault 3 0 0 0 0).setBit sysFltStatus 2
    .next ((t.writeDump 3).resetBy .fatal)

-- Boot failures (R584).

/-- The slot that a boot of the reset under way tries first, whether as a trial or as a fallback: the one that has booted, or
the first in the order that step 1 would find. -/
def State.firstTry (s : State) : Option (Bool × Bool × Bool) :=
  if s.pins.releasing ∧ s.fusesRead then
    if s.stile.recoveryBoot then none else some (s.stile.image.slotB, s.stile.trial, s.stile.fallback)
  else
    let t := (s.releaseFuses {}).1
    (t.bootOrder t.strapModeNow).head?

/-- The slot that the boot would try first does not verify, with the fuses and the rollback count as step 1 reads them. -/
def State.firstSlotBad (s : State) : Bool :=
  match s.firstTry with
  | none => false
  | some (b, _, _) =>
    match (s.releaseFuses {}).1.verifySlot b with
    | .good _ => false
    | .bad _ => true

/-- Stile counts a boot failure toward the trial, whose TRY may be recorded already, or toward FAILS of the active slot, and
shows it in STL_ERR after the warm reset; a fallback counts toward neither (R584, R593, R594). -/
def State.countFailure (s : State) (first : Option (Bool × Bool × Bool)) (recorded : Bool) : State :=
  match first with
  | none => s.setBit stlErr 5
  | some (b, true, _) => ((if recorded then s else s.recordTry 16).trialFailed).slotErr b 5
  | some (b, false, true) => s.slotErr b 5
  | some (b, false, false) => (s.setFld stlSlots 10 4 (satAdd 4 s.bootFails 1)).slotErr b 5

/-- An early fatal fault found firmware running already, so that it was dumped: from step 7 on, and in step 7 itself, or where
the release that it ended is not known, by a free choice (log entry 20). -/
def State.firmwareRan (s : State) : Bool :=
  let n := s.fld rstStatus 0 4
  if s.pins.releasing ∧ n ≠ 6 then decide (7 ≤ n) else (Config.freeReading rstStatus s.draws).getLsbD 0

/-- BOOT_FAILURE: a boot that does not reach step 10; Stile warm-resets with CAUSE 6. -/
def execBootFailure (why : BootFail) (s : State) : Out :=
  if ¬ (s.releaseDue || s.pins.releasing) then stutter s
  else
    let again (t : State) : State := ((t.count rstCntWarm 1).warmClear [.bootFail]).countFailure s.firstTry s.stile.trial
    match why with
    | .verify => if ¬ s.pins.releasing ∧ s.firstSlotBad then .next (again s) else stutter s
    | .timeout => .next (again s)
    | .fatalEarly => .next (again (if s.firmwareRan then s.draw.writeDump 3 else s.draw))

/-- The session that waits for an edge batch takes its result (R551). -/
def State.noteBatch (s : State) (r : BatchResult) : State :=
  match r.batch.slot with
  | none => s
  | some (sl, i) =>
    let x := s.session sl.val
    let bs := leBytes 8 r.batch.seq.toNat ++ leBytes 1 r.result ++ leBytes 3 0 ++ leBytes 4 r.skipped
    s.setSession sl.val { x with results := Tab.put x.results i bs }

end Sys2Proof.Machine
end

