-- ==== Sys2Proof/Machine/Session.lean ====
section
/-!
DEFINITION. The transport of the Fieldgate protocol (R530 to R547): datagrams, sessions and their keys, the receive
store, and the running of requests with their replies.
-/

namespace Sys2Proof.Machine
open Sys2Proof

-- Keys and tags (R539 to R541).

/-- A host key (R540). -/
def hostKey (root : List Byte) (keyId : BitVec 16) : List Byte :=
  kmac256 root (leBytes 2 keyId.toNat) 32 (ascii "Fieldgate host key")

/-- A session key (R541). -/
def sessionKey (key nonceH nonceD : List Byte) (chip slot epoch : Nat) : List Byte :=
  kmac256 key (nonceH ++ nonceD ++ leBytes 2 chip ++ leBytes 1 slot ++ leBytes 4 epoch) 32 (ascii "Fieldgate session")

/-- TAG over header bytes 0 to 31 and the payload (R539). -/
def dgTag (key head payload : List Byte) : List Byte := kmac256 key (head ++ payload) 16 (ascii "Fieldgate datagram")

-- Fields of a received datagram (R534): bytes of the header, and flags of byte 1.

def dgHead (d : Datagram) : List Byte := leBytes 48 d.hdr.toNat
def dgField (d : Datagram) (o n : Nat) : Nat := msgNat (dgHead d) o n
def dgFlag (d : Datagram) (b : Nat) : Bool := natBits d.hdr.toNat (8 + b) 1 = 1

/-- TAG verifies under a key. -/
def dgGood (d : Datagram) (key : List Byte) : Bool := decide (dgTag key ((dgHead d).take 32) d.payload = (dgHead d).drop 32)

/-- VER and LEN fit; FROM_DEV is set only in what the T48 itself sends. -/
def dgFits (d : Datagram) : Bool :=
  dgField d 0 1 == 1 && !dgFlag d 3 && dgField d 30 2 == d.payload.length && decide (d.payload.length ≤ 9088)

-- The receive store (R547).

/-- Where a session's datagrams go (R533). -/
def Sess.peer (x : Sess) : Peer := ⟨x.ethSrc, x.ipSrc, x.udpSrc⟩

/-- Open sessions. -/
def State.openCount (s : State) : Nat := (s.sess.filter (fun p => p.2.isOpen)).length

/-- Datagrams of a session that the store holds: those out of order, and those of requests behind the one that runs. -/
def Sess.held (x : Sess) : Nat :=
  x.rxHeld.length + (x.reqs.tail.map (fun r => r.dgs)).sum + (if x.reqs.isEmpty then 0 else x.partialDgs)

/-- Bytes of the shared part of the store that are free: 32 MiB less 16 datagrams for each open session, less what the
sessions hold beyond those. -/
def State.sharedFree (s : State) : Nat :=
  33554432 - 16 * 9216 * s.openCount - ((s.sess.map (fun p => p.2.held - 16)).sum) * 9216

/-- The WINDOW that the T48 advertises to a session. -/
def State.window (s : State) (x : Sess) : Nat := min 256 ((16 - x.held) + s.sharedFree / (9216 * max 1 s.openCount))

/-- The store has room for one more datagram of a session. -/
def State.storeRoom (s : State) (x : Sess) : Bool := decide (x.held < 16) || decide (9216 ≤ s.sharedFree)

-- Sending (R535 to R537).

/-- ACK_MAP: bit i for sequence number ACK + 1 + i. -/
def Sess.ackMap (x : Sess) : Nat :=
  (List.range 32).foldl (fun m i => m + (x.rxHeld.any (fun h => h.1 == x.rxNext + 1 + i)).toNat * 2 ^ i) 0

/-- Bytes 0 to 31 of a header. -/
def dgHeader (flags slot epoch seq ack map window len : Nat) : List Byte :=
  leBytes 1 1 ++ leBytes 1 (flags + 8) ++ leBytes 1 slot ++ leBytes 1 0 ++ leBytes 4 epoch ++ leBytes 8 seq ++ leBytes 8 ack ++
    leBytes 4 map ++ leBytes 2 window ++ leBytes 2 len

/-- A whole datagram under a key. -/
def dgBytes (key head payload : List Byte) : List Byte := head ++ dgTag key head payload ++ payload

/-- A datagram of a session. -/
def State.sessDg (s : State) (sl : Nat) (x : Sess) (flags : Nat) (payload : List Byte) : List Byte :=
  dgBytes x.key (dgHeader flags sl x.epoch.toNat x.txSeq x.rxNext x.ackMap (s.window x) payload.length) payload

/-- A frame of the host port, with the VLAN tag that the seed image gives (R532, R567). -/
def State.frame (s : State) (p : Packet) : Frame :=
  let v := s.stile.image.vlan
  ⟨if v.getLsbD 15 then some (v.setWidth 12) else none, p⟩

/-- Send what may be sent: at most the peer's WINDOW stays unacknowledged (R537). -/
def State.pumpSess (sl : Nat) : Nat → State → State
  | 0, s => s
  | k + 1, s =>
    let x := s.session sl
    match x.waitTx with
    | [] => s
    | (first, last, bs) :: r =>
      if x.unacked.length ≥ x.peerWindow then s
      else
        let dg := s.sessDg sl x (2 * first.toNat + 4 * last.toNat) bs
        let y := { x with waitTx := r, unacked := x.unacked ++ [⟨x.txSeq, dg, 0⟩], txSeq := x.txSeq + 1 }
        State.pumpSess sl k { s.setSession sl y with sent := s.sent ++ [s.frame (.datagram x.peer dg)] }

/-- Cut a message into payloads of at most 9,088 bytes. -/
def cutDgs : Nat → Bool → List Byte → List (Bool × Bool × List Byte)
  | 0, _, _ => []
  | n + 1, first, bs =>
    if bs.length ≤ 9088 then [(first, true, bs)] else (first, false, bs.take 9088) :: cutDgs n false (bs.drop 9088)

/-- A message with its header (R544). -/
def msgBytes (typ op status id : Nat) (body : List Byte) : List Byte :=
  leBytes 1 typ ++ leBytes 1 op ++ leBytes 1 status ++ leBytes 1 0 ++ leBytes 4 id ++ leBytes 4 body.length ++ leBytes 4 0 ++ body

/-- Send a message on a session. -/
def State.sendSess (s : State) (sl typ op status id : Nat) (body : List Byte) : State :=
  let x := s.session sl
  let bs := msgBytes typ op status id body
  let w := x.waitTx ++ cutDgs (bs.length / 9088 + 1) true bs
  State.pumpSess sl w.length (s.setSession sl { x with waitTx := w })

/-- An ACK_ONLY datagram: it carries the next unused SEQ (R535, R536). -/
def State.sendAck (s : State) (sl : Nat) : State :=
  let x := s.session sl
  { s with sent := s.sent ++ [s.frame (.datagram x.peer (s.sessDg sl x 1 []))] }

-- Requests (R543 to R546, R548).

/-- A type and operation that R546 lists for requests on an open session. -/
def knownOp (typ op : Nat) : Bool :=
  match typ with
  | 1 => op == 2 || op == 3
  | 2 => op ≤ 3
  | 3 => op ≤ 2
  | 5 => op ≤ 1
  | 9 => op ≤ 2
  | 12 => op ≤ 1
  | _ => op == 0 && 4 ≤ typ && typ ≤ 18

/-- A request from the bytes of its message. -/
def parseReq (bs : List Byte) (dgs : Nat) : Req :=
  let typ := msgNat bs 0 1
  let op := msgNat bs 1 1
  let fits := decide (16 ≤ bs.length) && msgNat bs 2 2 == 0 && msgNat bs 8 4 + 16 == bs.length && msgNat bs 12 4 == 0
  { type := BitVec.ofNat 8 typ, op := BitVec.ofNat 8 op, id := BitVec.ofNat 32 (msgNat bs 4 4), body := bs.drop 16,
    bad := !fits || !knownOp typ op, dgs := dgs }

/-- Answer the head request of a session. -/
def State.answerReq (s : State) (sl : Nat) (r : Req) (status : Nat) (body : List Byte) : State :=
  let x := s.session sl
  let y := { x with reqs := x.reqs.tail, holding := false, results := [], batches := 0, fed := 0 }
  ((s.setSession sl y).count (fgtCnt 5) (decide (status = 1)).toNat).sendSess sl r.type.toNat r.op.toNat status r.id.toNat body

/-- Requests that no operation serves are answered REFUSED as they come to the front (R545, R546). -/
def settleReqs (sl : Nat) : Nat → State → State
  | 0, s => s
  | k + 1, s =>
    match (s.session sl).reqs with
    | [] => s
    | r :: _ => if r.bad then settleReqs sl k (s.answerReq sl r 5 []) else s

/-- Reply to the head request, and go on with those behind it. -/
def State.reply (s : State) (sl : Nat) (r : Req) (status : Nat) (body : List Byte) : State :=
  settleReqs sl (s.session sl).reqs.length (s.answerReq sl r status body)

/-- A type that needs MGMT privilege (R543). -/
def mgmtOnly (typ : Nat) : Bool := typ == 10 || typ == 11 || typ == 12 || typ == 16 || typ == 18

/-- What a recovery boot admits besides some addresses of CSR_READ (R595). -/
def recoveryAdmits (typ : Nat) : Bool := typ == 1 || typ == 10 || typ == 12 || typ == 17 || typ == 18

/-- What fallow admits (R562); a FALLOW request is answered OK (R635). -/
def fallowAdmits (typ : Nat) : Bool := typ == 1 || typ == 10 || typ == 13 || typ == 14 || typ == 15

/-- What every job state admits (R548). -/
def alwaysAdmits (typ : Nat) : Bool := typ == 1 || typ == 10 || typ == 11 || typ == 12 || (15 ≤ typ && typ ≤ 18)

/-- What the job's state admits (R548, R560), outside fallow. -/
def State.jobAdmits (s : State) (sl typ op : Nat) : Bool :=
  alwaysAdmits typ ||
  match s.job.st with
  | .none => (typ == 2 && op == 0) || typ == 13
  | .loading => typ == 2 && op != 0 && (s.job.loadSlot.map (fun x => x.val)) == some sl
  | .loaded => typ == 3 || typ == 4 || typ == 8 || typ == 9 || (typ == 2 && op == 3)
  | .running => typ == 3 || (typ == 5 && op == 0) || typ == 6 || typ == 7 || (typ == 9 && (op != 2 || s.rcv.st == .waitHost))
  | .paused => typ == 3 || (typ == 5 && op == 1) || typ == 6 || typ == 7 || typ == 8 || typ == 9 || typ == 13 || (typ == 2 && op == 3)

/-- The status that turns a request away before its own checks: REFUSED in a recovery boot, PRIV, FALLOW, BUSY. -/
def State.turnedAway (s : State) (sl typ op : Nat) : Option Nat :=
  if s.stile.recoveryBoot ∧ ¬ recoveryAdmits typ then some 5
  else if mgmtOnly typ ∧ ¬ (s.session sl).mgmt then some 6
  else if s.linksDark then (if fallowAdmits typ then none else some 9)
  else if s.jobAdmits sl typ op then none else some 4

/-- Run the head request of a session, which has not begun yet, if it is of a type and operation. -/
def fgtRun (sl : Slot) (typ op : Nat) (s : State) (body : Req → State → State) : Out :=
  let x := s.session sl.val
  match x.reqs with
  | [] => stutter s
  | r :: _ =>
    if ¬ x.isOpen ∨ r.bad ∨ x.holding ∨ r.type.toNat ≠ typ ∨ r.op.toNat ≠ op then stutter s
    else
      match s.turnedAway sl.val typ op with
      | some c => .next (s.reply sl.val r c [])
      | none => .next (body r s)

/-- A field of a request's body. -/
def Req.u (r : Req) (o n : Nat) : Nat := msgNat r.body o n

-- Edge batches as a request carries them (R266, R551).

/-- The records of an edge batch (R266). -/
def edgeRecs : Nat → List Byte → List (BitVec 40 × BitVec 24 × BitVec 40)
  | 0, _ => []
  | n + 1, bs =>
    (BitVec.ofNat 40 (msgNat bs 0 5), BitVec.ofNat 24 (msgNat bs 5 3), BitVec.ofNat 40 (msgNat bs 8 5)) :: edgeRecs n (bs.drop 16)

/-- The batches of a body, back to back; none where a COUNT or the length does not fit. -/
def edgeBatches (sl : Slot) : Nat → Nat → List Byte → Option (List Batch)
  | 0, _, _ => none
  | k + 1, i, bs =>
    if bs.isEmpty then some []
    else
      let n := msgNat bs 12 4
      if bs.length < 32 + 16 * n ∨ n < 1 ∨ 65536 < n then none
      else
        let b : Batch := { seq := BitVec.ofNat 64 (msgNat bs 0 8), applyStep := BitVec.ofNat 32 (msgNat bs 8 4),
                           graph := BitVec.ofNat 2 (msgNat bs 16 1), recs := edgeRecs n (bs.drop 32), slot := some (sl, i) }
        (edgeBatches sl k (i + 1) (bs.drop (32 + 16 * n))).map (fun l => b :: l)

-- Closing (R542, R549).

/-- The batches of a session's FEED EDGES that the ingest queue has still to take; no request waits for them any more. -/
def Sess.owes (x : Sess) : List Batch :=
  match x.reqs with
  | [] => []
  | r :: _ =>
    if ¬ x.holding ∨ r.type ≠ 3 ∨ r.op ≠ 2 then []
    else
      match edgeBatches 0 (r.body.length + 1) 0 r.body with
      | none => []
      | some l => (l.drop x.fed).map (fun b => { b with slot := none })

/-- Close a session: its slot is free, requests that have not begun are gone, and those that have run to their end without a
reply, the batches of a FEED EDGES too; a load that it had under way is abandoned. -/
def State.closeSess (s : State) (sl : Nat) : State :=
  let owed := s.drl.owed ++ (s.session sl).owes
  let s1 := s.setSession sl { epoch := (s.session sl).epoch }
  let q := s1.drl.ingest.map (fun b => if (b.slot.map (fun x => x.1.val)) = some sl then { b with slot := none } else b)
  let s2 := { s1 with drl := { s1.drl with ingest := q, owed := owed },
                      job := { s1.job with pauseReplies := s1.job.pauseReplies.filter (fun x => x.val != sl) } }
  let mine : Bool := (s2.job.loadSlot.map (fun (x : Slot) => x.val)) == some sl
  if s2.job.st == .loading && mine then { s2 with job := ({} : JobSt) } else s2

/-- A session's next message can leave at once: nothing waits, and the peer's WINDOW has room (R537). -/
def State.maySend (s : State) (sl : Nat) : Bool :=
  let x := s.session sl
  x.waitTx.isEmpty && decide (x.unacked.length < x.peerWindow)

-- Datagrams (R533 to R538).

/-- A session's datagram acknowledges what the T48 has sent (R536, R537). -/
def Sess.takeAck (x : Sess) (ack map window : Nat) : Sess :=
  let adv := x.unacked.any (fun d => decide (d.seq < ack))
  let left := x.unacked.filter (fun d => decide (ack ≤ d.seq) && !(decide (ack < d.seq) && decide (d.seq ≤ ack + 32) &&
    natBits map (d.seq - ack - 1) 1 == 1))
  { x with unacked := if adv then left.map (fun d => { d with resends := 0 }) else left, peerWindow := min 256 window }

/-- Deliver in SEQ order what has arrived; whole messages become requests (R538, R544). -/
def Sess.deliver : Nat → Sess → Sess
  | 0, x => x
  | k + 1, x =>
    match x.rxHeld.find? (fun h => h.1 == x.rxNext) with
    | none => x
    | some (q, first, last, bs) =>
      let part := if first then bs else x.partialMsg ++ bs
      let n := if first then 1 else x.partialDgs + 1
      let y := { x with rxNext := q + 1, rxHeld := x.rxHeld.filter (fun h => h.1 != q) }
      Sess.deliver k
        (if last then { y with partialMsg := [], partialDgs := 0, reqs := y.reqs ++ [parseReq part n] }
         else { y with partialMsg := part, partialDgs := n })

/-- A datagram that belongs to an open session. -/
def State.takeDg (s : State) (sl : Nat) (d : Datagram) : State :=
  let x := s.session sl
  let q := dgField d 8 8
  let ackOnly := dgFlag d 0
  if ¬ ackOnly ∧ (q < x.rxNext ∨ x.rxHeld.any (fun h => h.1 == q)) then (s.count (fgtCnt 2) 1).sendAck sl
  else if ¬ ackOnly ∧ ¬ s.storeRoom x then s.count (fgtCnt 4) 1
  else
    let y := x.takeAck (dgField d 16 8) (dgField d 24 4) (dgField d 28 2)
    let s1 := s.count (fgtCnt 0) 1
    if ackOnly then State.pumpSess sl y.waitTx.length (s1.setSession sl y)
    else
      let z := { y with rxHeld := y.rxHeld ++ [(q, dgFlag d 1, dgFlag d 2, d.payload)] }
      let w := z.deliver z.rxHeld.length
      let s2 := (s1.setSession sl w).sendAck sl
      State.pumpSess sl w.waitTx.length (if w.holding then s2 else settleReqs sl w.reqs.length s2)

/-- DATAGRAM_RX: a frame for the UDP port. TAG is verified before any field but SESSION and EPOCH is used (R536). -/
def execDatagramRx (d : Datagram) (s : State) : Out :=
  if ¬ s.pins.hostUp then stutter s
  else
    let sl := dgField d 2 1
    let x := s.session sl
    if sl = 0xFF then .next { s with opens := s.opens ++ [d] }
    else if 64 ≤ sl ∨ ¬ x.isOpen ∨ dgField d 4 4 ≠ x.epoch.toNat ∨ ¬ dgGood d x.key then .next (s.count (fgtCnt 1) 1)
    else if ¬ dgFits d ∨ d.ethSrc ≠ x.ethSrc ∨ d.ipSrc ≠ x.ipSrc ∨ d.udpSrc ≠ x.udpSrc then .next s
    else .next (s.takeDg sl d)

/-- DATAGRAM_RESEND: a datagram's interval has passed; after 20 resends the session closes instead. -/
def execDatagramResend (sl : Slot) (pos : Nat) (s : State) : Out :=
  let x := s.session sl.val
  match x.unacked[pos]? with
  | none => stutter s
  | some d =>
    if d.resends ≥ 20 then .next (s.closeSess sl.val)
    else
      let y := { x with unacked := x.unacked.set pos { d with resends := d.resends + 1 } }
      let s1 := (s.setSession sl.val y).count (fgtCnt 3) 1
      .next { s1 with sent := s1.sent ++ [s.frame (.datagram x.peer d.bytes)] }

/-- SESSION_TIMEOUT. -/
def execSessionTimeout (sl : Slot) (s : State) : Out :=
  if (s.session sl.val).isOpen then .next (s.closeSess sl.val) else stutter s

-- Other frames (R533).

def execArpRequest (target : BitVec 32) (from_ : BitVec 48) (s : State) : Out :=
  let img := s.stile.image
  if s.pins.hostUp ∧ img.ipv4 ≠ 0 ∧ target = img.ipv4 then .next { s with sent := s.sent ++ [s.frame (.arpReply target img.mac from_)] }
  else stutter s

def execNeighbourSolicitation (target : BitVec 128) (from_ : BitVec 48) (s : State) : Out :=
  let img := s.stile.image
  if s.pins.hostUp ∧ target = img.ipv6 then .next { s with sent := s.sent ++ [s.frame (.neighbourAdvert target img.mac from_)] }
  else stutter s

def execEchoRequest (v6 : Bool) (target : BitVec 128) (body : EchoBody) (s : State) : Out :=
  let img := s.stile.image
  let mine := if v6 then decide (target = img.ipv6) else decide (img.ipv4 ≠ 0 ∧ target = img.ipv4.setWidth 128)
  if s.pins.hostUp ∧ mine ∧ s.bit fgtCtrl 1 then 
    .next { s with sent := s.sent ++ [s.frame (.echoReply v6 body.ethSrc body.ipSrc body.data)] }
  else stutter s

-- Sessions (R541, R542).

/-- The lowest session slot that is free. -/
def State.freeSlot (s : State) : Option Nat := (List.range 64).find? (fun i => !(s.session i).isOpen)

/-- Answer an OPEN whose key and tag hold. -/
def State.openSess (s : State) (d : Datagram) (keyId : BitVec 16) (key : List Byte) : State :=
  let body := d.payload.drop 16
  let id := msgNat d.payload 4 4
  let from_ : Peer := ⟨d.ethSrc, d.ipSrc, d.udpSrc⟩
  match s.freeSlot with
  | none =>
    let bs := msgBytes 1 1 10 id []
    let dg := dgBytes key (dgHeader 6 0xFF 0 0 0 0 0 bs.length) bs
    { s with sent := s.sent ++ [s.frame (.datagram from_ dg)] }
  | some i =>
    let e := (s.session i).epoch + 1
    let nonce := leBytes 16 (Config.freeNonce s.draws).toNat
    let k := sessionKey key ((body.drop 16).take 16) nonce s.chip i e.toNat
    let x : Sess := { isOpen := true, mgmt := msgNat body 2 1 = 1, keyId := keyId, epoch := e, key := k, ethSrc := d.ethSrc,
                      ipSrc := d.ipSrc, udpSrc := d.udpSrc, peerWindow := min 256 (dgField d 28 2) }
    (s.draw.setSession i x).sendSess i 1 1 0 id nonce

/-- SESSION_OPEN: the oldest OPEN that has arrived. -/
def execSessionOpen (s : State) : Out :=
  match s.opens with
  | [] => stutter s
  | d :: rest =>
    let s1 := { s with opens := rest }
    let p := d.payload
    let keyId := BitVec.ofNat 16 (msgNat p 16 2)
    let priv := msgNat p 18 1
    let shape := !dgFlag d 0 && dgFlag d 1 && dgFlag d 2 && dgField d 4 4 == 0 && dgField d 8 8 == 0 && p.length == 48 &&
      msgNat p 0 1 == 1 && msgNat p 1 1 == 0 && msgNat p 8 4 == 32
    match s.stile.image.keys.find? (fun k => k.1 == keyId) with
    | none => .next s1
    | some (_, mgmt) =>
      let key := hostKey s.stile.image.rootSecret keyId
      if ¬ dgGood d key then .next (s1.count (fgtCnt 1) 1)
      else if ¬ dgFits d ∨ ¬ shape ∨ ¬ s.pins.hostUp ∨ priv > mgmt.toNat then .next s1
      else .next ((s1.count (fgtCnt 0) 1).openSess d keyId key)

/-- SESSION_CLOSE: once the peer's WINDOW has room, the reply leaves and the slot is free. -/
def execSessionClose (sl : Slot) (s : State) : Out :=
  fgtRun sl 1 2 s (fun r t => if t.maySend sl.val then (t.answerReq sl.val r 0 []).closeSess sl.val else t)

/-- SESSION_PING. -/
def execSessionPing (sl : Slot) (s : State) : Out := fgtRun sl 1 3 s (fun r t => t.reply sl.val r 0 [])

end Sys2Proof.Machine
end

