-- ==== Sys2Proof/Machine/Job.lean ====
section
/-!
DEFINITION. Jobs over the host port: LOAD_JOB with what it checks and sets in every block (R9, R548 to R550), feeding
(R551), starting, pausing and resuming (R552), and the results of edge batches (R551, R267 to R271).
-/

namespace Sys2Proof.Machine
open Sys2Proof

/-- The requester that the host port's own accesses are reported as: SRC has no code for it (R443). -/
def srcFgt : Nat := 0x1FE

-- The image (R9, R550).

/-- The header fields that a job keeps (R550). -/
def jobHeader (j : JobSt) (h : List Byte) : JobSt :=
  { j with replayable := msgNat h 12 4 % 2 = 1, seed := BitVec.ofNat 64 (msgNat h 16 8), period := BitVec.ofNat 32 (msgNat h 24 4),
           phase := msgNat h 28 1, rtab := msgNat h 32 8, nres := msgNat h 40 2, ftab := msgNat h 48 8, nfeed := msgNat h 56 2,
           seedTab := msgNat h 64 8, seedStride := msgNat h 72 4, seedRing := msgNat h 76 1 }

/-- The image names this part and stepping (R9). -/
def imageParts (s : State) (h : List Byte) : Bool :=
  let id := (s.reg sysId).toNat
  msgNat h 8 2 == natBits id 32 16 && msgNat h 10 1 == natBits id 24 8 && msgNat h 11 1 == natBits id 16 8

/-- The header's fields lie in their ranges (R46, R550). -/
def headerOk (h : List Byte) : Bool :=
  let inR (v lo hi : Nat) : Bool := decide (lo ≤ v) && decide (v ≤ hi)
  decide (128 ≤ h.length) && msgNat h 0 8 == 0x4A4F425434384C31 && msgNat h 12 4 ≤ 1 && inR (msgNat h 24 4) 5000 1000000 &&
    inR (msgNat h 28 1) 1 255 && msgNat h 29 3 == 0 && msgNat h 40 2 ≤ 1024 && msgNat h 42 6 == 0 && inR (msgNat h 56 2) 1 256 &&
    msgNat h 58 6 == 0 &&
    inR (msgNat h 76 1) 1 255

/-- The tables that a job keeps as LOAD_JOB reads them: results, host-writable regions, granary regions and roles. -/
def imageTables (x : ImageSections) (j : JobSt) : List (Nat × Nat) :=
  [(j.rtab, 16 * j.nres), (j.ftab, 16 * j.nfeed), (x.regTab, 16 * x.nreg), (x.roleTab, 16 * x.nrole)]

/-- What the result table, the table of host-writable regions and the granary section lay down (R550, R553, R608, R609), read
from memory (log entry 83). -/
def jobGranary (s : State) (x : ImageSections) (j : JobSt) : JobSt :=
  { j with
    resTab := (List.range j.nres).map (fun i =>
      let b := s.views (j.rtab + 16 * i) 16
      (msgNat b 0 8, msgNat b 8 4, msgNat b 12 2, msgNat b 14 2)),
    feedTab := (List.range j.nfeed).map (fun i =>
      let b := s.views (j.ftab + 16 * i) 16
      (msgNat b 0 8 % 2 ^ 48, msgNat b 8 8)),
    every := x.every, localArea := x.localArea, buddy0 := x.buddy0, buddy1 := x.buddy1, areaLen := x.areaLen,
    regions := (List.range x.nreg).map (fun i =>
      let b := s.views (x.regTab + 16 * i) 16
      (msgNat b 0 8 % 2 ^ 48, msgNat b 8 8, decide (natBits (msgNat b 0 8) 48 2 = 1))),
    roles := (List.range x.nrole).map (fun i =>
      let b := s.views (x.roleTab + 16 * i) 16
      (BitVec.ofNat 16 (msgNat b 0 2), BitVec.ofNat 16 (msgNat b 2 2), BitVec.ofNat 16 (msgNat b 4 2), BitVec.ofNat 8 (msgNat b 6 1))) }

/-- Threads of the image as strip, thread and entry PC; the flag says that each exists and none is firmware's (R219). -/
def jobThreads (l : List (Nat × Nat × Nat)) : List (Strip × Thread × BitVec 48) :=
  l.map (fun x => (Fin.ofNat 64 x.1, Fin.ofNat 4 x.2.1, BitVec.ofNat 48 x.2.2))
def threadsOk (l : List (Nat × Nat × Nat)) : Bool :=
  l.all (fun x => decide (x.1 < 64) && decide (x.2.1 < 4) && !(x.1 == 63 && x.2.1 == 3))

/-- Two runs of bytes meet. -/
def meets (a b : Nat × Nat) : Bool := decide (0 < a.2) && decide (0 < b.2) && decide (a.1 < b.1 + b.2) && decide (b.1 < a.1 + a.2)

/-- No two runs of a list meet. -/
def apart : List (Nat × Nat) → Bool
  | [] => true
  | a :: r => r.all (fun b => !meets a b) && apart r

/-- The areas of the granary: the local one, and this chip's buddy generations (log entry 18). -/
def jobAreas (s : State) (j : JobSt) : List (Nat × Nat) :=
  let n := (j.roles.filter (fun r => r.2.1.toNat == s.chip)).length
  [(j.localArea, j.areaLen), (j.buddy0, n * j.areaLen), (j.buddy1, n * j.areaLen)]

/-- Some ownership or partition word names a chip (R609). -/
def chipNamed (s : State) (c : Nat) : Bool :=
  let words (a n : Nat) : Bool := (List.range n).any (fun i => s.viewNat (a + 8 * i) 8 % 2 ^ 16 == c)
  (List.range 16).any (fun t => words (s.table t).ownTab (s.table t).nrange) ||
    (List.range 4).any (fun g =>
      let d := graphOf (s.views (graphAddr s g) 64)
      words d.partTab d.nrange)

/-- The granary section is sound (R608, R609). -/
def granaryOk (s : State) (x : ImageSections) (j : JobSt) : Bool :=
  let inR (v lo hi : Nat) : Bool := decide (lo ≤ v) && decide (v ≤ hi)
  let areas := jobAreas s j
  let body := (j.regions.map (fun r => up4k r.2.1)).sum
  inR x.every 1 1024 && inR x.nrole 1 4096 && inR x.nreg 1 4096 && !x.strayWrite && x.localArea % 4096 == 0 &&
    decide (8192 + body ≤ x.areaLen) && apart areas && areas.all (fun a => decide (a.1 + a.2 ≤ dramJobEnd)) &&
    areas.all (fun a => j.regions.all (fun r => !meets a (r.1, r.2.1))) && j.regions.all (fun r => r.2.1 % 64 == 0) &&
    j.roles.all (fun r => r.1 != r.2.1 && !(r.2.2.2.getLsbD 1 && chipNamed s r.1.toNat))

/-- The power section is sound (R643). -/
def powerOk (s : State) (x : ImageSections) : Bool :=
  decide (1 ≤ x.clas) && decide (x.clas ≤ 8) && decide (x.clas ≤ s.classMax) && decide (x.peakW ≤ classLimit x.clas)

/-- A sampling descriptor fits its caps (R284). -/
def samplingOk (d : Sdesc) : Bool :=
  let fans := (d.hop.take d.hops).map (fun h => h.fanout)
  let total := (fans.foldl (fun (p : Nat × Nat) f => (p.1 * f, p.2 + p.1 * f)) (1, 0)).2
  d.ok && decide (1 + total ≤ d.capNodes) && decide (total ≤ d.capEdges)

/-- An entry of the result table is sound (R553). -/
def resultOk (x : Nat × Nat × Nat × Nat) : Bool :=
  let (base, size, nslot, every) := x
  base % 4096 == 0 && size % 64 == 0 && decide (64 ≤ size) && decide (size ≤ 67108864) && decide (1 ≤ nslot) && decide (nslot ≤ 256) &&
    decide (1 ≤ every) && spans inJobDram base (nslot * size)

/-- The tables of a loaded image hold what R109, R253, R284, R364, R508 and R553 ask; memory and registers are already the
image's. -/
def tablesOk (s : State) (x : ImageSections) : Bool :=
  let inR (v lo hi : Nat) : Bool := decide (lo ≤ v) && decide (v ≤ hi)
  x.amax.all (fun a => inR (s.viewNat (a + 67) 1 % 16) 2 4) &&
    x.samplings.all (fun a => samplingOk (sdescOf (s.views a 64))) &&
    (List.range 16).all (fun t =>
      let kind := s.viewNat (s.fld shfOtab 0 48 + 64 * t) 1 % 4
      (s.table t).nrange == 0 || kind == (s.table t).moments) &&
    x.rdenseRids.all (fun i => inR (ridElems s i) 1 65536) && x.rnormRids.all (fun i => inR (ridElems s i) 1 1024) &&
    (List.range 256).all (fun i => ridStage s i % 64 == 0) &&
    s.job.resTab.all resultOk

/-- What the tests of `tablesOk` read beside the job's own tables. -/
def imageDescs (s : State) (x : ImageSections) : List (Nat × Nat) :=
  x.amax.map (fun a => (a, 72)) ++ x.samplings.map (fun a => (a, 64)) ++
    (List.range 16).flatMap (fun t => [(s.tableAddr t, 64), (s.fld shfOtab 0 48 + 64 * t, 64)]) ++
    (List.range 256).flatMap (ridRange s)

/-- Node tables of the image name counters (R253). -/
def nodesOk (l : List (Nat × Nat)) : Bool :=
  l.all (fun e =>
    let r := e.1 % 0x10000
    let node := e.1 / 0x1000000 == 4 && ((0x200 ≤ r && r < 0x380) || (0x400 ≤ r && r < 0x580))
    let d := natBits e.2 38 6
    let c := natBits e.2 44 6
    !node || !(48 ≤ d || (48 ≤ c && c ≤ 62)))

/-- Bytes that the load places lie in memory that a job reaches, or in tile registers. -/
def placesOk (l : List (Nat × List Byte)) : Bool := l.all (fun m => jobReach m.1 m.2.length || spans inTiles m.1 m.2.length)

-- LOAD_JOB (R75, R131, R157, R161, R213, R217, R244, R245, R251, R257, R332, R334, R351, R379, R469, R654).

/-- The registers that LOAD_JOB returns to reset: error registers of the engines and what goes with them (R654), counters, the
node and child tables, and the furrow unit's step registers. -/
def loadClears (o : Nat) : Bool :=
  let r := o % 0x10000
  let q := o % 0x1000
  match o / 0x1000000 with
  | 0 => o == furStepStart || o == furStepEnd || o == furStep
  | 1 => decide (r < 0xA000) && (q == 0x08 || q == 0x10 || decide (0x40 ≤ q))
  | 2 => r == 0x10 || r == 0x18 || (decide (0x40 ≤ r) && decide (r < 0x70))
  | 3 => decide (0x40 ≤ r)
  | 4 => decide (0x200 ≤ r) && decide (r < 0x980) || r == 0xA40 || r == 0xA48
  | 5 => (decide (o - drlBase < 0xF000) || decide (0x10000 ≤ o - drlBase)) && (q == 0x08 || q == 0x10) || o == drlBuild || o == drlSampled || o == drlIngSeq ||
      (decide (drlCnt 0 ≤ o) && decide (o < drlCnt 10))
  | 6 => decide (o - glnBase < 0x40000) && (q == 0x08 || q == 0x10 || decide (0x40 ≤ q)) || (decide (glnCntServe 0 ≤ o) && decide (o < glnCntServe 5))
  | 7 => decide (o - shfBase < 0x30000) && (q == 0x08 || q == 0x10 || decide (0x40 ≤ q))
  | 9 => decide (r < 0x4000) && (q == 0x08 || q == 0x10 || q == 0x18 || decide (0x40 ≤ q))
  | 10 => (decide (o - spxBase < 0x20000) && decide (0x40 ≤ q) && decide (q < 0x78)) || o == spxCntHbMiss
  | 14 => o == sysGrnStatus
  | 15 => o == pwrCntOver
  | _ => false

/-- Every block as LOAD_JOB leaves it, before anything of the image is in place. Every thread goes to IDLE and every waiter is
removed (R217, R245); thread 3 of strip 63, which always runs firmware (R219), starts it again (log entry 80). -/
def State.loadReset (s : State) : State :=
  let s1 := { (s.resetStrips).resetReduce.startFirmware with waiters := [], clc := { lines := s.clc.lines } }
  let s2 := { s1 with csr := s1.csr.filter (fun e => !loadClears e.1), firsts := [], engines := [], stkEpoch := 0, stkEpochAt := 0,
                      drl := { reads := s1.drl.reads }, shf := {},
                      fur := { s1.fur with badPeriod := false, starts := [], ends := [], signalled := [], withheld := none },
                      rcv := { rseq := s1.rcv.rseq } }
  (s2.setFld pwrInput 48 16 0).setFld pwrTemp 24 8 0

/-- The ledger of the image (R377). -/
def imageLedger (l : List (Nat × Nat × Nat × Nat × Nat)) : Tab Ledger :=
  l.foldl (fun t e => Tab.put t e.1 { pub := BitVec.ofNat 32 e.2.1, writing0 := e.2.2.1 % 2 = 1, writing1 := e.2.2.1 / 2 % 2 = 1,
                                      users0 := BitVec.ofNat 24 e.2.2.2.1, users1 := BitVec.ofNat 24 e.2.2.2.2 }) []

/-- What the RIDs of the image are for: one that both commands name tells neither (R508, log entry 15). -/
def imageLayouts (x : ImageSections) : Tab Nat :=
  (List.range 256).filterMap (fun i =>
    match x.rdenseRids.contains i, x.rnormRids.contains i with
    | true, false => some (i, 1)
    | false, true => some (i, 2)
    | _, _ => none)

/-- The role map of the image (R627): none for a role flagged SPARE, nor for this chip when it is loaded as a spare. -/
def imageRoles (s : State) (j : JobSt) (spare : Bool) : Tab (BitVec 16) :=
  (j.roles.zipIdx.filter (fun x => !x.1.2.2.2.getLsbD 0 && !(spare && x.1.1.toNat == s.chip))).map (fun x => (x.2, x.1.1))

/-- What the image puts in place: registers in the bits that an image sets, memory, and then the state that is no training state
cleared (R106, R332, R334, R351, R377, R379, R508, R627). The banks, the directory and the counts, whose places the registers
give, are cleared before the image's bytes are placed, so that these stand. -/
def State.loadPlace (s : State) (x : ImageSections) (h : List Byte) (spare : Bool) : State :=
  let s0 := (x.csr.foldl (fun t e => t.imageReg e.1 e.2) s).setFld shfCtrl 49 1 (x.lag % 2)
  let s1 := s0.clearAllBanks.clearGlean
  let s2 := x.memory.foldl (fun t m => t.write srcFgt m.1 m.2) s1
  let j := jobGranary s2 x (jobHeader s2.job h)
  let j1 := { j with threads := jobThreads x.threads, amax := x.amax, dense := x.dense, clas := x.clas, spare := spare, planned := x.planned }
  let s3 := { s2 with job := j1, mems := { s2.mems with roleMap := imageRoles s2 j1 spare } }
  let s4 := s3.clearSums.clearStaging
  let s5 := x.amax.foldl (fun t a => t.writeNat srcFgt (a + 68) 4 0) s4
  let s6 := s5.setReg glnFence (BitVec.ofNat 64 (x.merged % 2 ^ 32 + x.applied % 2 ^ 32 * 2 ^ 32))
  { s6 with gln := { s6.gln with jobs := [] }, red := { s6.red with layouts := imageLayouts x }, shf := { s6.shf with ledger := imageLedger x.ledger } }.openBanks (BitVec.ofNat 32 x.firstStep)

/-- The granary index as a job finds it (R615): the records of the local area and of the roles whose BUDDY is this chip are
kept where they are of this job, and else unused; those of other roles are zero. -/
def State.setupIndex (s : State) : State :=
  let unused := padTo 64 (leBytes 2 0xFFFF)
  let fix (t0 : State) (i : Nat) (mine : Bool) : State :=
    let (t, ok) := t0.touch srcGranary [(recordAddr i, 64)]
    let own := ok && decide ((t.views (recordAddr i + 32) 32) = padTo 32 t.job.hash)
    if ¬ mine then t.wipe srcGranary (recordAddr i) 16384
    else if own then t else t.write srcGranary (recordAddr i) unused
  s.roleList.foldl (fun t r =>
    let mine := (s.role r).2.1 == s.chip
    fix (fix t (buddyRecord r 0) mine) (buddyRecord r 1) mine) (fix s 0 true)

/-- The lines of the image's tables that LOAD_JOB reads from memory as it stands: those that the image does not place whole. -/
def tableLines (x : ImageSections) (l : List (Nat × Nat)) : List (Nat × Nat) :=
  ((l.flatMap (fun r => linesOf r.1 r.2)).filter (fun a => !x.memory.any (fun m => decide (m.1 ≤ a) && decide (a + 64 ≤ m.1 + m.2.length)))).map
    (fun a => (a, 64))

/-- FEED EDGES requests whose batches LOAD_JOB drops with the ingest queue get their reply all the same: BUSY (R545, R548; log
entry 80). -/
def State.dropEdges (s : State) : State :=
  (List.range 64).foldl (fun t i =>
    let x := t.session i
    match x.reqs with
    | [] => t
    | r :: _ => if x.holding ∧ 0 < x.batches then t.reply i r 4 [] else t) s

/-- What COMMIT of a whole image gives: a status, and the state with the job LOADED, or as the reads of its tables leave it. A
header that is out of range and names another part too is REFUSED, not PART: the manual gives no order (DESIGN CHOICE, log
entry 80). -/
def State.commitImage (s : State) (img : List Byte) (spare : Bool) : Nat × State :=
  if ¬ headerOk img then (5, s)
  else if ¬ imageParts s img then (11, s)
  else
    match Config.imageSections img with
    | none => (5, s)
    | some x =>
      if ¬ (threadsOk x.threads && nodesOk x.csr && placesOk x.memory && x.counters.all (fun c => decide (c < 44)) && powerOk s x) then (5, s)
      else
        let place (t : State) : State := t.loadReset.loadPlace x (img.take 128) spare
        let t0 := place s
        let l := imageTables x t0.job
        let t := s.touch srcFgt (tableLines x (l ++ imageDescs t0 x))
        if ¬ (t.2 && l.all (fun r => jobReach r.1 r.2) && tablesOk t0 x && granaryOk t0 x t0.job) then (5, t.1)
        else
          let u := place t.1
          (0, (({ u with job := { u.job with st := .loaded, loadSlot := none } }.setupIndex.setAlert 7 false 0 0).setAlert 5 false 0 0).dropEdges)

/-- LOAD_JOB BEGIN (R549). -/
def execLoadJobBegin (sl : Slot) (s : State) : Out :=
  fgtRun sl 2 0 s (fun r t =>
    let n := r.u 0 8
    if r.body.length < 40 ∨ n = 0 ∨ dramJobEnd < n then t.reply sl.val r 5 []
    else
      let j : JobSt := { st := .loading, loadSlot := some sl, length := n, hash := (r.body.drop 8).take 32 }
      { t with job := j }.reply sl.val r 0 [])

/-- LOAD_JOB PART (R549). -/
def execLoadJobPart (sl : Slot) (s : State) : Out :=
  fgtRun sl 2 1 s (fun r t =>
    let o := r.u 0 8
    let data := r.body.drop 8
    if r.body.length < 8 ∨ o ≠ t.job.nextOff ∨ t.job.length < o + data.length then t.reply sl.val r 5 []
    else
      let u := t.write srcFgt o data
      { u with job := { u.job with nextOff := o + data.length } }.reply sl.val r 0 [])

/-- LOAD_JOB COMMIT (R549): a failure returns the job to NONE. -/
def execLoadJobCommit (sl : Slot) (s : State) : Out :=
  fgtRun sl 2 2 s (fun r t =>
    let fail (u : State) (c : Nat) : State := ({ u with job := ({} : JobSt) }).reply sl.val r c []
    if r.body.length < 1 ∨ r.u 0 1 > 1 then t.reply sl.val r 5 []
    else if t.job.nextOff ≠ t.job.length then fail t 5
    else
      match t.read srcFgt 0 t.job.length with
      | (u, none) => fail u 5
      | (u, some img) =>
        if shake256 img 32 ≠ u.job.hash then fail u 13
        else
          match u.commitImage img (r.u 0 1 = 1) with
          | (0, v) => v.reply sl.val r 0 []
          | (c, v) => fail v c)

/-- The job leaves: result slots are FREE, no step is known, nothing is withheld (R548, R554). -/
def State.unload (s : State) : State :=
  let t := s.dropSnap
  ({ t with job := {}, fur := { t.fur with starts := [], ends := [], signalled := [], withheld := none } }).setAlert 5 false 0 0

/-- LOAD_JOB UNLOAD. -/
def execLoadJobUnload (sl : Slot) (s : State) : Out := fgtRun sl 2 3 s (fun r t => t.unload.reply sl.val r 0 [])

-- Feeding (R551).

/-- A host-writable region holds an extent whole. -/
def State.feedOk (s : State) (a n : Nat) : Bool :=
  jobReach a n && s.job.feedTab.any (fun r => decide (r.1 ≤ a) && decide (a + n ≤ r.1 + r.2))

/-- An extent holds a byte of a HELD result slot, which no message writes (R554). -/
def State.meetsHeld (s : State) (a n : Nat) : Bool :=
  s.job.results.any (fun p =>
    let (base, size, _, _) := s.resultEntry (p.1 / 256)
    let b := base + p.1 % 256 * size
    p.2.st == .held && decide (a < b + size) && decide (b < a + n) && decide (0 < n))

/-- FEED DATA. Bytes of a HELD slot are out of its reach (DESIGN CHOICE, log entry 76). -/
def execFeedData (sl : Slot) (s : State) : Out :=
  fgtRun sl 3 0 s (fun r t =>
    let a := r.u 0 8
    let data := r.body.drop 8
    if r.body.length < 8 ∨ ¬ t.feedOk a data.length ∨ t.meetsHeld a data.length then t.reply sl.val r 5 []
    else (t.write srcFgt a data).reply sl.val r 0 [])

/-- FEED SEEDS: bytes from 4 onward first, READY_STEP last. -/
def execFeedSeeds (sl : Slot) (s : State) : Out :=
  fgtRun sl 3 1 s (fun r t =>
    let k := r.u 0 4
    let tab := r.body.drop 4
    let late : Bool := match t.sampledStep with
      | none => false
      | some x => decide (k ≤ x)
    if r.body.length < 36 ∨ t.job.seedStride < tab.length then t.reply sl.val r 5 []
    else if late then t.reply sl.val r 7 []
    else
      let a := t.job.seedTab + k % t.job.seedRing * t.job.seedStride
      if ¬ jobReach a tab.length then t.reply sl.val r 5 []
      else ((t.write srcFgt (a + 4) (tab.drop 4)).write srcFgt a (tab.take 4)).reply sl.val r 0 [])

/-- Queue the next batches of a session's FEED EDGES while the ingest queue of 64 has room (R267), and
none into a block that accepts nothing new (R587). -/
def State.feedMore (s : State) (sl : Nat) (bs : List Batch) : State :=
  let x := s.session sl
  let next := if s.closed 5 0 then [] else (bs.drop x.fed).take (64 - s.drl.ingest.length)
  ({ s with drl := { s.drl with ingest := s.drl.ingest ++ next } }).setSession sl { x with fed := x.fed + next.length }

/-- FEED EDGES: the batches are queued as room allows, and the request holds its session until every one has its result. -/
def execFeedEdges (sl : Slot) (s : State) : Out :=
  let x := s.session sl.val
  match x.reqs with
  | [] => stutter s
  | r :: _ =>
    let bs := edgeBatches sl (r.body.length + 1) 0 r.body
    if x.holding then
      match bs with
      | some l => if r.type = 3 ∧ r.op = 2 ∧ x.fed < x.batches then .next (s.feedMore sl.val l) else stutter s
      | none => stutter s
    else
      fgtRun sl 3 2 s (fun r t =>
        match bs with
        | none => t.reply sl.val r 5 []
        | some l =>
          if l.isEmpty then t.reply sl.val r 5 []
          else (t.setSession sl.val { t.session sl.val with holding := true, batches := l.length, fed := 0, results := [] }).feedMore sl.val l)

/-- A session whose batches all have their results gets its reply (R551). -/
def State.endEdges (s : State) (sl : Nat) : State :=
  let x := s.session sl
  match x.reqs with
  | [] => s
  | r :: _ =>
    if x.holding ∧ 0 < x.batches ∧ x.results.length = x.batches then
      s.reply sl r 0 ((List.range x.batches).flatMap (fun i => Tab.get x.results [] i))
    else s

/-- Engines may have waited for an edge batch of a step: its part may be complete now (R271). -/
def State.batchLeaf (s : State) : State :=
  match s.drl.seqNext with
  | none => s
  | some (k, _) => s.checkLeaf k

/-- BATCH_APPLY: the next batch is applied, refused or discarded. -/
def execBatchApply (s : State) : Out :=
  match s.takeOwed.applyBatch with
  | none => .next s.takeOwed
  | some (t, none) => .next t
  | some (t, some r) =>
    let u := t.noteBatch r
    let v := match r.batch.slot with
      | none => u
      | some (sl, _) => u.endEdges sl.val
    .next v.batchLeaf

-- Starting and pausing (R218, R552).

/-- Begin a run of a step at a tick. -/
def State.runFrom (s : State) (step tick : Nat) : State :=
  { s with fur := { s.fur with starts := Tab.put s.fur.starts step (BitVec.ofNat 64 tick) },
           job := { s.job with st := .running, runStep := some (BitVec.ofNat 32 step), pauseStep := none } }

/-- START: step 0 starts at START_TICK, `ns` after the last tick when the request takes effect. -/
def execStart (sl : Slot) (ns : Nat) (s : State) : Out :=
  fgtRun sl 4 0 s (fun r t =>
    let k := r.u 0 8
    if r.body.length < 8 then t.reply sl.val r 5 []
    else if k < t.targetTick ns then t.reply sl.val r 7 []
    else (t.runFrom 0 k).reply sl.val r 0 (leBytes 8 t.furCount.toNat))

/-- The end tick of the pause step that is replaced is known: its next step can still start, or it is too late. -/
def State.replacePause (s : State) : Option State :=
  match s.job.pauseStep with
  | none => some s
  | some p =>
    match Tab.look s.fur.ends p.toNat with
    | none => some s
    | some e =>
      let b := e.toNat + s.fld furCtrl 8 8
      if b ≤ s.furCount.toNat then none
      else some { s with fur := { s.fur with starts := Tab.put s.fur.starts (p.toNat + 1) (BitVec.ofNat 64 b) } }

/-- PAUSE_AT: the step after STEP never starts; the reply waits for PAUSED. -/
def execPauseAt (sl : Slot) (s : State) : Out :=
  fgtRun sl 5 0 s (fun r t =>
    let k := r.u 0 4
    if r.body.length < 4 then t.reply sl.val r 5 []
    else if (Tab.look t.fur.starts (k + 1)).isSome then t.reply sl.val r 7 []
    else
      match t.replacePause with
      | none => t.reply sl.val r 7 []
      | some u =>
        if (Tab.look u.fur.starts (k + 1)).isSome then t.reply sl.val r 7 []
        else
          let v := u.setSession sl.val { u.session sl.val with holding := true }
          { v with job := { v.job with pauseStep := some (BitVec.ofNat 32 k), pauseReplies := v.job.pauseReplies ++ [sl] } })

/-- Threads in mode J become IDLE (R217, R218). -/
def State.idleThreads (s : State) : State :=
  (List.range 256).foldl (fun t i =>
    let x := t.thread (i / 4) (i % 4)
    if x.modeF ∨ x.st = .idle then t
    else ((t.endSpell (i / 4) (i % 4)).withdraw (i / 4) (.thread (Fin.ofNat 4 (i % 4)))).setThread (i / 4) (i % 4) { x with st := .idle, stalled := none }) s

/-- A PAUSE_AT that has waited gets its reply. -/
def replyPause (s : State) (sl : Slot) : State :=
  match (s.session sl.val).reqs with
  | [] => s
  | r :: _ => if (s.session sl.val).holding then s.reply sl.val r 0 [] else s

/-- JOB_PAUSE: the update phase of the pause step has ended, at E + PHASE. -/
def execJobPause (s : State) : Out :=
  match s.job.pauseStep with
  | none => stutter s
  | some k =>
    match Tab.look s.fur.ends k.toNat with
    | none => stutter s
    | some e =>
      if s.job.st ≠ .running ∨ s.furCount.toNat < e.toNat + s.job.phase then stutter s
      else
        let t := s.idleThreads
        let u := { t with job := { t.job with st := .paused, pauseReplies := [] } }
        .next (s.job.pauseReplies.foldl replyPause u)

/-- RESUME: the step after the pause step starts at a tick. -/
def execResume (sl : Slot) (ns : Nat) (s : State) : Out :=
  fgtRun sl 5 1 s (fun r t =>
    let k := r.u 0 8
    let p := (t.job.pauseStep.map (fun x => x.toNat)).getD (t.fld furStep 0 32)
    if r.body.length < 8 then t.reply sl.val r 5 []
    else if k < t.targetTick ns then t.reply sl.val r 7 []
    else (t.runFrom (p + 1) k).reply sl.val r 0 [])

end Sys2Proof.Machine
end

