-- ==== Sys2Proof/Machine/Fieldgate.lean ====
section
/-!
DEFINITION. The other requests of the Fieldgate protocol: results (R553 to R558), export (R559), snapshots (R560), CSR
access (R561), fallow (R562, R635, R640, R641), firmware staging (R563, R596, R597), dumps and reset (R564), attestation (R565,
R600, R601) and telemetry (R566, R639, R651).
-/

namespace Sys2Proof.Machine
open Sys2Proof

-- Results (R553 to R557).

/-- A step has not yet passed E + PHASE; a step whose E is unknown has if the present step lies beyond it. -/
def State.notYet (s : State) (k : Nat) : Bool :=
  match Tab.look s.fur.ends k with
  | some e => decide (s.furCount.toNat < e.toNat + s.job.phase)
  | none => decide (s.fld furStep 0 32 ≤ k)

/-- EXPECT and EXACT of a step (R555). -/
def State.expect (s : State) (k : Nat) : Nat × Nat :=
  match Tab.look s.fur.ends k with
  | some e => (e.toNat + s.job.phase, 1)
  | none =>
    match Tab.look s.fur.starts k with
    | some x => (max (s.furCount.toNat + 1) (x.toNat + 4) + s.job.phase, 0)
    | none => (s.furCount.toNat + 5 + s.job.phase, 0)

/-- What the table of R555 gives for a result ID, a step and an extent: the slot that holds the object, or a reply. -/
inductive Found where
  | slot (slot : Nat) (x : ResSlot) (addr size len : Nat)
  | reply (status : Nat) (body : List Byte)

def State.findResult (s : State) (i k off len : Nat) : Found :=
  let (base, size, n, every) := s.resultEntry i
  let len' := if len = 0 then size - off else len
  if s.job.nres ≤ i ∨ k % every ≠ 0 then .reply 3 []
  else if size < off + len' then .reply 5 []
  else
    let x := s.resSlot i (k % n)
    let mine : Bool := decide (x.step = BitVec.ofNat 32 k)
    if x.st == .held && mine then .slot (k % n) x (base + k % n * size + off) size len'
    else if (x.st == .filling && mine) || s.notYet k then
      let (e, exact) := s.expect k
      .reply 1 (leBytes 8 e ++ leBytes 1 exact)
    else .reply 2 []

/-- FETCH: the object of a step, or why not. -/
def execFetch (sl : Slot) (s : State) : Out :=
  fgtRun sl 6 0 s (fun r t =>
    let k := r.u 4 4
    if r.body.length < 16 then t.reply sl.val r 5 []
    else
      match t.findResult (r.u 0 2) k (r.u 8 4) (r.u 12 4) with
      | .reply c body => t.reply sl.val r c body
      | .slot _ x a size len =>
        match t.read srcFgt a len with
        | (u, none) => u.reply sl.val r 5 []
        | (u, some bs) =>
          u.reply sl.val r 0 (leBytes 2 (r.u 0 2) ++ leBytes 2 0 ++ leBytes 4 k ++ leBytes 8 x.gen.toNat ++ leBytes 4 size ++
            leBytes 4 (r.u 8 4) ++ leBytes 4 len ++ leBytes 4 0 ++ bs))

/-- A result slot became FREE: the step-end signal that waited for it may go (R558). -/
def State.retestLeaf (s : State) : State :=
  match s.fur.withheld with
  | none => s
  | some k => s.checkLeaf k

/-- RELEASE: a HELD slot of the step becomes FREE. -/
def execRelease (sl : Slot) (s : State) : Out :=
  fgtRun sl 7 0 s (fun r t =>
    let i := r.u 0 2
    if r.body.length < 8 then t.reply sl.val r 5 []
    else
      match t.findResult i (r.u 4 4) 0 0 with
      | .reply c body => t.reply sl.val r c body
      | .slot n x _ _ _ => ((t.setResSlot i n { x with st := .free }).retestLeaf).reply sl.val r 0 [])

-- Export (R559).

/-- The range of a table that lies at an LRANGE on this module. -/
def State.rangeAt (s : State) (d : TableD) (l : Nat) : Option Nat :=
  (List.range d.nrange).find? (fun i => decide (s.ownWord d (i * 2 ^ d.shift) = (s.chip, l)))

/-- One above the last record index that this module is home to. -/
def State.homeEnd (s : State) (d : TableD) : Nat :=
  (List.range d.nrange).foldl (fun m i =>
    let w := s.ownWord d (i * 2 ^ d.shift)
    if w.1 = s.chip then max m ((w.2 + 1) * 2 ^ d.shift) else m) 0

/-- An exported record: its header of 16 bytes, then the values (R306). -/
def exportBytes (d : TableD) (t row : Nat) (raw : Bool) (ofmt : Nat) (bs : List Byte) : List Byte :=
  let vals := (bs.drop 16).take d.valBytes
  let k := toSigned 8 (msgNat bs 0 1)
  let w := fmtBits d.vfmt
  let all := leNat vals
  let out := if raw then vals else
    packElems (fmtBits ofmt) ((List.range d.dim).map (fun i => (encEl ofmt none false ((decEl d.vfmt (natBits all (w * i) w)).scale (-k))).1))
  leBytes 8 (row % 2 ^ 40 + t * 2 ^ 40) ++ padTo 8 ((bs.drop 4).take 4 ++ bs.take 1) ++ out

/-- The scan: from a record index for so many records, up to so many exports; the index at which it stops, the number of
records and their bytes. No record is read past one whose bytes are lost to an uncorrectable error or lie out of reach (R404). -/
def exportScan (t : Nat) (d : TableD) (raw : Bool) (ofmt lo hi : Nat) :
    Nat → Nat → Nat → State → Nat → List Byte → State × Option (Nat × Nat × List Byte)
  | 0, i, _, s, n, acc => (s, some (i, n, acc))
  | k + 1, i, left, s, n, acc =>
    if left = 0 then (s, some (i, n, acc))
    else
      match s.rangeAt d (i / 2 ^ d.shift) with
      | none => exportScan t d raw ofmt lo hi k (i + 1) left s n acc
      | some g =>
        match if jobReach (d.base + d.stride * i) d.rowBytes then s.read srcFgt (d.base + d.stride * i) d.rowBytes else (s, none) with
        | (u, none) => (u, none)
        | (u, some bs) =>
          let step := msgNat bs 4 4
          if step ≠ 0xFFFFFFFF ∧ lo ≤ step ∧ step ≤ hi then
            exportScan t d raw ofmt lo hi k (i + 1) (left - 1) u (n + 1)
              (acc ++ exportBytes d t (g * 2 ^ d.shift + i % 2 ^ d.shift) raw ofmt bs)
          else exportScan t d raw ofmt lo hi k (i + 1) left u n acc

/-- EXPORT_DELTA. A descriptor, an ownership word or a record that is lost to an uncorrectable error, and an ownership word
or a record out of reach, is answered REFUSED (log entry 109). -/
def execExportDelta (sl : Slot) (s : State) : Out :=
  fgtRun sl 8 0 s (fun r t0 =>
    let tab := r.u 0 1
    let (t, ok) := t0.touch srcFgt (t0.tableRanges [tab])
    let d := t.table tab
    let raw : Bool := decide (r.u 1 1 % 2 = 1)
    let ofmt := r.u 2 1
    let cur := r.u 16 8
    let max' := r.u 24 4
    if r.body.length < 28 ∨ max' < 1 ∨ 65536 < max' ∨ (¬ raw ∧ 2 < ofmt) then t0.reply sl.val r 5 []
    else if 16 ≤ tab then t0.reply sl.val r 3 []
    else if ¬ ok then t.reply sl.val r 5 []
    else if ¬ d.sound ∨ d.nrange = 0 then t.reply sl.val r 3 []
    else if ¬ jobReach d.ownTab (8 * d.nrange) then t.reply sl.val r 5 []
    else
      match t.touch srcFgt [(d.ownTab, 8 * d.nrange)] with
      | (t1, false) => t1.reply sl.val r 5 []
      | (t1, true) =>
        let last := t1.homeEnd d
        match exportScan tab d raw ofmt (r.u 4 4) (r.u 8 4) (last - cur) cur max' t1 0 [] with
        | (u, none) => u.reply sl.val r 5 []
        | (u, some (i, n, bs)) =>
          let next := if last ≤ i then 2 ^ 64 - 1 else i
          u.reply sl.val r 0 (leBytes 8 next ++ leBytes 4 n ++ bs))

-- Snapshots (R560, R614, R615).

/-- The records of the granary index that this module keeps for its job: the local area's, and those of the roles whose buddy it
is, by the role table or in the place of one that failed (R612, R614). -/
def State.ownRecords (s : State) : List Nat :=
  0 :: (s.roleList.filter (fun r => (s.role r).2.1 == s.chip || s.buddyChip r == some s.chip)).flatMap
    (fun r => [buddyRecord r 0, buddyRecord r 1])

/-- A record that is not EMPTY: its JOB_HASH is that of the loaded job (R615). -/
def State.recordLive (s : State) (i : Nat) : Bool :=
  let b := s.views (recordAddr i) 64
  msgNat b 3 1 != 0 && decide ((b.drop 32).take 32 = padTo 32 s.job.hash)

/-- SNAPSHOT INFO: STEP, ROLE, STATE and GEN of each snapshot held, and ING_SEQ of its header (R614, R623; log entry 85). -/
def execSnapshotInfo (sl : Slot) (s : State) : Out :=
  fgtRun sl 9 0 s (fun r t0 =>
    let (t, ok) := t0.touch srcFgt (t0.ownRecords.flatMap (fun i => [(recordAddr i, 64), (recordAddr i + 8192, 128)]))
    let l := t.ownRecords.filter t.recordLive
    let entry (i : Nat) : List Byte :=
      let b := t.views (recordAddr i) 8
      (b.drop 4).take 4 ++ b.take 2 ++ (b.drop 3).take 1 ++ (b.drop 2).take 1 ++ t.views (recordAddr i + 8192 + 96) 8
    if ok then t.reply sl.val r 0 (leBytes 4 l.length ++ leBytes 4 0 ++ l.flatMap entry) else t.reply sl.val r 5 [])

/-- SNAPSHOT READ: bytes of the snapshot of a step, the local copy before a buddy generation. -/
def execSnapshotRead (sl : Slot) (s : State) : Out :=
  fgtRun sl 9 1 s (fun r t0 =>
    let off := r.u 8 8
    let len := r.u 16 4
    let (t, ok) := t0.touch srcFgt (t0.ownRecords.map (fun i => (recordAddr i, 64)))
    if r.body.length < 20 ∨ 16777216 < len ∨ ¬ ok then t.reply sl.val r 5 []
    else
      match t.ownRecords.find? (fun i => t.holds i (r.u 0 4)) with
      | none => t.reply sl.val r 3 []
      | some i =>
        if 8192 + t.bodyLen < off + len then t.reply sl.val r 5 []
        else
          match t.read srcFgt (t.viewNat (recordAddr i + 8) 8 + off) len with
          | (u, none) => u.reply sl.val r 5 []
          | (u, some bs) => u.reply sl.val r 0 bs)

/-- The local area takes a host copy: its record says WRITING from the first write on (R615). -/
def State.hostWriting (s : State) (step : Nat) : State :=
  match s.myRole with
  | none => s
  | some r =>
    let (t, ok) := s.touch srcFgt [(recordAddr 0, 64)]
    if ok ∧ (t.views (recordAddr 0) 8).drop 2 = leBytes 1 0xFF ++ leBytes 1 1 ++ leBytes 4 step then t
    else t.putRecord 0 r 0xFF 1 step t.job.localArea

/-- SNAPSHOT WRITE: into the local area, while recovery waits for the host's copy. -/
def execSnapshotWrite (sl : Slot) (s : State) : Out :=
  fgtRun sl 9 2 s (fun r t =>
    let step := r.u 0 4
    let off := r.u 8 8
    let data := r.body.drop 16
    if t.rcv.st ≠ .waitHost then t.reply sl.val r 4 []
    else if r.body.length < 16 ∨ step = 0xFFFFFFFF ∨ step ≠ t.fld sysGrnHost 0 32 ∨ 8192 + t.bodyLen < off + data.length then
      t.reply sl.val r 5 []
    else ((t.write srcFgt (t.job.localArea + off) data).hostWriting step).reply sl.val r 0 [])

-- CSR access (R561, R595).

/-- The words of a body from an offset on. -/
def bodyWords (bs : List Byte) (o n : Nat) : List Nat := (List.range n).map (fun i => msgNat bs (o + 8 * i) 8)

def csrAddrOk (a : Nat) : Bool := inCsr a && a % 8 == 0

/-- The registers that a recovery boot shows (R595). -/
def recoveryShows (o : Nat) : Bool := o == sysId || o / 0x1000000 == 12 || o / 0x1000000 == 13

/-- Read registers in order. -/
def readCsrs : List Nat → State → List Byte → State × List Byte
  | [], s, acc => (s, acc)
  | a :: r, s, acc =>
    let o := a - csrBase
    let (t, v) := if s.stile.recoveryBoot ∧ ¬ recoveryShows o then (s, 0) else s.readCsr o
    readCsrs r t (acc ++ leBytes 8 v.toNat)

/-- CSR_READ. -/
def execCsrRead (sl : Slot) (s : State) : Out :=
  fgtRun sl 10 0 s (fun r t =>
    let n := r.u 0 4
    let l := bodyWords r.body 8 n
    if n < 1 ∨ 64 < n ∨ r.body.length < 8 + 8 * n ∨ ¬ l.all csrAddrOk then t.reply sl.val r 5 []
    else
      let (u, bs) := readCsrs l t []
      u.reply sl.val r 0 bs)

/-- CSR_WRITE, `ns` after the last tick. -/
def execCsrWrite (sl : Slot) (ns : Nat) (s : State) : Out :=
  fgtRun sl 11 0 s (fun r t =>
    let n := r.u 0 4
    let l := (List.range n).map (fun i => (r.u (8 + 16 * i) 8, r.u (16 + 16 * i) 8))
    if n < 1 ∨ 64 < n ∨ r.body.length < 8 + 16 * n ∨ ¬ l.all (fun p => csrAddrOk p.1) then t.reply sl.val r 5 []
    else
      let u := l.foldl (fun v p => v.writeCsr (p.1 - csrBase) (BitVec.ofNat 64 p.2) ns false) t
      u.reply sl.val r 0 [])

-- Firmware staging (R563, R596, R597).

/-- The slot that a stage is for: the one that is not active. -/
def State.stageSlot (s : State) : Bool := !activeSlot s.stile.records

/-- A trial boot is running. -/
def State.trialRuns (s : State) : Bool := s.stile.trial && (pendingTrial s.stile.records).isSome

/-- A WRITE at OFFSET 0 begins a stage: the slot is STAGING, and a trial pending for it is cancelled. -/
def State.beginStage (s : State) : State :=
  let b := s.stageSlot
  let t := if (pendingTrial s.stile.records).map (fun p => p.1) = some b then s.appendRec .clear else s
  { t with stile := t.stile.setSlot b 2 }

/-- Erase the sectors that a run enters. -/
def State.stageErase (s : State) (a n : Nat) : State :=
  let first := (a + 65535) / 65536
  let last := (a + n + 65535) / 65536
  ((List.range (last - first)).map (fun i => first + i)).foldl State.eraseSector s

/-- The WRITE under way programs the bytes that are left, and the next one must start behind it. -/
def State.finishStage (s : State) : State :=
  match s.stile.staging with
  | none => s
  | some g =>
    let t := if g.cut ∨ ¬ s.pins.wpN then s
      else
        let u := s.flashWrite g.at_ g.left
        { u with stile := { u.stile with stageNext := some (g.at_ + g.left.length - slotBase u.stageSlot) } }
    { t with stile := { t.stile with staging := none } }

/-- The session whose WRITE is under way still waits for its reply. -/
def State.stageBusy (s : State) (sl : Slot) : Bool :=
  match s.stile.staging with
  | none => false
  | some g => g.owner != sl && (s.session g.owner.val).holding

/-- IMAGE_STAGE WRITE: the request begins with its checks, the stage and the erase of the sectors that it enters, and holds its
session; the same command again programs the bytes and replies. One that WP_N interrupts leaves the slot incomplete and replies
WP (R25, R563). -/
def execImageStageWrite (sl : Slot) (s : State) : Out :=
  let x := s.session sl.val
  match x.reqs with
  | [] => stutter s
  | r :: _ =>
    if s.stageBusy sl then stutter s
    else if x.holding then
      if ¬ (r.type = 12 ∧ r.op = 0) then stutter s
      else
        let bad := !s.pins.wpN || (s.stile.staging.map (fun g => g.cut)).getD false
        .next (s.finishStage.reply sl.val r (if bad then 8 else 0) [])
    else
      fgtRun sl 12 0 s (fun r t0 =>
        let t := t0.finishStage
        let off := r.u 0 8
        let data := r.body.drop 8
        if ¬ t.pins.wpN then t.reply sl.val r 8 []
        else if t.trialRuns then t.reply sl.val r 4 []
        else if r.body.length < 8 ∨ (off ≠ 0 ∧ t.stile.stageNext ≠ some off) ∨ 33554432 < off + data.length then t.reply sl.val r 5 []
        else
          let u := if off = 0 then t.beginStage else t
          let a := slotBase u.stageSlot + off
          let v := u.stageErase a data.length
          { v with stile := { v.stile with stageNext := none, staging := some ⟨sl, a, data, false⟩ } }.setSession sl.val
            { v.session sl.val with holding := true })

/-- What a failed check of a staged image replies. -/
def verdictStatus (bit : Nat) : Nat := if bit = 0 then 13 else if bit = 2 then 11 else 5

/-- IMAGE_STAGE COMMIT: the staged image is verified, and a trial of it is pending. A slot that has been committed or has run
before can be committed again as it stands. -/
def execImageStageCommit (sl : Slot) (s : State) : Out :=
  if s.stageBusy sl then stutter s
  else fgtRun sl 12 1 s (fun r t0 =>
    let t := t0.finishStage
    let b := t.stageSlot
    if ¬ t.pins.wpN then t.reply sl.val r 8 []
    else if t.trialRuns then t.reply sl.val r 4 []
    else
      let u := { t with stile := { t.stile with stageNext := none } }
      match u.verifySlot b with
      | .good _ => ({ u with stile := u.stile.setSlot b 3 }.appendRec (.pending b)).reply sl.val r 0 []
      | .bad e => ({ u with stile := u.stile.setSlot b 0 }.slotErr b e).reply sl.val r (verdictStatus e) [])

-- Fallow (R562, R635 to R641).

/-- FALLOW: entry at a tick, or at once for TICK 0; the reply leaves first. -/
def execFallow (sl : Slot) (ns : Nat) (s : State) : Out :=
  let x := s.session sl.val
  match x.reqs with
  | [] => stutter s
  | r :: _ =>
    if s.linksDark ∧ x.isOpen ∧ ¬ r.bad ∧ ¬ x.holding ∧ r.type = 13 ∧ r.op = 0 then .next (s.reply sl.val r 0 [])
    else
      fgtRun sl 13 0 s (fun r t =>
        let k := r.u 0 8
        if r.body.length < 8 then t.reply sl.val r 5 []
        else if k = 0 then
          if t.job.st = .none ∨ t.mems.members.length = 1 then (t.reply sl.val r 0 []).enterFallow else t.reply sl.val r 5 []
        else if k < t.targetTick ns then t.reply sl.val r 7 []
        else { t with pow := { t.pow with fallowAt := some (BitVec.ofNat 64 k) } }.reply sl.val r 0 [])

/-- The exit sequence but for the furrow unit: memory out of self-refresh, attachments up, ports into the laser sequence. -/
def State.wakeUp (s : State) : State :=
  let s1 := ((s.clrBit memStatus 1).clrBit memStatus 2).setFld memStatus 16 12 0xFFF
  let s2 := { s1 with pow := { s1.pow with st := 0, wakeGrace := true } }
  (List.range 32).foldl (fun t p => if (t.port p).st = .off ∧ t.bit (spxPortCtrl p) 0 then t.trainPort p else t) s2

/-- The furrow unit after WAKE (R641). -/
def State.wakeFurrow (s : State) : State :=
  let f := { s.fur with nextTick := none, goodMarkers := 0 }
  match s.master with
  | none => { s with fur := { f with sync := .free } }
  | some m =>
    if m = s.chip then { s with fur := { f with sync := .free, holdTick := s.fld pwrPark 0 32 != 0 } }
    else { s with fur := { f with sync := .acquire } }

/-- The whole exit sequence. -/
def State.exitFallow (s : State) : State := s.wakeUp.wakeFurrow

/-- WAKE: the reply leaves once the module is IDLE. -/
def execWake (sl : Slot) (s : State) : Out := fgtRun sl 14 0 s (fun r t => t.exitFallow.reply sl.val r 0 [])

/-- WAKE_GRACE_END. -/
def execWakeGraceEnd (s : State) : Out :=
  if s.pow.wakeGrace then .next { s with pow := { s.pow with wakeGrace := false } } else stutter s

-- Telemetry (R566, R639, R651).

/-- Overruns of all engines (R75). -/
def State.overrunSum (s : State) : Nat := (s.engines.map (fun e => e.2.overruns.toNat)).sum

/-- TELEMETRY SUBSCRIBE: PERIOD 0 ends the subscription. -/
def execTelemetrySubscribe (sl : Slot) (s : State) : Out :=
  fgtRun sl 15 0 s (fun r t =>
    let p := r.u 0 2
    if r.body.length < 2 then t.reply sl.val r 5 []
    else
      let b : Subscription := { period := BitVec.ofNat 16 p, nextTick := t.furCount + 1, overruns := t.overrunSum, furrows := 0,
                                wattSum := 0, wattMax := 0, alarms := [], lost := 0 }
      (t.setSession sl.val { t.session sl.val with sub := if p = 0 then none else some b }).reply sl.val r 0 [])

/-- A report's body. Voltage, current and temperatures are free readings (log entry 8), as is the average over no furrow. -/
def State.reportBody (s : State) (b : Subscription) : State × List Byte :=
  let (s1, inp) := s.readCsr pwrInput
  let (s2, tmp) := s1.readCsr pwrTemp
  let free := (Config.freeReading pwrInput s2.draws).toNat
  let avg := if b.furrows = 0 then free else b.wattSum / b.furrows
  let high := if b.furrows = 0 then free else b.wattMax
  let sum := (s2.reg stbSummary).toNat
  let alarms := padTo 120 b.alarms.flatten
  (s2.draw, padTo 256 (leBytes 8 s2.furCount.toNat ++ leBytes 4 (s2.fld furStep 0 32) ++ leBytes 1 s2.powerState ++
    leBytes 1 s2.job.st.code ++ leBytes 2 s2.chip ++ leBytes 4 inp.toNat ++ leBytes 2 avg ++ leBytes 2 high ++
    leBytes 1 (natBits tmp.toNat 0 8) ++ leBytes 1 (natBits tmp.toNat 8 7) ++ leBytes 1 (natBits tmp.toNat 16 8) ++ leBytes 1 0 ++
    leBytes 4 (s2.fld pwrAlert 0 9) ++ leBytes 1 (natBits sum 0 3) ++ leBytes 1 (natBits sum 8 7) ++ leBytes 2 b.lost ++
    leBytes 4 (natBits sum 32 32) ++ leBytes 8 (s2.overrunSum - b.overruns) ++ leBytes 8 (s2.reg fgtGen).toNat ++
    leBytes 4 (s2.fld sysGrnStatus 0 32) ++ leBytes 4 s2.rcv.rseq.toNat ++ alarms))

/-- A subscription's report is due: its tick has come, or the module is in fallow, where the period is a second of which the
model keeps no time. -/
def State.reportDue (s : State) (b : Subscription) : Bool := s.linksDark || decide (b.nextTick.toNat ≤ s.furCount.toNat)

/-- TELEMETRY_REPORT. -/
def execTelemetryReport (sl : Slot) (s : State) : Out :=
  let x := s.session sl.val
  match x.sub with
  | none => stutter s
  | some b =>
    if ¬ x.isOpen ∨ ¬ s.reportDue b then stutter s
    else
      let (t, body) := s.reportBody b
      let next := if s.linksDark then b.nextTick else b.nextTick + b.period.setWidth 64
      let y := { b with nextTick := next, overruns := t.overrunSum, furrows := 0, wattSum := 0, wattMax := 0, alarms := [], lost := 0 }
      .next ((t.setSession sl.val { t.session sl.val with sub := some y }).sendSess sl.val 15 1 0 0 body)

-- Dumps, attestation, reset (R564, R565, R600, R601).

/-- DUMP_FETCH. -/
def execDumpFetch (sl : Slot) (s : State) : Out :=
  fgtRun sl 16 0 s (fun r t =>
    let off := r.u 0 8
    let len := r.u 8 4
    if r.body.length < 12 ∨ 16777216 < len ∨ 2 ^ 32 < off + len then t.reply sl.val r 5 []
    else if ¬ t.dumpDone 0 ∧ ¬ t.dumpDone 1 then t.reply sl.val r 3 []
    else
      match t.read srcFgt (dumpBase + off) len with
      | (u, none) => u.reply sl.val r 5 []
      | (u, some bs) => u.reply sl.val r 0 bs)

/-- The attestation report (R565). -/
def State.attestReport (s : State) (nonce : List Byte) : List Byte :=
  let job := if s.job.st = .none ∨ s.job.st = .loading then [] else s.job.hash
  padTo 256 (leBytes 8 (s.reg sysId).toNat ++ leBytes 2 s.chip ++ leBytes 6 0 ++ leBytes 8 s.furCount.toNat ++
    leBytes 8 s.stile.nextIdx ++ nonce ++ padTo 32 s.stile.image.hash ++ padTo 32 job)

/-- Begin to reserve the next block of signature indices: the first half of its entry is programmed behind the last one of the
active half, or at the start of the other half where the active one is full (R600, R601). -/
def State.reserveBegin (s : State) : State :=
  let x := s.stile
  let h := x.activeHalf
  let n := x.used (logBase h) logSize
  let a := if n < indexCap then logBase h + 16 * n else logBase (!h)
  let e := indexEntry (x.endIdx / 1024)
  let t := s.flashWrite a (e.take 8)
  { t with stile := { t.stile with reserving := some (a + 8, e.drop 8) } }

/-- The rest of the entry is programmed; the reservation counts once the entry reads back. The other half, full
or left so by an interruption, is then erased (R600, R601, R650). An entry that does not read back is a flash error (R603). -/
def State.reserveEnd (s : State) (a : Nat) (rest : List Byte) : State :=
  let t := s.flashWrite a rest
  let y : StileSt := { t.stile with reserving := none }
  if y.entry (a - 8) = indexEntry (y.endIdx / 1024) then
    let u : State := { t with stile := { y with endIdx := y.endIdx + 1024 } }
    let h : Bool := decide (logBase true ≤ a)
    let left := y.used (logBase (!h)) logSize
    if 0 < left then (indexSectors (!h)).foldl State.eraseSector u else u
  else { t with stile := y }.setBit stlErr 4

/-- The report under the next signature index, with its signature of 9,893 bytes (R565, R601). -/
def State.signReport (s : State) (nonce : List Byte) : State × List Byte :=
  let rep := s.attestReport nonce
  let sig := Config.xmssmtSign (BitVec.ofNat 256 (fuseField s.stile.outputs 608 256)) s.stile.nextIdx rep
  ({ s with stile := { s.stile with nextIdx := s.stile.nextIdx + 1 } }, rep ++ padTo 9893 (sig.take 9893))

/-- ATTEST goes on: with an index reserved it signs and replies; else a block of indices must be reserved first, which takes it
two commands, between which a reset or WP_N may fall. -/
def State.attestGo (s : State) (sl : Nat) (r : Req) : State :=
  let sign (t : State) : State :=
    let (u, bs) := t.signReport (r.body.take 32)
    u.reply sl r 0 bs
  if s.stile.nextIdx < s.stile.endIdx then sign s
  else if ¬ s.pins.wpN then { s with stile := { s.stile with reserving := none } }.reply sl r 8 []
  else
    match s.stile.reserving with
    | none => s.reserveBegin.setSession sl { s.session sl with holding := true }
    | some (a, rest) =>
      let t := s.reserveEnd a rest
      if t.stile.nextIdx < t.stile.endIdx then sign t else t.setSession sl { t.session sl with holding := true }

/-- ATTEST: the report under the next signature index. -/
def execAttest (sl : Slot) (s : State) : Out :=
  let x := s.session sl.val
  match x.reqs with
  | [] => stutter s
  | r :: _ =>
    if x.holding then (if r.type = 17 ∧ r.op = 0 then .next (s.attestGo sl.val r) else stutter s)
    else
      fgtRun sl 17 0 s (fun r t =>
        if r.body.length < 32 then t.reply sl.val r 5 []
        else if 2 ^ 40 ≤ t.stile.nextIdx then (t.setBit stlErr 8).reply sl.val r 12 []
        else t.attestGo sl.val r)

/-- RESET: once the peer's WINDOW has room, the reply leaves, and a warm reset closes every session. -/
def execResetMessage (sl : Slot) (s : State) : Out :=
  fgtRun sl 18 0 s (fun r t => if t.maySend sl.val then (t.answerReq sl.val r 0 []).resetBy .message else t)

end Sys2Proof.Machine
end

