-- ==== Sys2Proof/Machine/Headland.lean ====
section
/-!
DEFINITION. Headland (R216 to R239): a thread issues the instruction word that its instruction cache delivers, and the
scalar instructions of the three classes, one meaning each over the shared runner.
-/

namespace Sys2Proof.Machine
open Sys2Proof

-- Fields and registers (R216, R223).

def hdlCls (w : Word) : Nat := insBits w 62 2
def hdlOp (w : Word) : Nat := insBits w 56 6
def hdlRd (w : Word) : Nat := insBits w 51 5
def hdlRa (w : Word) : Nat := insBits w 46 5
def hdlRb (w : Word) : Nat := insBits w 41 5
def hdlCtr (w : Word) : Nat := insBits w 32 6

/-- IMM, sign-extended to 64 bits. -/
def hdlImm (w : Word) : Word := (w.setWidth 32).signExtend 64

/-- A scalar register: x0 reads 0 (R216). -/
def Thr.x (t : Thr) (r : Nat) : Word := if r = 0 then 0 else Tab.get t.regs 0 r

/-- Write a scalar register: x0 ignores writes (R216). -/
def Thr.setX (t : Thr) (r : Nat) (v : Word) : Thr := if r = 0 then t else { t with regs := Tab.put t.regs r v }

/-- Operand a, x[RB], and operand b, which is IMM when I is 1 (R223). -/
def Thr.a (t : Thr) (w : Word) : Word := t.x (hdlRa w)
def Thr.xb (t : Thr) (w : Word) : Word := t.x (hdlRb w)
def Thr.b (t : Thr) (w : Word) : Word := if insBits w 40 1 = 1 then hdlImm w else t.xb w

/-- Go on with the next instruction. -/
def Thr.next (t : Thr) : Thr := { t with pc := t.pc + 8, stalled := none }

/-- PC + IMM × 8. -/
def Thr.target (t : Thr) (w : Word) : BitVec 48 := t.pc + (hdlImm w * 8).setWidth 48

/-- The OP of a class names no operation (R224, R225, R228). -/
def hdlReserved (cls op : Nat) : Bool :=
  match cls with
  | 0 => !(op ≤ 0x12 || (0x20 ≤ op && op ≤ 0x27))
  | 1 => !(op ≤ 6 || (8 ≤ op && op ≤ 0xB) || op == 0x10 || op == 0x11)
  | 2 => !(op ≤ 4 || op == 8 || op == 9 || op == 0xC || op == 0x10)
  | _ => false

-- Refusals (R217, R248, R249).

/-- A thread halts. -/
def State.hdlHalt (s : State) (st th : Nat) : State := s.setThread st th { s.thread st th with st := .halted, stalled := none }

/-- A fetch out of reach or an uncorrectable error: the thread halts, with no first refusal recorded. -/
def State.hdlStop (s : State) (st th bit : Nat) : State :=
  let t := (s.setBit (hdlErr st) bit).hdlHalt st th
  t.jobFault (srcHdl st) ((t.reg (hdlErr st)).toNat % 2 ^ 32) (s.thread st th).pc.toNat 0

/-- A refused instruction: every matching bit, the first refusal, and the thread halts. -/
def State.hdlRefuse (s : State) (st th : Nat) (w : Word) (bits : List Nat) : State :=
  let pc := (s.thread st th).pc.toNat
  let t := (s.refuse (hdlErr st) bits [(32, 2, th), (34, 2, hdlCls w), (36, 6, hdlOp w)] (hdlErrPc st) pc).hdlHalt st th
  t.jobFault (srcHdl st) ((t.reg (hdlErr st)).toNat % 2 ^ 32) pc 0

-- Fetch (R222).

/-- The key of a line in the instruction cache of a strip. -/
def icKey (st line : Nat) : Nat := 2 ^ 48 * st + line

/-- The keys of the lines that a strip's instruction cache holds. -/
def State.icLines (s : State) (st : Nat) : List Nat := (s.icache.filter (fun p => p.1 / 2 ^ 48 == st)).map (fun p => p.1)

/-- A line enters the 32 KiB cache of a strip, 512 lines of 64 bytes; which line it replaces the manual leaves open: at most
one while there is room, a free choice (DESIGN CHOICE, log entry 106). -/
def State.icFill (s : State) (st line : Nat) (bs : List Byte) : State :=
  let ks := s.icLines st
  let r := (Config.freeReading (icKey st line) s.draws).toNat
  let kept := match ks[r % (if ks.length < 512 then ks.length + 1 else ks.length)]? with
    | none => s.icache
    | some x => Tab.drop s.icache x
  { s with icache := Tab.put kept (icKey st line) bs, draws := s.draws + 1 }

/-- The instruction word at an address of a line. -/
def lineWord (bs : List Byte) (pc : Nat) : Word := BitVec.ofNat 64 (msgNat bs (pc % 64) 8)

/-- Fetch the word at the PC of a strip's thread through the instruction cache, which no store changes (R222); no word on an
uncorrectable error. -/
def State.fetchWord (s : State) (st pc : Nat) : State × Option Word :=
  match Tab.look s.icache (icKey st (lineOf pc)) with
  | some bs => (s, some (lineWord bs pc))
  | none =>
    match s.read (srcHdl st) (lineOf pc) 64 with
    | (t, none) => (t, none)
    | (t, some bs) => (t.icFill st (lineOf pc) bs, some (lineWord bs pc))

/-- A thread that issues stalls no longer (R251). -/
def State.hdlIssue (s : State) (st th : Nat) : State :=
  let t := s.count (hdlCntIssue st) 1
  if (s.thread st th).stalled.isSome then t.clk (hdlCntPoststall st) else t

/-- Issue an instruction of a thread in RUN (R221, R222): the fetch, which must deliver the command's word, the refusal of a
reserved OP by whichever command meets it, and the effect of the operation; a body that answers none waits. -/
def hdlRun (st : Strip) (th : Thread) (cls op : Nat) (w : Word) (s : State) (body : State → Option State) : Out :=
  let t := s.thread st.val th.val
  let pc := t.pc.toNat
  if t.st ≠ .run then stutter s
  else if ¬ (inSlice st.val pc 8 ∨ spans inBuf pc 8) then .next (s.hdlStop st.val th.val 1)
  else
    match s.fetchWord st.val pc with
    | (u, none) => .next (u.hdlStop st.val th.val 6)
    | (u, some x) =>
      let u1 := u.hdlIssue st.val th.val
      if x ≠ w ∨ hdlCls w ≠ cls then stutter s
      else if hdlReserved cls (hdlOp w) then .next (u1.hdlRefuse st.val th.val w [0])
      else if hdlOp w ≠ op then stutter s
      else
        match body u1 with
        | some v => .next v
        | none => stutter s

/-- Change the issuing thread. -/
def State.onThread (s : State) (st th : Nat) (f : Thr → Thr) : State := s.setThread st th (f (s.thread st th))

-- ALU and branches (R224).

/-- An operation of the ALU: RD takes a value of the operands. -/
def hdlAlu (st : Strip) (th : Thread) (op : Nat) (w : Word) (s : State) (f : Word → Word → Word) : Out :=
  hdlRun st th 0 op w s (fun u => some (u.onThread st.val th.val (fun t => (t.setX (hdlRd w) (f (t.a w) (t.b w))).next)))

/-- A conditional branch on a and x[RB]. -/
def hdlBranch (st : Strip) (th : Thread) (op : Nat) (w : Word) (s : State) (f : Word → Word → Bool) : Out :=
  hdlRun st th 0 op w s (fun u => some (u.onThread st.val th.val (fun t =>
    if f (t.a w) (t.xb w) then { t with pc := t.target w } else t.next)))

def execHdlAdd (st : Strip) (th : Thread) (w : Word) (s : State) : Out := hdlAlu st th 0x00 w s (fun a b => a + b)

def execHdlSub (st : Strip) (th : Thread) (w : Word) (s : State) : Out := hdlAlu st th 0x01 w s (fun a b => a - b)

def execHdlAnd (st : Strip) (th : Thread) (w : Word) (s : State) : Out := hdlAlu st th 0x02 w s (fun a b => a &&& b)

def execHdlOr (st : Strip) (th : Thread) (w : Word) (s : State) : Out := hdlAlu st th 0x03 w s (fun a b => a ||| b)

def execHdlXor (st : Strip) (th : Thread) (w : Word) (s : State) : Out := hdlAlu st th 0x04 w s (fun a b => a ^^^ b)

def execHdlShl (st : Strip) (th : Thread) (w : Word) (s : State) : Out := hdlAlu st th 0x05 w s (fun a b => a <<< (b.toNat % 64))

def execHdlShrl (st : Strip) (th : Thread) (w : Word) (s : State) : Out := hdlAlu st th 0x06 w s (fun a b => a >>> (b.toNat % 64))

def execHdlShra (st : Strip) (th : Thread) (w : Word) (s : State) : Out := hdlAlu st th 0x07 w s (fun a b => a.sshiftRight (b.toNat % 64))

def execHdlMul (st : Strip) (th : Thread) (w : Word) (s : State) : Out := hdlAlu st th 0x08 w s (fun a b => a * b)

def execHdlMulhu (st : Strip) (th : Thread) (w : Word) (s : State) : Out := hdlAlu st th 0x09 w s (fun a b => BitVec.ofNat 64 (a.toNat * b.toNat / 2 ^ 64))

def execHdlSlt (st : Strip) (th : Thread) (w : Word) (s : State) : Out := hdlAlu st th 0x0A w s (fun a b => if a.slt b then 1 else 0)

def execHdlSltu (st : Strip) (th : Thread) (w : Word) (s : State) : Out := hdlAlu st th 0x0B w s (fun a b => if a.ult b then 1 else 0)

def execHdlMin (st : Strip) (th : Thread) (w : Word) (s : State) : Out := hdlAlu st th 0x0C w s (fun a b => if a.slt b then a else b)

def execHdlMax (st : Strip) (th : Thread) (w : Word) (s : State) : Out := hdlAlu st th 0x0D w s (fun a b => if a.slt b then b else a)

def execHdlMinu (st : Strip) (th : Thread) (w : Word) (s : State) : Out := hdlAlu st th 0x0E w s (fun a b => if a.ult b then a else b)

def execHdlMaxu (st : Strip) (th : Thread) (w : Word) (s : State) : Out := hdlAlu st th 0x0F w s (fun a b => if a.ult b then b else a)

/-- MOVHI: IMM above a[31:0]. -/
def execMovhi (st : Strip) (th : Thread) (w : Word) (s : State) : Out := hdlAlu st th 0x10 w s (fun a _ => (hdlImm w <<< 32) ||| ((a.setWidth 32).setWidth 64))

/-- RDTICK: FUR_COUNT. -/
def execRdtick (st : Strip) (th : Thread) (w : Word) (s : State) : Out := hdlAlu st th 0x11 w s (fun _ _ => s.furCount)

/-- Time has passed since the last RDCYC, by an amount that the model does not follow (log entry 6). -/
def State.cycles (s : State) : State := { s.draw with hclk := s.hclk + (Config.freeCycles s.draws).toNat }

/-- RDCYC: hclk since the last cold reset. -/
def execRdcyc (st : Strip) (th : Thread) (w : Word) (s : State) : Out :=
  hdlRun st th 0 0x12 w s (fun u =>
    some (u.cycles.onThread st.val th.val (fun t => (t.setX (hdlRd w) (BitVec.ofNat 64 u.cycles.hclk)).next)))

def execBeq (st : Strip) (th : Thread) (w : Word) (s : State) : Out := hdlBranch st th 0x20 w s (fun a b => a == b)

def execBne (st : Strip) (th : Thread) (w : Word) (s : State) : Out := hdlBranch st th 0x21 w s (fun a b => a != b)

def execBlt (st : Strip) (th : Thread) (w : Word) (s : State) : Out := hdlBranch st th 0x22 w s (fun a b => a.slt b)

def execBge (st : Strip) (th : Thread) (w : Word) (s : State) : Out := hdlBranch st th 0x23 w s (fun a b => !a.slt b)

def execBltu (st : Strip) (th : Thread) (w : Word) (s : State) : Out := hdlBranch st th 0x24 w s (fun a b => a.ult b)

def execBgeu (st : Strip) (th : Thread) (w : Word) (s : State) : Out := hdlBranch st th 0x25 w s (fun a b => !a.ult b)

/-- JAL: link and jump. -/
def execJal (st : Strip) (th : Thread) (w : Word) (s : State) : Out :=
  hdlRun st th 0 0x26 w s (fun u => some (u.onThread st.val th.val (fun t =>
    { t.setX (hdlRd w) ((t.pc + 8).setWidth 64) with pc := t.target w })))

/-- JALR: link and jump to a + IMM, a multiple of 8. -/
def execJalr (st : Strip) (th : Thread) (w : Word) (s : State) : Out :=
  hdlRun st th 0 0x27 w s (fun u =>
    let target := (u.thread st.val th.val).a w + hdlImm w
    if target.toNat % 8 ≠ 0 then some (u.hdlRefuse st.val th.val w [2])
    else some (u.onThread st.val th.val (fun t => { t.setX (hdlRd w) ((t.pc + 8).setWidth 64) with pc := target.setWidth 48 })))

-- Memory (R220, R225).

/-- What an access of n bytes breaks: alignment, the privilege of R220 and reach. `csr` admits CSR space, which L64
and S64 alone reach; `atomic` leaves plot SRAM and base-die buffers only. -/
def hdlBad (modeF : Bool) (a n align : Nat) (csr atomic : Bool) : List Nat :=
  let last := a + n - 1
  let top (x : Nat) : Bool := dumpBase ≤ x && x < dramEnd
  let high := top a || top last
  let io := inCsr a || inCsr last
  let reach := if atomic then spans inPlot a n || spans inBuf a n
    else spans inDram a n || spans inPlot a n || spans inBuf a n || spans inTiles a n || (csr && spans inCsr a n)
  broken [(a % align != 0, 2), (!modeF && (high || io), 3), (!reach, 1)]

/-- The address of the memory class. -/
def Thr.addr (t : Thr) (w : Word) : Nat := (t.a w + hdlImm w).toNat

/-- A load of n bytes; `ext` makes the 64-bit value. -/
def hdlLoad (st : Strip) (th : Thread) (op n : Nat) (w : Word) (s : State) (ext : Nat → Word) : Out :=
  hdlRun st th 1 op w s (fun u =>
    let t := u.thread st.val th.val
    let a := t.addr w
    let bad := hdlBad t.modeF a n n (n = 8) false
    if bad ≠ [] then some (u.hdlRefuse st.val th.val w bad)
    else if inCsr a then
      let (v, x) := u.readCsr (a - csrBase)
      some (v.onThread st.val th.val (fun y => (y.setX (hdlRd w) x).next))
    else
      match u.read (srcHdl st.val) a n with
      | (v, none) => some (v.hdlStop st.val th.val 6)
      | (v, some bs) => some (v.onThread st.val th.val (fun y => (y.setX (hdlRd w) (ext (leNat bs))).next)))

/-- Sign extension and zero extension of n-byte values. -/
def extS (n v : Nat) : Word := BitVec.ofInt 64 (toSigned (8 * n) v)
def extU (v : Nat) : Word := BitVec.ofNat 64 v

def execL8s (st : Strip) (th : Thread) (w : Word) (s : State) : Out := hdlLoad st th 0 1 w s (extS 1)

def execL16s (st : Strip) (th : Thread) (w : Word) (s : State) : Out := hdlLoad st th 1 2 w s (extS 2)

def execL32s (st : Strip) (th : Thread) (w : Word) (s : State) : Out := hdlLoad st th 2 4 w s (extS 4)

def execL64 (st : Strip) (th : Thread) (w : Word) (s : State) : Out := hdlLoad st th 3 8 w s extU

def execL8u (st : Strip) (th : Thread) (w : Word) (s : State) : Out := hdlLoad st th 4 1 w s extU

def execL16u (st : Strip) (th : Thread) (w : Word) (s : State) : Out := hdlLoad st th 5 2 w s extU

def execL32u (st : Strip) (th : Thread) (w : Word) (s : State) : Out := hdlLoad st th 6 4 w s extU

/-- A store of the low n bytes of x[RD]; a 64-bit store in CSR space writes a register, at a moment of the furrow that
the model does not follow. -/
def hdlStore (st : Strip) (th : Thread) (op n : Nat) (w : Word) (s : State) : Out :=
  hdlRun st th 1 op w s (fun u =>
    let t := u.thread st.val th.val
    let a := t.addr w
    let v := t.x (hdlRd w)
    let bad := hdlBad t.modeF a n n (n = 8) false
    if bad ≠ [] then some (u.hdlRefuse st.val th.val w bad)
    else
      let u1 := u.onThread st.val th.val Thr.next
      if inCsr a then
        let (u2, ns) := u1.freeMoment (a - csrBase)
        some (u2.writeCsr (a - csrBase) v ns true)
      else some (u1.write (srcHdl st.val) a (leBytes n v.toNat)))

def execS8 (st : Strip) (th : Thread) (w : Word) (s : State) : Out := hdlStore st th 8 1 w s

def execS16 (st : Strip) (th : Thread) (w : Word) (s : State) : Out := hdlStore st th 9 2 w s

def execS32 (st : Strip) (th : Thread) (w : Word) (s : State) : Out := hdlStore st th 10 4 w s

def execS64 (st : Strip) (th : Thread) (w : Word) (s : State) : Out := hdlStore st th 11 8 w s

/-- An atomic of 64 bits: RD takes the old value and memory a function of it and x[RB]. -/
def hdlAtomic (st : Strip) (th : Thread) (op : Nat) (w : Word) (s : State) (f : Word → Word → Word) : Out :=
  hdlRun st th 1 op w s (fun u =>
    let t := u.thread st.val th.val
    let a := t.addr w
    let bad := hdlBad t.modeF a 8 8 false true
    if bad ≠ [] then some (u.hdlRefuse st.val th.val w bad)
    else
      match u.read (srcHdl st.val) a 8 with
      | (v, none) => some (v.hdlStop st.val th.val 6)
      | (v, some bs) =>
        let old := BitVec.ofNat 64 (leNat bs)
        let v1 := v.write (srcHdl st.val) a (leBytes 8 (f old (t.xb w)).toNat)
        some (v1.onThread st.val th.val (fun y => (y.setX (hdlRd w) old).next)))

def execAadd (st : Strip) (th : Thread) (w : Word) (s : State) : Out := hdlAtomic st th 0x10 w s (fun o x => o + x)

def execAswp (st : Strip) (th : Thread) (w : Word) (s : State) : Out := hdlAtomic st th 0x11 w s (fun _ x => x)

-- Sync (R227 to R229).

/-- The largest u24. -/
def maxU24 : Nat := 2 ^ 24 - 1

/-- Counter c of a core is a tree node (R240). -/
def State.isNode (s : State) (st c : Nat) : Bool := natBits (s.reg (stkNode st c)).toNat 24 2 != 0

/-- Issue a signal: at once, or after the Winnow instructions that the thread passed earlier (R229). -/
def State.issueSig (s : State) (st th : Nat) (x : DeferSig) : State :=
  let c := s.wctx st th
  match c.queue.getLast? with
  | none => s.afterIssued st th x
  | some i => s.setWctx st th { c with queue := c.queue.dropLast ++ [{ i with sigs := i.sigs ++ [x] }] }

/-- SIGNAL: add b to a counter of this core. -/
def execSignal (st : Strip) (th : Thread) (w : Word) (s : State) : Out :=
  hdlRun st th 2 0 w s (fun u =>
    let b := ((u.thread st.val th.val).b w).toNat
    if hdlCtr w ≥ 48 ∨ b = 0 ∨ b > maxU24 then some (u.hdlRefuse st.val th.val w [4])
    else some ((u.onThread st.val th.val Thr.next).issueSig st.val th.val (.here (hdlCtr w) b)))

/-- WAIT: a target of 0 completes at once. -/
def execWait (st : Strip) (th : Thread) (w : Word) (s : State) : Out :=
  hdlRun st th 2 1 w s (fun u =>
    let c := hdlCtr w
    let b := ((u.thread st.val th.val).b w).toNat
    if c ≥ 48 ∨ b > maxU24 ∨ u.isNode st.val c then some (u.hdlRefuse st.val th.val w [4])
    else if b = 0 then some (u.onThread st.val th.val Thr.next)
    else
      some ((u.onThread st.val th.val (fun t => { t.next with st := .wait, waitCtr := BitVec.ofNat 6 c })).beginWait
        st.val c ⟨.thread th, b⟩))

/-- TRYWAIT: tested once as the youngest waiter. -/
def execTrywait (st : Strip) (th : Thread) (w : Word) (s : State) : Out :=
  hdlRun st th 2 2 w s (fun u =>
    let c := hdlCtr w
    let b := ((u.thread st.val th.val).b w).toNat
    let v := (u.ctr st.val c).toNat
    if c ≥ 48 ∨ b > maxU24 ∨ u.isNode st.val c then some (u.hdlRefuse st.val th.val w [4])
    else if b ≤ v then
      some ((u.setCtr st.val c (BitVec.ofNat 24 (v - b))).onThread st.val th.val (fun t => (t.setX (hdlRd w) 1).next))
    else some (u.onThread st.val th.val (fun t => (t.setX (hdlRd w) 0).next)))

/-- SREAD: a counter's value. -/
def execSread (st : Strip) (th : Thread) (w : Word) (s : State) : Out :=
  hdlRun st th 2 3 w s (fun u =>
    let c := hdlCtr w
    if c ≥ 48 then some (u.hdlRefuse st.val th.val w [4])
    else some (u.onThread st.val th.val (fun t => (t.setX (hdlRd w) ((u.ctr st.val c).setWidth 64)).next)))

/-- RSIGNAL: add b to the counter of another core or chip that a names. One that needs a link takes a token of the core's
bucket, or its thread stalls in RUN with nothing issued (R239). -/
def execRsignal (st : Strip) (th : Thread) (w : Word) (s : State) : Out :=
  hdlRun st th 2 4 w s (fun u =>
    let t := u.thread st.val th.val
    let a := (t.a w).toNat
    let b := (t.b w).toNat
    let c := natBits a 22 6
    if c ≥ 48 ∨ b = 0 ∨ b > maxU24 then some (u.hdlRefuse st.val th.val w [4])
    else
      let sig (v : State) : State :=
        (v.onThread st.val th.val Thr.next).issueSig st.val th.val (.remote (natBits a 0 16) (natBits a 16 6) c b)
      if natBits a 0 16 = u.chip ∨ ¬ u.live (natBits a 0 16) then some (sig u)
      else if u.tokensNow st.val = 0 then some (s.draw.onThread st.val th.val (fun y => { y with stalled := some 5 }))
      else some (sig (u.takeToken st.val)))

-- Posting (R232, R233).

/-- A posting FIFO has no room. -/
def State.fifoFull (s : State) (st k : Nat) : Bool := fifoCap k ≤ (s.fifo st k).length

/-- Post from n bytes at operand a to the engine of operand b: refused, stalled on a full FIFO with nothing issued, or
copied. -/
def hdlPost (st : Strip) (th : Thread) (op n : Nat) (w : Word) (s : State) (more : State → Thr → List Nat)
    (push : State → Thr → Nat → Nat → List Byte → State) : Out :=
  hdlRun st th 2 op w s (fun u =>
    let t := u.thread st.val th.val
    let a := (t.a w).toNat
    let e := (t.b w).toNat
    let bad := hdlBad t.modeF a n n false false ++ more u t ++ broken [((fifoOf st.val e).isNone, 5)]
    match bad, fifoOf st.val e with
    | [], some k =>
      if u.fifoFull st.val k then some (s.onThread st.val th.val (fun y => { y with stalled := some k }))
      else
        match u.read (srcHdl st.val) a n with
        | (v, none) => some (v.hdlStop st.val th.val 6)
        | (v, some bs) => some (push (v.onThread st.val th.val Thr.next) t k e bs)
    | _, _ => some (u.hdlRefuse st.val th.val w bad))

/-- POSTP: a plan descriptor. -/
def execPostp (st : Strip) (th : Thread) (w : Word) (s : State) : Out :=
  hdlPost st th 8 32 w s (fun _ _ => []) (fun v t k e bs => v.postPlan st.val k e (planOf bs st t.modeF))

/-- POSTC: a command, in mode F with the furrow disabled. -/
def execPostc (st : Strip) (th : Thread) (w : Word) (s : State) : Out :=
  hdlPost st th 9 64 w s (fun u t => broken [(!t.modeF, 3), (t.modeF && u.bit furCtrl 0, 5)])
    (fun v t k e bs => v.pushPost st.val k (.command e
      { addr := (t.a w).setWidth 48, word := BitVec.ofNat 512 (leNat bs), core := st, modeF := t.modeF, step := 0, parcel := 0,
        phase := false, direct := true }))

/-- FENCE: every earlier load and store of the thread took effect at its issue. -/
def execFence (st : Strip) (th : Thread) (w : Word) (s : State) : Out :=
  hdlRun st th 2 0x0C w s (fun u => some (u.onThread st.val th.val Thr.next))

/-- HALT: the thread enters IDLE. -/
def execHalt (st : Strip) (th : Thread) (w : Word) (s : State) : Out :=
  hdlRun st th 2 0x10 w s (fun u => some (u.onThread st.val th.val (fun t => { t.next with st := .idle })))

-- Winnow instructions (R163, R167, R172, R206).

/-- PASS_WINNOW: a class 0b11 instruction enters its thread's Winnow queue of 8 with its scalar values; a halted engine
takes it and discards it; a full queue holds the thread. -/
def execPassWinnow (st : Strip) (th : Thread) (w : Word) (s : State) : Out :=
  hdlRun st th 3 (hdlOp w) w s (fun u =>
    let t := u.thread st.val th.val
    let c := u.wctx st.val th.val
    let v := u.onThread st.val th.val Thr.next
    if (u.winnow st.val).halted then some v
    else if c.queue.length ≥ 8 then none
    else
      some (v.setWctx st.val th.val
        { c with queue := c.queue ++ [{ word := w, xa := t.x (insBits w 45 5), xb := t.x (insBits w 40 5), pc := t.pc }] }))

end Sys2Proof.Machine
end

