-- ==== Sys2Proof/Machine/Dispatch.lean ====
section
/-!
DEFINITION. One arm per command.
-/

namespace Sys2Proof.Machine
open Sys2Proof

def exec (i : Instr) (s : State) : Host.Outcome State Fault Refusal :=
  match i with
  | .powerOn => Sys2Proof.Machine.execPowerOn s
  | .railsInRegulation => Sys2Proof.Machine.execRailsInRegulation s
  | .powerDown => Sys2Proof.Machine.execPowerDown s
  | .overvoltageShutdown => Sys2Proof.Machine.execOvervoltageShutdown s
  | .thermalTrip sensor celsius => Sys2Proof.Machine.execThermalTrip sensor celsius s
  | .sensorAlarmRaise src sensor value => Sys2Proof.Machine.execSensorAlarmRaise src sensor value s
  | .sensorAlarmClear src sensor value => Sys2Proof.Machine.execSensorAlarmClear src sensor value s
  | .resetNFall => Sys2Proof.Machine.execResetNFall s
  | .warmResetEntry => Sys2Proof.Machine.execWarmResetEntry s
  | .resetNCold => Sys2Proof.Machine.execResetNCold s
  | .resetNRise => Sys2Proof.Machine.execResetNRise s
  | .wpNChange high => Sys2Proof.Machine.execWpNChange high s
  | .releaseOrder inp => Sys2Proof.Machine.execReleaseOrder inp s
  | .bootFailure why => Sys2Proof.Machine.execBootFailure why s
  | .watchdogExpiry => Sys2Proof.Machine.execWatchdogExpiry s
  | .watchdogRestart v => Sys2Proof.Machine.execWatchdogRestart v s
  | .blockResetGo v => Sys2Proof.Machine.execBlockResetGo v s
  | .blockResetApply => Sys2Proof.Machine.execBlockResetApply s
  | .blockResetTimeout => Sys2Proof.Machine.execBlockResetTimeout s
  | .blockResetEnd => Sys2Proof.Machine.execBlockResetEnd s
  | .furrowTick watts => Sys2Proof.Machine.execFurrowTick watts s
  | .timingMarkerSend ns => Sys2Proof.Machine.execTimingMarkerSend ns s
  | .holdoverEntry => Sys2Proof.Machine.execHoldoverEntry s
  | .holdoverTimeout => Sys2Proof.Machine.execHoldoverTimeout s
  | .furCtrlWrite v => Sys2Proof.Machine.execFurCtrlWrite v s
  | .furPeriodWrite v ns => Sys2Proof.Machine.execFurPeriodWrite v ns s
  | .planQueueEntry st fifo pos => Sys2Proof.Machine.execPlanQueueEntry st fifo pos s
  | .planComplete engine => Sys2Proof.Machine.execPlanComplete engine s
  | .hdlAdd st th w => Sys2Proof.Machine.execHdlAdd st th w s
  | .hdlSub st th w => Sys2Proof.Machine.execHdlSub st th w s
  | .hdlAnd st th w => Sys2Proof.Machine.execHdlAnd st th w s
  | .hdlOr st th w => Sys2Proof.Machine.execHdlOr st th w s
  | .hdlXor st th w => Sys2Proof.Machine.execHdlXor st th w s
  | .hdlShl st th w => Sys2Proof.Machine.execHdlShl st th w s
  | .hdlShrl st th w => Sys2Proof.Machine.execHdlShrl st th w s
  | .hdlShra st th w => Sys2Proof.Machine.execHdlShra st th w s
  | .hdlMul st th w => Sys2Proof.Machine.execHdlMul st th w s
  | .hdlMulhu st th w => Sys2Proof.Machine.execHdlMulhu st th w s
  | .hdlSlt st th w => Sys2Proof.Machine.execHdlSlt st th w s
  | .hdlSltu st th w => Sys2Proof.Machine.execHdlSltu st th w s
  | .hdlMin st th w => Sys2Proof.Machine.execHdlMin st th w s
  | .hdlMax st th w => Sys2Proof.Machine.execHdlMax st th w s
  | .hdlMinu st th w => Sys2Proof.Machine.execHdlMinu st th w s
  | .hdlMaxu st th w => Sys2Proof.Machine.execHdlMaxu st th w s
  | .movhi st th w => Sys2Proof.Machine.execMovhi st th w s
  | .rdtick st th w => Sys2Proof.Machine.execRdtick st th w s
  | .rdcyc st th w => Sys2Proof.Machine.execRdcyc st th w s
  | .beq st th w => Sys2Proof.Machine.execBeq st th w s
  | .bne st th w => Sys2Proof.Machine.execBne st th w s
  | .blt st th w => Sys2Proof.Machine.execBlt st th w s
  | .bge st th w => Sys2Proof.Machine.execBge st th w s
  | .bltu st th w => Sys2Proof.Machine.execBltu st th w s
  | .bgeu st th w => Sys2Proof.Machine.execBgeu st th w s
  | .jal st th w => Sys2Proof.Machine.execJal st th w s
  | .jalr st th w => Sys2Proof.Machine.execJalr st th w s
  | .l8s st th w => Sys2Proof.Machine.execL8s st th w s
  | .l16s st th w => Sys2Proof.Machine.execL16s st th w s
  | .l32s st th w => Sys2Proof.Machine.execL32s st th w s
  | .l64 st th w => Sys2Proof.Machine.execL64 st th w s
  | .l8u st th w => Sys2Proof.Machine.execL8u st th w s
  | .l16u st th w => Sys2Proof.Machine.execL16u st th w s
  | .l32u st th w => Sys2Proof.Machine.execL32u st th w s
  | .s8 st th w => Sys2Proof.Machine.execS8 st th w s
  | .s16 st th w => Sys2Proof.Machine.execS16 st th w s
  | .s32 st th w => Sys2Proof.Machine.execS32 st th w s
  | .s64 st th w => Sys2Proof.Machine.execS64 st th w s
  | .aadd st th w => Sys2Proof.Machine.execAadd st th w s
  | .aswp st th w => Sys2Proof.Machine.execAswp st th w s
  | .signal st th w => Sys2Proof.Machine.execSignal st th w s
  | .wait st th w => Sys2Proof.Machine.execWait st th w s
  | .trywait st th w => Sys2Proof.Machine.execTrywait st th w s
  | .sread st th w => Sys2Proof.Machine.execSread st th w s
  | .rsignal st th w => Sys2Proof.Machine.execRsignal st th w s
  | .postp st th w => Sys2Proof.Machine.execPostp st th w s
  | .postc st th w => Sys2Proof.Machine.execPostc st th w s
  | .fence st th w => Sys2Proof.Machine.execFence st th w s
  | .halt st th w => Sys2Proof.Machine.execHalt st th w s
  | .passWinnow st th w => Sys2Proof.Machine.execPassWinnow st th w s
  | .nodeFire st ctr ns => Sys2Proof.Machine.execNodeFire st ctr ns s
  | .stkValWrite st ctr v => Sys2Proof.Machine.execStkValWrite st ctr v s
  | .stkNodeNextWrite st ctr v => Sys2Proof.Machine.execStkNodeNextWrite st ctr v s
  | .winNop st th => Sys2Proof.Machine.execWinNop st th s
  | .setcnt st th => Sys2Proof.Machine.execSetcnt st th s
  | .setdith st th => Sys2Proof.Machine.execSetdith st th s
  | .setamax st th => Sys2Proof.Machine.execSetamax st th s
  | .lutld st th => Sys2Proof.Machine.execLutld st th s
  | .wsig st th => Sys2Proof.Machine.execWsig st th s
  | .winLd st th => Sys2Proof.Machine.execWinLd st th s
  | .winSt st th => Sys2Proof.Machine.execWinSt st th s
  | .ldr st th => Sys2Proof.Machine.execLdr st th s
  | .str st th => Sys2Proof.Machine.execStr st th s
  | .winAdd st th => Sys2Proof.Machine.execWinAdd st th s
  | .winSub st th => Sys2Proof.Machine.execWinSub st th s
  | .winMul st th => Sys2Proof.Machine.execWinMul st th s
  | .fma st th => Sys2Proof.Machine.execFma st th s
  | .nfma st th => Sys2Proof.Machine.execNfma st th s
  | .winMin st th => Sys2Proof.Machine.execWinMin st th s
  | .winMax st th => Sys2Proof.Machine.execWinMax st th s
  | .abs st th => Sys2Proof.Machine.execAbs st th s
  | .neg st th => Sys2Proof.Machine.execNeg st th s
  | .scl st th => Sys2Proof.Machine.execScl st th s
  | .div st th => Sys2Proof.Machine.execDiv st th s
  | .sqrt st th => Sys2Proof.Machine.execSqrt st th s
  | .rsqrt st th => Sys2Proof.Machine.execRsqrt st th s
  | .cmpeq st th => Sys2Proof.Machine.execCmpeq st th s
  | .cmpne st th => Sys2Proof.Machine.execCmpne st th s
  | .cmplt st th => Sys2Proof.Machine.execCmplt st th s
  | .cmple st th => Sys2Proof.Machine.execCmple st th s
  | .sel st th => Sys2Proof.Machine.execSel st th s
  | .winAnd st th => Sys2Proof.Machine.execWinAnd st th s
  | .winOr st th => Sys2Proof.Machine.execWinOr st th s
  | .winXor st th => Sys2Proof.Machine.execWinXor st th s
  | .winShl st th => Sys2Proof.Machine.execWinShl st th s
  | .winShra st th => Sys2Proof.Machine.execWinShra st th s
  | .winShrl st th => Sys2Proof.Machine.execWinShrl st th s
  | .cvt st th => Sys2Proof.Machine.execCvt st th s
  | .lut st th => Sys2Proof.Machine.execLut st th s
  | .lutd st th => Sys2Proof.Machine.execLutd st th s
  | .rsum st th => Sys2Proof.Machine.execRsum st th s
  | .rmax st th => Sys2Proof.Machine.execRmax st th s
  | .rmin st th => Sys2Proof.Machine.execRmin st th s
  | .segsum st th => Sys2Proof.Machine.execSegsum st th s
  | .segmax st th => Sys2Proof.Machine.execSegmax st th s
  | .segmin st th => Sys2Proof.Machine.execSegmin st th s
  | .segbc st th => Sys2Proof.Machine.execSegbc st th s
  | .accrd st th => Sys2Proof.Machine.execAccrd st th s
  | .accrel st th => Sys2Proof.Machine.execAccrel st th s
  | .gateNop st => Sys2Proof.Machine.execGateNop st s
  | .gateOpen st => Sys2Proof.Machine.execGateOpen st s
  | .gateJoin st => Sys2Proof.Machine.execGateJoin st s
  | .tilNop st a => Sys2Proof.Machine.execTilNop st a s
  | .load st a => Sys2Proof.Machine.execLoad st a s
  | .loadDone st a => Sys2Proof.Machine.execLoadDone st a s
  | .stream st a => Sys2Proof.Machine.execStream st a s
  | .setHandover st a lot => Sys2Proof.Machine.execSetHandover st a lot s
  | .streamDone st a lot => Sys2Proof.Machine.execStreamDone st a lot s
  | .setmode st a => Sys2Proof.Machine.execSetmode st a s
  | .glnNop port => Sys2Proof.Machine.execGlnNop port s
  | .gather port => Sys2Proof.Machine.execGather port s
  | .gatherDone port => Sys2Proof.Machine.execGatherDone port s
  | .mark port => Sys2Proof.Machine.execMark port s
  | .refresh port => Sys2Proof.Machine.execRefresh port s
  | .slotWrite slot => Sys2Proof.Machine.execSlotWrite slot s
  | .parkedReadAnswer pos => Sys2Proof.Machine.execParkedReadAnswer pos s
  | .dirInsert v => Sys2Proof.Machine.execDirInsert v s
  | .dirRemove v => Sys2Proof.Machine.execDirRemove v s
  | .dirSyncDone => Sys2Proof.Machine.execDirSyncDone s
  | .sample d => Sys2Proof.Machine.execSample d s
  | .drlNop d => Sys2Proof.Machine.execDrlNop d s
  | .parcelBuildStart => Sys2Proof.Machine.execParcelBuildStart s
  | .parcelBuildDone => Sys2Proof.Machine.execParcelBuildDone s
  | .batchApply => Sys2Proof.Machine.execBatchApply s
  | .shfNop e => Sys2Proof.Machine.execShfNop e s
  | .absorb e => Sys2Proof.Machine.execAbsorb e s
  | .dacc e => Sys2Proof.Machine.execDacc e s
  | .dsum e => Sys2Proof.Machine.execDsum e s
  | .flush e => Sys2Proof.Machine.execFlush e s
  | .flushDone e => Sys2Proof.Machine.execFlushDone e s
  | .norm e => Sys2Proof.Machine.execNorm e s
  | .advance e => Sys2Proof.Machine.execAdvance e s
  | .apply e => Sys2Proof.Machine.execApply e s
  | .ledgerTake e => Sys2Proof.Machine.execLedgerTake e s
  | .ledgerDrop e => Sys2Proof.Machine.execLedgerDrop e s
  | .ledgerGate e => Sys2Proof.Machine.execLedgerGate e s
  | .ledgerPublish e => Sys2Proof.Machine.execLedgerPublish e s
  | .shfCfaddrWrite v => Sys2Proof.Machine.execShfCfaddrWrite v s
  | .hrwDescStart ch ns => Sys2Proof.Machine.execHrwDescStart ch ns s
  | .hrwNop ch => Sys2Proof.Machine.execHrwNop ch s
  | .copy ch => Sys2Proof.Machine.execCopy ch s
  | .fill ch => Sys2Proof.Machine.execFill ch s
  | .split ch => Sys2Proof.Machine.execSplit ch s
  | .merge ch => Sys2Proof.Machine.execMerge ch s
  | .ilv ch => Sys2Proof.Machine.execIlv ch s
  | .dilv ch => Sys2Proof.Machine.execDilv ch s
  | .spack ch => Sys2Proof.Machine.execSpack ch s
  | .hrwDescComplete ch => Sys2Proof.Machine.execHrwDescComplete ch s
  | .hrwRemoteTimeout ch => Sys2Proof.Machine.execHrwRemoteTimeout ch s
  | .hrwRetry ch => Sys2Proof.Machine.execHrwRetry ch s
  | .hrwChannelReset st v => Sys2Proof.Machine.execHrwChannelReset st v s
  | .redNop => Sys2Proof.Machine.execRedNop s
  | .rdense => Sys2Proof.Machine.execRdense s
  | .rnorm => Sys2Proof.Machine.execRnorm s
  | .portEnable p v => Sys2Proof.Machine.execPortEnable p v s
  | .portFence p v => Sys2Proof.Machine.execPortFence p v s
  | .portUnfence p v => Sys2Proof.Machine.execPortUnfence p v s
  | .fecLock p => Sys2Proof.Machine.execFecLock p s
  | .trainRestart p => Sys2Proof.Machine.execTrainRestart p s
  | .helloSend p => Sys2Proof.Machine.execHelloSend p s
  | .hello p f => Sys2Proof.Machine.execHello p f s
  | .linkDown p => Sys2Proof.Machine.execLinkDown p s
  | .idleFlit p f => Sys2Proof.Machine.execIdleFlit p f s
  | .replayTimeout p => Sys2Proof.Machine.execReplayTimeout p s
  | .marker p f phasePs residencePs => Sys2Proof.Machine.execMarker p f phasePs residencePs s
  | .stook p f => Sys2Proof.Machine.execStook p f s
  | .delayRequestSend p t1 => Sys2Proof.Machine.execDelayRequestSend p t1 s
  | .delay p f rx tx => Sys2Proof.Machine.execDelay p f rx tx s
  | .heartbeatSend => Sys2Proof.Machine.execHeartbeatSend s
  | .heartbeat p f => Sys2Proof.Machine.execHeartbeat p f s
  | .heartbeatMiss chip ns => Sys2Proof.Machine.execHeartbeatMiss chip ns s
  | .member p f => Sys2Proof.Machine.execMember p f s
  | .memberStateResend => Sys2Proof.Machine.execMemberStateResend s
  | .deputyTakeover ns => Sys2Proof.Machine.execDeputyTakeover ns s
  | .alarm p f => Sys2Proof.Machine.execAlarm p f s
  | .park p f => Sys2Proof.Machine.execPark p f s
  | .grad p fs => Sys2Proof.Machine.execGrad p fs s
  | .sack p f => Sys2Proof.Machine.execSack p f s
  | .rup p f => Sys2Proof.Machine.execRup p f s
  | .rdown p f => Sys2Proof.Machine.execRdown p f s
  | .greq p f => Sys2Proof.Machine.execGreq p f s
  | .gresp p fs => Sys2Proof.Machine.execGresp p fs s
  | .rread p f => Sys2Proof.Machine.execRread p f s
  | .rdata p fs => Sys2Proof.Machine.execRdata p fs s
  | .rwrite p fs => Sys2Proof.Machine.execRwrite p fs s
  | .wack p f => Sys2Proof.Machine.execWack p f s
  | .vhits p f => Sys2Proof.Machine.execVhits p f s
  | .volAdd p fs => Sys2Proof.Machine.execVolAdd p fs s
  | .volRefresh p fs => Sys2Proof.Machine.execVolRefresh p fs s
  | .volBump p fs => Sys2Proof.Machine.execVolBump p fs s
  | .volDrop p fs => Sys2Proof.Machine.execVolDrop p fs s
  | .bulk p fs => Sys2Proof.Machine.execBulk p fs s
  | .abort p f => Sys2Proof.Machine.execAbort p f s
  | .recoveryFault p f ns => Sys2Proof.Machine.execRecoveryFault p f ns s
  | .recoveryHalt p f => Sys2Proof.Machine.execRecoveryHalt p f s
  | .recoveryStatus p f ns => Sys2Proof.Machine.execRecoveryStatus p f ns s
  | .recoveryResume p f => Sys2Proof.Machine.execRecoveryResume p f s
  | .recoveryLinkdown p f ns => Sys2Proof.Machine.execRecoveryLinkdown p f ns s
  | .recoverySeal p f => Sys2Proof.Machine.execRecoverySeal p f s
  | .recoveryDone p f => Sys2Proof.Machine.execRecoveryDone p f s
  | .recoveryRetire p f => Sys2Proof.Machine.execRecoveryRetire p f s
  | .retireWrite v => Sys2Proof.Machine.execRetireWrite v s
  | .snapshotCopyDone => Sys2Proof.Machine.execSnapshotCopyDone s
  | .restoreComplete => Sys2Proof.Machine.execRestoreComplete s
  | .fatalFault cause => Sys2Proof.Machine.execFatalFault cause s
  | .scrubRead sram upsets => Sys2Proof.Machine.execScrubRead sram upsets s
  | .scrubWriteback => Sys2Proof.Machine.execScrubWriteback s
  | .ceHourRollover => Sys2Proof.Machine.execCeHourRollover s
  | .datagramRx d => Sys2Proof.Machine.execDatagramRx d s
  | .datagramResend sl pos => Sys2Proof.Machine.execDatagramResend sl pos s
  | .sessionTimeout sl => Sys2Proof.Machine.execSessionTimeout sl s
  | .arpRequest target from_ => Sys2Proof.Machine.execArpRequest target from_ s
  | .neighbourSolicitation target from_ => Sys2Proof.Machine.execNeighbourSolicitation target from_ s
  | .echoRequest v6 target body => Sys2Proof.Machine.execEchoRequest v6 target body s
  | .sessionOpen => Sys2Proof.Machine.execSessionOpen s
  | .sessionClose sl => Sys2Proof.Machine.execSessionClose sl s
  | .sessionPing sl => Sys2Proof.Machine.execSessionPing sl s
  | .loadJobBegin sl => Sys2Proof.Machine.execLoadJobBegin sl s
  | .loadJobPart sl => Sys2Proof.Machine.execLoadJobPart sl s
  | .loadJobCommit sl => Sys2Proof.Machine.execLoadJobCommit sl s
  | .loadJobUnload sl => Sys2Proof.Machine.execLoadJobUnload sl s
  | .feedData sl => Sys2Proof.Machine.execFeedData sl s
  | .feedSeeds sl => Sys2Proof.Machine.execFeedSeeds sl s
  | .feedEdges sl => Sys2Proof.Machine.execFeedEdges sl s
  | .start sl ns => Sys2Proof.Machine.execStart sl ns s
  | .pauseAt sl => Sys2Proof.Machine.execPauseAt sl s
  | .jobPause => Sys2Proof.Machine.execJobPause s
  | .resume sl ns => Sys2Proof.Machine.execResume sl ns s
  | .fetch sl => Sys2Proof.Machine.execFetch sl s
  | .release sl => Sys2Proof.Machine.execRelease sl s
  | .exportDelta sl => Sys2Proof.Machine.execExportDelta sl s
  | .snapshotInfo sl => Sys2Proof.Machine.execSnapshotInfo sl s
  | .snapshotRead sl => Sys2Proof.Machine.execSnapshotRead sl s
  | .snapshotWrite sl => Sys2Proof.Machine.execSnapshotWrite sl s
  | .csrRead sl => Sys2Proof.Machine.execCsrRead sl s
  | .csrWrite sl ns => Sys2Proof.Machine.execCsrWrite sl ns s
  | .imageStageWrite sl => Sys2Proof.Machine.execImageStageWrite sl s
  | .imageStageCommit sl => Sys2Proof.Machine.execImageStageCommit sl s
  | .fallow sl ns => Sys2Proof.Machine.execFallow sl ns s
  | .wake sl => Sys2Proof.Machine.execWake sl s
  | .wakeGraceEnd => Sys2Proof.Machine.execWakeGraceEnd s
  | .telemetrySubscribe sl => Sys2Proof.Machine.execTelemetrySubscribe sl s
  | .telemetryReport sl => Sys2Proof.Machine.execTelemetryReport sl s
  | .dumpFetch sl => Sys2Proof.Machine.execDumpFetch sl s
  | .attest sl => Sys2Proof.Machine.execAttest sl s
  | .resetMessage sl => Sys2Proof.Machine.execResetMessage sl s
  | .gaugeSample rs => Sys2Proof.Machine.execGaugeSample rs s
  | .wearUpdate => Sys2Proof.Machine.execWearUpdate s
  | .csrWritePlain addr v => Sys2Proof.Machine.execCsrWritePlain addr v s
  | .flitCrcFail p => Sys2Proof.Machine.execFlitCrcFail p s
  | .flitForward p f => Sys2Proof.Machine.execFlitForward p f s
  | .memScrubWrite v => Sys2Proof.Machine.execMemScrubWrite v s
  | .rstCtrlWrite v => Sys2Proof.Machine.execRstCtrlWrite v s
  | .glnDirWrite v => Sys2Proof.Machine.execGlnDirWrite v s
  | .shfBankWrite e v => Sys2Proof.Machine.execShfBankWrite e v s

end Sys2Proof.Machine
end

