-- ==== Sys2Proof/Safety.lean ====
section
/-!
DEFINITION. What counts as a safe run, and the predicates in which claims speak of a command: what must stand at its front for
its own effect to come, and what that effect leaves. A state is sound when its memory is in canonical form.
-/

namespace Sys2Proof.Machine
open Sys2Proof

/-- Memory is in its canonical form. -/
def State.Sound (s : State) : Prop := Memory.wf s.mem = true

/-- No line of memory holds an error. -/
def State.Clean (s : State) : Prop := s.flips = [] ∧ s.lost = []

/-- v is s after reads: only the check-line cache may have taken other lines (R419). -/
def OnlyRead (s v : State) : Prop := { v with clc := s.clc } = s

-- Headland (chapter 6).

/-- A thread is about to issue w (R221, R222): it runs, its PC can be fetched, the fetch through the instruction cache delivers
w from a line without error, and w has the class and the OP. -/
def HdlReady (s : State) (st : Strip) (th : Thread) (w : Word) (cls op : Nat) : Prop :=
  (s.thread st.val th.val).st = .run ∧
  (inSlice st.val (s.thread st.val th.val).pc.toNat 8 = true ∨ spans inBuf (s.thread st.val th.val).pc.toNat 8 = true) ∧
  (s.fetchWord st.val (s.thread st.val th.val).pc.toNat).2 = some w ∧
  s.errLines (lineOf (s.thread st.val th.val).pc.toNat) 64 = [] ∧ hdlCls w = cls ∧ hdlOp w = op

/-- A 48-bit counter register has counted n more and saturates (R249). -/
def Counted (s t : State) (o n : Nat) : Prop :=
  t.reg o = BitVec.ofNat 64 (min ((s.reg o).toNat % 2 ^ 48 + n) (2 ^ 48 - 1))

/-- Every thread but the issuing one is as before, and so is every register but its core's count of issued instructions and,
where the thread has stalled, that of its stall; the instruction cache holds no new line but the one fetched. -/
def HdlOthers (s t : State) (st : Strip) (th : Thread) : Prop :=
  Counted s t (hdlCntIssue st.val) 1 ∧
  (∀ o, o ≠ hdlCntIssue st.val → o ≠ hdlCntPoststall st.val ∨ (s.thread st.val th.val).stalled = none → t.reg o = s.reg o) ∧
  (∀ (i : Strip) (j : Thread), (i, j) ≠ (st, th) → t.thread i.val j.val = s.thread i.val j.val) ∧
  ∀ k l, k ≠ icKey st.val (lineOf (s.thread st.val th.val).pc.toNat) → Tab.look t.icache k = some l → Tab.look s.icache k = some l

/-- Nothing differs but registers, threads, the instruction cache and the number of free values drawn. -/
def HdlKeeps (s t : State) : Prop := { t with csr := s.csr, thr := s.thr, icache := s.icache, draws := s.draws } = s

/-- A thread after an instruction: in a state, at a PC, with register rd holding v (x0 stays 0) and every other register,
its mode and its waiting counter as before. -/
def ThrAfter (x y : Thr) (state : ThrState) (pc : BitVec 48) (rd : Nat) (v : Word) : Prop :=
  y.st = state ∧ y.pc = pc ∧ y.x rd = (if rd = 0 then 0 else v) ∧ (∀ r, r ≠ rd → y.x r = x.x r) ∧ y.modeF = x.modeF

/-- The issuing thread goes on at the next instruction with RD written; everything else of the module is as before. -/
def HdlWrote (s t : State) (st : Strip) (th : Thread) (w v : Word) : Prop :=
  HdlOthers s t st th ∧ HdlKeeps s t ∧
  ThrAfter (s.thread st.val th.val) (t.thread st.val th.val) .run ((s.thread st.val th.val).pc + 8) (hdlRd w) v

/-- One row of the ALU table of R224: a ready thread writes f of the state, its word, a and b. -/
def HdlAluRow (op : Nat) (row : Strip → Thread → Word → Instr) (f : State → Word → Word → Word → Word) : Prop :=
  ∀ (s : State) (st : Strip) (th : Thread) (w : Word), HdlReady s st th w 0 op →
    ∃ t, exec (row st th w) s = .next t ∧
      HdlWrote s t st th w (f s w ((s.thread st.val th.val).a w) ((s.thread st.val th.val).b w))

/-- A branch row of R224: the PC becomes PC + IMM × 8 where the condition on a and x[RB] holds, else the next. -/
def HdlBranchRow (op : Nat) (row : Strip → Thread → Word → Instr) (f : Word → Word → Prop) : Prop :=
  ∀ (s : State) (st : Strip) (th : Thread) (w : Word), HdlReady s st th w 0 op →
    ∃ t, exec (row st th w) s = .next t ∧ HdlOthers s t st th ∧ HdlKeeps s t ∧
      ∃ pc, ThrAfter (s.thread st.val th.val) (t.thread st.val th.val) .run pc 0 0 ∧
        (f ((s.thread st.val th.val).a w) ((s.thread st.val th.val).xb w) →
          pc = (s.thread st.val th.val).pc + (hdlImm w * 8).setWidth 48) ∧
        (¬ f ((s.thread st.val th.val).a w) ((s.thread st.val th.val).xb w) → pc = (s.thread st.val th.val).pc + 8)

/-- An n-byte access of memory at a that a thread may make: aligned, within one region of R404, with mode F for the top 8
GiB of DRAM (R220). -/
def HdlMay (modeF : Bool) (a n : Nat) : Prop :=
  a % n = 0 ∧ ((spans inJobDram a n = true ∨ modeF = true ∧ spans inDram a n = true) ∨ spans inPlot a n = true ∨
    spans inBuf a n = true ∨ spans inTiles a n = true)

/-- A load row of R225: RD takes the bytes at a + IMM, low byte first, as `ext` widens them; an access to DRAM may also move
lines of the check-line caches (R419). -/
def HdlLoadRow (op n : Nat) (row : Strip → Thread → Word → Instr) (ext : BitVec (8 * n) → Word) : Prop :=
  ∀ (s : State) (st : Strip) (th : Thread) (w : Word), HdlReady s st th w 1 op →
    HdlMay (s.thread st.val th.val).modeF ((s.thread st.val th.val).addr w) n →
    s.errLines ((s.thread st.val th.val).addr w) n = [] →
    ∃ t, exec (row st th w) s = .next t ∧
      HdlWrote s { t with clc := s.clc } st th w (ext (BitVec.ofNat (8 * n) (leNat (s.peeks ((s.thread st.val th.val).addr w) n))))

/-- The byte at x lies in a tile register's window beyond its data and exponents, where writes are dropped (R405). -/
def tileGap (x : Nat) : Bool := inTiles x && decide ((x - winBaseAddr) % 0x100000 ≥ 0x42000)

/-- Memory after a store of n bytes of v at a: those bytes, and every other byte as before. -/
def Stored (s t : State) (a n : Nat) (v : Word) : Prop :=
  (∀ i, i < n → tileGap (a + i) = false → t.peek (a + i) = BitVec.ofNat 8 (v.toNat / 256 ^ i)) ∧
  (∀ x, x < a ∨ a + n ≤ x ∨ tileGap x = true → t.peek x = s.peek x)

/-- A store row of R225: the low n bytes of x[RD] go to a + IMM. -/
def HdlStoreRow (op n : Nat) (row : Strip → Thread → Word → Instr) : Prop :=
  ∀ (s : State) (st : Strip) (th : Thread) (w : Word), s.Sound → HdlReady s st th w 1 op →
    HdlMay (s.thread st.val th.val).modeF ((s.thread st.val th.val).addr w) n →
    s.errLines ((s.thread st.val th.val).addr w) n = [] →
    ∃ t, exec (row st th w) s = .next t ∧ HdlOthers s t st th ∧
      HdlKeeps s { t with mem := s.mem, wbq := s.wbq, clc := s.clc } ∧
      ThrAfter (s.thread st.val th.val) (t.thread st.val th.val) .run ((s.thread st.val th.val).pc + 8) 0 0 ∧
      Stored s t ((s.thread st.val th.val).addr w) n ((s.thread st.val th.val).x (hdlRd w))

/-- An atomic row of R225: RD takes the 64 bits at a + IMM, which take f of them and x[RB]. -/
def HdlAtomicRow (op : Nat) (row : Strip → Thread → Word → Instr) (f : Word → Word → Word) : Prop :=
  ∀ (s : State) (st : Strip) (th : Thread) (w : Word), s.Sound → HdlReady s st th w 1 op →
    (s.thread st.val th.val).addr w % 8 = 0 →
    spans inPlot ((s.thread st.val th.val).addr w) 8 = true ∨ spans inBuf ((s.thread st.val th.val).addr w) 8 = true →
    s.errLines ((s.thread st.val th.val).addr w) 8 = [] →
    ∃ t, exec (row st th w) s = .next t ∧ HdlOthers s t st th ∧
      HdlKeeps s { t with mem := s.mem, wbq := s.wbq, clc := s.clc } ∧
      ∃ old : Word, old.toNat = leNat (s.peeks ((s.thread st.val th.val).addr w) 8) ∧
      ThrAfter (s.thread st.val th.val) (t.thread st.val th.val) .run ((s.thread st.val th.val).pc + 8) (hdlRd w) old ∧
      Stored s t ((s.thread st.val th.val).addr w) 8 (f old ((s.thread st.val th.val).xb w))

/-- The state in which the effect of a scalar instruction is worked out: the fetch has taken place, its issue is counted and,
in the second, its thread stands at the next instruction. -/
def hdlIssued (s : State) (st : Strip) (th : Thread) : State :=
  (s.fetchWord st.val (s.thread st.val th.val).pc.toNat).1.hdlIssue st.val th.val
def hdlWent (s : State) (st : Strip) (th : Thread) : State := (hdlIssued s st th).onThread st.val th.val Thr.next

/-- No Winnow instruction of a thread is queued or under way (R229). -/
def WinQuiet (s : State) (st : Strip) (th : Thread) : Prop :=
  (s.wctx st.val th.val).queue = [] ∧ (s.winnow st.val).holds th.val = false ∧ ∀ x ∈ (s.winnow st.val).later, x.thr ≠ th.val

/-- The instruction is refused with a bit of HDL_ERR (R248): its thread halts with its registers and its PC as they were,
and no byte of memory changes. -/
def HdlTurnedAway (s t : State) (st : Strip) (th : Thread) (bit : Nat) : Prop :=
  t.bit (hdlErr st.val) bit = true ∧ (t.thread st.val th.val).st = .halted ∧
  (t.thread st.val th.val).pc = (s.thread st.val th.val).pc ∧ (t.thread st.val th.val).regs = (s.thread st.val th.val).regs ∧
  t.mem = s.mem

-- Power and reset (chapters 1 and 15).

/-- What a cold reset leaves (R431, R572): memory zero, the counter 0, every register at its reset value but the wear history
(R650), the erase counts that the seed flash holds and the alarms of sensors whose condition goes on (R581), no job, sessions
closed, stook counters 0, threads idle; fuses, seed flash and latches stay. -/
def ColdResetLeaves (s t : State) : Prop :=
  (∀ a, t.peek a = 0) ∧ t.furCount = 0 ∧ (∀ o, isWear o = true → t.reg o = s.reg o) ∧
  (∀ o, isWear o = false → o ≠ pwrAlert → t.reg o = regReset o) ∧ t.reg pwrAlert = s.reg pwrAlert &&& 7 ∧ t.job = {} ∧
  (∀ i, (t.session i).isOpen = false) ∧ (∀ st c, t.ctr st c = 0) ∧ (∀ i j, (t.thread i j).st = .idle) ∧
  t.stile.fuses = s.stile.fuses ∧ t.stile.flash = s.stile.flash ∧ t.pins.ovLatch = s.pins.ovLatch ∧
  t.pins.tripLatch = s.pins.tripLatch

/-- The address lies in the candidate table, which a warm reset clears (R334). -/
def inCands (s : State) (a : Nat) : Bool :=
  s.candReach && decide (s.fld glnCand 0 48 ≤ a) && decide (a < s.fld glnCand 0 48 + 0x20000)

/-- What a warm reset leaves (R432, R572, R602): DRAM but for the candidate table, and FUR_COUNT, kept, all other memory zero,
and in each register the kept bits with the reset value of the others; a reset that starts, and does not join one under way, is
counted. -/
def WarmResetLeaves (s t : State) : Prop :=
  (∀ a, inCands s a = false → t.peek a = if inDram a then s.peek a else 0) ∧
  (s.flips = [] → s.lost = [] → ∀ a, inCands s a = true → t.peek a = 0) ∧ t.furCount = s.furCount ∧
  ((s.csr.map (fun e => e.1)).Nodup →
    (∀ o, o ≠ rstCntWarm → t.reg o = if isWear o then s.reg o else warmReg o (s.reg o)) ∧
    (s.pins.causes = [] → Counted s t rstCntWarm 1) ∧ (s.pins.causes ≠ [] → t.reg rstCntWarm = warmReg rstCntWarm (s.reg rstCntWarm))) ∧
  t.job = {} ∧
  (∀ i, (t.session i).isOpen = false) ∧ (∀ st c, t.ctr st c = 0) ∧ (∀ i j, (t.thread i j).st = .idle) ∧
  t.stile.fuses = s.stile.fuses ∧ t.stile.flash = s.stile.flash ∧ t.pins.ovLatch = s.pins.ovLatch ∧
  t.pins.tripLatch = s.pins.tripLatch

/-- The rails are down (R19, R20, R30): PWR_GOOD is low, memory reads 0, no reset is under way, the host port is down. -/
def RailsAreDown (t : State) : Prop :=
  t.pins.pwrGood = false ∧ (∀ a, t.peek a = 0) ∧ t.pins.causes = [] ∧ t.pins.hostUp = false ∧ t.job = {}

/-- Everything but registers is as before, and so is every register but the one named. -/
def OnlyReg (s t : State) (o : Nat) : Prop := { t with csr := s.csr } = s ∧ ∀ p, p ≠ o → t.reg p = s.reg p

-- The furrow unit, plans and stook counters (chapters 2 and 6).

/-- A job fault has been raised (R605, R606): SYS_FLT_STATUS.JOB is set and ALERT_N is low for it. -/
def JobFaulted (t : State) : Prop := t.bit sysFltStatus 0 = true ∧ t.alert 7 = true

/-- An ALARM to the furrow master leaves this module, or none is due: a route stands to a master that is another (R498, R646). -/
def AlarmGoes (s : State) : Prop :=
  ∀ m, s.master = some m → m ≠ s.chip → s.linksDark = false → (s.routeOut 0 m false).isSome = true

/-- The sum of the targets of waiters. -/
def targets (ws : List Waiter) : Nat := (ws.map (fun w => w.target)).sum

-- Winnow (chapter 5).

/-- A thread's oldest queued Winnow instruction is i, of an OP, the engine is not halted, no accumulator read of the thread
waits for its hand-over (R198), and i does not depend on one that another thread waits for (R174, R203). -/
def WinFront (s : State) (st : Strip) (th : Thread) (i : WinIns) (rest : List WinIns) (op : Nat) : Prop :=
  (s.winnow st.val).halted = false ∧ (s.winnow st.val).holds th.val = false ∧ s.winHeld st.val th.val i = false ∧
  (s.wctx st.val th.val).queue = i :: rest ∧ winOp i.word = op

/-- The instruction has left its queue, is counted, and has completed in a state with a property; the signals that its
thread issued after it follow (R229). -/
def WinDone (s : State) (st : Strip) (th : Thread) (i : WinIns) (rest : List WinIns) (o : Out) (p : State → Prop) : Prop :=
  ∃ u, o = .next (u.winAfter st.val th.val i.sigs) ∧ (u.wctx st.val th.val).queue = rest ∧
    (u.winnow st.val).halted = false ∧ Counted s u (winCntInsn st.val) 1 ∧ p u

/-- The count of the instruction: the thread's count that its word names. -/
def winN (s : State) (st : Strip) (th : Thread) (i : WinIns) : Nat := s.winCount st.val th.val i.word

/-- Tile register TD holds bits(k) in elements below n; beyond them it is as before, or 0 with ZT; all other memory stays. -/
def TileTakes (s u : State) (st : Strip) (td g n : Nat) (zt : Bool) (bits : Nat → Nat) : Prop :=
  (∀ k, k < n → u.tileBits st.val td g k = bits k % 2 ^ fmtBits g) ∧
  (∀ k, n ≤ k → k < fmtCap g → u.tileBits st.val td g k = if zt then 0 else s.tileBits st.val td g k) ∧
  (∀ x, x < tileData st.val td ∨ tileData st.val td + 0x1000 ≤ x → u.peek x = s.peek x)

/-- Sources of element k: of TA, of TB (element 0 for a broadcast), and of TC, which has the destination's format. -/
def srcA (s : State) (st : Strip) (i : WinIns) (k : Nat) : FV := s.tileEl st.val (winTA i.word) (winFmt i.word) k
def srcB (s : State) (st : Strip) (i : WinIns) (k : Nat) : FV :=
  s.tileEl st.val (winTB i.word) (winFmt i.word) (if winBc i.word then 0 else k)
def srcC (s : State) (st : Strip) (i : WinIns) (k : Nat) : FV := s.tileEl st.val (winTC i.word) (winFmt2 i.word) k

/-- The dither of element k, where RM is stochastic (R186). -/
def dithOf (s : State) (st : Strip) (th : Thread) (i : WinIns) (k : Nat) : Option Nat :=
  s.winDither st.val th.val (winRm i.word) k

/-- Element formats and a count that fit (R170, R176). -/
def ElemFits (i : WinIns) (n : Nat) : Prop :=
  isElem (winFmt i.word) = true ∧ isElem (winFmt2 i.word) = true ∧ n ≤ fmtCap (winFmt i.word) ∧ n ≤ fmtCap (winFmt2 i.word)

/-- A row whose every element k of TD takes bits(k), for formats that it accepts. -/
def WinElemRow (op : Nat) (row : Strip → Thread → Instr) (ok : Nat → Nat → Bool)
    (bits : State → Strip → Thread → WinIns → Nat → Nat) : Prop :=
  ∀ (s : State) (st : Strip) (th : Thread) (i : WinIns) (rest : List WinIns), s.Sound → WinFront s st th i rest op →
    ElemFits i (winN s st th i) → ok (winFmt i.word) (winFmt2 i.word) = true →
    WinDone s st th i rest (exec (row st th) s) (fun u =>
      TileTakes s u st (winTD i.word) (winFmt2 i.word) (winN s st th i) (winZt i.word) (bits s st th i))

/-- An arithmetic row of R177: the exact result of the operation, rounded once to FMT2. -/
def WinArithRow (op : Nat) (row : Strip → Thread → Instr) (ok : Nat → Nat → Bool) (val : WinIns → FV → FV → FV → Res) : Prop :=
  WinElemRow op row ok (fun s st th i k =>
    (encRes (winFmt2 i.word) (dithOf s st th i k) (winOv i.word) (val i (srcA s st i k) (srcB s st i k) (srcC s st i k))).1)

/-- The bits of 1.0 in a floating format. -/
def oneBits (g : Nat) : Nat :=
  if g = 0 then 0x3F800000 else if g = 1 then 0x3F80 else if g = 2 then 0x3C00 else if g = 3 then 0x38 else 0x3C

/-- A comparison row of R178: all ones for an integer format, 1.0 for a floating one, where p holds; else 0. -/
def WinCmpRow (op : Nat) (row : Strip → Thread → Instr) (p : FV → FV → Bool) : Prop :=
  WinElemRow op row (fun _ _ => true) (fun s st _ i k =>
    if p (srcA s st i k) (srcB s st i k) then
      (if isInt (winFmt2 i.word) then 2 ^ fmtBits (winFmt2 i.word) - 1 else oneBits (winFmt2 i.word))
    else 0)

/-- A bitwise or shift row of R180, on one integer format, of the bits of elements of TA and TB. -/
def WinBitRow (op : Nat) (row : Strip → Thread → Instr) (f : WinIns → Nat → Nat → Nat) : Prop :=
  WinElemRow op row (fun f g => isInt f && f == g) (fun s st _ i k =>
    f i (s.tileBits st.val (winTA i.word) (winFmt i.word) k)
      (s.tileBits st.val (winTB i.word) (winFmt i.word) (if winBc i.word then 0 else k)))

/-- A reduction row of R188: element 0 of TD takes the reduction of all sources. -/
def WinReduceRow (op : Nat) (row : Strip → Thread → Instr) (f : FV → FV → FV) : Prop :=
  ∀ (s : State) (st : Strip) (th : Thread) (i : WinIns) (rest : List WinIns), s.Sound → WinFront s st th i rest op →
    isElem (winFmt i.word) = true → isElem (winFmt2 i.word) = true → winN s st th i ≤ fmtCap (winFmt i.word) →
    WinDone s st th i rest (exec (row st th) s) (fun u =>
      TileTakes s u st (winTD i.word) (winFmt2 i.word) 1 (winZt i.word) (fun _ =>
        (encEl (winFmt2 i.word) (dithOf s st th i 0) (winOv i.word)
          (reduceFV f ((List.range (winN s st th i)).map (fun k => srcA s st i k)))).1))

/-- A segment row of R190: element s × W + j of TD takes the reduction of the sources of segment s at place j. -/
def WinSegRow (op : Nat) (row : Strip → Thread → Instr) (f : FV → FV → FV) : Prop :=
  ∀ (s : State) (st : Strip) (th : Thread) (i : WinIns) (rest : List WinIns), s.Sound → WinFront s st th i rest op →
    let n := winN s st th i
    let w := 2 ^ insBits i.word 0 3
    let nseg := insBits i.word 3 13
    isElem (winFmt i.word) = true → isElem (winFmt2 i.word) = true → n ≤ fmtCap (winFmt i.word) → n % w = 0 →
    1 ≤ nseg → nseg ≤ 4096 → nseg * w ≤ fmtCap (winFmt2 i.word) → winBc i.word = false →
    (n / w ≤ 2048 ∨ winTB i.word ≠ 63) →
    WinDone s st th i rest (exec (row st th) s) (fun u =>
      TileTakes s u st (winTD i.word) (winFmt2 i.word) (nseg * w) (winZt i.word) (fun d =>
        (encEl (winFmt2 i.word) (dithOf s st th i d) (winOv i.word)
          (reduceFV f (((List.range n).filter (fun k =>
            segId s st.val (winTB i.word) (k / w) == ((d / w : Nat) : Int) && k % w == d % w)).map (fun k => srcA s st i k)))).1))

/-- The engine refuses the front instruction with a bit of WIN_ERR (R206, R210, R211): it halts, its queues are empty, and no
byte of memory changes but by the signals' effects. -/
def WinTurnedAway (s t : State) (st : Strip) (bit : Nat) : Prop :=
  t.bit (winErr st.val) bit = true ∧ (t.winnow st.val).halted = true ∧ t.mem = s.mem ∧ JobFaulted t

-- Engine commands (R139, R235).

/-- A command has completed in a state with a property, and its completion signal follows (R235). -/
def CmdDone (c : QCmd) (o : Out) (p : State → Prop) : Prop :=
  ∃ u, o = .next (u.signalCtr c.core.val c.sigCtr c.sigAdd) ∧ p u

/-- A command at the head of an engine's list has an operation code and a header that R139 accepts. -/
def HeadIs (s : State) (e : Nat) (c : QCmd) (op : Nat) : Prop :=
  s.headCmd e = some c ∧ c.op = op ∧ c.badSig = false

/-- The command has left its engine's list. -/
def Taken (s u : State) (e : Nat) : Prop := (u.eng e).cmds = (s.eng e).cmds.tail

/-- A command of an array stands first among those for it, in the list of its strip's Tiller engine, whose plan is fetched
whole; the array is enabled, not halted, no SETMODE of it waits (R143), and the header is one that R139 accepts. -/
def TilFront (s : State) (st : Strip) (a : Arr) (c : QCmd) (op : Nat) : Prop :=
  (∃ k, tilFind a.val (s.eng (engTil st.val)).cmds = some (k, c)) ∧ (s.eng (engTil st.val)).fetchLeft = 0 ∧
  (s.tiller st.val a.val).halted = false ∧ (s.tiller st.val a.val).setmode = none ∧ c.op = op ∧ c.arr = a.val ∧
  c.badSig = false ∧ s.bit (tilCtrl st.val) a.val = true

/-- The commands of a lot's STREAMs, oldest first. -/
def lotCmds (x : TilArr) (l : Nat) : List QCmd := (x.lot l).streams.map (fun j => j.cmd)

/-- The buffers of a lot have been exchanged (R120): what stood in the shadow is active, and the shadow is empty, or being
loaded where the loader works for the lot. -/
def Exchanged (x y : TilArr) (l : Nat) (shadow : Buf) (loadHere : Prop) : Prop :=
  (y.lot l).active = shadow ∧ (loadHere → (y.lot l).shadowState = .loading) ∧ (¬ loadHere → (y.lot l).shadowState = .empty) ∧
  y.recs = x.recs ∧ y.mode = x.mode

/-- The bytes of the runs that a LOAD reads. -/
def ldBytes (s : State) (c : QCmd) : List (List Byte) :=
  (ldGroups c).map (fun g => (g.map (fun r => s.peeks r.1 r.2)).flatten)

/-- One block's contribution to a record: floor(block sum × 2^(EA + EB − 254 − ANCHOR)), or nothing for a zero exponent (R93). -/
def contribution (c : QCmd) (b : Buf) (k : Nat) (blk : Nat × Nat × List Nat) : Int :=
  let ea := (Tab.get b.exps 0 (blk.1 * 128 + k)).toNat
  if ea = 0 ∨ blk.2.1 = 0 then 0
  else shiftSum (blockSum b blk.1 k (fmtBits c.fmt) c.sgn blk.2.2) ((ea : Int) + blk.2.1 - 254 - toSigned 10 (stAnchor c))

-- Glean (chapter 8).

/-- A command stands at the head of a port's list: the port is enabled and not halted, no REFRESH of it is under way, and the
list of every GATHER before it is issued (R302, R308, R333, R339). -/
def GlnFront (s : State) (port : Strip) (c : QCmd) (op : Nat) : Prop :=
  HeadIs s (engGln port.val) c op ∧ s.bit glnPortEn port.val = true ∧ (s.gport port.val).halted = false ∧
  (s.gport port.val).refreshing = none ∧ ∀ g ∈ (s.gport port.val).runs, g.listDone = true

/-- A command's gate lets it start: it names none, or its wait has passed (R302). -/
def GateOpen (s : State) (e : Nat) (c : QCmd) : Prop :=
  c.gateCtr = 63 ∨ (c.gateCtr < 48 ∧ (s.eng e).gate = .passed)

/-- A command waits at its gate: it stands first, its counter holds less than its target, and nobody else waits there. -/
def GateShut (s : State) (e : Nat) (c : QCmd) : Prop :=
  c.gateCtr < 48 ∧ (s.eng e).gate = .idle ∧ (s.ctr c.core.val c.gateCtr).toNat < c.gateTgt ∧
  Tab.get s.waiters [] (ctrKey c.core.val c.gateCtr) = []

/-- It has begun to wait as the oldest waiter of its counter, and has not started. -/
def GateWaiting (t : State) (e : Nat) (c : QCmd) : Prop :=
  t.headCmd e = some c ∧ (t.eng e).gate = .waiting ∧
  Tab.get t.waiters [] (ctrKey c.core.val c.gateCtr) = [⟨.engine e, c.gateTgt⟩]

/-- The node ID that entry j of a GATHER names (R303, R304). -/
def entryId (s : State) (c : QCmd) (j : Nat) : Nat :=
  listId (gaLfmt c) (s.peeks (c.a 8 + listSize (gaLfmt c) * (gaFirst c + j)) (listSize (gaLfmt c)))

/-- What an output row holds of a record (R306): the stored value bytes, or the true values converted to OFMT. -/
def rowImage (d : TableD) (raw : Bool) (ofmt : Nat) (rec : List Byte) : List Byte :=
  if raw then (rec.drop 16).take d.valBytes
  else packElems (fmtBits ofmt) ((List.range d.dim).map (fun i =>
    (encEl ofmt none false ((decEl d.vfmt (natBits (leNat ((rec.drop 16).take d.valBytes)) (fmtBits d.vfmt * i)
      (fmtBits d.vfmt))).scale (-(toSigned 8 (msgNat rec 0 1))))).1))

/-- A GATHER reads sources that its own output cannot touch, all of this module, whose fence is open: its list, tables, ownership
words and home records lie in the DRAM open to jobs, without errors, no directory is placed, nobody counts, and no request
waits. -/
def GatherQuiet (s : State) (port : Strip) (c : QCmd) : Prop :=
  s.Clean ∧ s.fld glnDir 0 48 = 0 ∧ s.bit glnCtrl 0 = true ∧ s.bit glnCtrl 1 = false ∧ s.gln.requests = [] ∧
  s.gln.parked = [] ∧ (s.gport port.val).reads = [] ∧ (s.gport port.val).dead = [] ∧ c.step.toNat ≤ s.fld glnFence 32 32 ∧
  spans inJobDram (s.fld glnTtab 0 48) 1024 = true ∧
  spans inJobDram (c.a 8 + listSize (gaLfmt c) * gaFirst c) (listSize (gaLfmt c) * gaCount c) = true ∧
  ∀ j, j < gaCount c → ∀ t r, s.mapId (gaTables c) (entryId s c j) = some (t, r) →
    (s.ownWord (s.table t) r).1 = s.chip ∧ spans inJobDram ((s.table t).ownAddr r) 8 = true ∧
    spans inJobDram (s.homeAddr (s.table t) r) (s.table t).rowBytes = true

/-- Every port has read the list of every GATHER that it runs. -/
def ListsRead (s : State) : Prop := ∀ (p : Strip) (g : GatherRun), g ∈ (s.gport p.val).runs → g.listDone = true

/-- No REFRESH is under way, and nothing of one is left to write or to send (R325). -/
def NoRefresh (s : State) : Prop :=
  (∀ p : Strip, (s.gport p.val).refreshing = none) ∧ s.gln.jobs.any (fun j => j.mine) = false ∧ s.volsWait = false

/-- Bytes of memory at a. -/
def Holds (t : State) (a : Nat) (bs : List Byte) : Prop := t.peeks a bs.length = bs

/-- A slot that REFRESH of step k names needs no rewriting (R325). -/
def refreshBumps (s : State) (k i : Nat) : Bool :=
  (s.slotSt i).valid && (s.slotSt i).ver.toNat == k &&
  decide (s.peekNat (s.homeAddr (s.table (s.slotSt i).table) (s.slotSt i).row + 4) 4 ≠ k)

/-- The slots that a REFRESH names (R325). -/
def refreshNames (s : State) (i : Nat) : Prop :=
  i ∈ s.gln.slots.map (fun p => p.1) ∧ ((s.slotSt i).inCur = true ∨ (s.slotSt i).inNext = true) ∧
  (i < 16384 ∨ s.inQuota s.chip (i - 16384) = true)

/-- An edit of the next bank by GLN_DIR_CMD, from GLN_DIR_ARG. -/
def editRow (s : State) : Nat := s.fld glnDirArg 0 40
def editTable (s : State) : Nat := s.fld glnDirArg 40 4
def editKind (s : State) : Nat := s.fld glnDirArg 44 2
def editSlot (v : Word) : Nat := v.toNat / 2 ^ 32

-- Drill (chapter 7).

/-- A command at the head of a sampler's list, the sampler not halted and with no command joined (R289, R290). -/
def DrlFront (s : State) (d : Smp) (c : QCmd) (op : Nat) : Prop :=
  HeadIs s (engDrl d.val) c op ∧ (s.sampler d.val).joined = none ∧ (s.sampler d.val).halted = false

/-- The bytes of the block that a sampling descriptor allows (R287, R290). -/
def blockRoom (x : Sdesc) : Nat :=
  128 + 16 * x.capSeeds + 8 * x.capNodes + 2 * x.hops * x.capNodes + 4 * x.capEdges + 640

/-- A SAMPLE that R281, R285, R289 and R290 admit. -/
def SampleFits (s : State) (d : Smp) (c : QCmd) : Prop :=
  let x := sdescOf (s.peeks (c.a 16) 64)
  gangBad s d.val c = false ∧ seqBad s c = false ∧ c.u 40 1 ≠ 0 ∧ c.u 36 4 % 64 = 0 ∧ x.ok = true ∧ blockRoom x ≤ c.u 32 4 ∧
  drlReach (c.a 8) ((c.u 40 1 - 1) * c.u 36 4 + 32) = true ∧ drlReach (c.a 16) 64 = true ∧ c.a 16 % 64 = 0 ∧
  drlReach (c.a 24) (c.u 32 4) = true ∧ c.a 24 % 64 = 0

/-- A batch is the only one queued, nobody waits for its result, and the unit is enabled. -/
def BatchAlone (s : State) (b : Batch) : Prop := s.bit drlCtrl 16 = true ∧ s.drl.ingest = [b] ∧ s.drl.owed = [] ∧ b.slot = none

/-- A batch is next in order and its step may take it (R267, R268). -/
def BatchInOrder (s : State) (b : Batch) : Prop :=
  b.seq.toNat = (s.reg drlIngSeq).toNat + 1 ∧ (∀ x, s.drl.lastApply = some x → x.toNat ≤ b.applyStep.toNat) ∧
  match s.sampledStep with
  | some k => b.applyStep.toNat = k + 1
  | none => b.applyStep = 0

/-- The node record and the graph that a record of a batch names. -/
def batchGraph (s : State) (b : Batch) : Graph := graphOf (s.peeks (graphAddr s b.graph.toNat) 64)
def nodeAddr (s : State) (g : Graph) (v : Nat) : Nat :=
  let w := s.peekNat (g.partTab + 8 * (v / 2 ^ g.shift)) 8
  g.nodeTab + 32 * (natBits w 16 32 * 2 ^ g.shift + v % 2 ^ g.shift)
def nodeOwner (s : State) (g : Graph) (v : Nat) : Nat := s.peekNat (g.partTab + 8 * (v / 2 ^ g.shift)) 8 % 2 ^ 16

-- Sheaf (chapter 9).

/-- A command stands at the head of an engine's list: the engine is enabled, not halted, and no FLUSH, ABSORB or DACC of it is
under way (R353, R378, R349, R351). -/
def ShfFront (s : State) (e : Eng) (c : QCmd) (op : Nat) : Prop :=
  HeadIs s (engShf e.val) c op ∧ s.bit shfCtrl e.val = true ∧ (s.sheaf e.val).halted = false ∧
  (s.sheaf e.val).flush = none ∧ (s.sheaf e.val).absorb = none ∧ (s.sheaf e.val).absorbStuck = false ∧
  GateOpen s (engShf e.val) c

/-- Every engine's bank is open for a step and lies in reach (R351, R404). -/
def BanksOpen (s : State) (step : BitVec 32) : Prop :=
  ∀ m, m < 48 → (s.sheaf m).openFor step = true ∧ bankReach s m = true

/-- The row that the one list entry of an ABSORB names (R298, R355). -/
def absorbRowOf (s : State) (c : QCmd) : Option (Nat × Nat) :=
  s.mapId (abTables c) (listId (abLfmt c) (s.peeks (abEntry c 0) (listSize (abLfmt c))))

/-- A 64-bit two's-complement sum, wrapped (R343). -/
def wrap64 (v : Int) : Int := toSigned 64 (ofSigned 64 v)

/-- The contributions of a row of n elements at an address (R342). -/
def contribsAt (s : State) (fmt : Nat) (gscale g : Int) (n a : Nat) : List (Int × Bool × Nat) :=
  contribRow fmt gscale g n (s.peeks a (n * fmtBits fmt / 8))

/-- Element i of a dense buffer before an addition of a step: 0 where the buffer held another step (R372). -/
def denseOld (s : State) (a step i : Nat) : Int := if (denseOf (s.peeks a 64)).step = step then s.sumAt (a + 64 + 8 * i) else 0

/-- Merge entry a holds, for each element, its old sum and what was added, and counts one row more (R343). -/
def EntryAdded (s u : State) (a : Nat) (cs : List Int) (mag cnt : Nat) : Prop :=
  (∀ i, i < cs.length → u.sumAt (a + 64 + 8 * i) = wrap64 (s.sumAt (a + 64 + 8 * i) + cs.getD i 0)) ∧
  u.peekNat (a + 12) 4 = min (s.peekNat (a + 12) 4 + cnt) (2 ^ 32 - 1) ∧
  u.peekNat (a + 16) 8 = min (s.peekNat (a + 16) 8 + mag) (2 ^ 64 - 1)

/-- Merge entry a is a new one of a row and step (R348, R350). -/
def EntryNew (s u : State) (a t r step : Nat) (cs : List Int) (mag cnt : Nat) : Prop :=
  (∀ i, i < cs.length → u.sumAt (a + 64 + 8 * i) = wrap64 (cs.getD i 0)) ∧
  entryState u a = (if (s.ownWord (s.table t) r).1 = s.chip then 2 else 1) ∧
  u.peekNat a 8 % 2 ^ 44 = r + t * 2 ^ 40 ∧ u.peekNat (a + 8) 4 = step ∧
  u.peekNat (a + 12) 4 = min cnt (2 ^ 32 - 1) ∧ u.peekNat (a + 16) 8 = min mag (2 ^ 64 - 1)

/-- The addresses of bank b of an engine lie in [lo, hi). -/
def bankLo (s : State) (e b : Nat) : Nat := entryAddr s e b 0
def bankHi (s : State) (e b : Nat) : Nat := entryAddr s e b (2 ^ bankLog2 s e)

/-- The OWNED entries of a step in its bank. -/
def ownedOf (s : State) (e step : Nat) : List Nat :=
  (s.bankEntries e (step % 2) 2).filter (fun a => decide (s.peekNat (a + 8) 4 = step))

/-- The record that APPLY writes for an entry (R368, R369). -/
def entryHome (s : State) (a : Nat) : Nat := s.homeAddr (s.table (s.entryTable a)) (s.entryRow a)
def appliedRecord (s : State) (a step : Nat) : List Byte :=
  let t := s.entryTable a
  let td := s.table t
  (updatedRecord s td (s.optDesc t) (f32 (s.fld shfCf 0 32)) (s.entryRow a) step
    ((List.range td.dim).map (fun i => s.sumAt (a + 64 + 8 * i))) (s.peeks (entryHome s a) td.recBytes)).1

/-- A LEDGER command stands at the head with a sub-operation, and nobody waits. -/
def LedFront (s : State) (e : Eng) (c : QCmd) (sub : Nat) : Prop :=
  ShfFront s e c 8 ∧ c.b 9 0 2 = sub ∧ s.shf.waits = []

/-- Ledger entry i holds x; every other one is as before. -/
def LedgerIs (s u : State) (i : Nat) (x : Ledger) : Prop := u.ledger i = x ∧ ∀ j, j ≠ i → u.ledger j = s.ledger j

-- Harrow and the reduction engine (chapters 12 and 13).

/-- A channel runs a descriptor of an operation whose data has not moved, with no remote access outstanding. -/
def HwRunning (s : State) (ch : Chan) (r : HrwRun) (op : Nat) : Prop :=
  (s.chan ch.val).running = some r ∧ r.cmd.op = op ∧ r.moved = false ∧ r.acc = none

/-- Its data has moved: n bytes more, and the result. -/
def HwMovedBy (t : State) (ch : Chan) (r : HrwRun) (n : Nat) (result : BitVec 32) : Prop :=
  ∃ x, (t.chan ch.val).running = some x ∧ x.cmd = r.cmd ∧ x.moved = true ∧ x.doneBytes = r.doneBytes + n ∧ x.result = result

/-- The local address of byte o of a stream of segments (R453, R454). -/
def streamAt (l : List MemRun) (o : Nat) : Nat := ((segAt l o).map (fun x => x.2.1)).getD 0

/-- A stream of n bytes that lies on this module whole. -/
def LocalStream (s : State) (l : List MemRun) (n : Nat) : Prop := (∀ m ∈ l, m.chip = s.chip) ∧ segSum l = n

/-- No two bytes of a destination stream share an address, and none is of a tile window's gap (R405). -/
def PlainDest (l : List MemRun) (n : Nat) : Prop :=
  (∀ o p, o < n → p < n → streamAt l o = streamAt l p → o = p) ∧ ∀ o, o < n → tileGap (streamAt l o) = false

/-- Pieces of a local operation: piece u of the source is read at `src u`, and what f makes of its n bytes stands at `dst u`. -/
def PiecesMoved (s t : State) (count n : Nat) (src dst : Nat → Nat) (f : List Byte → List Byte) : Prop :=
  ∀ u, u < count → t.peeks (dst u) n = f (s.peeks (src u) n)

/-- A local descriptor with a sound geometry, whose extents do not meet and whose destination keeps every byte. -/
def HwLocal (s : State) (c : QCmd) : Prop :=
  s.Sound ∧ s.Clean ∧ hwGeom c = true ∧
  extentsMeet (hwSrc c) (hwExtents c).1 (hwDst c) (hwExtents c).2 = false ∧
  ∀ x, hwDst c ≤ x → x < hwDst c + (hwExtents c).2 → tileGap x = false

/-- Memory outside a range is as before. -/
def KeepsOutside (s t : State) (a n : Nat) : Prop := ∀ x, x < a ∨ a + n ≤ x → t.peek x = s.peek x

/-- Rows of a square of 32, or of a vector (R456). -/
def hwRows (c : QCmd) : Nat := if c.b 32 4 1 = 1 then 32 else 1

/-- A reduction command stands first, its gate open, and its staging bank is free (R509, R511). -/
def RedFront (s : State) (c : QCmd) (op : Nat) : Prop :=
  HeadIs s engRed c op ∧ s.red.halted = false ∧ s.red.running = none ∧ GateOpen s engRed c

/-- A staging bank of a command holds no contribution yet and no chunk waits. -/
def RedClean (s : State) (c : QCmd) : Prop :=
  s.Sound ∧ s.Clean ∧ s.red.queue = [] ∧ Tab.look s.red.banks (redKey c) = none ∧
  spans inDram (ridAddr s (rdRid c)) 16 = true ∧
  spans inDram (ridStage s (rdRid c)) (2 * (64 + 8 * ridElems s (rdRid c))) = true ∧
  (ridAddr s (rdRid c) + 16 ≤ ridStage s (rdRid c) ∨
    ridStage s (rdRid c) + 2 * (64 + 8 * ridElems s (rdRid c)) ≤ ridAddr s (rdRid c))

/-- A RID whose table entry and staging banks lie in DRAM, apart from one another. -/
def RidInDram (s : State) (rid : Nat) : Prop :=
  rid ≤ 255 ∧ 1 ≤ ridElems s rid ∧ ridElems s rid ≤ 65536 ∧ spans inDram (ridAddr s rid) 16 = true ∧
  spans inDram (ridStage s rid) (2 * (64 + 8 * ridElems s rid)) = true ∧
  (ridAddr s rid + 16 ≤ ridStage s rid ∨ ridStage s rid + 2 * (64 + 8 * ridElems s rid) ≤ ridAddr s rid)

/-- Two ranges of addresses have no byte in common. -/
def Apart (a n b m : Nat) : Prop := a + n ≤ b ∨ b + m ≤ a

/-- The sums that a module contributes: those of its buffer where it holds the step, else 0 (R511). -/
def redSum (s : State) (c : QCmd) (i : Nat) : Int := denseOld s (c.a 8) c.step.toNat i

-- Septax (chapter 13).

/-- Only ports and counters differ. -/
def OnlyLinks (s t : State) : Prop := { t with ports := s.ports, csr := s.csr } = s

/-- A flit with a good CRC that carries no NAK, on a port that is UP and takes flits. -/
def FlitIn (s : State) (p : Port) (f : Flit) : Prop :=
  (s.port p.val).st = .up ∧ f.crc = f.crcOf.toNat ∧ f.nak = false ∧ s.closed 3 p.val = false ∧ s.closed 6 0 = false

/-- Buffers of a flit's class that are taken once the acknowledgement that it carries has had its effect (R489, R492). -/
def bufsTaken (s : State) (p : Port) (f : Flit) : Nat := (s.setPort p.val ((s.port p.val).release f.ack)).buffered p.val f.cls

/-- It is the next in sequence, and a buffer of its class is free (R489, R493). -/
def FlitNext (s : State) (p : Port) (f : Flit) : Prop :=
  f.isIdle = false ∧ f.seq = ((s.port p.val).rxSeq + 1).toNat ∧ bufsTaken s p f < classBufs f.cls

/-- Port p is in a state; every other port's state is as before. -/
def PortIs (s t : State) (p : Port) (st : PortState) : Prop :=
  (t.port p.val).st = st ∧ ∀ q : Port, q ≠ p → (t.port q.val).st = (s.port q.val).st

/-- A message of a class and type for this module has arrived whole: its payload, and the state that the link leaves. -/
def Got1 (s : State) (p : Port) (cls typ : Nat) (fs : List Flit) (t : State) (bs : List Byte) : Prop :=
  ∃ g, s.rx p.val cls typ fs = .msg t g bs

/-- A link-local message has arrived (R487). -/
def GotLocal (s : State) (p : Port) (typ : Nat) (f : Flit) (t : State) (bs : List Byte) : Prop :=
  ∃ g, s.rx p.val 0 typ [f] true = .msg t g bs

-- Messages (chapter 13).

/-- The MEMBER that a message carries (R519). -/
def memberOf (bs : List Byte) : MemberMsg :=
  { kind := BitVec.ofNat 8 (msgNat bs 0 1), chip := BitVec.ofNat 16 (msgNat bs 2 2), mseq := BitVec.ofNat 32 (msgNat bs 4 4),
    tick := BitVec.ofNat 64 (msgNat bs 8 8), digest := BitVec.ofNat 32 (msgNat bs 16 4) }

/-- A marker that R52 admits: HOPS at most 10, a KIND that exists, from the elected master. -/
def MarkerGood (t : State) (bs : List Byte) : Prop :=
  msgNat bs 24 4 / 2 ^ 24 % 16 ≤ 10 ∧ msgNat bs 24 4 / 2 ^ 20 % 16 ≤ 1 ∧ t.master = some (msgNat bs 28 2)

/-- The phase error is within 50 ns, or beyond 1 µs (R53). -/
def phaseNear (ps : BitVec 32) : Prop := -50000 ≤ ps.toInt ∧ ps.toInt ≤ 50000
def phaseFar (ps : BitVec 32) : Prop := ps.toInt < -1000000 ∨ 1000000 < ps.toInt

/-- A master counts a member's heartbeat of the furrow before this one as missing now (R518). -/
def BeatMissing (s : State) (c : Nat) : Prop :=
  s.isMaster = true ∧ c ≠ s.chip ∧ s.live c = true ∧ s.furCount ≠ 0 ∧ s.pow.wakeGrace = false ∧ s.linksDark = false ∧
  (Tab.get s.mems.beats {} c).arrived (s.furCount.toNat - 1) = false ∧ (Tab.get s.mems.beats {} c).judged ≠ s.furCount

/-- A chip is declared failed (R518, R521, R522): it is live no more, and a FAIL of it is the last change scheduled, for a tick
to come. -/
def DeclaredFailed (s t : State) (c : Nat) : Prop :=
  t.live c = false ∧ ∃ m, t.mems.scheduled.getLast? = some m ∧ m.kind = 0 ∧ m.chip.toNat = c ∧
    m.mseq = s.lastMseq + 1 ∧ s.furCount.toNat < m.tick.toNat ∧ t.stkEpochAt = m.tick

/-- A row that waits on a port of this module is not halted, and no list of the port waits for room. -/
def RowAwaited (t : State) (port : Strip) (i : Nat) (r : RowRead) : Prop :=
  Tab.look (t.gport port.val).reads i = some r ∧ (t.gport port.val).halted = false ∧
  (∀ g ∈ (t.gport port.val).runs, g.listDone = true) ∧ (t.table r.table).sound = true ∧ (r.raw = true ∨ r.ofmt ≤ 2) ∧
  (r.raw = false ∨ r.scaleAddr = 0) ∧ sramReach r.outAddr (outBytes (t.table r.table) r.raw r.ofmt) = true

/-- A channel awaits the answer to an access with a TAG. -/
def AnswerAwaited (t : State) (tag : Nat) (r : HrwRun) (a : RemAcc) (write : Bool) : Prop :=
  (t.chan (tag % 256)).running = some r ∧ r.acc = some a ∧ a.tag.toNat = tag ∧ a.write = write ∧ a.backoff = false

/-- The request that a GREQ entry makes (R312). -/
def greqOf (bs : List Byte) : Parked :=
  ⟨msgNat bs 5 1 % 16, msgNat bs 0 5, BitVec.ofNat 32 (msgNat bs 8 4),
    .remote (BitVec.ofNat 16 (msgNat bs 6 2)) (BitVec.ofNat 16 (msgNat bs 12 2))⟩

/-- A response to another module (R313). -/
def respMsg (chip tag status source : Nat) (bs : List Byte) : List Flit :=
  mkMsg 3 0x30 chip false (leBytes 2 tag ++ leBytes 1 status ++ leBytes 1 source ++ leBytes 4 bs.length ++ leBytes 8 0 ++ bs)

/-- The acknowledgement of a gradient message (R359). -/
def ackMsg (chip eng status : Nat) : List Flit :=
  mkMsg 3 0x33 chip false (leBytes 2 chip ++ leBytes 1 eng ++ leBytes 1 status ++ leBytes 4 1 ++ leBytes 8 0)

/-- A volunteer message that has arrived, of a kind, from a sender within its quota (R328, R329). -/
def VolGot (s : State) (p : Port) (fs : List Flit) (kind : Nat) (t : State) (bs : List Byte) : Prop :=
  Got1 s p 3 0x34 fs t bs ∧ msgNat bs 0 1 % 4 = kind ∧ t.inQuota (msgNat bs 2 2) (msgNat bs 4 4) = true

/-- A write of a slot is queued last, and the slot is HELD (R326). -/
def SlotQueued (t u : State) (slot : Nat) (image : Option (List Byte)) (ver : Nat) : Prop :=
  (u.slotSt (16384 + slot)).held = true ∧ ∃ j, u.gln.jobs = t.gln.jobs ++ [j] ∧ j.slot = 16384 + slot ∧ j.image = image ∧
    j.ver = BitVec.ofNat 32 ver ∧ j.mine = false

-- Recovery (chapter 16).

/-- A RECOVERY message of a KIND has arrived whole (R616). -/
def RecGot (s : State) (p : Port) (f : Flit) (kind : Nat) (t : State) (bs : List Byte) : Prop :=
  f.pay 0 1 = kind ∧ Got1 s p 0 0x07 [f] t bs

/-- The HALT that a message carries (R616). -/
def haltOf (bs : List Byte) : Halt :=
  { tick := BitVec.ofNat 64 (msgNat bs 8 8), rseq := BitVec.ofNat 32 (msgNat bs 4 4), k0 := BitVec.ofNat 32 (msgNat bs 16 4),
    host := msgNat bs 22 1 = 1, hostStep := BitVec.ofNat 32 (msgNat bs 24 4), stop := msgNat bs 28 4 = 1 }

/-- What the module knows of recovery once a HALT for a tick to come is received or issued (R606, R617, R624). -/
def HaltTaken (t u : State) (h : Halt) : Prop :=
  u.rcv = { t.rcv with rseq := h.rseq, covered := true, haltAt := some h, resumeAt := none, readyChips := [], pendingLead := false,
                       retries := if t.rcv.lastK0 = some h.k0 then BitVec.ofNat 8 (min 255 (t.rcv.retries.toNat + 1)) else t.rcv.retries,
                       lastK0 := some h.k0 }

/-- The leader has started a recovery (R617, R619, R624): RSEQ grows by 1; k0 is the sealed step, or SYS_GRN_HOST when no step
is sealed or a role lacks a source; HALT goes to group 0; it says STOP once RETRIES exceeds MAX_RETRY. -/
def HaltLed (t u : State) (chip tick : Nat) (host : Prop) : Prop :=
  ∃ h : Halt, HaltTaken t u h ∧ h.rseq = t.rcv.rseq + 1 ∧ h.tick.toNat = tick ∧
    (h.host = true ↔ host ∨ t.fld sysGrnStatus 0 32 = 0xFFFFFFFF ∨ ∃ r, r < t.job.roles.length ∧ t.hasSource r = false) ∧
    h.k0.toNat = (if h.host then t.fld sysGrnHost 0 32 else t.fld sysGrnStatus 0 32) ∧
    h.hostStep.toNat = t.fld sysGrnHost 0 32 ∧ (h.stop = true ↔ t.fld sysRecCtrl 8 8 < (t.retriesFor h.k0).toNat) ∧
    { u with rcv := t.rcv } = t.sendGroup (mkMsg 0 0x07 0 true (recBytes 1 1 chip h.rseq.toNat tick h.k0.toNat t.chip
      h.host.toNat (h.hostStep.toNat + h.stop.toNat * 2 ^ 32)))

/-- A transfer into a generation is the first of a role that a chip pushes, or the first fill. -/
def PushFrom (t : State) (chip : Nat) (x : BulkRx) : Prop :=
  t.rcv.rx.find? (fun x => !x.fill && t.roleOf chip == some x.role.toNat) = some x
def FillFirst (t : State) (chip : Nat) (x : BulkRx) : Prop :=
  t.rcv.rx.find? (fun x => !x.fill && t.roleOf chip == some x.role.toNat) = none ∧
  t.rcv.rx.find? (fun x => x.fill) = some x

/-- Every role with a holder has reported its push. -/
def AllPushed (t : State) (r : Nat) : Prop :=
  ∀ q, q < t.job.roles.length → t.holder q = 0xFFFF ∨ q = r ∨ q ∈ t.rcv.pushedRoles

/-- No engine of strips, the Drill block, the hedge dies or the link complex has a plan or command. -/
def EnginesEmpty (u : State) : Prop :=
  ∀ i, i < 321 → (u.eng i).queue = [] ∧ (u.eng i).running = none ∧ (u.eng i).cmds = [] ∧ (u.eng i).inFlight = 0

-- The Fieldgate protocol (chapters 14 and 15).

/-- A session's front request is of a TYPE and OP, and has not begun (R545, R546). -/
def FgtFront (s : State) (sl : Slot) (r : Req) (typ op : Nat) : Prop :=
  (s.session sl.val).isOpen = true ∧ (s.session sl.val).reqs.head? = some r ∧ r.bad = false ∧
  (s.session sl.val).holding = false ∧ r.type.toNat = typ ∧ r.op.toNat = op

/-- It is also not turned away (R543, R548, R562, R595). -/
def FgtMay (s : State) (sl : Slot) (r : Req) (typ op : Nat) : Prop :=
  FgtFront s sl r typ op ∧ s.turnedAway sl.val typ op = none

/-- The command answers with a status and a body, and its other effect is v. -/
def Answers (i : Instr) (s v : State) (sl : Slot) (r : Req) (status : Nat) (body : List Byte) : Prop :=
  exec i s = .next (v.reply sl.val r status body)

/-- The command that runs a session's front request of a TYPE and OP (R546). -/
def FgtRow (i : Instr) (sl : Slot) (ns typ op : Nat) : Prop :=
  (i, typ, op) ∈ [(Instr.sessionClose sl, 1, 2), (.sessionPing sl, 1, 3), (.loadJobBegin sl, 2, 0), (.loadJobPart sl, 2, 1),
    (.loadJobCommit sl, 2, 2), (.loadJobUnload sl, 2, 3), (.feedData sl, 3, 0), (.feedSeeds sl, 3, 1), (.feedEdges sl, 3, 2),
    (.start sl ns, 4, 0), (.pauseAt sl, 5, 0), (.resume sl ns, 5, 1), (.fetch sl, 6, 0), (.release sl, 7, 0),
    (.exportDelta sl, 8, 0), (.snapshotInfo sl, 9, 0), (.snapshotRead sl, 9, 1), (.snapshotWrite sl, 9, 2), (.csrRead sl, 10, 0),
    (.csrWrite sl ns, 11, 0), (.imageStageWrite sl, 12, 0), (.imageStageCommit sl, 12, 1), (.fallow sl ns, 13, 0),
    (.wake sl, 14, 0), (.telemetrySubscribe sl, 15, 0), (.dumpFetch sl, 16, 0), (.attest sl, 17, 0), (.resetMessage sl, 18, 0)]

/-- What each job state admits besides the types that every state admits (R548); SNAPSHOT WRITE also while recovery waits for
the host's copies (R560). -/
def JobTable (s : State) (sl typ op : Nat) : Prop :=
  match s.job.st with
  | .none => (typ, op) ∈ [(2, 0), (13, 0)]
  | .loading => (typ, op) ∈ [(2, 1), (2, 2), (2, 3)] ∧ s.job.loadSlot.map (fun x => x.val) = some sl
  | .loaded => (typ, op) ∈ [(2, 3), (3, 0), (3, 1), (3, 2), (4, 0), (8, 0), (9, 0), (9, 1), (9, 2)]
  | .running => (typ, op) ∈ [(3, 0), (3, 1), (3, 2), (5, 0), (6, 0), (7, 0), (9, 0), (9, 1)] ∨ (typ, op) = (9, 2) ∧ s.rcv.st = .waitHost
  | .paused => (typ, op) ∈ [(2, 3), (3, 0), (3, 1), (3, 2), (5, 1), (6, 0), (7, 0), (8, 0), (9, 0), (9, 1), (9, 2), (13, 0)]

/-- The host port admits a datagram to an open session: it fits, its slot is open, epoch and TAG hold, and its source is the
one that opened the session (R533, R534, R536). -/
def DgOf (s : State) (sl : Slot) (d : Datagram) : Prop :=
  s.pins.hostUp = true ∧ dgFits d = true ∧ dgField d 2 1 = sl.val ∧ (s.session sl.val).isOpen = true ∧
  dgField d 4 4 = (s.session sl.val).epoch.toNat ∧ dgGood d (s.session sl.val).key = true ∧
  d.ethSrc = (s.session sl.val).ethSrc ∧ d.ipSrc = (s.session sl.val).ipSrc ∧ d.udpSrc = (s.session sl.val).udpSrc

/-- An OPEN that R541 admits, under the key of an entry of the image. -/
def OpenGood (s : State) (d : Datagram) (keyId : BitVec 16) (mgmt : Bool) : Prop :=
  s.pins.hostUp = true ∧ dgFits d = true ∧ s.stile.image.keys.find? (fun k => k.1 == keyId) = some (keyId, mgmt) ∧
  keyId.toNat = msgNat d.payload 16 2 ∧ msgNat d.payload 18 1 ≤ mgmt.toNat ∧
  dgGood d (hostKey s.stile.image.rootSecret keyId) = true ∧ dgFlag d 0 = false ∧ dgFlag d 1 = true ∧ dgFlag d 2 = true ∧
  dgField d 4 4 = 0 ∧ dgField d 8 8 = 0 ∧ d.payload.length = 48 ∧ msgNat d.payload 0 1 = 1 ∧ msgNat d.payload 1 1 = 0 ∧
  msgNat d.payload 8 4 = 32

/-- A closed session: its slot is free and keeps only its EPOCH (R541, R542). -/
def Closed (s u : State) (sl : Slot) : Prop := u.session sl.val = { epoch := (s.session sl.val).epoch }

/-- A load that a session has under way is abandoned with it (R549). -/
def LoadDropped (s u : State) (sl : Slot) : Prop :=
  (s.job.st = .loading → s.job.loadSlot = some sl → u.job.st = .none) ∧
  (s.job.st ≠ .loading ∨ s.job.loadSlot ≠ some sl → u.job.st = s.job.st)

-- Jobs and results (chapters 14 and 16).

/-- A run of memory now holds bytes, and every byte outside it is as before. -/
def HoldsNow (s v : State) (a : Nat) (bs : List Byte) : Prop := v.peeks a bs.length = bs ∧ KeepsOutside s v a bs.length

/-- The fields of a request of a whole result or part of it, and the entry that describes it (R553, R555). -/
def resultOf (s : State) (r : Req) : Nat × Nat × Nat × Nat := s.resultEntry (r.u 0 2)

/-- The condition and reply of each row of R555, in order, for a result, a step and an extent. -/
def NoSuch (s : State) (r : Req) : Prop := s.job.nres ≤ r.u 0 2 ∨ r.u 4 4 % (resultOf s r).2.2.2 ≠ 0
def slotFor (s : State) (r : Req) : ResSlot := s.resSlot (r.u 0 2) (r.u 4 4 % (resultOf s r).2.2.1)
def IsHeld (s : State) (r : Req) : Prop := (slotFor s r).st = .held ∧ (slotFor s r).step.toNat = r.u 4 4
def NotYet (s : State) (r : Req) : Prop :=
  ((slotFor s r).st = .filling ∧ (slotFor s r).step.toNat = r.u 4 4) ∨ s.notYet (r.u 4 4) = true

/-- EXPECT and EXACT (R555). -/
def ExpectIs (s : State) (k e exact : Nat) : Prop :=
  (∀ x, Tab.look s.fur.ends k = some x → e = x.toNat + s.job.phase ∧ exact = 1) ∧
  (Tab.look s.fur.ends k = none → exact = 0 ∧
    (∀ x, Tab.look s.fur.starts k = some x → e = max (s.furCount.toNat + 1) (x.toNat + 4) + s.job.phase) ∧
    (Tab.look s.fur.starts k = none → e = s.furCount.toNat + 5 + s.job.phase))

/-- A record of a table by its index, and the indices that a scan exports: this module's, of a step in the range (R559). -/
def recordOf (s : State) (d : TableD) (i : Nat) : List Byte := s.peeks (d.base + d.stride * i) d.rowBytes
def exported (s : State) (r : Req) : List Nat :=
  let d := s.table (r.u 0 1)
  (List.range' (r.u 16 8) (s.homeEnd d - r.u 16 8)).filter (fun i => (s.rangeAt d (i / 2 ^ d.shift)).isSome &&
    decide (msgNat (recordOf s d i) 4 4 ≠ 0xFFFFFFFF ∧ r.u 4 4 ≤ msgNat (recordOf s d i) 4 4 ∧ msgNat (recordOf s d i) 4 4 ≤ r.u 8 4))

/-- A record index as the host knows the row (R299, R559). -/
def rowOf (s : State) (d : TableD) (i : Nat) : Nat := (s.rangeAt d (i / 2 ^ d.shift)).getD 0 * 2 ^ d.shift + i % 2 ^ d.shift

end Sys2Proof.Machine
end

