-- ==== Sys2Proof/Certificates/Slice0/Obligations.lean ====
section
/-!
DEFINITION. The statements for the provers, family by family.
-/

open Sys2Proof Sys2Proof.Machine

-- The machine as a whole.

/-- A step takes the command at the front of the queue and runs it on the state with the queue's rest; with no command
waiting the block idles, which is the model's choice (log entry 11). -/
def Obligations.StepRunsTheFrontCommand : Prop :=
  (∀ (c : Instr) (q : List Instr) (s : State), step { s with pending := c :: q } = exec c { s with pending := q }) ∧
  ∀ s : State, s.pending = [] → step s = .next s

/-- Every command answers a next state, leaves the commands that wait behind it alone, and draws free values in order,
never one twice. -/
def Obligations.EveryCommandCompletes : Prop :=
  ∀ (c : Instr) (s : State), ∃ t, exec c s = .next t ∧ t.pending = s.pending ∧ s.draws ≤ t.draws

/-- The invariant of memory: from every state whose memory is in canonical form, every step keeps it so. -/
def Obligations.EveryStepKeepsMemoryCanonical : Prop := ∀ s t : State, s.Sound → step s = .next t → t.Sound

/-- Fuses only blow: no step turns a blown bit of the fuse block back (R577, R598). -/
def Obligations.FusesOnlyBlow : Prop :=
  ∀ s t : State, step s = .next t → s.stile.fuses &&& t.stile.fuses = s.stile.fuses

/-- While WP_N is low, no command but a change of WP_N itself alters the seed flash, the boot records or the index log (R25,
R594, R597), and no command but that one changes the level of WP_N. -/
def Obligations.WriteProtectHoldsTheFlash : Prop :=
  ∀ (c : Instr) (s t : State), (∀ h, c ≠ .wpNChange h) → exec c s = .next t →
    t.pins.wpN = s.pins.wpN ∧
    (s.pins.wpN = false → t.stile.flash = s.stile.flash ∧ t.stile.records = s.stile.records ∧
      t.stile.indexBlocks = s.stile.indexBlocks)

/-- The overvoltage and thermal-trip latches stay set until the fall of P48V below 41.0 V: no other command clears them,
whether RESET_N, a Fieldgate message or a reset of any kind (R20, R30). -/
def Obligations.LatchesHoldUntilPowerDown : Prop :=
  ∀ (c : Instr) (s t : State), c ≠ .powerDown → exec c s = .next t →
    (s.pins.ovLatch = true → t.pins.ovLatch = true) ∧ (s.pins.tripLatch = true → t.pins.tripLatch = true)

/-- Right after reset: memory is in canonical form and reads 0, the counter is 0, the furrow unit is disabled with SLACK 2,
STEP_GAP 2 and GUARD 10, no job is loaded, every session is closed, threads are idle, counters are 0, PART is 0x0048 and
STEPPING 0x4101 in the fuses, and no command waits. -/
def Obligations.ResetState : Prop :=
  State.reset.Sound ∧ (∀ a, State.reset.peek a = 0) ∧ State.reset.furCount = 0 ∧ State.reset.bit furCtrl 0 = false ∧
  State.reset.bit furCtrl 1 = true ∧ State.reset.fld furCtrl 2 3 = 2 ∧ State.reset.fld furCtrl 8 8 = 2 ∧
  State.reset.fld furCtrl 16 8 = 10 ∧ State.reset.job.st = .none ∧ (∀ i, (State.reset.session i).isOpen = false) ∧
  (∀ i j, (State.reset.thread i j).st = .idle) ∧ (∀ st c, State.reset.ctr st c = 0) ∧
  (∀ p, (State.reset.port p).st = .off) ∧ (∀ o, State.reset.reg o = regReset o) ∧
  fuseField State.reset.stile.fuses 64 16 = 0x0048 ∧ fuseField State.reset.stile.fuses 80 16 = 0x4101 ∧
  State.reset.pending = []

-- Power, pins and reset (chapters 1 and 15).

/-- R19, R20, R27, R30: what the rails and the two latches do. Power-on starts the supervisory rail alone; rails in
regulation raise PWR_GOOD with the power-on reset under way, and change nothing else; power-down clears both latches;
overvoltage and a junction at 110 °C or more shut the rails down and latch, and a set latch keeps PWR_GOOD low. -/
def Obligations.PowerCommands : Prop :=
  ∀ s : State,
    (s.pins.supervisory = false → ∃ t, exec .powerOn s = .next t ∧ t.pins.supervisory = true ∧ RailsAreDown t) ∧
    (s.pins.supervisory = true → s.pins.pwrGood = false → s.pins.ovLatch = false → s.pins.tripLatch = false →
      ∃ t, exec .railsInRegulation s = .next t ∧ t.pins.pwrGood = true ∧ t.pins.causes = [.powerOn] ∧
        { t with pins := s.pins } = s) ∧
    (s.pins.ovLatch = true ∨ s.pins.tripLatch = true → exec .railsInRegulation s = .next s) ∧
    (s.pins.supervisory = true → ∃ t, exec .powerDown s = .next t ∧ RailsAreDown t ∧ t.pins.supervisory = false ∧
      t.pins.ovLatch = false ∧ t.pins.tripLatch = false ∧ t.stile.fuses = s.stile.fuses ∧ t.stile.flash = s.stile.flash) ∧
    (s.pins.supervisory = true → ∃ t, exec .overvoltageShutdown s = .next t ∧ RailsAreDown t ∧ t.pins.ovLatch = true ∧
      t.pins.tripLatch = s.pins.tripLatch ∧ t.pins.supervisory = true) ∧
    (∀ (n : Fin 128) (c : BitVec 8), s.pins.supervisory = true → 110 ≤ c.toNat →
      ∃ t, exec (.thermalTrip n c) s = .next t ∧ RailsAreDown t ∧ t.thermTripLow = true ∧ t.ledB = .steady ∧
        t.pins.ovLatch = s.pins.ovLatch ∧ t.pins.supervisory = true)

/-- R28, R571, R572: the edges of RESET_N and WP_N and the two resets that a long pulse gives. A pulse while PWR_GOOD is low
changes the pin's level alone. R570, R572, R573, R584, R585, R605: the warm resets that the module gives itself. The
watchdog expires from step 10 on where WDOG_EN is 1 and the module is not in fallow; a fatal fault writes a dump first, so
only DRAM below the dump region is said to stay, but for the candidate table of R334; a boot failure ends with CAUSE 6 alone. R585, R586, R587, R588, R602: the
watchdog's key is kept by no register; RST_CTRL ignores a WDOG_MS out of range; a GO of a block that exists, under its
condition and with no reset under way, makes the block busy; the reset is applied once the block is idle, or at IDLE_US with
FORCED set and counted; BUSY then clears. -/
def Obligations.ResetsAndTheirRegisters : Prop :=
  (∀ s : State,
     (s.pins.supervisory = true → s.pins.resetN = true → s.pins.pwrGood = true → exec .resetNFall s =
       .next { s with pins := { s.pins with resetN := false, pulse := .measuring } }) ∧
     (s.pins.supervisory = true → s.pins.resetN = true → s.pins.pwrGood = false → ∃ t, exec .resetNFall s = .next t ∧
       t.pins.resetN = false ∧ exec .warmResetEntry t = .next t ∧ exec .resetNCold t = .next t ∧
       { t with pins := s.pins } = s) ∧
     (s.pins.pulse = .measuring → ∃ t, exec .warmResetEntry s = .next t ∧ WarmResetLeaves s t ∧ t.pins.pulse = .warm ∧
       t.pins.causes = s.pins.causes ++ [.warmPin]) ∧
     (s.pins.pulse = .warm → ∃ t, exec .resetNCold s = .next t ∧ ColdResetLeaves s t ∧ t.pins.pulse = .cold ∧
       t.pins.causes = s.pins.causes ++ [.coldPin]) ∧
     (s.pins.supervisory = true → s.pins.resetN = false → exec .resetNRise s =
       .next { s with pins := { s.pins with resetN := true, pulse := .none } }) ∧
     (∀ h, s.pins.supervisory = true → h = true ∨ s.stile.staging = none →
       exec (.wpNChange h) s = .next { s with pins := { s.pins with wpN := h } }) ∧
     (∀ g, s.pins.supervisory = true → s.stile.staging = some g → ∃ t n, exec (.wpNChange false) s = .next t ∧
       t.pins.wpN = false ∧ n ≤ g.left.length ∧ t.stile.flash = program (g.left.take n) g.at_ s.stile.flash ∧
       t.stile.staging = some { g with at_ := g.at_ + n, left := g.left.drop n, cut := true })) ∧
  (∀ s : State,
     (s.watchdogRuns = true → ∃ t, exec .watchdogExpiry s = .next t ∧ WarmResetLeaves s t ∧
       t.pins.causes = s.pins.causes ++ [.watchdog]) ∧
     (∀ c, s.ready = true → s.Sound → ∃ t, exec (.fatalFault c) s = .next t ∧ t.pins.causes = s.pins.causes ++ [.fatal] ∧
       t.furCount = s.furCount ∧ t.job = {} ∧ (∀ a, a < dumpBase → inCands s a = false → t.peek a = s.peek a) ∧
       (∀ a, dramEnd ≤ a → t.peek a = 0) ∧ t.stile.fuses = s.stile.fuses) ∧
     (∀ why, (s.releaseDue = true ∧ (why = .verify → s.firstSlotBad = true)) ∨ (s.pins.releasing = true ∧ why ≠ .verify) →
       ∃ t, exec (.bootFailure why) s = .next t ∧
       t.pins.causes = [.bootFail] ∧ t.furCount = s.furCount ∧ t.job = {} ∧ (∀ st c, t.ctr st c = 0) ∧
       t.stile.fuses = s.stile.fuses)) ∧
  (∀ s : State,
     (∀ v, ∃ t, exec (.watchdogRestart v) s = .next t ∧ OnlyReg s t rstWdog) ∧
     (∀ v : Word, ∃ t, exec (.rstCtrlWrite v) s = .next t ∧ OnlyReg s t rstCtrl ∧ t.bit rstCtrl 0 = v.getLsbD 0 ∧
       t.fld rstCtrl 32 16 = v.toNat / 2 ^ 32 % 2 ^ 16 ∧
       t.fld rstCtrl 16 16 = if 10 ≤ v.toNat / 2 ^ 16 % 2 ^ 16 ∧ v.toNat / 2 ^ 16 % 2 ^ 16 ≤ 60000
         then v.toNat / 2 ^ 16 % 2 ^ 16 else s.fld rstCtrl 16 16) ∧
     (∀ v : Word, v.getLsbD 16 = true → s.goAllowed (v.toNat % 8) (v.toNat / 2 ^ 8 % 2 ^ 8) = true →
       ∃ t b, exec (.blockResetGo v) s = .next t ∧ t.block = some b ∧ b.type.toNat = v.toNat % 8 ∧
         b.index.toNat = v.toNat / 2 ^ 8 % 2 ^ 8 ∧ b.applied = false ∧ OnlyReg s { t with block := s.block } rstBlock) ∧
     (∀ b, s.block = some b → b.applied = false → s.blockIdle b.type.toNat b.index.toNat = true →
       ∃ t, exec .blockResetApply s = .next t ∧ t.block = some { b with applied := true } ∧ t.bit rstBlockStatus 1 = false) ∧
     (∀ b, s.block = some b → b.applied = false → s.blockIdle b.type.toNat b.index.toNat = false →
       ∃ t, exec .blockResetTimeout s = .next t ∧ t.block = some { b with applied := true } ∧ t.bit rstBlockStatus 1 = true ∧
         Counted s t rstCntForced 1) ∧
     (∀ b, s.block = some b → b.applied = true → exec .blockResetEnd s =
       .next (if b.type.toNat = 4 then { s with block := none }.refill (chEng b.index.toNat) else { s with block := none })))

/-- R573, R579, R580, R582, R595: the release order, which begins once RESET_N is high with PWR_GOOD high and a reset under way.
It ends at step 10 with READY and the CAUSE of the joined sources; or at step 3 in a recovery boot where no slot verifies; or
with a fuse fault at the step whose load fails, STL_ERR.FUSE set and LED_B steady. One that is cut off shows the last step that
completed and leaves its reset under way. -/
def Obligations.ReleaseOrder : Prop :=
  ∀ (inp : ReleaseInput) (s : State), s.releaseDue = true →
    let r1 := s.releaseFuses inp
    let r2 := tryBoot (r1.1.bootOrder r1.1.strapModeNow) inp.flashBad r1.1
    let r3 := (if r2.2 then r2.1 else r2.1.toRecovery).releaseTrim inp
    (inp.cut = none → ∃ t, exec (.releaseOrder inp) s = .next t ∧ t.pins.causes = []) ∧
    (inp.cut = none → r1.2 = true → r2.2 = true → r3.2 = true → ∃ t, exec (.releaseOrder inp) s = .next t ∧ t.pins.causes = [] ∧
      t.ready = true ∧ t.fld rstStatus 0 4 = 10 ∧
      t.fld rstStatus 5 3 = ((s.pins.causes.find? Cause.isCold).getD (s.pins.causes.headD .powerOn)).code ∧
      t.pins.hostUp = true ∧ (t.thread 63 3).modeF = true ∧ (t.thread 63 3).st = .run) ∧
    (inp.cut = none → r1.2 = true → r2.2 = false → r3.2 = true → ∃ t, exec (.releaseOrder inp) s = .next t ∧ t.pins.causes = [] ∧
      t.ready = false ∧ t.fld rstStatus 0 4 = 3 ∧ t.stile.recoveryBoot = true ∧ t.pins.hostUp = true) ∧
    (inp.cut = none → r1.2 = false → ∃ t, exec (.releaseOrder inp) s = .next t ∧ t.pins.causes = [] ∧ t.ready = false ∧
      t.fld rstStatus 0 4 = 0 ∧ t.bit stlErr 7 = true ∧ t.alert 8 = true ∧
      (s.pins.supervisory = true → t.ledB = .steady ∧ t.alertLow = true) ∧ t.pins.hostUp = s.pins.hostUp) ∧
    (inp.cut = none → r1.2 = true → r3.2 = false → ∃ t, exec (.releaseOrder inp) s = .next t ∧ t.pins.causes = [] ∧
      t.ready = false ∧ t.fld rstStatus 0 4 = 1 ∧ t.bit stlErr 7 = true ∧ (s.pins.supervisory = true → t.ledB = .steady)) ∧
    (∀ c, inp.cut = some c →
      c.steps.val = 0 ∨ (r1.2 = true ∧ (c.steps.val = 1 ∨ (r3.2 = true ∧ (r2.2 = true ∨ c.steps.val = 2)))) →
      ∃ t, exec (.releaseOrder inp) s = .next t ∧ t.pins.releasing = true ∧ t.pins.causes = s.pins.causes ∧ t.ready = false ∧
        t.fld rstStatus 0 4 = c.steps.val)

/-- R588: a GO written while BUSY is 1, or one that breaks a condition of R586 (a TYPE or INDEX that names no block; a hedge
die or the link complex with FUR_CTRL.ENABLE 1), has no effect and sets RST_BLOCK_STATUS.REFUSED. -/
def Obligations.RefusedGoOnlySetsRefused : Prop :=
  ∀ (s : State) (v : Word),
    let typ := v.toNat % 8
    let index := v.toNat / 2 ^ 8 % 2 ^ 8
    let exists_ := (typ = 1 ∧ index < 64) ∨ (typ = 2 ∧ index < 12) ∨ (typ = 3 ∧ index < 32) ∨ typ = 4 ∨
      (typ = 5 ∧ index = 0) ∨ (typ = 6 ∧ index = 0)
    v.getLsbD 16 = true →
    s.block.isSome = true ∨ ¬ exists_ ∨ ((typ = 2 ∨ typ = 6) ∧ s.bit furCtrl 0 = true) →
    ∃ t, exec (.blockResetGo v) s = .next t ∧ t.bit rstBlockStatus 2 = true ∧ OnlyReg s t rstBlockStatus

-- Furrows, plans and stook counters (chapters 2 and 6).

/-- R43, R56, R631: a tick advances FUR_COUNT by 1 and notes the furrow in the history ring under its count; with
FUR_CTRL.ENABLE 0, or with the links dark in fallow, there is no tick and FUR_COUNT holds (R45, R641). R70, R61: an engine
at a tick. One that still runs a plan counts an overrun and starts none, whatever the module's state. An idle one starts the
plan at the front of its queue once the plan is due, where the module runs plans, and no plan behind it; its slip is how late
the start is. A plan that is not due stays queued, and one that waits SLACK furrows or more after its due tick sets SLIP. -/
def Obligations.FurrowTicks : Prop :=
  (∀ (w : BitVec 16) (s : State),
     (s.mayTick = true → ∃ t, exec (.furrowTick w) s = .next t ∧ t.furCount = s.furCount + 1 ∧
       ∃ h, Tab.look t.hist ((s.furCount + 1).toNat % 4096) = some h ∧ h.count = s.furCount + 1) ∧
     (s.bit furCtrl 0 = false ∨ s.linksDark = true → exec (.furrowTick w) s = .next s)) ∧
  (∀ (s : State) (e : Nat),
     (∀ p runs, (s.eng e).running = some p → (s.tickEngine runs e).eng e = { s.eng e with
       overruns := BitVec.ofNat 32 (min ((s.eng e).overruns.toNat + 1) (2 ^ 32 - 1)) }) ∧
     (∀ p r d, (s.eng e).running = none → (s.eng e).queue = p :: r → s.due p = some d → d ≤ s.furCount.toNat →
       s.engClosed e = false → listReach p.cmdAddr.toNat (64 * p.cmdCount.toNat) p.modeF = true →
       s.errLines p.cmdAddr.toNat (64 * p.cmdCount.toNat) = [] →
       let t := s.tickEngine true e
       (t.eng e).running = some p ∧ (t.eng e).queue = r ∧ (t.eng e).startTick = s.furCount ∧
       (t.eng e).slipNow.toNat = min 255 (s.furCount.toNat - d)) ∧
     (∀ p r d runs, (s.eng e).running = none → (s.eng e).queue = p :: r → s.due p = some d → s.furCount.toNat < d →
       s.tickEngine runs e = s) ∧
     (∀ p r d, (s.eng e).running = none → (s.eng e).queue = p :: r → s.due p = some d → d + s.slack ≤ s.furCount.toNat →
       (s.tickEngine false e).eng e = s.eng e ∧ (s.tickEngine false e).bit furFault 0 = true ∧ JobFaulted (s.tickEngine false e)))

/-- R53, R54, R45, R46, R47, R50: the synchronisation commands and the writes of FUR_CTRL and FUR_PERIOD. A SLACK of 5 to 7
leaves SLACK as it was and sets FUR_FAULT.CFG; so does a period out of 5,000 to 1,000,000, which is not taken; on the master
a period waits for the tick of R57, behind those of the same or an earlier tick, and a module that becomes master first takes
its PERIOD into use; another module has no change of its own ahead. R51, R52, R53, R54: a marker of the elected master. One of
too many hops, of an unknown kind or of another chip is discarded. The master only passes it on. In FREE, or in ACQUIRE after
HOLDOVER, a module adopts the counter of the marker's furrow, never going back while a job runs (R44); with FUR_CTRL.ENABLE 0
the counter holds (R45), and the module waits in ACQUIRE for its step; 16 near markers in a row bring ACQUIRE to LOCKED; a near
one brings HOLDOVER back to LOCKED, a far one to ACQUIRE. -/
def Obligations.FurrowUnitAndMarkers : Prop :=
  (∀ s : State,
     (s.fur.sync = .locked → exec .holdoverEntry s = .next { s with fur := { s.fur with sync := .holdover } }) ∧
     (∀ ns, s.isMaster = true → s.bit furCtrl 0 = true → s.linksDark = false → exec (.timingMarkerSend ns) s =
       .next (s.sendGroup (mkMsg 0 0x01 0 true
         (markerBytes s.furCount.toNat ns.toNat 0 s.fur.active.toNat 1 0 s.chip)))) ∧
     (∀ v : Word, v.toNat / 4 % 8 ≤ 4 → ∃ t, exec (.furCtrlWrite v) s = .next t ∧ t.fld furCtrl 0 24 =
       v.toNat % 32 + v.toNat / 2 ^ 8 % 2 ^ 16 * 2 ^ 8 + s.fld furCtrl 5 3 * 2 ^ 5 ∧ t.bit furFault 4 = s.bit furFault 4) ∧
     (∀ v : Word, 5 ≤ v.toNat / 4 % 8 → ∃ t, exec (.furCtrlWrite v) s = .next t ∧ t.fld furCtrl 2 3 = s.fld furCtrl 2 3 ∧
       t.fld furCtrl 0 2 = v.toNat % 4 ∧ t.fld furCtrl 8 16 = v.toNat / 2 ^ 8 % 2 ^ 16 ∧ t.bit furFault 4 = true) ∧
     (∀ v ns, 5000 ≤ v.toNat % 2 ^ 20 → v.toNat % 2 ^ 20 ≤ 1000000 → ∃ t, exec (.furPeriodWrite v ns) s = .next t ∧
       t.fld furPeriod 0 20 = v.toNat % 2 ^ 20 ∧ (s.fur.leads = true ∨ s.isMaster = false → t.fur.active = s.fur.active) ∧
       (s.isMaster = true → s.fur.leads = true → t.fur.periodAt =
         insertPeriod (BitVec.ofNat 64 (s.targetTick ns), BitVec.ofNat 20 (v.toNat % 2 ^ 20)) s.fur.periodAt) ∧
       (s.isMaster = true → s.fur.leads = false → t.fur.active.toNat = s.fld furPeriod 0 20) ∧
       (s.isMaster = false → t.fur.periodAt = [])) ∧
     (∀ v ns, v.toNat % 2 ^ 20 < 5000 ∨ 1000000 < v.toNat % 2 ^ 20 → ∃ t, exec (.furPeriodWrite v ns) s = .next t ∧
       t.bit furFault 4 = true ∧ t.fld furPeriod 0 20 = s.fld furPeriod 0 20 ∧ t.fur.periodAt = s.fur.periodAt)) ∧
  (∀ (s t : State) (p : Port) (f : Flit) (ps : BitVec 32) (res : Word) (g : Flit) (bs : List Byte),
     s.rx p.val 0 0x01 [f] true = .msg t g bs →
     let kind := msgNat bs 24 4 / 2 ^ 20 % 16
     let count := if kind = 0 then msgNat bs 0 8 - 1 else msgNat bs 0 8
     (¬ MarkerGood t bs → exec (.marker p f ps res) s = .next t) ∧
     (MarkerGood t bs → t.isMaster = true →
       exec (.marker p f ps res) s = .next (t.replicate (some p.val) (t.markerOn p.val g bs res.toNat))) ∧
     (MarkerGood t bs → t.isMaster = false → count < 2 ^ 64 → ∃ u, exec (.marker p f ps res) s = .next u ∧
       u.fur.hops.toNat = msgNat bs 24 4 / 2 ^ 24 % 16 ∧ u.fur.phaseErr = ps ∧
       u.fur.active.toNat = msgNat bs 24 4 % 2 ^ 20 ∧
       (t.bit furCtrl 0 = false → u.furCount = t.furCount) ∧
       (t.fur.sync = .free ∨ (t.fur.sync = .acquire ∧ t.fur.nextTick = none) → u.fur.sync = .acquire ∧
         (t.bit furCtrl 0 = false → u.fur.nextTick = none) ∧ (t.bit furCtrl 0 = true → u.fur.goodMarkers = 0 ∧
           u.furCount.toNat = if t.job.st = .running then max t.furCount.toNat count else count)) ∧
       (t.fur.sync ≠ .free → t.fur.sync ≠ .acquire ∨ t.fur.nextTick ≠ none → u.furCount = t.furCount) ∧
       (t.fur.sync = .acquire → t.fur.nextTick ≠ none → phaseNear ps → t.fur.goodMarkers < 15 →
         u.fur.sync = .acquire ∧ u.fur.goodMarkers = t.fur.goodMarkers + 1) ∧
       (t.fur.sync = .acquire → t.fur.nextTick ≠ none → phaseNear ps → 15 ≤ t.fur.goodMarkers → u.fur.sync = .locked) ∧
       (t.fur.sync = .acquire → t.fur.nextTick ≠ none → ¬ phaseNear ps → u.fur.sync = .acquire ∧ u.fur.goodMarkers = 0) ∧
       (t.fur.sync = .locked → u.fur.sync = .locked) ∧
       (t.fur.sync = .holdover → phaseNear ps → u.fur.sync = .locked) ∧
       (t.fur.sync = .holdover → phaseFar ps → u.fur.sync = .acquire ∧ u.fur.nextTick = none) ∧
       (t.fur.sync = .holdover → ¬ phaseNear ps → ¬ phaseFar ps → u.fur.sync = .holdover)))

/-- R54: more than 40 ms in HOLDOVER sets FUR_FAULT.HOLDOVER and raises a job fault. -/
def Obligations.HoldoverTimeoutFaults : Prop :=
  ∀ s : State, s.fur.sync = .holdover →
    ∃ t, exec .holdoverTimeout s = .next t ∧ t.bit furFault 1 = true ∧ JobFaulted t ∧ t.fur = s.fur

/-- R62, R63, R232, R233: an entry of a posting FIFO passes to its engine. A plan enters the engine's queue of four behind the
others; one whose BOUND exceeds the period, or with no command or a misaligned list, is discarded with its bit of
FUR_FAULT, both where both hold; a command joins the engine's commands where its queue there has room. Once every command of a plan has completed the engine runs no plan, its
queue is as it was, and the LAST plan of a step is noted (R65, R234). -/
def Obligations.PlansEnterAndComplete : Prop :=
  (∀ (s : State) (st : Strip) (k : Fin 5) (pos : Nat) (x : Post),
    (s.fifo st.val k.val)[pos]? = some x → entryReady (s.fifo st.val k.val) k.val pos x = true → s.engClosed x.engine = false →
    (∀ e p, x = .plan e p → (s.eng e).queue.length < 4 → ∃ t, exec (.planQueueEntry st k pos) s = .next t ∧
      t.fifo st.val k.val = (s.fifo st.val k.val).eraseIdx pos ∧
      (p.bound.toNat ≤ s.periodNs → p.cmdCount ≠ 0 → p.cmdAddr.toNat % 64 = 0 → (t.eng e).queue = (s.eng e).queue ++ [p]) ∧
      (s.periodNs < p.bound.toNat → t.bit furFault 3 = true ∧ (t.eng e).queue = (s.eng e).queue) ∧
      (p.cmdCount = 0 ∨ p.cmdAddr.toNat % 64 ≠ 0 →
        t.bit furFault 6 = true ∧ JobFaulted t ∧ (t.eng e).queue = (s.eng e).queue)) ∧
    (∀ e c, x = .command e c → s.accepts e c.word = true → ∃ t, exec (.planQueueEntry st k pos) s = .next t ∧
      t.fifo st.val k.val = (s.fifo st.val k.val).eraseIdx pos ∧ (t.eng e).cmds = (s.eng e).cmds ++ [c])) ∧
  ∀ (s : State) (e : Fin 321) (p : Plan), (s.eng e.val).running = some p → (s.eng e.val).cmds = [] →
    (s.eng e.val).fetchLeft = 0 → (s.eng e.val).inFlight = 0 → (s.eng e.val).stuck = false →
    ∃ t, exec (.planComplete e) s = .next t ∧ (t.eng e.val).running = none ∧ (t.eng e.val).queue = (s.eng e.val).queue ∧
      (p.last = true → p.phase = false → ∀ x ∈ (t.eng e.val).parts, x.1 = p.step → x.2 = true)

/-- R227: one update of a stook counter. The amounts add up before any waiter is tested, saturating at 2^24 − 1 with
STK_FAULT.OVERFLOW; what the counter keeps, what the waiters that passed took and what the node's firings took add up to the
sum; a waiter that stays is not satisfied by what is left; a thread that passes runs. R240, R242, R66, R67: a tree node
fires. UP sends a SIGNAL of 1 to the parent over its port, for a token of the core's bucket (R239), or is a sync fault with
STK_FAULT.DEST where the neighbour is not live (R238); ROOT signals REL_CTR; STEP_ROOT also makes the end tick of the
step known, at the tick of R57. A write of STK_VAL while FUR_CTRL.ENABLE is 0 sets the counter and tests it; with ENABLE 1
it is refused with STK_FAULT.CFG (R252). A node's next copy takes a write unless DEST_CTR or REL_CTR names no counter, which
sets CFG alone (R253). -/
def Obligations.StookCountersAndNodes : Prop :=
  (∀ (s : State) (st : Strip) (c : Fin 48) (add : Nat),
     let t := s.updateCtr st.val c.val add
     let sum := min ((s.ctr st.val c.val).toNat + add) (2 ^ 24 - 1)
     let ws := Tab.get s.waiters [] (ctrKey st.val c.val)
     let rest := Tab.get t.waiters [] (ctrKey st.val c.val)
     let act := s.fld (stkNode st.val c.val) 24 2
     let goal := s.fld (stkNode st.val c.val) 0 24
     ∃ v, v + (targets ws - targets rest) = sum ∧ targets rest ≤ targets ws ∧ rest.Sublist ws ∧ (∀ w ∈ rest, v < w.target) ∧
       (act = 0 → (t.ctr st.val c.val).toNat = v ∧ t.fires = s.fires) ∧
       (act ≠ 0 → 0 < goal → (t.ctr st.val c.val).toNat = v % goal ∧
         t.fires = s.fires ++ List.replicate (v / goal) (st.val, c.val)) ∧
       (2 ^ 24 ≤ (s.ctr st.val c.val).toNat + add → t.bit (stkFault st.val) 0 = true ∧ JobFaulted t) ∧
       (∀ th : Thread, ∀ n, ws = [⟨.thread th, n⟩] → n ≤ sum → (s.thread st.val th.val).st = .wait →
         (t.thread st.val th.val).st = .run ∧ rest = [])) ∧
  ((∀ (s : State) (st : Strip) (c : Fin 48) (ns : Nat), s.fires.contains (st.val, c.val) = true →
     let s1 := { s with fires := s.fires.erase (st.val, c.val) }
     let node := (s.reg (stkNode st.val c.val)).toNat
     (node / 2 ^ 24 % 4 = 0 → exec (.nodeFire st c ns) s = .next s1) ∧
     (node / 2 ^ 24 % 4 = 1 → (s.port (node / 2 ^ 27 % 32)).st = .up →
       s.live (s.port (node / 2 ^ 27 % 32)).nbrChip.toNat = true →
       exec (.nodeFire st c ns) s = .next (((s1.takeToken st.val).count (hdlCntRsig st.val) 1).portSend 32 (node / 2 ^ 27 % 32)
         (mkMsg 0 0x02 (s.port (node / 2 ^ 27 % 32)).nbrChip.toNat false
           (stookBytes (s.port (node / 2 ^ 27 % 32)).nbrChip.toNat (node / 2 ^ 32 % 64) (node / 2 ^ 38 % 64) 1 0
             s.stkEpoch.toNat s.chip st.val c.val 0)))) ∧
     (node / 2 ^ 24 % 4 = 1 → s.live (s.port (node / 2 ^ 27 % 32)).nbrChip.toNat = false →
       exec (.nodeFire st c ns) s = .next (s1.syncFault st.val 1)) ∧
     (node / 2 ^ 24 % 4 = 2 → s.fld (stkChild st.val c.val) 0 32 = 0 → node / 2 ^ 44 % 64 < 48 →
       exec (.nodeFire st c ns) s = .next (s1.updateCtr st.val (node / 2 ^ 44 % 64) 1)) ∧
     (node / 2 ^ 24 % 4 = 3 → s.targetTick ns < 2 ^ 64 → ∃ t, exec (.nodeFire st c ns) s = .next t ∧
       t.reg furStepEnd = BitVec.ofNat 64 (s.targetTick ns) ∧
       Tab.look t.fur.ends (s.fld furStep 0 32) = some (BitVec.ofNat 64 (s.targetTick ns)) ∧
       s.furCount.toNat < s.targetTick ns)) ∧
   ∀ (s : State) (st : Strip) (c : Fin 48) (v : Word),
     (s.bit furCtrl 0 = false → exec (.stkValWrite st c v) s =
       .next ((s.setCtr st.val c.val (BitVec.ofNat 24 v.toNat)).updateCtr st.val c.val 0)) ∧
     (s.bit furCtrl 0 = true → ∃ t, exec (.stkValWrite st c v) s = .next t ∧ t.bit (stkFault st.val) 2 = true ∧
       OnlyReg s t (stkFault st.val)) ∧
     (v.toNat / 2 ^ 38 % 64 < 48 → v.toNat / 2 ^ 44 % 64 < 48 ∨ v.toNat / 2 ^ 44 % 64 = 63 →
       ∃ t, exec (.stkNodeNextWrite st c v) s = .next t ∧ OnlyReg s t (stkNodeNext st.val c.val) ∧
         t.fld (stkNodeNext st.val c.val) 0 24 = v.toNat % 2 ^ 24 ∧ t.fld (stkNodeNext st.val c.val) 38 6 = v.toNat / 2 ^ 38 % 64 ∧
         t.fld (stkNodeNext st.val c.val) 44 6 = v.toNat / 2 ^ 44 % 64) ∧
     (48 ≤ v.toNat / 2 ^ 38 % 64 ∨ (48 ≤ v.toNat / 2 ^ 44 % 64 ∧ v.toNat / 2 ^ 44 % 64 ≤ 62) →
       ∃ t, exec (.stkNodeNextWrite st c v) s = .next t ∧ t.bit (stkFault st.val) 2 = true ∧ OnlyReg s t (stkFault st.val)))

-- Alarms, gauges, wear and scrubbing (chapters 11 and 17).

/-- R645, R646: a reading beyond its limit raises the source's bit of PWR_ALERT, and one back within the clearing limit
lowers it, whatever other sources do, but for the job fault of an ALARM that has no route (R498); a source that is already so is
left alone, memory and engines always; TJ_PEAK keeps the highest junction reading (R652). R647, R648: a
gauge reading stores the margin floor(65,535 × (limit − x) ÷ (limit − fresh)) held to 0 to 65,535, of the gauge of that
subsystem alone; shown for the first gauge of a strip, whose fresh value is 0 and whose limit is 4 units. An hour's update
gives every subsystem a word whose margin is the lowest of its gauges' margins, and raises alert 6 exactly where some grade
is 3 or more (R649, R645). -/
def Obligations.SensorsGaugesAndWear : Prop :=
  (∀ (src : Sensor) (n : BitVec 16) (v : BitVec 32) (s : State), s.pins.supervisory = true →
     (sensorRaises src v.toNat = true → ∃ t, exec (.sensorAlarmRaise src n v) s = .next t ∧ t.alert (sensorBit src) = true ∧
       t.alertLow = true ∧ (∀ b, b < 9 → b ≠ sensorBit src → b ≠ 7 ∨ AlarmGoes s → t.alert b = s.alert b) ∧ t.mem = s.mem ∧
       t.engines = s.engines ∧ (s.alert (sensorBit src) = true → t = s.sawSensor src v.toNat)) ∧
     (sensorClears src v.toNat = true → ∃ t, exec (.sensorAlarmClear src n v) s = .next t ∧ t.alert (sensorBit src) = false ∧
       (∀ b, b < 9 → b ≠ sensorBit src → b ≠ 7 ∨ AlarmGoes s → t.alert b = s.alert b) ∧ t.mem = s.mem ∧ t.engines = s.engines ∧
       (s.alert (sensorBit src) = false → t = s.sawSensor src v.toNat) ∧
       (src = .tj → t.fld pwrTemp 24 8 = max (s.fld pwrTemp 24 8) (min 255 v.toNat)))) ∧
  ((∀ (s : State) (r : GaugeReading), r.gauge = 0 → r.sub.val < 64 → s.pow.st = 0 ∨ s.pow.st = 1 → r.fresh = 0 → 0 < r.limit →
     ∃ t, exec (.gaugeSample [r]) s = .next t ∧
       (0 ≤ r.x → r.x ≤ r.limit → (t.margin r.sub.val 0 : Int) = 65535 * (r.limit - r.x) / r.limit) ∧
       (r.limit < r.x → t.margin r.sub.val 0 = 0) ∧ (r.x < 0 → t.margin r.sub.val 0 = 65535) ∧
       (∀ sub g, (sub, g) ≠ (r.sub.val, 0) → g < 8 → t.margin sub g = s.margin sub g) ∧
       { t with pow := { t.pow with margins := s.pow.margins } } = s) ∧
   ∀ s : State, (∀ sub g, s.margin sub g ≤ 65535) → ∃ t, exec .wearUpdate s = .next t ∧ t.pow.hour = s.pow.hour + 1 ∧
     (∀ sub : Fin 102, (∀ g ∈ gaugesOf sub.val, t.fld (stbSub sub.val) 0 16 ≤ s.margin sub.val g) ∧
       ∃ g ∈ gaugesOf sub.val, t.fld (stbSub sub.val) 0 16 = s.margin sub.val g) ∧
     t.fld stbSummary 0 8 ≤ 4 ∧ (t.alert 6 = true ↔ 3 ≤ t.fld stbSummary 0 8))

/-- R417, R426, R427: the DRAM scrubber reads the line at MEM_SCRUB_POS and goes on to the next. A line without errors is
left alone; one that the code corrects is counted and queued; one that it cannot correct is reported as a job fault. R418,
R424, R443: where the check line has met an uncorrectable error it is reported by its name, and its data lines cannot be
decoded any more. R425, R442: an uncorrectable error of a part with a code of its own is a job fault of kind OTHER. R427, R428,
R429, R433, R439, R446: a write-back that no later write superseded stores the corrected line and clears its errors; a
superseded one changes no memory; neither comes in self-refresh or at retention voltage; the hour's roll-over clears HOUR and
HIGH of each channel and the corrected-error alert; MEM_SCRUB takes each field in its range. -/
def Obligations.ScrubbingAndMemoryRegisters : Prop :=
  (∀ s : State, s.bit memStatus 0 = true → s.bit memCtrl 0 = true → s.bit memStatus 1 = false → s.fld memScrubPos 0 48 < dramEnd →
     let a := lineOf (s.fld memScrubPos 0 48)
     (∀ x, ∃ t, exec (.scrubRead false ⟨[], false, some x⟩) s = .next t ∧ t.bit memUe 4 = true ∧ JobFaulted t) ∧
     ∃ t, exec (.scrubRead false ⟨[], false, none⟩) s = .next t ∧ t.mem = s.mem ∧
       t.fld memScrubPos 0 48 = (if a + 64 < dramEnd then a + 64 else 0) ∧
       (Tab.look s.flips a = none → s.lost.contains a = false → t.wbq = s.wbq) ∧
       (∀ left, s.decode a = .fixed left → t.wbq = s.wbq ++ [⟨a, left, false⟩]) ∧
       (∀ syn, s.decode a = .bad syn → JobFaulted t ∧ t.wbq = s.wbq)) ∧
  (∀ s : State, s.bit memStatus 0 = true → s.bit memCtrl 0 = true → s.bit memStatus 1 = false → s.fld memScrubPos 0 48 < dramEnd →
     let a := lineOf (s.fld memScrubPos 0 48)
     (checkMates (ilvBytes (s.fld memCtrl 2 2)) a).any s.lost.contains = false → s.flips = [] →
     ∃ t, exec (.scrubRead false ⟨[], true, none⟩) s = .next t ∧ t.mem = s.mem ∧ JobFaulted t ∧ t.bit memUe 1 = true ∧
       (s.fld memUe 0 7 = 0 → t.fld memUeAddr 0 48 = checkLineName (ilvBytes (s.fld memCtrl 2 2)) a) ∧
       ∀ l ∈ checkMates (ilvBytes (s.fld memCtrl 2 2)) a, ∃ syn, t.decode l = .bad syn) ∧
  (∀ s : State,
     (∀ w r, s.wbq = w :: r → s.bit memStatus (if inDram w.line then 1 else 2) = true → exec .scrubWriteback s = .next s) ∧
     (∀ w r, s.wbq = w :: r → w.stale = false → s.bit memStatus (if inDram w.line then 1 else 2) = false → s.Sound →
       ∃ t, exec .scrubWriteback s = .next t ∧
       (w.line % 64 = 0 → inDram w.line = true → ∀ i, i < 64 → t.peek (w.line + i) = (applyLeft w.left w.line w.line (s.peeks w.line 64)).getD i 0) ∧
       (∀ x, x < w.line ∨ w.line + 64 ≤ x → t.peek x = s.peek x) ∧ Counted s t memCntScrubFix 1 ∧
       (w.line % 64 = 0 → Tab.look t.flips w.line = none)) ∧
     (∀ w r, s.wbq = w :: r → w.stale = true → s.bit memStatus (if inDram w.line then 1 else 2) = false →
       ∃ t, exec .scrubWriteback s = .next t ∧ t.mem = s.mem ∧ t.flips = s.flips ∧ t.wbq = r ∧ Counted s t memCntScrubDrop 1) ∧
     (∃ t, exec .ceHourRollover s = .next t ∧ (∀ ch : Fin 384, t.fld (memCeCh ch.val) 32 17 = 0) ∧ t.alert 4 = false ∧
       t.bit memStatus 3 = false) ∧
     (∀ v : Word, ∃ t, exec (.memScrubWrite v) s = .next t ∧ OnlyReg s t memScrub ∧
       t.fld memScrub 0 16 = (if 60 ≤ v.toNat % 2 ^ 16 ∧ v.toNat % 2 ^ 16 ≤ 10080 then v.toNat % 2 ^ 16 else s.fld memScrub 0 16) ∧
       t.fld memScrub 16 16 = if 10 ≤ v.toNat / 2 ^ 16 % 2 ^ 16 ∧ v.toNat / 2 ^ 16 % 2 ^ 16 ≤ 60000
         then v.toNat / 2 ^ 16 % 2 ^ 16 else s.fld memScrub 16 16))

-- Headland (chapter 6).

/-- R224, R216: the ALU operations of a ready thread write their result to RD (x0 discards it) and go on at the next
instruction; nothing else of the module changes but the count of issued instructions and what the fetch leaves in the
instruction cache (R222). RDCYC gives the hclk since the last cold reset, which goes on by an amount that the model leaves free
(log entry 6). -/
def Obligations.HeadlandAluWritesResult : Prop :=
  HdlAluRow 0x00 .hdlAdd (fun _ _ a b => BitVec.ofInt 64 (a.toInt + b.toInt)) ∧
  HdlAluRow 0x01 .hdlSub (fun _ _ a b => BitVec.ofInt 64 (a.toInt - b.toInt)) ∧
  HdlAluRow 0x02 .hdlAnd (fun _ _ a b => BitVec.ofNat 64 (a.toNat &&& b.toNat)) ∧
  HdlAluRow 0x03 .hdlOr (fun _ _ a b => BitVec.ofNat 64 (a.toNat ||| b.toNat)) ∧
  HdlAluRow 0x04 .hdlXor (fun _ _ a b => BitVec.ofNat 64 (a.toNat ^^^ b.toNat)) ∧
  HdlAluRow 0x05 .hdlShl (fun _ _ a b => BitVec.ofNat 64 (a.toNat * 2 ^ (b.toNat % 64))) ∧
  HdlAluRow 0x06 .hdlShrl (fun _ _ a b => BitVec.ofNat 64 (a.toNat / 2 ^ (b.toNat % 64))) ∧
  HdlAluRow 0x07 .hdlShra (fun _ _ a b => BitVec.ofInt 64 (a.toInt / 2 ^ (b.toNat % 64))) ∧
  HdlAluRow 0x08 .hdlMul (fun _ _ a b => BitVec.ofNat 64 (a.toNat * b.toNat % 2 ^ 64)) ∧
  HdlAluRow 0x09 .hdlMulhu (fun _ _ a b => BitVec.ofNat 64 (a.toNat * b.toNat / 2 ^ 64)) ∧
  HdlAluRow 0x0A .hdlSlt (fun _ _ a b => if a.toInt < b.toInt then 1 else 0) ∧
  HdlAluRow 0x0B .hdlSltu (fun _ _ a b => if a.toNat < b.toNat then 1 else 0) ∧
  HdlAluRow 0x0C .hdlMin (fun _ _ a b => BitVec.ofInt 64 (min a.toInt b.toInt)) ∧
  HdlAluRow 0x0D .hdlMax (fun _ _ a b => BitVec.ofInt 64 (max a.toInt b.toInt)) ∧
  HdlAluRow 0x0E .hdlMinu (fun _ _ a b => BitVec.ofNat 64 (min a.toNat b.toNat)) ∧
  HdlAluRow 0x0F .hdlMaxu (fun _ _ a b => BitVec.ofNat 64 (max a.toNat b.toNat)) ∧
  HdlAluRow 0x10 .movhi (fun _ w a _ => BitVec.ofNat 64 (w.toNat % 2 ^ 32 * 2 ^ 32 + a.toNat % 2 ^ 32)) ∧
  HdlAluRow 0x11 .rdtick (fun s _ _ _ => s.furCount) ∧
  ∀ (s : State) (st : Strip) (th : Thread) (w : Word), HdlReady s st th w 0 0x12 →
    ∃ t, exec (.rdcyc st th w) s = .next t ∧ s.hclk ≤ t.hclk ∧
      HdlWrote { s with hclk := t.hclk } t st th w (BitVec.ofNat 64 t.hclk)

/-- R224: the branches compare a with x[RB] and add IMM × 8 to the PC where the comparison holds; JAL and JALR write PC + 8
to RD; a JALR whose target is no multiple of 8 is refused with HDL_ERR.ALIGN (R225, R248). -/
def Obligations.HeadlandBranchesAndJumps : Prop :=
  HdlBranchRow 0x20 .beq (fun a b => a = b) ∧ HdlBranchRow 0x21 .bne (fun a b => a ≠ b) ∧
  HdlBranchRow 0x22 .blt (fun a b => a.toInt < b.toInt) ∧ HdlBranchRow 0x23 .bge (fun a b => b.toInt ≤ a.toInt) ∧
  HdlBranchRow 0x24 .bltu (fun a b => a.toNat < b.toNat) ∧ HdlBranchRow 0x25 .bgeu (fun a b => b.toNat ≤ a.toNat) ∧
  (∀ (s : State) (st : Strip) (th : Thread) (w : Word), HdlReady s st th w 0 0x26 →
    ∃ t, exec (.jal st th w) s = .next t ∧ HdlOthers s t st th ∧ HdlKeeps s t ∧
      ThrAfter (s.thread st.val th.val) (t.thread st.val th.val) .run
        ((s.thread st.val th.val).pc + (hdlImm w * 8).setWidth 48) (hdlRd w) (((s.thread st.val th.val).pc + 8).setWidth 64)) ∧
  (∀ (s : State) (st : Strip) (th : Thread) (w : Word), HdlReady s st th w 0 0x27 →
    let target := (s.thread st.val th.val).a w + hdlImm w
    ∃ t, exec (.jalr st th w) s = .next t ∧
      (target.toNat % 8 = 0 → HdlOthers s t st th ∧ HdlKeeps s t ∧
        ThrAfter (s.thread st.val th.val) (t.thread st.val th.val) .run (target.setWidth 48) (hdlRd w)
          (((s.thread st.val th.val).pc + 8).setWidth 64)) ∧
      (target.toNat % 8 ≠ 0 → HdlTurnedAway s t st th 2))

/-- R225, R220: an aligned load of a reachable address fills RD, sign-extended or zero-extended, and changes nothing else;
an L64 of CSR space in mode F takes what reading the register gives. R225, R220, R226: an aligned store to a reachable
address puts the low bytes of x[RD] there, low byte first, and leaves every other byte of memory as it was; AADD and ASWP
return the old 64 bits and store their sum with x[RB], or x[RB]. An S64 in CSR space in mode F writes the register. -/
def Obligations.HeadlandMemoryAccesses : Prop :=
  (HdlLoadRow 0 1 .l8s (fun v => v.signExtend 64) ∧ HdlLoadRow 1 2 .l16s (fun v => v.signExtend 64) ∧
   HdlLoadRow 2 4 .l32s (fun v => v.signExtend 64) ∧ HdlLoadRow 3 8 .l64 (fun v => v.setWidth 64) ∧
   HdlLoadRow 4 1 .l8u (fun v => v.setWidth 64) ∧ HdlLoadRow 5 2 .l16u (fun v => v.setWidth 64) ∧
   HdlLoadRow 6 4 .l32u (fun v => v.setWidth 64) ∧
   ∀ (s : State) (st : Strip) (th : Thread) (w : Word), HdlReady s st th w 1 3 →
     (s.thread st.val th.val).modeF = true → (s.thread st.val th.val).addr w % 8 = 0 →
     spans inCsr ((s.thread st.val th.val).addr w) 8 = true →
     let r := (hdlIssued s st th).readCsr ((s.thread st.val th.val).addr w - csrBase)
     ∃ t, exec (.l64 st th w) s = .next t ∧ { t with thr := r.1.thr } = r.1 ∧
       (∀ (i : Strip) (j : Thread), (i, j) ≠ (st, th) → t.thread i.val j.val = s.thread i.val j.val) ∧
       ThrAfter (s.thread st.val th.val) (t.thread st.val th.val) .run ((s.thread st.val th.val).pc + 8) (hdlRd w) r.2) ∧
  (HdlStoreRow 8 1 .s8 ∧ HdlStoreRow 9 2 .s16 ∧ HdlStoreRow 10 4 .s32 ∧ HdlStoreRow 11 8 .s64 ∧
   HdlAtomicRow 0x10 .aadd (fun old x => old + x) ∧ HdlAtomicRow 0x11 .aswp (fun _ x => x) ∧
   ∀ (s : State) (st : Strip) (th : Thread) (w : Word), HdlReady s st th w 1 11 →
     (s.thread st.val th.val).modeF = true → (s.thread st.val th.val).addr w % 8 = 0 →
     spans inCsr ((s.thread st.val th.val).addr w) 8 = true →
     ∃ ns, exec (.s64 st th w) s = .next ((hdlWent s st th).draw.writeCsr ((s.thread st.val th.val).addr w - csrBase)
       ((s.thread st.val th.val).x (hdlRd w)) ns true))

/-- R220: in mode J any access to CSR space or to the top 8 GiB of DRAM, and any POSTC, is refused with HDL_ERR.PRIV: the
thread halts, and neither its registers nor memory change. -/
def Obligations.HeadlandModeJIsRefused : Prop :=
  ∀ (s : State) (st : Strip) (th : Thread) (w : Word), (s.thread st.val th.val).modeF = false →
    (∀ (c : Instr) (op : Nat), (c, op) ∈
        [(Instr.l8s st th w, 0), (.l16s st th w, 1), (.l32s st th w, 2), (.l64 st th w, 3), (.l8u st th w, 4), (.l16u st th w, 5),
         (.l32u st th w, 6), (.s8 st th w, 8), (.s16 st th w, 9), (.s32 st th w, 10), (.s64 st th w, 11), (.aadd st th w, 0x10),
         (.aswp st th w, 0x11)] →
      HdlReady s st th w 1 op →
      inCsr ((s.thread st.val th.val).addr w) = true ∨
        dumpBase ≤ (s.thread st.val th.val).addr w ∧ (s.thread st.val th.val).addr w < dramEnd →
      ∃ t, exec c s = .next t ∧ HdlTurnedAway s t st th 3) ∧
    (HdlReady s st th w 2 8 →
      inCsr ((s.thread st.val th.val).a w).toNat = true ∨
        dumpBase ≤ ((s.thread st.val th.val).a w).toNat ∧ ((s.thread st.val th.val).a w).toNat < dramEnd →
      ∃ t, exec (.postp st th w) s = .next t ∧ HdlTurnedAway s t st th 3) ∧
    (HdlReady s st th w 2 9 → ∃ t, exec (.postc st th w) s = .next t ∧ HdlTurnedAway s t st th 3)

/-- R228, R229: with a counter below 48 and an amount in range, SIGNAL adds b once the Winnow instructions passed before it
are done; WAIT with target 0 goes on at once, and otherwise waits; TRYWAIT takes b from a counter that holds it or leaves
it; SREAD reads; RSIGNAL sends b to the counter that a names, and where that takes a link a token of its core's bucket, without
which its thread stalls with nothing issued (R239). A counter out of range is refused with HDL_ERR.SIG. R228,
R232, R163: POSTP and POSTC put an entry at the end of the FIFO of their engine, or stall on a full one with nothing issued;
FENCE goes on; HALT makes the thread IDLE; a Winnow instruction enters the queue of its thread with the scalar values that
it names. -/
def Obligations.HeadlandSyncPostsAndPasses : Prop :=
  (∀ (s : State) (st : Strip) (th : Thread) (w : Word),
     let x := s.thread st.val th.val
     let b := (x.b w).toNat
     let c := hdlCtr w
     (HdlReady s st th w 2 0 → c < 48 → 1 ≤ b → b < 2 ^ 24 → WinQuiet s st th →
       exec (.signal st th w) s = .next ((hdlWent s st th).updateCtr st.val c b)) ∧
     (HdlReady s st th w 2 0 → c < 48 → 1 ≤ b → b < 2 ^ 24 → (s.wctx st.val th.val).queue ≠ [] →
       ∃ t, exec (.signal st th w) s = .next t ∧ t.stk = s.stk ∧
         ((t.wctx st.val th.val).queue.map (fun i => i.sigs)).flatten =
           ((s.wctx st.val th.val).queue.map (fun i => i.sigs)).flatten ++ [.here c b]) ∧
     (HdlReady s st th w 2 1 → c < 48 → b = 0 → s.isNode st.val c = false →
       exec (.wait st th w) s = .next (hdlWent s st th)) ∧
     (HdlReady s st th w 2 1 → c < 48 → 1 ≤ b → b < 2 ^ 24 → s.isNode st.val c = false →
       exec (.wait st th w) s = .next (((hdlWent s st th).onThread st.val th.val (fun t => { t with
         st := .wait, waitCtr := BitVec.ofNat 6 c })).beginWait st.val c ⟨.thread th, b⟩)) ∧
     (HdlReady s st th w 2 2 → c < 48 → b < 2 ^ 24 → s.isNode st.val c = false → ∃ t, exec (.trywait st th w) s = .next t ∧
       (b ≤ (s.ctr st.val c).toNat → (t.ctr st.val c).toNat = (s.ctr st.val c).toNat - b ∧
         HdlWrote { s with stk := t.stk } t st th w 1) ∧
       ((s.ctr st.val c).toNat < b → HdlWrote s t st th w 0)) ∧
     (HdlReady s st th w 2 3 → c < 48 → ∃ t, exec (.sread st th w) s = .next t ∧
       HdlWrote s t st th w (BitVec.ofNat 64 (s.ctr st.val c).toNat)) ∧
     (HdlReady s st th w 2 4 → (x.a w).toNat / 2 ^ 22 % 64 < 48 → 1 ≤ b → b < 2 ^ 24 → WinQuiet s st th →
       let chip := (x.a w).toNat % 2 ^ 16
       let u := hdlIssued s st th
       let send := fun (v : State) => v.remoteSignal st.val chip ((x.a w).toNat / 2 ^ 16 % 64) ((x.a w).toNat / 2 ^ 22 % 64) b
       (chip = s.chip ∨ s.live chip = false → exec (.rsignal st th w) s = .next (send (hdlWent s st th))) ∧
       (chip ≠ s.chip → s.live chip = true → u.tokensNow st.val ≠ 0 → exec (.rsignal st th w) s = .next (send
         ({ u.draw with tokens := Tab.put u.tokens st.val (u.tokensNow st.val - 1) }.onThread st.val th.val Thr.next))) ∧
       (chip ≠ s.chip → s.live chip = true → u.tokensNow st.val = 0 → exec (.rsignal st th w) s =
         .next (s.draw.onThread st.val th.val (fun y => { y with stalled := some 5 })))) ∧
     (48 ≤ c → (HdlReady s st th w 2 0 → ∃ t, exec (.signal st th w) s = .next t ∧ HdlTurnedAway s t st th 4) ∧
       (HdlReady s st th w 2 1 → ∃ t, exec (.wait st th w) s = .next t ∧ HdlTurnedAway s t st th 4) ∧
       (HdlReady s st th w 2 2 → ∃ t, exec (.trywait st th w) s = .next t ∧ HdlTurnedAway s t st th 4) ∧
       (HdlReady s st th w 2 3 → ∃ t, exec (.sread st th w) s = .next t ∧ HdlTurnedAway s t st th 4))) ∧
  (∀ (s : State) (st : Strip) (th : Thread) (w : Word),
     let x := s.thread st.val th.val
     let a := (x.a w).toNat
     let e := (x.b w).toNat
     (∀ k, HdlReady s st th w 2 8 → HdlMay x.modeF a 32 → s.errLines a 32 = [] → fifoOf st.val e = some k →
       (s.fifoFull st.val k = false → s.tooLate (planOf (s.peeks a 32) st x.modeF) = false → ∃ t,
         exec (.postp st th w) s = .next t ∧
         t.fifo st.val k = s.fifo st.val k ++ [.plan e (planOf (s.peeks a 32) st x.modeF)] ∧
         (t.thread st.val th.val).pc = x.pc + 8 ∧ t.mem = s.mem) ∧
       (s.fifoFull st.val k = true → exec (.postp st th w) s =
         .next (s.onThread st.val th.val (fun y => { y with stalled := some k })))) ∧
     (∀ k, HdlReady s st th w 2 9 → HdlMay x.modeF a 64 → s.errLines a 64 = [] → fifoOf st.val e = some k →
       x.modeF = true → s.bit furCtrl 0 = false →
       (s.fifoFull st.val k = false → ∃ t c, exec (.postc st th w) s = .next t ∧
         t.fifo st.val k = s.fifo st.val k ++ [.command e c] ∧ c.word = BitVec.ofNat 512 (leNat (s.peeks a 64)) ∧ c.core = st ∧
         c.direct = true ∧ (t.thread st.val th.val).pc = x.pc + 8 ∧ t.mem = s.mem) ∧
       (s.fifoFull st.val k = true → exec (.postc st th w) s =
         .next (s.onThread st.val th.val (fun y => { y with stalled := some k })))) ∧
     (HdlReady s st th w 2 0x0C → exec (.fence st th w) s = .next (hdlWent s st th)) ∧
     (HdlReady s st th w 2 0x10 → exec (.halt st th w) s =
       .next ((hdlWent s st th).onThread st.val th.val (fun t => { t with st := .idle }))) ∧
     (HdlReady s st th w 3 (hdlOp w) → (s.winnow st.val).halted = false → (s.wctx st.val th.val).queue.length < 8 →
       ∃ t, exec (.passWinnow st th w) s = .next t ∧
         (t.wctx st.val th.val).queue = (s.wctx st.val th.val).queue ++
           [{ word := w, xa := x.x (w.toNat / 2 ^ 45 % 32), xb := x.x (w.toNat / 2 ^ 40 % 32), pc := x.pc }] ∧
         (t.thread st.val th.val).pc = x.pc + 8) ∧
     (HdlReady s st th w 3 (hdlOp w) → (s.winnow st.val).halted = true →
       exec (.passWinnow st th w) s = .next (hdlWent s st th)))

-- Winnow (chapter 5).

/-- R176, R177: the arithmetic element instructions, with DIV, SQRT and RSQRT for floating formats alone. Each element of TD
takes the exact result rounded once to FMT2, and nothing else in memory changes. R178, R179, R180: the comparisons write −1
or 1.0 where they hold and 0 elsewhere, and no comparison but CMPNE holds of a NaN; SEL takes the element of TA where
element k of TC has a bit set, and of TB elsewhere. The bitwise and shift instructions work on an integer format: SHL
saturates or wraps as the overflow mode says, SHRA shifts in copies of the sign and SHRL zeros, by b[5:0]. -/
def Obligations.WinnowElementwise : Prop :=
  (WinArithRow 0x10 .winAdd (fun _ _ => true) (fun _ a b _ => .val (a.add b)) ∧
   WinArithRow 0x11 .winSub (fun _ _ => true) (fun _ a b _ => .val (a.add b.neg)) ∧
   WinArithRow 0x12 .winMul (fun _ _ => true) (fun _ a b _ => .val (a.mul b)) ∧
   WinArithRow 0x13 .fma (fun _ _ => true) (fun _ a b c => .val ((a.mul b).add c)) ∧
   WinArithRow 0x14 .nfma (fun _ _ => true) (fun _ a b c => .val ((a.mul b).neg.add c)) ∧
   WinArithRow 0x15 .winMin (fun _ _ => true) (fun _ a b _ => .val (a.min b)) ∧
   WinArithRow 0x16 .winMax (fun _ _ => true) (fun _ a b _ => .val (a.max b)) ∧
   WinArithRow 0x17 .abs (fun _ _ => true) (fun _ a _ _ => .val a.abs) ∧
   WinArithRow 0x18 .neg (fun _ _ => true) (fun _ a _ _ => .val a.neg) ∧
   WinArithRow 0x19 .scl (fun _ _ => true) (fun i a _ _ => .val (a.scale (toSigned 8 (i.word.toNat % 256)))) ∧
   WinArithRow 0x1A .div (fun f g => isFloat f && isFloat g) (fun _ a b _ => a.div b) ∧
   WinArithRow 0x1B .sqrt (fun f g => isFloat f && isFloat g) (fun _ a _ _ => .val a.sqrt) ∧
   WinArithRow 0x1C .rsqrt (fun f g => isFloat f && isFloat g) (fun _ a _ _ => a.rsqrt)) ∧
  (WinCmpRow 0x20 .cmpeq FV.eqNum ∧ WinCmpRow 0x21 .cmpne (fun a b => !a.eqNum b) ∧
   WinCmpRow 0x22 .cmplt (fun a b => a != .nan && b != .nan && a.ltNum b) ∧
   WinCmpRow 0x23 .cmple (fun a b => a != .nan && b != .nan && !b.ltNum a) ∧
   WinElemRow 0x24 .sel (fun _ _ => true) (fun s st th i k =>
     (encEl (winFmt2 i.word) (dithOf s st th i k) (winOv i.word)
       (if s.tileBits st.val (winTC i.word) (winFmt2 i.word) k ≠ 0 then srcA s st i k else srcB s st i k)).1) ∧
   WinBitRow 0x28 .winAnd (fun _ a b => a &&& b) ∧ WinBitRow 0x29 .winOr (fun _ a b => a ||| b) ∧
   WinBitRow 0x2A .winXor (fun _ a b => a ^^^ b) ∧
   WinBitRow 0x2B .winShl (fun i a b =>
     let w := fmtBits (winFmt i.word)
     let v := toSigned w a * 2 ^ (b % 64)
     ofSigned w (if winOv i.word then v else max (-(2 ^ (w - 1))) (min v (2 ^ (w - 1) - 1)))) ∧
   WinBitRow 0x2C .winShra (fun i a b => ofSigned (fmtBits (winFmt i.word)) (toSigned (fmtBits (winFmt i.word)) a / 2 ^ (b % 64))) ∧
   WinBitRow 0x2D .winShrl (fun _ a b => a / 2 ^ (b % 64)))

/-- R182, R183, R185, R187: CVT. Into an element format each element is the source times 2^K, rounded; into a block format
each block of the destination is aligned by R90, K applied and R89's replacements made first. With AM, K is the thread's
amax record's, and RUN of the record becomes the larger of itself and the sources' largest contribution. -/
def Obligations.WinnowConversions : Prop :=
  ∀ (s : State) (st : Strip) (th : Thread) (i : WinIns) (rest : List WinIns), s.Sound → WinFront s st th i rest 0x30 →
    let f := winFmt i.word
    let g := winFmt2 i.word
    let n := winN s st th i
    let grp := i.word.toNat % 4
    let k := toSigned 8 (i.word.toNat / 256 % 256)
    let src := fun j => s.tileAny st.val (winTA i.word) f grp (i.word.toNat / 128 % 2 == 1) j
    let r := (s.wctx st.val th.val).amax.toNat
    let am := i.word.toNat / 2 ^ 17 % 2
    f < 14 → g < 14 → n ≤ fmtCap f → n ≤ fmtCap g → winBc i.word = false → (grp ≠ 3 ∨ isElem f = true ∧ isElem g = true) →
    (am = 0 → isElem g = true → WinDone s st th i rest (exec (.cvt st th) s) (fun u =>
      TileTakes s u st (winTD i.word) g n (winZt i.word) (fun j =>
        (encEl g (dithOf s st th i j) (winOv i.word) ((src j).scale k)).1))) ∧
    (am = 0 → isBlock g = true → WinDone s st th i rest (exec (.cvt st th) s) (fun u =>
      u.mem = (s.winPutBlocks st.val (winTD i.word) g grp (i.word.toNat / 2 ^ 16 % 2 == 1) (winZt i.word)
        ((List.range n).map (fun j => replace89 f (blockSigned g (i.word.toNat / 2 ^ 16 % 2 == 1)) ((src j).scale k)))
        (dithOf s st th i)).mem)) ∧
    (am = 1 → s.amaxOk st.val th.val g = true → (s.peek (r + 67)).toNat % 16 = g → s.errLines (r + 64) 16 = [] →
      WinDone s st th i rest (exec (.cvt st th) s) (fun u =>
        (∀ j, j < n → u.tileBits st.val (winTD i.word) g j =
          (encEl g (dithOf s st th i j) (winOv i.word) ((src j).scale (toSigned 8 (s.peek (r + 65)).toNat))).1 % 2 ^ fmtBits g) ∧
        u.peekNat (r + 68) 4 = max (s.peekNat (r + 68) 4) (((List.range n).map src).foldl (fun acc v => match v with
          | .fin _ y => max acc (amaxBits y)
          | _ => acc) 0) ∧
        (∀ c, (c < r + 68 ∨ r + 72 ≤ c) → (c < tileData st.val (winTD i.word) ∨ tileData st.val (winTD i.word) + 0x1000 ≤ c) →
          u.peek c = s.peek c)))

/-- R192, R193, R194: LUTLD loads a table pair of finite coefficients from the strip's slice; LUT and LUTD then write the
interpolated value of each source, LUTD times b. A pair that is not valid refuses both. -/
def Obligations.WinnowLookupTables : Prop :=
  (∀ (s : State) (st : Strip) (th : Thread) (i : WinIns) (rest : List WinIns), WinFront s st th i rest 0x04 →
    let a := i.xa.toNat
    let bs := s.peeks a 24592
    inSlice st.val a 24592 = true → a % 16 = 0 → s.errLines a 24592 = [] → finite32 (msgNat bs 0 4) = true →
    (∀ x ∈ words32 6144 (bs.drop 16), finite32 x.toNat = true) → -24 ≤ toSigned 8 (msgNat bs 4 1) →
    toSigned 8 (msgNat bs 4 1) ≤ 8 → msgNat bs 5 1 ≤ 1 → msgNat bs 6 10 = 0 →
    WinDone s st th i rest (exec (.lutld st th) s) (fun u => u.mem = s.mem ∧
      let l := Tab.get (u.winnow st.val).luts {} (i.word.toNat / 2 ^ 53 % 8)
      l.valid = true ∧ l.lo.toNat = msgNat bs 0 4 ∧ l.f = words32 3072 (bs.drop 16) ∧ l.d = words32 3072 (bs.drop 12304) ∧
      l.exp2 = (msgNat bs 5 1 == 1))) ∧
  (∀ (deriv : Bool) (s : State) (st : Strip) (th : Thread) (i : WinIns) (rest : List WinIns), s.Sound →
    WinFront s st th i rest (if deriv then 0x32 else 0x31) → ElemFits i (winN s st th i) →
    (deriv = false → winBc i.word = false) →
    let l := Tab.get (s.winnow st.val).luts {} (i.word.toNat % 8)
    let row : Instr := if deriv then .lutd st th else .lut st th
    (l.valid = true → WinDone s st th i rest (exec row s) (fun u =>
      TileTakes s u st (winTD i.word) (winFmt2 i.word) (winN s st th i) (winZt i.word) (fun k =>
        (encEl (winFmt2 i.word) (dithOf s st th i k) (winOv i.word)
          (match lutEval l (if deriv then l.d else l.f) (srcA s st i k) with
           | none => .nan
           | some (y, _) => if deriv then (FV.fin false y).mul (srcB s st i k) else .fin false y)).1))) ∧
    (l.valid = false → ∃ t, exec row s = .next t ∧ WinTurnedAway s t st 6))

/-- R188, R189, R190, R191: the reductions to one element, the segment reductions, and SEGBC, which copies the element of the
segment that each identifier names and 0 for an identifier out of range. -/
def Obligations.WinnowReductionsAndSegments : Prop :=
  WinReduceRow 0x34 .rsum FV.add ∧ WinReduceRow 0x35 .rmax FV.max ∧ WinReduceRow 0x36 .rmin FV.min ∧
  WinSegRow 0x38 .segsum FV.add ∧ WinSegRow 0x39 .segmax FV.max ∧ WinSegRow 0x3A .segmin FV.min ∧
  ∀ (s : State) (st : Strip) (th : Thread) (i : WinIns) (rest : List WinIns), s.Sound → WinFront s st th i rest 0x3B →
    let n := winN s st th i
    let w := 2 ^ insBits i.word 0 3
    let nseg := insBits i.word 3 13
    isElem (winFmt i.word) = true → isElem (winFmt2 i.word) = true → n ≤ fmtCap (winFmt2 i.word) → n % w = 0 →
    1 ≤ nseg → nseg ≤ 4096 → nseg * w ≤ fmtCap (winFmt i.word) → winBc i.word = false →
    (n / w ≤ 2048 ∨ winTB i.word ≠ 63) →
    WinDone s st th i rest (exec (.segbc st th) s) (fun u =>
      TileTakes s u st (winTD i.word) (winFmt2 i.word) n (winZt i.word) (fun k =>
        let id := segId s st.val (winTB i.word) (k / w)
        if id < 0 ∨ (nseg : Int) ≤ id then 0
        else (encEl (winFmt2 i.word) (dithOf s st th i k) (winOv i.word) (srcA s st i (id.toNat * w + k % w))).1))

/-- R200, R201, R202: LD and LDR fill a tile register from plot SRAM or base-die buffers, low element first, LDR row by row at
a stride; ST and STR store its elements and leave every other byte of memory as it was. Said for element formats; a block
format also moves its exponents (R201). -/
def Obligations.WinnowMemory : Prop :=
  ∀ (s : State) (st : Strip) (th : Thread) (i : WinIns) (rest : List WinIns), s.Sound →
    let f := winFmt i.word
    let b := fmtBits f / 8
    let n := winN s st th i
    let a := (i.xa + BitVec.ofInt 64 (16 * toSigned 18 (i.word.toNat % 2 ^ 18))).toNat
    let w := 2 ^ (i.word.toNat % 8)
    let x := i.xa.toNat
    let y := i.xb.toNat
    isElem f = true → n ≤ fmtCap f →
    (a % 16 = 0 → winReach a (b * n) = true → s.errLines a (b * n) = [] →
      (WinFront s st th i rest 0x08 → WinDone s st th i rest (exec (.winLd st th) s) (fun u =>
        TileTakes s u st (winTD i.word) f n (winZt i.word) (fun k => leNat (s.peeks (a + b * k) b)))) ∧
      (WinFront s st th i rest 0x09 → WinDone s st th i rest (exec (.winSt st th) s) (fun u =>
        (∀ k, k < n → leNat (u.peeks (a + b * k) b) = s.tileBits st.val (winTD i.word) f k) ∧
        (∀ c, c < a ∨ a + b * n ≤ c → u.peek c = s.peek c)))) ∧
    (n % w = 0 → x % b = 0 → y % b = 0 → (n / w = 0 ∨ winReach x ((n / w - 1) * y + w * b) = true) →
      (∀ r, r < n / w → s.errLines (x + r * y) (w * b) = []) →
      (WinFront s st th i rest 0x0A → WinDone s st th i rest (exec (.ldr st th) s) (fun u =>
        TileTakes s u st (winTD i.word) f n (winZt i.word) (fun k =>
          leNat (s.peeks (x + k / w * y + b * (k % w)) b)))) ∧
      (WinFront s st th i rest 0x0B → w * b ≤ y ∨ n ≤ w → WinDone s st th i rest (exec (.str st th) s) (fun u =>
        (∀ k, k < n → leNat (u.peeks (x + k / w * y + b * (k % w)) b) = s.tileBits st.val (winTD i.word) f k) ∧
        (∀ c, (∀ r, r < n / w → c < x + r * y ∨ x + r * y + w * b ≤ c) → u.peek c = s.peek c))))

/-- R164, R168, R169, R204: NOP does nothing; SETCNT sets one count of its thread, up to 4,096; SETDITH sets IDXBASE and
SITE; SETAMAX the record's address; WSIG adds to a counter of the strip, at once or after the accumulator read that waits. A SETCNT above 4,096 is refused, and so is a
reserved OP, by whichever Winnow command meets it at the front of its queue (R206, R210, R211): its bit of WIN_ERR is set, the
engine halts with a job fault, and memory is as it was. -/
def Obligations.WinnowControl : Prop :=
  ∀ (s : State) (st : Strip) (th : Thread) (i : WinIns) (rest : List WinIns),
    let c := s.wctx st.val th.val
    let v := if i.word.toNat / 2 ^ 53 % 2 = 1 then i.xa.toNat % 8192 else i.word.toNat % 8192
    (WinFront s st th i rest 0x00 → WinDone s st th i rest (exec (.winNop st th) s) (fun u =>
      u.mem = s.mem ∧ u.wctx st.val th.val = { c with queue := rest })) ∧
    (WinFront s st th i rest 0x01 → v ≤ 4096 → WinDone s st th i rest (exec (.setcnt st th) s) (fun u =>
      u.mem = s.mem ∧ ∀ m, m < 4 → (u.wctx st.val th.val).count m = if m = i.word.toNat / 2 ^ 54 % 4 then v else c.count m)) ∧
    (WinFront s st th i rest 0x01 → 4096 < v → ∃ t, exec (.setcnt st th) s = .next t ∧ WinTurnedAway s t st 2) ∧
    (WinFront s st th i rest 0x02 → WinDone s st th i rest (exec (.setdith st th) s) (fun u =>
      u.mem = s.mem ∧ u.wctx st.val th.val = { c with
        queue := rest, idxBase := BitVec.ofNat 34 i.xa.toNat, site := BitVec.ofNat 28 i.word.toNat })) ∧
    (WinFront s st th i rest 0x03 → WinDone s st th i rest (exec (.setamax st th) s) (fun u =>
      u.mem = s.mem ∧ u.wctx st.val th.val = { c with queue := rest, amax := BitVec.ofNat 48 i.xa.toNat })) ∧
    (WinFront s st th i rest 0x05 → i.word.toNat / 2 ^ 50 % 64 < 48 → i.word.toNat / 2 ^ 42 % 256 ≠ 0 →
      (s.winnow st.val).accWait.isSome = true → WinDone s st th i rest (exec (.wsig st th) s) (fun u => u.stk = s.stk ∧
        u.mem = s.mem ∧ (u.winnow st.val).later = (s.winnow st.val).later ++
          [⟨th.val, i.word.toNat / 2 ^ 50 % 64, i.word.toNat / 2 ^ 42 % 256, []⟩])) ∧
    (WinFront s st th i rest 0x05 → i.word.toNat / 2 ^ 50 % 64 < 48 → i.word.toNat / 2 ^ 42 % 256 ≠ 0 →
      (s.winnow st.val).accWait = none → WinDone s st th i rest (exec (.wsig st th) s) (fun u => ∃ t : State, t.stk = s.stk ∧ t.waiters = s.waiters ∧
        t.mem = s.mem ∧ u = t.updateCtr st.val (i.word.toNat / 2 ^ 50 % 64) (i.word.toNat / 2 ^ 42 % 256))) ∧
    (∀ op, WinFront s st th i rest op → (s.winnow st.val).accWait = none → winReserved op = true →
      ∀ d ∈ [Instr.winNop st th, .setcnt st th, .setdith st th, .setamax st th, .lutld st th, .wsig st th, .winLd st th,
        .winSt st th, .ldr st th, .str st th, .winAdd st th, .winSub st th, .winMul st th, .fma st th, .cmpeq st th, .sel st th,
        .winAnd st th, .winShl st th, .cvt st th, .lut st th, .rsum st th, .segsum st th, .segbc st th, .accrd st th,
        .accrel st th],
      ∃ t, exec d s = .next t ∧ WinTurnedAway s t st 0)

/-- R134, R135, R136, R196, R197, R198: ACCRD and ACCREL of arrays that exist, whose records lie in groups of DRAIN. ACCRD
writes each drain read times 2^K, rounded into an element format or aligned into blocks, and with its release bit takes the
groups out of DRAIN as ACCREL does; a combine read that the drain port refuses is refused. An instruction whose run is not in
DRAIN yet has left its queue and waits, holding the accumulator unit, and once the run is there it completes, on a halted
engine too (R206). R236, R655: the gate commands. NOP completes and signals nothing; OPEN completes and
signals SIG_CTR; a JOIN whose counter already holds its target, with no other waiter there, takes it, completes and signals. -/
def Obligations.WinnowAccumulatorsAndGates : Prop :=
  (∀ (s : State) (st : Strip) (th : Thread) (i : WinIns) (rest : List WinIns), s.Sound →
     let x := i.word.toNat
     let n := (s.wctx st.val th.val).count (x / 2 ^ 24 % 4)
     let bank := x / 2 ^ 30 % 2
     let r := x / 2 ^ 31 % 512
     let g := x / 2 ^ 26 % 16
     let m := x / 2 ^ 40 % 1024
     let arrs := maskArrays m
     let released := fun (u : State) (on : Bool) => ∀ a ∈ arrs, (u.tiller st.val a).recs = (s.tiller st.val a).recs ∧
       ∀ k, k < 32 → (u.tiller st.val a).drain bank / 2 ^ k % 2 =
         if on = true ∧ k ∈ recGroups r n then 0 else (s.tiller st.val a).drain bank / 2 ^ k % 2
     m ≠ 0 → m &&& (s.reg (tilCtrl st.val)).toNat % 1024 = m → r + n ≤ 512 →
     (∀ e, (s.winnow st.val).accWait = some (th.val, i, e) → winOp i.word = 0x3D →
       s.drained st.val bank arrs (recGroups r n) = true → ∃ u, exec (.accrel st th) s = .next (u.accDone st.val false) ∧
         u.mem = s.mem ∧ released u true ∧ (u.wctx st.val th.val).queue = (s.wctx st.val th.val).queue ∧
         (u.winnow st.val).accWait = (s.winnow st.val).accWait) ∧
     ((s.winnow st.val).accWait = none →
     (s.drained st.val bank arrs (recGroups r n) = true →
       (∀ recs, WinFront s st th i rest 0x3C → g < 14 → n ≤ fmtCap g → (x / 2 ^ 16 % 4 ≠ 3 ∨ isElem g = true) → x / 2 ^ 19 % 2 = 0 →
         drainReads s st.val bank arrs n r = some recs → (∀ q ∈ recs, q.ovf = false) →
         WinDone s st th i rest (exec (.accrd st th) s) (fun u => released u (x / 2 ^ 20 % 2 == 1) ∧
           let k := toSigned 8 (x / 256 % 256)
           let dith := s.winDither st.val th.val (x / 2 ^ 23 % 2 == 1)
           let src := fun j => accValue (recs.getD j {}).value (recs.getD j {}).anchor
           let sgn := x / 2 ^ 18 % 2 == 1
           (isElem g = true → TileTakes s u st (winTD i.word) g n (x / 2 ^ 21 % 2 == 1) (fun j =>
             (encEl g (dith j) (x / 2 ^ 22 % 2 == 1) (.fin false ((src j).scale k))).1)) ∧
           (isBlock g = true → u.mem = (s.winPutBlocks st.val (winTD i.word) g (x / 2 ^ 16 % 4) sgn (x / 2 ^ 21 % 2 == 1)
             ((List.range n).map (fun j => replace89 0 (blockSigned g sgn) (.fin false ((src j).scale k)))) dith).mem))) ∧
       (WinFront s st th i rest 0x3C → g < 14 → n ≤ fmtCap g → (x / 2 ^ 16 % 4 ≠ 3 ∨ isElem g = true) → x / 2 ^ 19 % 2 = 0 →
         drainReads s st.val bank arrs n r = none → ∃ t, exec (.accrd st th) s = .next t ∧ WinTurnedAway s t st 5) ∧
       (WinFront s st th i rest 0x3D → WinDone s st th i rest (exec (.accrel st th) s) (fun u =>
         u.mem = s.mem ∧ released u true))) ∧
     (s.drained st.val bank arrs (recGroups r n) = false →
       (WinFront s st th i rest 0x3D → ∃ t, exec (.accrel st th) s = .next t ∧
         (t.winnow st.val).accWait = some (th.val, i, 0) ∧
         (t.wctx st.val th.val).queue = rest ∧ t.mem = s.mem ∧ t.til = s.til) ∧
       (WinFront s st th i rest 0x3C → g < 14 → n ≤ fmtCap g → (x / 2 ^ 16 % 4 ≠ 3 ∨ isElem g = true) → x / 2 ^ 19 % 2 = 0 →
         ∃ t, exec (.accrd st th) s = .next t ∧ (t.winnow st.val).accWait = some (th.val, i, toSigned 8 (x / 256 % 256)) ∧
           (t.wctx st.val th.val).queue = rest ∧ t.mem = s.mem ∧ t.til = s.til)))) ∧
  (∀ (s : State) (st : Strip) (c : QCmd), s.headCmd (engWin st.val) = some c → (s.winnow st.val).halted = false →
     (c.op = 0 → ∃ t, exec (.gateNop st) s = .next t ∧ (t.eng (engWin st.val)).cmds = (s.eng (engWin st.val)).cmds.tail ∧
       t.stk = s.stk ∧ t.mem = s.mem) ∧
     (c.op = 1 → c.badSig = false → ∃ t u : State, exec (.gateOpen st) s = .next t ∧ t = u.signalCtr c.core c.sigCtr c.sigAdd ∧
       u.stk = s.stk ∧ u.waiters = s.waiters ∧ (u.eng (engWin st.val)).cmds = (s.eng (engWin st.val)).cmds.tail ∧ u.mem = s.mem) ∧
     (c.op = 2 → c.badSig = false → c.b 11 0 6 < 48 → s.isNode st.val (c.b 11 0 6) = false →
       (s.eng (engWin st.val)).gate = .idle → Tab.get s.waiters [] (ctrKey st.val (c.b 11 0 6)) = [] →
       c.u 8 3 ≤ (s.ctr st.val (c.b 11 0 6)).toNat → c.sigCtr = 63 →
       ∃ t, exec (.gateJoin st) s = .next t ∧ (t.eng (engWin st.val)).cmds = (s.eng (engWin st.val)).cmds.tail ∧
         (t.ctr st.val (c.b 11 0 6)).toNat = (s.ctr st.val (c.b 11 0 6)).toNat - c.u 8 3))

-- Tiller (chapter 4).

/-- R119, R120, R121, R122, R132, R140, R143, R145, R146: the array commands. NOP and SETMODE complete once the array is
quiet, SETMODE with every record, group and buffer reset, at once or when the last group has left DRAIN; LOAD brings the
content of its bytes into the loader, and when done into the shadow buffer of its lot, or into the active one where a STREAM's
exchange waits for it; STREAM joins its lot's streams, with its exchange done at once in an idle lot, and completes when its
last set has landed; a frozen one has none, and does not wait for the last set of the STREAM before it. R120, R132, R133,
R134: a set lands, where the STREAM has exchanged and none of the set's groups is in DRAIN. Every target record takes the
contributions of its vector, from a cleared record with CLEAR and else from what it held; every other record stays; with HAND
the groups of the set pass to DRAIN. R137: a set with a group in DRAIN waits and changes no record; its STREAM stays, with what runs
into the links behind it. -/
def Obligations.TillerCommandsAndSets : Prop :=
  (∀ (s : State) (st : Strip) (a : Arr) (c : QCmd),
     let x := s.tiller st.val a.val
     (TilFront s st a c 0 → x.quiet = true → CmdDone c (exec (.tilNop st a) s) (fun u => u.til = s.til ∧ u.mem = s.mem)) ∧
     (TilFront s st a c 3 → x.quiet = true → x.drain0 = 0 → x.drain1 = 0 → CmdDone c (exec (.setmode st a) s) (fun u =>
       (u.tiller st.val a.val).mode.toNat = c.b 8 0 2 ∧ (u.tiller st.val a.val).lots = [] ∧ (u.tiller st.val a.val).recs = [])) ∧
     (TilFront s st a c 3 → x.quiet = true → x.drain0 ≠ 0 ∨ x.drain1 ≠ 0 → ∃ t, exec (.setmode st a) s = .next t ∧
       (t.tiller st.val a.val) = { x with setmode := some c } ∧ t.mem = s.mem) ∧
     (x.setmode = some c → x.drain0 = 0 → x.drain1 = 0 → CmdDone c (exec (.setmode st a) s) (fun u =>
       (u.tiller st.val a.val).mode.toNat = c.b 8 0 2 ∧ (u.tiller st.val a.val).lots = [] ∧ (u.tiller st.val a.val).recs = [] ∧
       (u.tiller st.val a.val).setmode = none)) ∧
     (TilFront s st a c 1 → x.loading = none → ldBad x st.val c = [] → (∀ g ∈ ldGroups c, ∀ r ∈ g, s.errLines r.1 r.2 = []) →
       ∃ t j, exec (.load st a) s = .next t ∧ (t.tiller st.val a.val).loading = some j ∧ j.lot = c.lot ∧
         j.content = ldContent c (ldBytes s c) ∧ ((t.tiller st.val a.val).lot c.lot).fresh = true ∧
         ((t.tiller st.val a.val).lot c.lot).active = (x.lot c.lot).active ∧ t.mem = s.mem) ∧
     (∀ j, x.loading = some j → (x.lot j.lot).shadowState = .loading → dueSwap x.mode.toNat (x.lot j.lot).streams = none →
       CmdDone j.cmd (exec (.loadDone st a) s) (fun u =>
         ((u.tiller st.val a.val).lot j.lot).shadow = j.content ∧ ((u.tiller st.val a.val).lot j.lot).shadowState = .ready ∧
         (u.tiller st.val a.val).loading = none ∧ ((u.tiller st.val a.val).lot j.lot).active = (x.lot j.lot).active)) ∧
     (∀ j k, x.loading = some j → (x.lot j.lot).shadowState = .loading → dueSwap x.mode.toNat (x.lot j.lot).streams = some k →
       CmdDone j.cmd (exec (.loadDone st a) s) (fun u =>
         (u.tiller st.val a.val).loading = none ∧ Exchanged x (u.tiller st.val a.val) j.lot j.content False)) ∧
     (TilFront s st a c 2 → stBad x st.val c = [] → (x.lot c.lot).streams.length < 2 → ∃ t, exec (.stream st a) s = .next t ∧
       lotCmds (t.tiller st.val a.val) c.lot = lotCmds x c.lot ++ [c] ∧
       (t.tiller st.val a.val).recs = x.recs ∧ t.mem = s.mem ∧
       (stSwap c = true → (x.lot c.lot).streams = [] → (x.lot c.lot).shadowState = .ready →
         Exchanged x (t.tiller st.val a.val) c.lot (x.lot c.lot).shadow (∃ j, x.loading = some j ∧ j.lot = c.lot)) ∧
       (stSwap c = false → dueSwap x.mode.toNat (x.lot c.lot).streams = none →
         (t.tiller st.val a.val).lot c.lot = { x.lot c.lot with streams := (x.lot c.lot).streams ++ [{ cmd := c }] })) ∧
     (∀ (l : Lot) j r, (x.lot l.val).streams = j :: r → j.ran x.mode.toNat = true → j.held = [] →
       CmdDone j.cmd (exec (.streamDone st a l) s) (fun u =>
         lotCmds (u.tiller st.val a.val) l.val = r.map (fun i => i.cmd) ∧ (u.tiller st.val a.val).recs = x.recs)) ∧
     (∀ (l : Lot) j k q, (x.lot l.val).streams = j :: k :: q → j.ran x.mode.toNat = true → j.held ≠ [] →
       stFrozen k.cmd = true → k.ran x.mode.toNat = true → CmdDone k.cmd (exec (.streamDone st a l) s) (fun u =>
         lotCmds (u.tiller st.val a.val) l.val = j.cmd :: q.map (fun i => i.cmd) ∧ (u.tiller st.val a.val).recs = x.recs))) ∧
  (∀ (s : State) (st : Strip) (a : Arr) (l : Lot) (j : StreamJob) (r : List StreamJob) (tile : List Byte) (vs : List Vec),
     let x := s.tiller st.val a.val
     let mode := x.mode.toNat
     let c := j.cmd
     let b := (x.lot l.val).active
     let sl := lotSlots mode
     let lo := j.setsDone * sl
     let hi := min (stV c) (lo + sl)
     let bank := (stBank c + j.setsDone) % 2
     let recs := setRecs mode b.pair l.val lo hi
     (x.lot l.val).streams = j :: r → stFrozen c = false → j.setsDone < setCount mode c → stSwap c = false ∨ j.swapped = true →
     j.held = [] → l.val < lotCount mode → s.feedSet (engTil st.val) j lo hi = (s, some (tile, vs)) → vs.length = hi - lo →
     ∃ t, exec (.setHandover st a l) s = .next t ∧ t.mem = s.mem ∧
       (x.blocked bank recs = true → (t.tiller st.val a.val).recs = x.recs ∧ (t.tiller st.val a.val).drain0 = x.drain0 ∧
         (t.tiller st.val a.val).drain1 = x.drain1 ∧
         (s.Clean → lotCmds (t.tiller st.val a.val) l.val = lotCmds x l.val)) ∧
       (x.blocked bank recs = false →
         (∀ m k, m < hi - lo → k < targetCols mode b.pair →
           let q := recAddr mode l.val ((lo + m) % sl) k
           (t.tiller st.val a.val).recAt bank q =
             accumulate c b k (vs.getD m ⟨true, []⟩) (if stClear c then clearRec c else x.recAt bank q)) ∧
         (∀ bk q, bk < 2 → q < 512 → (bk ≠ bank ∨ q ∉ recs) → (t.tiller st.val a.val).recAt bk q = x.recAt bk q) ∧
         (∀ g, g < 32 → (t.tiller st.val a.val).drain bank / 2 ^ g % 2 =
           if stHand c = true ∧ g ∈ recs.map (fun q => q / 16) then 1 else x.drain bank / 2 ^ g % 2)))

/-- R93, R94, R96: in wrap mode a record takes, modulo 2^80, the sum of what its blocks contribute, each the exact block sum
floored at the record's anchor; so neither the order of blocks nor an intermediate overflow shows in the value. -/
def Obligations.TillerDotProductIsExactModulo : Prop :=
  ∀ (c : QCmd) (b : Buf) (k : Nat) (v : Vec) (r : AccRec), stWrap c = true →
    (accumulate c b k v r).value = r.value + BitVec.ofInt 80 ((v.blocks.map (contribution c b k)).sum) ∧
    (accumulate c b k v r).anchor = r.anchor ∧ (accumulate c b k v r).valid = r.valid

-- Registers (chapters 1 and 11).

/-- R8, R406: a software write of a register that has no effect beyond its access codes. Bits of code RW take the value;
bits of code W1C are cleared where it is 1; all others keep theirs, and so does every other register. An offset assigned to
no register ignores the write and reads 0. R339, R381, R372: the registers that take a write only in part. LOG2 of GLN_DIR
and MLOG2 of SHF_BANK outside 10 to 16 are ignored and the base is taken all the same; SHF_CFADDR takes 0 or a 16-byte
aligned address in the base-die buffers. -/
def Obligations.RegisterWrites : Prop :=
  (∀ (a : BitVec 48) (v : Word) (s : State), inCsr a.toNat = true → a.toNat % 8 = 0 →
     let o := a.toNat - csrBase
     (regInfo o = none → exec (.csrWritePlain a v) s = .next s ∧ s.readCsr o = (s, 0)) ∧
     (∀ i, regInfo o = some i → o / 0x1000000 ∈ [1, 2, 3, 5, 13, 15, 16] →
       ∃ t, exec (.csrWritePlain a v) s = .next t ∧ OnlyReg s t o ∧
         ∀ b, b < 64 → t.bit o b = if i.rw / 2 ^ b % 2 = 1 then v.getLsbD b
           else s.bit o b && !(decide (i.w1c / 2 ^ b % 2 = 1) && v.getLsbD b))) ∧
  (∀ (s : State) (v : Word),
     (∃ t, exec (.glnDirWrite v) s = .next t ∧ OnlyReg s t glnDir ∧ t.fld glnDir 0 48 = v.toNat % 2 ^ 48 ∧
       t.fld glnDir 48 5 = (if 10 ≤ v.toNat / 2 ^ 48 % 32 ∧ v.toNat / 2 ^ 48 % 32 ≤ 16 then v.toNat / 2 ^ 48 % 32
         else s.fld glnDir 48 5)) ∧
     (∀ e : Eng, ∃ t, exec (.shfBankWrite e v) s = .next t ∧ OnlyReg s t (shfBank e.val) ∧
       t.fld (shfBank e.val) 0 48 = v.toNat % 2 ^ 48 ∧
       t.fld (shfBank e.val) 48 5 = (if 10 ≤ v.toNat / 2 ^ 48 % 32 ∧ v.toNat / 2 ^ 48 % 32 ≤ 16 then v.toNat / 2 ^ 48 % 32
         else s.fld (shfBank e.val) 48 5)) ∧
     (v.toNat % 2 ^ 48 = 0 ∨ (v.toNat % 2 ^ 48 % 16 = 0 ∧ inBuf (v.toNat % 2 ^ 48) = true) →
       ∃ t, exec (.shfCfaddrWrite v) s = .next t ∧ OnlyReg s t shfCfaddr ∧ t.fld shfCfaddr 0 48 = v.toNat % 2 ^ 48) ∧
     (v.toNat % 2 ^ 48 ≠ 0 → v.toNat % 2 ^ 48 % 16 ≠ 0 ∨ inBuf (v.toNat % 2 ^ 48) = false →
       exec (.shfCfaddrWrite v) s = .next s))

-- Glean (chapter 8).

/-- R302, R309, R322, R325: the commands of a gather port. Each waits at its gate as the oldest waiter. NOP completes; MARK
sets its field of GLN_FENCE to STEP + 1, where that neither lowers it nor puts APPLIED_THRU above MERGED_THRU, and is
refused else; REFRESH of a module without slots completes, and else every named slot is HELD with a write of version k + 1
queued, of its home record or, for a row that did not change, of the version alone; a GATHER with no read left completes and
signals. R304, R305, R306, R310: a GATHER without DEDUP whose rows are of this module and whose sources its output cannot
touch fills output row j from entry FIRST + j: a row's image, with its SCALE byte where SCALES is given, or a zero row of
the command's row size where the ID maps to no valid row. No other byte of memory changes, and no read stays outstanding. -/
def Obligations.GleanCommandsAndGathers : Prop :=
  (∀ (s : State) (port : Strip) (c : QCmd),
     let e := engGln port.val
     (∀ x ∈ [(0, Instr.glnNop port), (1, Instr.gather port), (2, Instr.mark port), (3, Instr.refresh port)],
       GlnFront s port c x.1 → GateShut s e c → ∃ t, exec x.2 s = .next t ∧ GateWaiting t e c ∧ t.mem = s.mem) ∧
     (GlnFront s port c 0 → GateOpen s e c → CmdDone c (exec (.glnNop port) s) (fun u => Taken s u e ∧ u.gln = s.gln ∧
       u.mem = s.mem)) ∧
     (GlnFront s port c 2 → GateOpen s e c → c.b 8 0 1 = 0 → s.fld glnFence 0 32 ≤ (c.u 12 4 + 1) % 2 ^ 32 →
       CmdDone c (exec (.mark port) s) (fun u => Taken s u e ∧ u.fld glnFence 0 32 = (c.u 12 4 + 1) % 2 ^ 32 ∧
         u.fld glnFence 32 32 = s.fld glnFence 32 32 ∧ OnlyReg { s with engines := u.engines } u glnFence)) ∧
     (GlnFront s port c 2 → GateOpen s e c → c.b 8 0 1 = 1 → s.fld glnFence 32 32 ≤ (c.u 12 4 + 1) % 2 ^ 32 →
       (c.u 12 4 + 1) % 2 ^ 32 ≤ s.fld glnFence 0 32 →
       CmdDone c (exec (.mark port) s) (fun u => Taken s u e ∧ u.fld glnFence 32 32 = (c.u 12 4 + 1) % 2 ^ 32 ∧
         u.fld glnFence 0 32 = s.fld glnFence 0 32 ∧ OnlyReg { s with engines := u.engines } u glnFence)) ∧
     (GlnFront s port c 2 → GateOpen s e c →
       (c.b 8 0 1 = 0 ∧ (c.u 12 4 + 1) % 2 ^ 32 < s.fld glnFence 0 32) ∨
       (c.b 8 0 1 = 1 ∧ ((c.u 12 4 + 1) % 2 ^ 32 < s.fld glnFence 32 32 ∨ s.fld glnFence 0 32 < (c.u 12 4 + 1) % 2 ^ 32)) →
       ∃ t, exec (.mark port) s = .next t ∧ t.bit (glnErr port.val) 5 = true ∧ (t.gport port.val).halted = true ∧
         JobFaulted t ∧ t.reg glnFence = s.reg glnFence ∧ t.mem = s.mem) ∧
     (GlnFront s port c 3 → GateOpen s e c → s.fld glnFence 32 32 = (c.u 8 4 + 1) % 2 ^ 32 →
       (s.gln.slots.map (fun p => p.1)).Nodup → (∀ i, ¬ refreshNames s i) → NoRefresh s →
       CmdDone c (exec (.refresh port) s) (fun u => Taken s u e ∧ (∀ q : Strip, u.gport q.val = s.gport q.val) ∧
         u.gln.slots = s.gln.slots ∧ u.gln.jobs = s.gln.jobs ∧ u.mem = s.mem)) ∧
     (GlnFront s port c 3 → GateOpen s e c → s.fld glnFence 32 32 = (c.u 8 4 + 1) % 2 ^ 32 → s.Clean →
       (s.gln.slots.map (fun p => p.1)).Nodup → (∃ i, refreshNames s i) → (∀ i, refreshNames s i → s.homeReach i = true) →
       ∃ t, exec (.refresh port) s = .next t ∧ (t.gport port.val).refreshing = some c ∧ t.mem = s.mem ∧
         (∀ j ∈ s.gln.jobs, j ∈ t.gln.jobs) ∧
         ∀ i, refreshNames s i → (t.slotSt i).held = true ∧ ∃ j ∈ t.gln.jobs, j.slot = i ∧ j.mine = true ∧
           j.ver = BitVec.ofNat 32 (c.u 8 4 + 1) ∧
           j.image = if refreshBumps s (c.u 8 4) i then none else
             some (s.peeks (s.homeAddr (s.table (s.slotSt i).table) (s.slotSt i).row) (s.table (s.slotSt i).table).rowBytes)) ∧
     (∀ g r, (s.gport port.val).runs = g :: r → g.listDone = true → (∀ x ∈ (s.gport port.val).reads, x.2.run ≠ g.id) →
       (∀ y ∈ r, y.id ≠ g.id) →
       CmdDone g.cmd (exec (.gatherDone port) s) (fun u => (u.gport port.val).runs = r ∧ u.mem = s.mem))) ∧
  (∀ (s : State) (port : Strip) (c : QCmd), s.Sound → GlnFront s port c 1 → GateOpen s (engGln port.val) c → gatherBad s c = [] →
     gaDedup c = false → gaCount c ≤ gaMax c → GatherQuiet s port c →
     (gaRaw c = false ∨ c.a 32 = 0 ∨ c.a 32 + gaCount c ≤ c.a 24 ∨
       c.a 24 + (gaCount c - 1) * gaStride c + s.gaRowSize c ≤ c.a 32) →
     ∃ t, exec (.gather port) s = .next t ∧ (t.gport port.val).reads = [] ∧
       (∃ g ∈ (t.gport port.val).runs, g.cmd = c ∧ g.listDone = true) ∧
       (∀ j, j < gaCount c → ∀ tb r, s.mapId (gaTables c) (entryId s c j) = some (tb, r) →
         Holds t (c.a 24 + j * gaStride c)
           (rowImage (s.table tb) (gaRaw c) (gaOfmt c) (s.peeks (s.homeAddr (s.table tb) r) (s.table tb).rowBytes)) ∧
         (gaRaw c = true → c.a 32 ≠ 0 → t.peek (c.a 32 + j) = s.peek (s.homeAddr (s.table tb) r))) ∧
       (∀ j, j < gaCount c → s.mapId (gaTables c) (entryId s c j) = none →
         Holds t (c.a 24 + j * gaStride c) (List.replicate (s.gaRowSize c) 0) ∧
         (gaRaw c = true → c.a 32 ≠ 0 → t.peek (c.a 32 + j) = 0)) ∧
       (∀ x, x < c.a 24 ∨ c.a 24 + (gaCount c - 1) * gaStride c + s.gaRowSize c ≤ x →
         gaRaw c = false ∨ c.a 32 = 0 ∨ x < c.a 32 ∨ c.a 32 + gaCount c ≤ x → t.peek x = s.peek x))

/-- R324, R326: a slot write leaves the image in the slot, its version set, VALID and not BUSY, HELD only while another
write of the slot waits; a parked read whose fence has opened is answered from the home record: here to the row read of a
port of this module, and by a response to another module. R319, R320: an edit of the next bank. An INSERT that R319 admits
leaves the row in its bucket with its kind and slot, and the slot IN_NEXT and not VALID; one that it does not admit gives a
code whose cause holds, and has no other effect. A REMOVE empties the entry and clears IN_NEXT, or gives NOT_FOUND. Every
edit gives SYNCING while the copy of a flip runs, whose end makes the next bank equal to the current one. Where two causes
hold, which code is given is the model's choice (log entry 26). -/
def Obligations.GleanSlotsAndDirectory : Prop :=
  ((∀ (s : State) (slot : Fin 49152) (q r : List SlotJob) (j : SlotJob), s.Sound → s.Clean → s.gln.jobs = q ++ j :: r →
     (∀ x ∈ q, x.slot ≠ slot.val) → j.slot = slot.val → (s.slotSt slot.val).refs = 0 →
     (∀ bs, j.image = some bs → s.slotReach slot.val = true ∧ bs.length ≤ s.fld glnCtrl 16 16) →
     ∃ t, exec (.slotWrite slot) s = .next t ∧ t.gln.jobs = q ++ r ∧
       t.slotSt slot.val = { s.slotSt slot.val with
         held := r.any (fun x => x.slot == slot.val), busy := false, ver := j.ver, valid := j.image.isSome || (s.slotSt slot.val).valid } ∧
       (∀ bs, j.image = some bs → Holds t (s.slotAddr slot.val) bs ∧
         ∀ x, x < s.slotAddr slot.val ∨ s.slotAddr slot.val + bs.length ≤ x → t.peek x = s.peek x) ∧
       (j.image = none → t.mem = s.mem)) ∧
   ∀ (s : State) (pos : Nat) (q : Parked), s.Sound → s.Clean → s.gln.parked[pos]? = some q → s.fenceOpen q = true →
     s.gln.requests = [] → s.bit glnCtrl 1 = false → ListsRead s →
     jobReach (s.homeAddr (s.table q.table) q.row) (s.table q.table).rowBytes = true →
     let home := s.peeks (s.homeAddr (s.table q.table) q.row) (s.table q.table).rowBytes
     (∀ (port : Strip) i r, q.asker = .here port i → Tab.look (s.gport port.val).reads i = some r →
       (s.gport port.val).halted = false → r.table = q.table → (s.table r.table).sound = true → r.raw = true ∨ r.ofmt ≤ 2 →
       (r.raw = false ∨ r.scaleAddr = 0) → sramReach r.outAddr (outBytes (s.table r.table) r.raw r.ofmt) = true →
       ∃ t, exec (.parkedReadAnswer pos) s = .next t ∧ t.gln.parked = s.gln.parked.eraseIdx pos ∧
         Tab.look (t.gport port.val).reads i = none ∧ Holds t r.outAddr (rowImage (s.table r.table) r.raw r.ofmt home)) ∧
     (∀ chip tag, q.asker = .remote chip tag → s.live chip.toNat = true →
       ∃ u : State, exec (.parkedReadAnswer pos) s = .next (u.send (mkMsg 3 0x30 chip.toNat false
         (leBytes 2 tag.toNat ++ leBytes 1 0 ++ leBytes 1 0 ++ leBytes 4 home.length ++ leBytes 8 0 ++ home))) ∧
         u.gln.parked = s.gln.parked.eraseIdx pos ∧ u.mem = s.mem)) ∧
  (∀ (s : State) (v : Word), s.Sound → s.Clean →
     let r := editRow s
     let t := editTable s
     let k := editKind s
     let n := editSlot v
     let es := dirEntries s (!s.gln.cur) t r
     let full : Bool := !dirPlaced s || es.all (fun a => entryKind s a != 0)
     let here : Bool := (s.dirLookup (!s.gln.cur) t r).isSome
     let slotOk : Bool := (s.slotSt (slotIndex k n)).free && (k != 1 || decide (n < s.copySlots))
     let kindOk : Bool := (k == 1 && (s.ownWord (s.table t) r).1 == s.chip) || (k == 2 && s.inQuota s.chip n)
     let answered := fun (o : Out) (x : Nat) => ∃ q, OnlyRead s q ∧ o = .next (q.setReg glnDirRes (BitVec.ofNat 64 (1 + 2 * x)))
     (s.gln.syncing = true → v.toNat % 4 = 1 → answered (exec (.dirInsert v) s) 5) ∧
     (s.gln.syncing = true → v.toNat % 4 = 2 → answered (exec (.dirRemove v) s) 5) ∧
     (s.gln.syncing = false → v.toNat % 4 = 1 → full = false → here = false → slotOk = true → kindOk = true →
       ∃ u, exec (.dirInsert v) s = .next u ∧ u.reg glnDirRes = 1 ∧
         (∃ a, u.dirLookup (!s.gln.cur) t r = some (a, k, n)) ∧ (u.slotSt (slotIndex k n)).inNext = true ∧
         (u.slotSt (slotIndex k n)).valid = false ∧ u.gln.cur = s.gln.cur) ∧
     (s.gln.syncing = false → v.toNat % 4 = 1 → (full || here || !slotOk || !kindOk) = true →
       (full = true ∧ answered (exec (.dirInsert v) s) 1) ∨ (here = true ∧ answered (exec (.dirInsert v) s) 4) ∨
       (slotOk = false ∧ answered (exec (.dirInsert v) s) 2) ∨ (kindOk = false ∧ answered (exec (.dirInsert v) s) 6)) ∧
     (s.gln.syncing = false → v.toNat % 4 = 2 → here = false → answered (exec (.dirRemove v) s) 3) ∧
     (∀ a kd m, s.gln.syncing = false → v.toNat % 4 = 2 → s.dirLookup (!s.gln.cur) t r = some (a, kd, m) →
       ∃ u, exec (.dirRemove v) s = .next u ∧ u.reg glnDirRes = 1 ∧ entryKind u a = 0 ∧
         (u.slotSt (slotIndex kd m)).inNext = false ∧ u.gln.cur = s.gln.cur) ∧
     (s.gln.syncing = true → s.gln.drops = [] → dirPlaced s = true → ∃ u, exec .dirSyncDone s = .next u ∧ u.gln.syncing = false ∧
       ∀ i, i < 2 ^ (dirLog2 s + 6) → u.peek (dirBankAddr s (!s.gln.cur) + i) = s.peek (dirBankAddr s s.gln.cur + i)))

-- Drill (chapter 7).

/-- R275, R276, R277: the three modes. Uniform chooses min(k, n) distinct candidates in ascending position; recent takes the
newest first and draws no words; weighted makes k draws, emits only edges in the time window, and counts the others. R283:
whatever the graph, a parcel never exceeds the caps of its sampling descriptor, and it holds each node once. -/
def Obligations.SamplingWithinCaps : Prop :=
  ((∀ (word : Nat → Nat) (a n k : Nat), (∀ w, word w < 2 ^ 32) →
     (uniformPick word a n k).length = min k n ∧ (uniformPick word a n k).Pairwise (· < ·) ∧
     ∀ x ∈ uniformPick word a n k, a ≤ x ∧ x < a + n) ∧
   (∀ a b k, (recentPick a b k).length = min k (b - a) ∧ ∀ i, i < min k (b - a) → (recentPick a b k)[i]? = some (b - 1 - i)) ∧
   ∀ (word : Nat → Nat) (tab es : List (Nat × Nat)) (lo tq k : Nat),
     (weightedPick word tab es lo tq k).1.length + (weightedPick word tab es lo tq k).2 = k ∧
     ∀ p ∈ (weightedPick word tab es lo tq k).1, ∃ e, es[p]? = some e ∧ lo ≤ e.2 ∧ e.2 ≤ tq) ∧
  (∀ (b : Build) (s t : State) (p : Parcel) (d : Sdesc) (mb : Nat) (last : Bool), runBuild b s = .ok t (p, d, mb, last) →
     p.seeds.length ≤ d.capSeeds ∧ p.nodes.length ≤ d.capNodes ∧ p.edges ≤ d.capEdges ∧ p.nodes.Nodup)

/-- R290, R281, R282, R285, R287: the commands of a sampler and the build of a parcel. NOP completes; a SAMPLE that the rules
admit joins its gang; once the gang of a step is whole and the seed table holds the step, a build begins, which SAMPLED_STEP
and DRL_BUILD show, and it goes on or its gang is halted with a job fault; a gang whose PARCEL or step is no longer due halts with a
job fault; a build that has read all it needs writes its block, and every member completes, its plan taking LAST. -/
def Obligations.DrillCommandsAndBuilds : Prop :=
  (∀ (s : State) (d : Smp) (c : QCmd), DrlFront s d c 0 → s.bit drlCtrl d.val = true →
    CmdDone c (exec (.drlNop d) s) (fun u => Taken s u (engDrl d.val) ∧ u.drl = s.drl ∧ u.mem = s.mem)) ∧
  (∀ (s : State) (d : Smp) (c : QCmd), DrlFront s d c 1 → SampleFits s d c → s.errLines (c.a 16) 64 = [] →
    ∃ t, exec (.sample d) s = .next t ∧ Taken s t (engDrl d.val) ∧ (t.sampler d.val).joined = some c ∧
      (t.eng (engDrl d.val)).inFlight = (s.eng (engDrl d.val)).inFlight + 1 ∧ t.mem = s.mem) ∧
  (∀ (s : State) (d : Smp) (c : QCmd), s.drl.build = none → s.closed 5 0 = false → s.readyBuild = some (d, c) → s.Clean →
    (seqBad s c = true → ∃ t, exec .parcelBuildStart s = .next t ∧ t.bit (drlErr d.val) 5 = true ∧
      (t.sampler d.val).halted = true ∧ t.drl.build = none ∧ JobFaulted t ∧ t.mem = s.mem) ∧
    (seqBad s c = false → drlReach (seedTabAddr c) 32 = true →
    ∃ t, exec .parcelBuildStart s = .next t ∧ t.fld drlSampled 0 32 = c.step.toNat ∧ t.fld drlBuild 0 32 = c.parcel.toNat ∧
      t.drl.seqNext = some (c.step, BitVec.ofNat 64 (s.peekNat (seedTabAddr c + 16) 8)) ∧ t.mem = s.mem ∧
      (∀ b, t.drl.build = some b → b.cmd = c ∧ b.lead = d ∧ b.got = [] ∧ t.bit drlBuild 48 = true) ∧
      (t.drl.build = none → JobFaulted t ∧ t.bit drlBuild 48 = false))) ∧
  ∀ (s r : State) (b : Build) (p : Parcel) (d : Sdesc) (mb : Nat) (last : Bool), s.Sound → s.Clean →
    s.drl.build = some b → runBuild b s = .ok r (p, d, mb, last) →
    let c := b.cmd
    let block := parcelBlock c.step.toNat c.parcel.toNat mb d p last
    drlReach (c.a 24) block.length = true →
    ∃ t, exec .parcelBuildDone s = .next t ∧ Holds t (c.a 24) block ∧ t.drl.build = none ∧ t.bit drlBuild 48 = false ∧
      t.drl.prev = some (c.step, c.parcel) ∧ (t.drl.cursorMb, t.drl.cursorSi) = (p.mb, p.si) ∧
      (∀ x, x < c.a 24 ∨ c.a 24 + block.length ≤ x → t.peek x = s.peek x) ∧
      ∀ k ∈ smpGang c, (t.sampler k).joined = none ∧ ((s.sampler k).joined ≠ none →
        (t.eng (engDrl k)).running = (s.eng (engDrl k)).running.map (fun q => { q with last := q.last || last }))

/-- R267, R268, R269, R270: the next batch of edges. One at or below the last applied is discarded with no effect; one that is
late or out of order is refused whole and still counts as applied; and an edge of a batch in order is appended at NEW_LEN of
its node, with the last TIME where its own is lower, and the node record follows in one write. -/
def Obligations.EdgeBatches : Prop :=
  ∀ (s : State) (b : Batch), BatchAlone s b →
    (b.seq.toNat ≤ (s.reg drlIngSeq).toNat → ∃ t, exec .batchApply s = .next t ∧ t.drl.ingest = [] ∧
      Counted s t (drlCnt 9) 1 ∧ t.reg drlIngSeq = s.reg drlIngSeq ∧ t.mem = s.mem) ∧
    (∀ k, b.seq.toNat = (s.reg drlIngSeq).toNat + 1 → s.sampledStep = some k → b.applyStep.toNat ≤ k →
      ∃ t, exec .batchApply s = .next t ∧ t.drl.ingest = [] ∧ t.reg drlIngSeq = b.seq ∧ t.bit drlIngErr 0 = true ∧
        t.drl.lastApply = s.drl.lastApply ∧ t.mem = s.mem) ∧
    (∀ x, b.seq.toNat = (s.reg drlIngSeq).toNat + 1 → s.drl.lastApply = some x → b.applyStep.toNat < x.toNat →
      ∃ t, exec .batchApply s = .next t ∧ t.drl.ingest = [] ∧ t.reg drlIngSeq = b.seq ∧ t.bit drlIngErr 1 = true ∧
        t.mem = s.mem) ∧
    ∀ (r : State) (v dst : BitVec 40) (tm : BitVec 24) (ta k : Nat),
      let g := batchGraph s b
      let a := nodeAddr s g v.toNat
      let n := nodeOf (s.peeks a 32)
      let fresh : Bool := decide (n.newStep < b.applyStep.toNat)
      let low := s.peekNat (ta + 16 + 8 * (k - 1) + 5) 3
      s.Sound → s.Clean → BatchInOrder s b → b.recs = [(v, tm, dst)] → g.valid v.toNat = true → g.valid dst.toNat = true →
      nodeOwner s g v.toNat = s.chip → tailSeg (n.newLen + 2) n.seg s = .ok r (some (ta, k)) → 1 ≤ k → k < 510 →
      n.newLen < 2 ^ 32 - 1 → drlReach (graphAddr s b.graph.toNat) 64 = true →
      drlReach (g.partTab + 8 * (v.toNat / 2 ^ g.shift)) 8 = true → drlReach a 32 = true → drlReach ta 4096 = true →
      a + 32 ≤ ta ∨ ta + 4096 ≤ a →
      ∃ t, exec .batchApply s = .next t ∧ t.drl.ingest = [] ∧ t.reg drlIngSeq = b.seq ∧
        t.drl.lastApply = some b.applyStep ∧ Counted s t (drlCnt 7) 1 ∧
        t.peekNat (ta + 16 + 8 * k) 8 = dst.toNat + max tm.toNat low * 2 ^ 40 ∧ t.peekNat (ta + 12) 2 = k + 1 ∧
        nodeOf (t.peeks a 32) = { n with newLen := n.newLen + 1, visLen := if fresh then n.newLen else n.visLen,
                                         newStep := if fresh then b.applyStep.toNat else n.newStep } ∧
        (∀ x, x < a ∨ a + 32 ≤ x → x < ta ∨ ta + 4096 ≤ x → t.peek x = s.peek x)

-- Sheaf (chapter 9).

/-- R355, R349, R351, R372, R373: contributions. ABSORB of a row merges its elements, scaled and floored at the anchor, into the
entry of the row, or makes the entry; an ID of no row counts as a miss; an ABSORB of any length that meets no uncorrectable
error and whose banks are open completes, or the engine of a full bank, or of a row whose ownership word is out of reach (R404),
halts and the reader is stuck. DACC adds a run of
elements to a dense buffer, and DSUM one buffer to another, each after clearing a destination of another step. A row or a DACC
whose engine's bank is not open waits, which BANK_WAIT shows. R346, R343: the order in which two records of a row are added
into its merge entry does not show in memory. -/
def Obligations.SheafContributionsInAnyOrder : Prop :=
  (∀ (s : State) (e : Eng) (c : QCmd), s.Sound → s.Clean →
     let i := engShf e.val
     let k := c.step.toNat
     (ShfFront s e c 1 → absorbBad s c = [] → BanksOpen s c.step →
       CmdDone c (exec (.absorb e) s) (fun u => Taken s u i) ∨
       ∃ t m, exec (.absorb e) s = .next t ∧ (t.bit (shfErr m) 4 = true ∨ t.bit (shfErr m) 2 = true) ∧
         (t.sheaf m).halted = true ∧ JobFaulted t ∧ (t.sheaf e.val).absorbStuck = true) ∧
     (ShfFront s e c 1 → absorbBad s c = [] → abCount c = 1 → absorbRowOf s c = none →
       CmdDone c (exec (.absorb e) s) (fun u => Counted s u (shfCnt e.val 5) 1 ∧ u.mem = s.mem)) ∧
     (∀ t r, ShfFront s e c 1 → absorbBad s c = [] → abCount c = 1 → absorbRowOf s c = some (t, r) → r < 2 ^ 40 →
       let m := rowEngine t r
       let cs := contribsAt s (abGfmt c) (abScale c) (s.anchorOf t) (s.table t).dim (c.a 16)
       jobReach ((s.table t).ownAddr r) 8 = true →
       ((s.sheaf m).openFor c.step = false → ∃ u, exec (.absorb e) s = .next u ∧ (u.sheaf e.val).bankWait = true ∧ u.mem = s.mem) ∧
       (∀ a, (s.sheaf m).openFor c.step = true → bankReach s m = true → s.probe (k % 2) t r = .found a →
         CmdDone c (exec (.absorb e) s) (fun u => EntryAdded s u a (cs.map (fun x => x.1)) (contribMag cs) 1)) ∧
       (∀ a, (s.sheaf m).openFor c.step = true → bankReach s m = true → s.probe (k % 2) t r = .free a →
         CmdDone c (exec (.absorb e) s) (fun u => EntryNew s u a t r k (cs.map (fun x => x.1)) (contribMag cs) 1))) ∧
     (ShfFront s e c 2 → daccBad s true c = [] → (s.sheaf (bufEngine (c.a 16))).openFor c.step = false →
       ∃ u, exec (.dacc e) s = .next u ∧ (u.sheaf e.val).bankWait = true ∧ u.mem = s.mem) ∧
     (ShfFront s e c 2 → daccBad s true c = [] → (s.sheaf (bufEngine (c.a 16))).openFor c.step = true →
       let b := c.a 16
       let cs := contribsAt s (c.b 32 0 4) (toSigned 8 (c.u 33 1)) (denseOf (s.peeks b 64)).g (c.u 28 4) (c.a 8)
       CmdDone c (exec (.dacc e) s) (fun u => Taken s u i ∧ (denseOf (u.peeks b 64)).step = k ∧
         (∀ j, j < c.u 28 4 → u.sumAt (b + 64 + 8 * (c.u 24 4 + j)) =
           wrap64 (denseOld s b k (c.u 24 4 + j) + (cs.map (fun x => x.1)).getD j 0)) ∧
         (∀ j, j < (denseOf (s.peeks b 64)).elems → j < c.u 24 4 ∨ c.u 24 4 + c.u 28 4 ≤ j →
           u.sumAt (b + 64 + 8 * j) = denseOld s b k j) ∧
         (∀ x, x < b ∨ b + 64 + 8 * (denseOf (s.peeks b 64)).elems ≤ x → u.peek x = s.peek x))) ∧
     (ShfFront s e c 3 → dsumBad s true c = [] →
       let b := c.a 16
       CmdDone c (exec (.dsum e) s) (fun u => Taken s u i ∧ (denseOf (u.peeks b 64)).step = k ∧
         (∀ j, j < (denseOf (s.peeks b 64)).elems → u.sumAt (b + 64 + 8 * j) =
           wrap64 (denseOld s b k j + s.sumAt (c.a 8 + 64 + 8 * j))) ∧
         (∀ x, x < b ∨ b + 64 + 8 * (denseOf (s.peeks b 64)).elems ≤ x → u.peek x = s.peek x)))) ∧
  (∀ (s : State) (e a : Nat) (cs ds : List Int) (m1 m2 n1 n2 : Nat), s.Sound → s.Clean → cs.length = ds.length →
     spans inDram a (64 + 8 * cs.length) = true →
     let n := 64 + 8 * cs.length
     let t := s.addEntry e a (s.views a n) cs m1 n1
     let u := s.addEntry e a (s.views a n) ds m2 n2
     (t.addEntry e a (t.views a n) ds m2 n2).mem = (u.addEntry e a (u.views a n) cs m1 n1).mem)

/-- R353, R357, R361, R365, R366, R369, R370, R376: the other commands, each of which completes where it stands first at an engine
that runs and its own rules hold: shfNop, norm, advance, flush, flushDone, apply, ledgerTake, ledgerDrop, ledgerGate and
ledgerPublish. NORM adds the norm of the in-range OWNED entries of its bank
to NSUM; ADVANCE raises T; FLUSH sends one message for each FOREIGN entry, which becomes GONE, and completes once all are
acknowledged; APPLY of a bank with one OWNED entry writes that row's record, frees the bank and opens it two steps on, and no
other memory changes; the ledger's TAKE, DROP, GATE and PUBLISH keep its counts, and a TAKE before its version waits. -/
def Obligations.SheafCommandsAndLedger : Prop :=
  ∀ (s : State) (e : Eng) (c : QCmd), s.Sound → s.Clean →
    let i := engShf e.val
    let k := c.step.toNat
    let b := k % 2
    (ShfFront s e c 0 → CmdDone c (exec (.shfNop e) s) (fun u => Taken s u i ∧ u.shf = s.shf ∧ u.mem = s.mem)) ∧
    (ShfFront s e c 5 → (s.sheaf e.val).openFor c.step = true →
      s.optReach (s.entryTables ((s.bankEntries e.val b 2).filter (inRange s))) = true →
      CmdDone c (exec (.norm e) s) (fun u => Taken s u i ∧
      u.nsum = min (s.nsum + (((s.bankEntries e.val b 2).filter (inRange s)).map (entryNorm s)).sum) (2 ^ 128 - 1) ∧
      u.mem = s.mem ∧ ∀ o, o ≠ shfNsumLo → o ≠ shfNsumHi → u.reg o = s.reg o)) ∧
    (ShfFront s e c 6 → let a := s.optAddr (c.u 8 1) + 4
      jobReach (s.optAddr (c.u 8 1)) 64 = true → CmdDone c (exec (.advance e) s) (fun u => Taken s u i ∧
        u.peekNat a 4 = min (s.peekNat a 4 + 1) (2 ^ 32 - 1) ∧ ∀ x, x < a ∨ a + 4 ≤ x → u.peek x = s.peek x)) ∧
    (ShfFront s e c 4 → s.absorbing c.step = false → (s.sheaf e.val).openFor c.step = true → 64 ≤ entryStride s →
      bankReach s e.val = true →
      (∀ a ∈ s.bankEntries e.val b 1, s.live (s.entryOwner a) = true) →
      ∃ t, exec (.flush e) s = .next t ∧ Taken s t i ∧
        (t.sheaf e.val).flush = some ⟨c, (s.bankEntries e.val b 1).length, 0⟩ ∧
        (∀ a ∈ s.bankEntries e.val b 1, entryState t a = 3) ∧ (∀ a ∈ s.bankEntries e.val b 2, entryState t a = 2)) ∧
    (∀ f, (s.sheaf e.val).flush = some f → f.sent ≤ f.acked →
      CmdDone f.cmd (exec (.flushDone e) s) (fun u => (u.sheaf e.val).flush = none ∧ u.mem = s.mem)) ∧
    (∀ a, ShfFront s e c 7 → ownedOf s e.val k = [a] → (s.sheaf e.val).openFor c.step = true →
      applyBad s e.val c [a] = [] → inRange s a = true → 64 ≤ entryStride s → bankReach s e.val = true →
      (∀ m, m < 48 → (s.sheaf m).bankWait = false) →
      jobReach (entryHome s a) (appliedRecord s a k).length = true →
      entryHome s a + (appliedRecord s a k).length ≤ bankLo s e.val b ∨ bankHi s e.val b ≤ entryHome s a →
      CmdDone c (exec (.apply e) s) (fun u => Taken s u i ∧ Holds u (entryHome s a) (appliedRecord s a k) ∧
        (∀ j, j < 2 ^ bankLog2 s e.val → entryState u (entryAddr s e.val b j) = 0) ∧
        (u.sheaf e.val).openFor (c.step + 2) = true ∧
        ∀ x, x < entryHome s a ∨ entryHome s a + (appliedRecord s a k).length ≤ x → x < bankLo s e.val b ∨ bankHi s e.val b ≤ x →
          u.peek x = s.peek x)) ∧
    (let en := ldEntry c
     let n := ldVersion c
     let x := s.ledger en
     (LedFront s e c 0 → n ≤ x.pub.toNat → x.pub.toNat < n + 2 → ¬ (x.writing n = true ∧ x.pub.toNat = n + 1) →
        x.users n < 2 ^ 24 - 1 → CmdDone c (exec (.ledgerTake e) s) (fun u => LedgerIs s u en (x.setUsers n (x.users n + 1)))) ∧
     (LedFront s e c 0 → x.pub.toNat < n → ∃ t, exec (.ledgerTake e) s = .next t ∧ Taken s t i ∧
        t.shf.waits = [⟨e, c, false⟩] ∧ t.ledger en = x) ∧
     (LedFront s e c 1 → x.users n ≠ 0 →
        CmdDone c (exec (.ledgerDrop e) s) (fun u => LedgerIs s u en (x.setUsers n (x.users n - 1)))) ∧
     (LedFront s e c 2 → x.pub.toNat + 1 = n → x.writing n = false → x.users n = 0 →
        CmdDone c (exec (.ledgerGate e) s) (fun u => LedgerIs s u en (x.setWriting n true))) ∧
     (LedFront s e c 3 → x.pub.toNat + 1 = n → x.writing n = true →
        CmdDone c (exec (.ledgerPublish e) s) (fun u => LedgerIs s u en { x.setWriting n false with pub := BitVec.ofNat 32 n })))

-- Harrow (chapter 12) and the reduction engine (chapter 13).

/-- R448, R449, R461, R465, R469: the life of a descriptor. The first of a channel starts once its gate and START allow, spending
a baton for START 2, or is refused with its bits and halts the channel; NOP moves nothing; a descriptor that has moved its data
completes, with its status written back and OWN cleared last where it asks, and a pass to its target; an access without
answer is tried again after a backoff until RETRIES, then the channel halts with BUS. R468, R587: HRW_RESET resets an idle
channel at once and closes a busy one, which is reset once it is idle, or at IDLE_US with FORCED set and counted; every other
channel stays. -/
def Obligations.HarrowDescriptors : Prop :=
  ∀ (s : State) (ch : Chan),
    let e := chEng ch.val
    (∀ k c ns, hwFind ch.val (s.eng e).cmds = some (k, c) → (s.chan ch.val).halted = false → (s.chan ch.val).running = none →
      s.closed 4 ch.val = false → (s.eng e).fetchLeft = 0 → c.gateCtr = 63 ∨ (c.gateCtr < 48 ∧ (s.chan ch.val).gate = .passed) →
      s.hwMayStart ch.val c ns = true →
      (∀ u src dst, hwCheck s ch.val c = .ok u src dst [] → ∃ t r, exec (.hrwDescStart ch ns) s = .next t ∧
        (t.eng e).cmds = (s.eng e).cmds.eraseIdx k ∧ (t.chan ch.val).running = some r ∧ r.cmd = c ∧ r.src = src ∧ r.dst = dst ∧
        r.moved = false ∧ r.acc = none ∧ r.pos = 0 ∧ r.doneBytes = 0 ∧
        (t.chan ch.val).baton = (if hwStart c = 2 then (s.chan ch.val).baton - 1 else (s.chan ch.val).baton)) ∧
      (∀ u src dst bits, hwCheck s ch.val c = .ok u src dst bits → bits ≠ [] → ∃ t, exec (.hrwDescStart ch ns) s = .next t ∧
        (∀ b ∈ bits, t.bit (chErr ch.val) b = true) ∧ (t.chan ch.val).halted = true ∧ (t.chan ch.val).running = none ∧
        JobFaulted t)) ∧
    (∀ r, HwRunning s ch r 0 → ∃ t, exec (.hrwNop ch) s = .next t ∧ HwMovedBy t ch r 0 r.result ∧ t.mem = s.mem) ∧
    (∀ r, s.Sound → s.Clean → (s.chan ch.val).running = some r → r.moved = true →
      let a := r.cmd.addr.toNat
      spans inDram a 64 = true →
      CmdDone r.cmd (exec (.hrwDescComplete ch) s) (fun u => (u.chan ch.val).running = none ∧
        (hwWb r.cmd = false → u.mem = s.mem) ∧
        (hwWb r.cmd = true → u.peek (a + 48) = 1 ∧ u.peekNat (a + 49) 1 = min 255 r.retries ∧
          u.peekNat (a + 52) 4 = min r.doneBytes (2 ^ 32 - 1) ∧ u.peekNat (a + 56) 4 = r.result.toNat ∧
          (u.peek (a + 1)).getLsbD 7 = false ∧ KeepsOutside s u a 64) ∧
        (hwFlag r.cmd 0 = true → (s.chan (r.cmd.u 30 1)).baton ≠ 65535 →
          (u.chan (r.cmd.u 30 1)).baton = (s.chan (r.cmd.u 30 1)).baton + 1))) ∧
    (∀ r a, (s.chan ch.val).running = some r → r.acc = some a → a.backoff = false →
      (a.tries < s.fld (hrwCtrl (chStrip ch.val)) 4 3 → exec (.hrwRemoteTimeout ch) s =
        .next (s.setChan ch.val { s.chan ch.val with running := some { r with acc := some { a with backoff := true } } })) ∧
      (s.fld (hrwCtrl (chStrip ch.val)) 4 3 ≤ a.tries → ∃ t, exec (.hrwRemoteTimeout ch) s = .next t ∧
        t.bit (chErr ch.val) 5 = true ∧ (t.chan ch.val).halted = true ∧ (t.chan ch.val).running = none ∧ JobFaulted t)) ∧
    (∀ r a, (s.chan ch.val).running = some r → r.acc = some a → a.backoff = true → s.live (a.addr.toNat / 2 ^ 48) = true →
      ∃ t tag, exec (.hrwRetry ch) s = .next t ∧ (t.chan ch.val).running =
        some { r with retries := r.retries + 1, acc := some { a with tries := a.tries + 1, backoff := false, tag := tag } }) ∧
    (∀ (st : Strip) (v : Word), ∃ t, exec (.hrwChannelReset st v) s = .next t ∧ t.mem = s.mem ∧ ∀ k : Chan,
      (k.val / 4 = st.val → v.getLsbD (k.val % 4) = true → s.closed 4 k.val = false → t.closed 4 k.val = true ∧
        (s.chanQuiet k.val = true → (t.chan k.val).running = none ∧ (t.chan k.val).halted = false ∧ (t.chan k.val).baton = 0 ∧
          (t.chan k.val).gate = .idle) ∧
        (s.chanQuiet k.val = false → t.chan k.val = s.chan k.val)) ∧
      (k.val / 4 ≠ st.val ∨ v.getLsbD (k.val % 4) = false ∨ s.closed 4 k.val = true → t.chan k.val = s.chan k.val)) ∧
    (s.block = none → s.chPending true = some ch → ∃ t, exec .blockResetApply s = .next t ∧ t.closed 4 ch.val = true ∧
      t.bit rstBlockStatus 1 = false ∧ (t.chan ch.val).halted = false ∧ (t.chan ch.val).baton = 0) ∧
    (s.block = none → s.chPending false = some ch → ∃ t, exec .blockResetTimeout s = .next t ∧ t.closed 4 ch.val = true ∧
      t.bit rstBlockStatus 1 = true ∧ (t.chan ch.val).running = none ∧ Counted s t rstCntForced 1)

/-- R454, R455: COPY and FILL between streams of this module: byte o of the destination is byte o of the source, or of the
repeated 8-byte pattern, in entry order over any lists of segments; no other byte of memory changes. R456, R458, R459, R460:
SPLIT and MERGE transpose each unit between elements and bit planes, and undo each other; ILV and DILV interleave streams
and take them apart; SPACK writes a packed tile, body and header. Nothing beyond the destination changes. -/
def Obligations.HarrowStreamsAndTransforms : Prop :=
  (∀ (s : State) (ch : Chan) (r : HrwRun), s.Sound → s.Clean → r.pos = 0 → r.hold = [] →
     let n := hwLen r.cmd
     LocalStream s r.dst n → PlainDest r.dst n →
     (HwRunning s ch r 1 → LocalStream s r.src n → (∀ o p, o < n → p < n → streamAt r.src o ≠ streamAt r.dst p) →
       ∃ t, exec (.copy ch) s = .next t ∧ HwMovedBy t ch r n r.result ∧
         (∀ o, o < n → t.peek (streamAt r.dst o) = s.peek (streamAt r.src o)) ∧
         (∀ x, (∀ o, o < n → streamAt r.dst o ≠ x) → t.peek x = s.peek x)) ∧
     (HwRunning s ch r 2 → r.src = [] →
       ∃ t, exec (.fill ch) s = .next t ∧ HwMovedBy t ch r n r.result ∧
         (∀ o, o < n → t.peek (streamAt r.dst o) = BitVec.ofNat 8 (r.cmd.u (32 + o % 8) 1)) ∧
         (∀ x, (∀ o, o < n → streamAt r.dst o ≠ x) → t.peek x = s.peek x))) ∧
  ((∀ (w rows : Nat) (bs : List Byte), 0 < w → 0 < rows → bs.length = 4 * rows * w →
     mergeUnit w rows (splitUnit w rows bs) = bs ∧ splitUnit w rows (mergeUnit w rows bs) = bs) ∧
   ∀ (s : State) (ch : Chan) (r : HrwRun), HwLocal s r.cmd →
     let c := r.cmd
     let w := fmtBits (hwFmt c)
     let sa (u : Nat) : Nat := hwSrc c + u * hwSstride c
     let da (u : Nat) : Nat := hwDst c + u * hwDstride c
     (HwRunning s ch r 3 → ∃ t, exec (.split ch) s = .next t ∧ HwMovedBy t ch r (hwLen c * hwUnit c) r.result ∧
       PiecesMoved s t (hwLen c) (hwUnit c) sa da (splitUnit w (hwRows c)) ∧ KeepsOutside s t (hwDst c) (hwExtents c).2) ∧
     (HwRunning s ch r 4 → ∃ t, exec (.merge ch) s = .next t ∧ HwMovedBy t ch r (hwLen c * hwUnit c) r.result ∧
       PiecesMoved s t (hwLen c) (hwUnit c) sa da (mergeUnit w (hwRows c)) ∧ KeepsOutside s t (hwDst c) (hwExtents c).2) ∧
     (HwRunning s ch r 5 → ∃ t, exec (.ilv ch) s = .next t ∧ HwMovedBy t ch r (hwLen c * hwWays c * hwElem c) r.result ∧
       PiecesMoved s t (hwLen c * hwWays c) (hwElem c) (ilvStream c (hwSrc c)) (ilvJoined c (hwDst c)) (fun b => b) ∧
       KeepsOutside s t (hwDst c) (hwExtents c).2) ∧
     (HwRunning s ch r 6 → ∃ t, exec (.dilv ch) s = .next t ∧ HwMovedBy t ch r (hwLen c * hwWays c * hwElem c) r.result ∧
       PiecesMoved s t (hwLen c * hwWays c) (hwElem c) (ilvJoined c (hwSrc c)) (ilvStream c (hwDst c)) (fun b => b) ∧
       KeepsOutside s t (hwDst c) (hwExtents c).2) ∧
     (HwRunning s ch r 7 →
       let p := packTile c (s.peeks (hwSrc c) (denseSize (hwNrows c) (hwKgrp c) w))
       ∃ t, exec (.spack ch) s = .next t ∧ HwMovedBy t ch r (16 + p.2.1.length) (BitVec.ofNat 32 (16 + p.2.1.length)) ∧
         Holds t (hwDst c) p.1 ∧ Holds t (hwDst c + 16) p.2.1 ∧ p.1.length = 16 ∧
         p.2.1.length ≤ denseSize (hwNrows c) (hwKgrp c) w ∧ KeepsOutside s t (hwDst c) (hwExtents c).2))

/-- R507 to R514, R361 to R363, R107: the reduction engine. NOP completes; a command that R509 does not admit halts the engine; one
of a node with children joins its local contribution to the staging bank and runs on; at a root without children RDENSE
delivers each sum times 2^G in FP32, or zeros for a MAG out of range, and RNORM delivers NSUM to SHF_GNSUM and forms the clip
factor. The scale of an amax record is the largest power of two that keeps the maximum within the format. -/
def Obligations.ReductionCommands : Prop :=
  (∀ (s : State) (c : QCmd),
    let n := ridElems s (rdRid c)
    let bank := bankAddr s (rdRid c) (c.step.toNat % 2)
    let kids := treeChildren s (rdTree c)
    (RedFront s c 0 → CmdDone c (exec .redNop s) (fun u => Taken s u engRed ∧ u.red = s.red ∧ u.mem = s.mem)) ∧
    (RedFront s c 1 → s.Clean → Tab.look s.red.banks (redKey c) = none → denseFits s c = false →
      ∃ t, exec .rdense s = .next t ∧ t.bit spxErr 2 = true ∧ t.red.halted = true ∧ JobFaulted t ∧ t.mem = s.mem) ∧
    (RedFront s c 1 → RedClean s c → denseFits s c = true → kids ≠ 0 → spans inDram (c.a 8) (64 + 8 * n) = true →
      Apart (c.a 8) (64 + 8 * n) (ridAddr s (rdRid c)) 16 →
      Apart (c.a 8) (64 + 8 * n) (ridStage s (rdRid c)) (2 * (64 + 8 * n)) →
      ∃ t, exec .rdense s = .next t ∧ t.red.running = some c ∧ Taken s t engRed ∧
        (∀ i, i < n → t.sumAt (bank + 64 + 8 * i) = redSum s c i) ∧
        (∀ j, j ≤ lastChunk s c → (t.redMask c j).getLsbD 32 = true ∧ (t.redMask c j).getLsbD 34 = false) ∧
        KeepsOutside s t bank (64 + 8 * n)) ∧
    (RedFront s c 2 → RedClean s c → normFits s c = true → kids ≠ 0 →
      ∃ t, exec .rnorm s = .next t ∧ t.red.running = some c ∧ Taken s t engRed ∧
        (∀ j, j ≤ lastChunk s c → (t.redMask c j).getLsbD 32 = true ∧ (t.redMask c j).getLsbD 34 = false) ∧
        t.peekNat (bank + 32) 16 = s.nsum ∧ KeepsOutside s t bank (64 + 8 * n)) ∧
    (RedFront s c 1 → RedClean s c → denseFits s c = true → kids = 0 → treeRoot s (rdTree c) = true →
      spans inDram (c.a 8) (64 + 8 * n) = true → Apart (c.a 8) (64 + 8 * n) (ridAddr s (rdRid c)) 16 →
      Apart (c.a 8) (64 + 8 * n) (ridStage s (rdRid c)) (2 * (64 + 8 * n)) →
      CmdDone c (exec .rdense s) (fun u => u.red.running = none ∧ (∀ i, i < n → u.peekNat (c.a 16 + 4 * i) 4 =
        if (denseOf (s.peeks (c.a 8) 64)).step = c.step.toNat ∧ 2 ^ 63 ≤ (denseOf (s.peeks (c.a 8) 64)).mag then 0
        else (encEl 0 none false (.fin false ((Ex.ofInt (redSum s c i)).scale (ridG s (rdRid c))))).1))) ∧
    (RedFront s c 2 → RedClean s c → normFits s c = true → kids = 0 → treeRoot s (rdTree c) = true → s.fld shfCfaddr 0 48 = 0 →
      CmdDone c (exec .rnorm s) (fun u => u.red.running = none ∧ u.reg shfGnsumLo = s.reg shfNsumLo ∧
        u.reg shfGnsumHi = s.reg shfNsumHi ∧ u.shf.cfStep = some c.step ∧ u.fld shfCf 32 31 = c.step.toNat % 2 ^ 31 ∧
        u.fld shfCf 0 32 = clipFactor s.nsum s.nanchor (s.fld shfNormCtrl 32 32)))) ∧
  ∀ h m : Ex, 0 < h.n → 0 < h.d → 0 < m.n → 0 < m.d →
    Ex.lt m (h.scale (largestShift h m)) = false ∧ Ex.lt m (h.scale (largestShift h m + 1)) = true

-- Septax links and ports (chapter 13).

/-- R484, R485, R487, R489, R490, R493, R503: what a port that is UP does with a flit. The next in sequence is accepted,
returns its credits and is counted, and the credit of its buffer leaves on a sequenced idle where nothing else leaves; any other
sequenced flit is discarded and answered with one NAK, which leaves on the next idle; one without a free buffer fences the port;
one of a bad CRC is counted and none of its fields used; a message does not begin in a block under reset. An idle returns credit
only in sequence. A message of one flit for this module is taken whole where the route entry of its own chip is VALID, else
discarded with ROUTE. An acknowledgement that does not come has every flit sent again, each at most 8 times.
R498, R499, R500, R501, R487: a router passes on an accepted flit: the FIRST flit of a message chooses the output from the route
mask, the others follow; a flit that has taken 10 hops, or that has no output, is discarded with HOPS or ROUTE and a job fault; a
reserved TYPE raises a job fault. An ABORT closes the message of its class that has not ended, and follows one that is
forwarded. -/
def Obligations.LinksTakeAndForwardFlits : Prop :=
  (∀ (s : State) (p : Port) (f : Flit), NoRefresh s →
     let q := s.port p.val
     let kept := q.replay.filter (fun r => !seqLe r.flit.seq f.ack)
     (FlitIn s p f → FlitNext s p f → q.waiting = [] → ∃ t, s.rxFlit p.val f = (t, true) ∧ OnlyLinks s t ∧
       (t.port p.val).st = .up ∧ (t.port p.val).rxSeq = q.rxSeq + 1 ∧ (t.port p.val).nakSent = false ∧
       (∀ c, c < 4 → (t.port p.val).cred c = (q.cred c + natBits f.credit (4 * c) 4) % 2 ^ 16) ∧
       (q.owes = false → kept.length < 4096 → ∃ r : RFlit, (t.port p.val).replay = kept ++ [r] ∧ r.flit.isIdle = true ∧
         r.flit.seq = (q.txSeq + 1).toNat ∧ r.flit.ack = (q.rxSeq + 1).toNat ∧ r.flit.credit = 16 ^ f.cls ∧
         r.flit.crc = r.flit.crcOf.toNat ∧ r.resent = 0 ∧ ∀ c, c < 4 → (t.port p.val).owed c = 0) ∧
       (4096 ≤ kept.length → (t.port p.val).replay = kept ∧ (t.port p.val).owed f.cls = q.owed f.cls + 1) ∧
       (∀ r : Port, r ≠ p → t.port r.val = s.port r.val) ∧ Counted s t (spxCnt p.val 1) 1) ∧
     (FlitIn s p f → f.isIdle = false ∨ f.credit ≠ 0 → f.seq ≠ (q.rxSeq + 1).toNat → ∃ t, s.rxFlit p.val f = (t, false) ∧
       OnlyLinks s t ∧ (t.port p.val).rxSeq = q.rxSeq ∧ (t.port p.val).nakSent = true ∧
       (q.waiting = [] → q.owes = false → ∃ g, (t.port p.val).idleSent = some g ∧ g.nak = (q.nakOwed || !q.nakSent) ∧
         g.ack = q.rxSeq.toNat ∧ g.crc = g.crcOf.toNat)) ∧
     (FlitIn s p f → f.isIdle = false → f.seq = (q.rxSeq + 1).toNat → classBufs f.cls ≤ bufsTaken s p f →
       ∃ t, s.rxFlit p.val f = (t, false) ∧ (t.port p.val).st = .fenced ∧ t.bit (spxPortErr p.val) 3 = true) ∧
     (q.st = .up → f.crc = f.crcOf.toNat → f.nak = false → s.closed 3 p.val = true ∨ s.closed 6 0 = true → f.isIdle = false →
       f.isFirst = true → ∃ t, s.rxFlit p.val f = (t, false) ∧ OnlyLinks s t ∧ (t.port p.val).rxSeq = q.rxSeq ∧
       (t.port p.val).nakSent = q.nakSent) ∧
     (f.crc ≠ f.crcOf.toNat → s.rxFlit p.val f = (s.count (spxCnt p.val 2) 1, false)) ∧
     (q.st = .up ∨ q.st = .hello →
       exec (.flitCrcFail p) s = .next ((s.count (spxCnt p.val 2) 1).count (spxCnt p.val 5) 1)) ∧
     (FlitIn s p f → f.isIdle = true → f.credit = 0 → q.waiting = [] → q.owes = false → ∃ t, exec (.idleFlit p f) s = .next t ∧
       OnlyLinks s t ∧ (t.port p.val).rxSeq = q.rxSeq ∧ (t.port p.val).replay = kept) ∧
     (FlitIn s p f → f.isIdle = true → f.credit ≠ 0 → f.seq = (q.rxSeq + 1).toNat → q.waiting = [] →
       ∃ t, exec (.idleFlit p f) s = .next t ∧ OnlyLinks s t ∧ (t.port p.val).rxSeq = q.rxSeq + 1 ∧
       ∀ c, c < 4 → (t.port p.val).cred c = (q.cred c + natBits f.credit (4 * c) 4) % 2 ^ 16) ∧
     (∀ cls typ, FlitIn s p f → FlitNext s p f → f.cls = cls → f.typ = typ → validType cls typ = true → f.mcast = false →
       f.dest = s.chip → f.isFirst = true → f.isLast = true → Tab.get q.partialMsg [] cls = [] →
       (s.ownRoute = true → ∃ t, Got1 s p cls typ [f] t f.payload ∧ t.mem = s.mem) ∧
       (s.ownRoute = false → ∃ t, s.rx p.val cls typ [f] = .taken t ∧ t.bit (spxPortErr p.val) 6 = true ∧ JobFaulted t)) ∧
     (q.st = .up → q.replay ≠ [] → s.linksDark = false → (∀ r ∈ q.replay, r.resent < 8) →
       ∃ t, exec (.replayTimeout p) s = .next t ∧ OnlyLinks s t ∧
         (t.port p.val).replay = q.replay.map (fun r => { r with resent := r.resent + 1 })) ∧
     (q.st = .up → s.linksDark = false → (∃ r ∈ q.replay, 8 ≤ r.resent) →
       ∃ t, exec (.replayTimeout p) s = .next t ∧ t.bit (spxPortErr p.val) 2 = true ∧ (t.port p.val).st = .fenced) ∧
     (q.st = .up → s.linksDark = false →
       ∃ t, exec (.linkDown p) s = .next t ∧ t.bit (spxPortErr p.val) 1 = true ∧ (t.port p.val).st = .fenced) ∧
     (q.st = .up → s.linksDark = true → ∃ t, exec (.linkDown p) s = .next t ∧ (t.port p.val).st = .off ∧
       t.bit pwrPark p.val = true)) ∧
  (∀ (s t : State) (p : Port) (f : Flit), (s.port p.val).st = .up → s.bufFlit p.val f = (t, true) →
     let outs := Tab.get (t.port p.val).route [] f.cls
     (transits s f = true → validType f.cls f.typ = true → f.hops < 10 → f.isFirst = true →
       ∀ o, t.routeOut f.cls f.dest f.down = some o → ∃ u : State, exec (.flitForward p f) s = .next (u.portSend p.val o [f]) ∧
         { u with ports := t.ports } = t ∧
         Tab.get (u.port p.val).route [] f.cls = (if f.isLast then [] else [Fin.ofNat 32 o])) ∧
     (transits s f = true → validType f.cls f.typ = true → f.hops < 10 → f.isFirst = false → ∃ u : State,
       exec (.flitForward p f) s =
         .next (outs.foldl (fun v o => v.portSend p.val o.val [f]) (if outs = [] then u.freeBuf p.val f.cls else u)) ∧
       { u with ports := t.ports } = t ∧ Tab.get (u.port p.val).route [] f.cls = if f.isLast then [] else outs) ∧
     (transits s f = true → validType f.cls f.typ = true → 10 ≤ f.hops →
       ∃ u, exec (.flitForward p f) s = .next u ∧ u.bit (spxPortErr p.val) 5 = true ∧ JobFaulted u) ∧
     (transits s f = true → validType f.cls f.typ = true → f.hops < 10 → f.isFirst = true →
       t.routeOut f.cls f.dest f.down = none →
       ∃ u, exec (.flitForward p f) s = .next u ∧ u.bit (spxPortErr p.val) 6 = true ∧ JobFaulted u) ∧
     (transits s f = true → validType f.cls f.typ = false →
       ∃ u, exec (.flitForward p f) s = .next u ∧ u.bit (spxPortErr p.val) 4 = true ∧ JobFaulted u) ∧
     (f.typ = 0xFF → f.isIdle = false → ∃ u : State, exec (.abort p f) s =
       .next (outs.foldl (fun v o => v.portSend p.val o.val [f]) u) ∧
       OnlyLinks t u ∧ Tab.look (u.port p.val).partialMsg f.cls = none ∧
       Tab.look (u.port p.val).route f.cls = none))

/-- R479, R480, R481, R515, R522, R527, R637: the states of a port. EN turns a port that the link policy allows on, into TRAIN,
and off; FENCE and UNFENCE; lock moves TRAIN to HELLO with all four lanes, and no lock restarts it; a HELLO of this fabric and
another chip is accepted with its grants, and both ACCEPTs bring the port UP; any other is refused and fences it. The delay
exchange answers with the timestamps and sets the delay, rounded down. PARK is noted in fallow. -/
def Obligations.PortStates : Prop :=
  ∀ (s : State) (p : Port),
    let q := s.port p.val
    (∀ v : Word, v.toNat / 4 % 4 = 0 → v.toNat % 2 = 1 → s.policyAllows p.val = true → q.st = .off → s.linksDark = false →
      ∃ t, exec (.portEnable p v) s = .next t ∧ PortIs s t p .train ∧ t.fld (spxPortCtrl p.val) 0 2 = v.toNat % 4) ∧
    (∀ v : Word, v.toNat / 4 % 4 = 0 → (v.toNat % 2 = 1 ∧ s.policyAllows p.val = true ∧ q.st ≠ .off) ∨
        (v.toNat % 2 = 0 ∧ s.bit (spxPortCtrl p.val) 0 = false) →
      ∃ t, exec (.portEnable p v) s = .next t ∧ PortIs s t p q.st ∧ t.fld (spxPortCtrl p.val) 0 2 = v.toNat % 4) ∧
    (∀ v : Word, v.toNat / 4 % 4 = 0 → v.toNat % 2 = 1 → s.policyAllows p.val = false →
      ∃ t, exec (.portEnable p v) s = .next t ∧ PortIs s t p q.st ∧ t.bit (spxPortErr p.val) 7 = true ∧
        t.bit (spxPortCtrl p.val) 0 = s.bit (spxPortCtrl p.val) 0) ∧
    (∀ v : Word, v.toNat / 4 % 4 = 0 → v.toNat % 2 = 0 → s.bit (spxPortCtrl p.val) 0 = true →
      ∃ t, exec (.portEnable p v) s = .next t ∧ (t.port p.val).st = .off ∧ t.bit (spxPortCtrl p.val) 0 = false) ∧
    (∀ v : Word, v.toNat / 4 % 4 = 1 → v.toNat % 2 = 1 → s.policyAllows p.val = true → q.st ≠ .off → q.st ≠ .fenced →
      ∃ t, exec (.portFence p v) s = .next t ∧ PortIs s t p .fenced ∧ (t.port p.val).replay = [] ∧
        (t.port p.val).waiting = []) ∧
    (∀ v : Word, v.toNat / 4 % 4 = 2 → v.toNat % 2 = 1 → s.policyAllows p.val = true → q.st = .fenced →
      ∃ t, exec (.portUnfence p v) s = .next t ∧ PortIs s t p .train) ∧
    (q.st = .train → ∃ t, exec (.fecLock p) s = .next t ∧ PortIs s t p .hello ∧ (t.port p.val).laneLock = 15) ∧
    (q.st = .train → ∃ t, exec (.trainRestart p) s = .next t ∧ PortIs s t p .train ∧ Counted s t (spxCnt p.val 7) 1) ∧
    (q.st = .hello → ∃ t, exec (.helloSend p) s = .next t ∧
      PortIs s t p (if q.accepted && q.gotAccept then .up else .hello) ∧
      (t.port p.val).sentAccept = (q.sentAccept || q.accepted) ∧
      (t.port p.val).helloSent = leBytes 2 s.chip ++ leBytes 1 p.val ++ leBytes 1 0 ++ leBytes 4 (s.fld spxId 16 32) ++
        leBytes 2 64 ++ leBytes 2 256 ++ leBytes 2 256 ++ leBytes 2 512 ++ leBytes 1 q.accepted.toNat ++ leBytes 15 0) ∧
    (∀ f : Flit, q.st = .hello → f.cls = 0 → f.typ = 3 → f.isIdle = false → f.crc = f.crcOf.toNat →
      msgNat f.payload 4 4 = s.fld spxId 16 32 → msgNat f.payload 0 2 ≠ s.chip →
      ∃ t, exec (.hello p f) s = .next t ∧
        PortIs s t p (if q.sentAccept && (q.gotAccept || decide (msgNat f.payload 16 1 = 1)) then .up else .hello) ∧
        (t.port p.val).nbrChip.toNat = msgNat f.payload 0 2 ∧ (t.port p.val).accepted = true ∧ (t.port p.val).rxSeq = 0 ∧
        (q.sentAccept = false → ∀ c, c < 4 → (t.port p.val).cred c = msgNat f.payload (8 + 2 * c) 2)) ∧
    (∀ f : Flit, q.st = .hello → f.cls = 0 → f.typ = 3 → f.isIdle = false → f.crc = f.crcOf.toNat →
      msgNat f.payload 4 4 ≠ s.fld spxId 16 32 ∨ msgNat f.payload 0 2 = s.chip →
      ∃ t, exec (.hello p f) s = .next t ∧ PortIs s t p .fenced ∧ t.bit (spxPortErr p.val) 0 = true) ∧
    (∀ f : Flit, q.st = .up → f.cls = 0 → f.typ = 3 → f.isIdle = false → f.crc = f.crcOf.toNat → exec (.hello p f) s = .next s) ∧
    (∀ t1, q.st = .up → s.linksDark = false → exec (.delayRequestSend p t1) s = .next (s.portSend 32 p.val
      (mkMsg 0 0x04 q.nbrChip.toNat false (leBytes 8 0 ++ leBytes 8 t1.toNat ++ leBytes 16 0)))) ∧
    (∀ f rx tx t bs, GotLocal s p 0x04 f t bs → msgNat bs 0 1 = 0 → exec (.delay p f rx tx) s = .next (t.portSend 32 p.val
      (mkMsg 0 0x04 (t.port p.val).nbrChip.toNat false
        (leBytes 8 1 ++ leBytes 8 (msgNat bs 8 8) ++ leBytes 8 rx.toNat ++ leBytes 8 tx.toNat)))) ∧
    (∀ f rx tx t bs, GotLocal s p 0x04 f t bs → msgNat bs 0 1 = 1 → ∃ u, exec (.delay p f rx tx) s = .next u ∧
      OnlyReg t u (spxPortDelay p.val) ∧ u.fld (spxPortDelay p.val) 0 32 =
        ((((rx.toNat : Int) - msgNat bs 8 8 - ((msgNat bs 24 8 : Int) - msgNat bs 16 8)) / 2) % (2 ^ 32 : Int)).toNat) ∧
    (∀ f t bs, GotLocal s p 0x09 f t bs → t.linksDark = true → ∃ u, exec (.park p f) s = .next u ∧
      (u.port p.val).gotPark = true ∧ { u with ports := t.ports } = t) ∧
    (∀ f t bs, GotLocal s p 0x09 f t bs → t.linksDark = false → exec (.park p f) s = .next t)

-- Markers, signals, members (chapters 2, 6 and 13).

/-- R237, R238, R516 to R522, R646: messages between members. A signal of this epoch takes effect at its counter, a stale one is
counted. A member reports its furrow to the master; a third miss in a row declares it failed. A MEMBER in sequence is
scheduled with its epoch advance, and one that names a failed chip makes it live no more; out of sequence it sets DIGEST. The
deputy declares a silent master failed. The transfer of the member state is sent again whole. The master keeps a member's
alarm. -/
def Obligations.MembersSpeak : Prop :=
  (∀ (s t : State) (p : Port) (f : Flit) (bs : List Byte), Got1 s p 0 0x02 [f] t bs → msgNat bs 7 1 % 4 = 0 →
    let core := msgNat bs 2 1 % 64
    let ctr := msgNat bs 3 1 % 64
    (msgNat bs 8 2 = t.stkEpoch.toNat → ctr < 48 → exec (.stook p f) s =
      .next ((t.updateCtr core ctr (msgNat bs 4 3)).count (stkCntRsigIn core) 1)) ∧
    (msgNat bs 8 2 ≠ t.stkEpoch.toNat → exec (.stook p f) s = .next (t.count (stkCntStale core) 1))) ∧
  (∀ (s : State) (m : Nat), s.master = some m → m ≠ s.chip → s.live s.chip = true → s.linksDark = false →
    s.bit furCtrl 0 = true → exec .heartbeatSend s = .next (s.send (mkMsg 0 0x05 m false
      (leBytes 2 s.chip ++ leBytes 2 0 ++ leBytes 4 s.mems.mseq.toNat ++ leBytes 8 s.furCount.toNat ++ leBytes 16 0)))) ∧
  (∀ (s t : State) (p : Port) (f : Flit) (bs : List Byte), Got1 s p 0 0x05 [f] t bs →
    (t.isMaster = true → ∃ u, exec (.heartbeat p f) s = .next u ∧
      (Tab.get u.mems.beats {} (msgNat bs 0 2)).last = some (BitVec.ofNat 64 (msgNat bs 8 8)) ∧
      { u with mems := t.mems } = t) ∧
    (t.isMaster = false → exec (.heartbeat p f) s = .next t)) ∧
  (∀ (s : State) (c : BitVec 16) (ns : Nat), BeatMissing s c.toNat →
    let b := Tab.get s.mems.beats {} c.toNat
    let run := decide (0 < b.misses) && decide (b.judged + 1 = s.furCount)
    ((run = false ∨ b.misses < 2) → ∃ u, exec (.heartbeatMiss c ns) s = .next u ∧ Counted s u spxCntHbMiss 1 ∧
      Tab.get u.mems.beats {} c.toNat = { b with misses := if run then b.misses + 1 else 1, judged := s.furCount } ∧
      u.mems.scheduled = s.mems.scheduled) ∧
    (run = true → 2 ≤ b.misses → s.targetTick ns < 2 ^ 64 → ∃ u, exec (.heartbeatMiss c ns) s = .next u ∧
      DeclaredFailed s u c.toNat ∧ u.bit spxErr 1 = true)) ∧
  (∀ (s t : State) (p : Port) (f : Flit) (bs : List Byte), Got1 s p 0 0x06 [f] t bs → msgNat bs 0 1 ≤ 2 →
    let m := memberOf bs
    (m.mseq = t.lastMseq + 1 → t.furCount.toNat < m.tick.toNat → ∃ u, exec (.member p f) s = .next u ∧
      u.mems.scheduled = t.mems.scheduled ++ [m] ∧ u.stkEpochAt = m.tick ∧ u.mems.members = t.mems.members ∧
      (m.kind = 0 → u.live m.chip.toNat = false) ∧
      (m.kind ≠ 1 → t.mems.members.contains m.chip.toNat = true → u.bit sysFltStatus 1 = true)) ∧
    (m.mseq = t.lastMseq + 1 → m.tick.toNat ≤ t.furCount.toNat → ∃ u, exec (.member p f) s = .next u ∧
      u.mems.scheduled = t.mems.scheduled ∧ u.bit furFault 2 = true ∧ JobFaulted u) ∧
    (m.mseq ≠ t.lastMseq + 1 → ∃ u, exec (.member p f) s = .next u ∧ u.bit spxErr 0 = true ∧ JobFaulted u ∧
      u.mems = t.mems)) ∧
  (∀ (s : State) (c : BitVec 16), s.mems.transfer = some c → exec .memberStateResend s = .next
    ([0, 4096, 8192, 12288].foldl (fun v o => v.send (mkMsg 3 0x35 c.toNat false (bulkBytes 2 s.stkEpoch.toNat s.mems.mseq.toNat o
      (((bitmapBytes s.bitmapSet ++ s.roleBytes).drop o).take 4096)))) s)) ∧
  (∀ (s : State) (m ns : Nat), s.master = some m → s.deputy = some s.chip → 3 ≤ s.mems.markersMissed → s.pow.wakeGrace = false →
    s.fur.holdTick = false → ¬ (s.fur.sync = .acquire ∧ s.fur.nextTick = none) → s.linksDark = false →
    s.targetTick ns < 2 ^ 64 → m < 2 ^ 16 →
    ∃ u, exec (.deputyTakeover ns) s = .next u ∧ DeclaredFailed s u m) ∧
  ∀ (s t : State) (p : Port) (f : Flit) (bs : List Byte), Got1 s p 0 0x08 [f] t bs →
    (t.isMaster = true → exec (.alarm p f) s = .next (t.keepAlarm (bs.take 24))) ∧
    (t.isMaster = false → exec (.alarm p f) s = .next t)

-- Messages of data (chapters 8, 9 and 13).

/-- R311, R312, R313, R339, R408, R505, R506: rows and bytes asked of this module, and answers to it. A GREQ of one entry waits
while the serve unit takes none; else it is answered INVALID or NOT_OWNER, from the home record, or parked until its fence
opens, here where nobody counts accesses and no entry of the directory names the row; a GRESP writes the row that its port awaits; an RREAD
within R408 is answered with the bytes and any other is refused; an RWRITE is performed and acknowledged; an RDATA gives a
Harrow channel the bytes it awaits, a WACK ends the write that it awaits, and a refusal halts the channel. -/
def Obligations.ModulesReadAndWriteEachOther : Prop :=
  ∀ (s t : State) (p : Port) (fs : List Flit) (f : Flit) (bs : List Byte), s.Sound → s.Clean →
    (Got1 s p 2 0x20 [f] t bs → bs.length = 32 → t.gln.requests = [] →
      let q := greqOf bs
      let d := t.table q.table
      let chip := msgNat bs 6 2
      let tag := msgNat bs 12 2
      (t.serveRoom = false → exec (.greq p f) s = .next { t with gln := { t.gln with requests := [q] } }) ∧
      (t.serveRoom = true → t.live chip = true → t.bit glnCtrl 1 = false →
        (d.valid q.row = false → ∃ u : State, exec (.greq p f) s = .next (u.send (respMsg chip tag 1 0 [])) ∧
          Counted t u (glnCntServe 0) 1 ∧ u.mem = t.mem ∧ u.gln = t.gln) ∧
        (d.valid q.row = true → jobReach (d.ownAddr q.row) 8 = true → (t.ownWord d q.row).1 ≠ t.chip →
          ∃ u : State, exec (.greq p f) s = .next (u.send (respMsg chip tag 2 0 [])) ∧
            Counted t u (glnCntServe 0) 1 ∧ u.mem = t.mem ∧ u.gln = t.gln) ∧
        (d.valid q.row = true → jobReach (d.ownAddr q.row) 8 = true → (t.ownWord d q.row).1 = t.chip →
          t.dirLookup t.gln.cur q.table q.row = none →
          (t.fenceOpen q = true → jobReach (t.homeAddr d q.row) d.rowBytes = true → ∃ u : State,
            exec (.greq p f) s = .next (u.send (respMsg chip tag 0 0 (t.peeks (t.homeAddr d q.row) d.rowBytes))) ∧
            Counted t u (glnCntServe 0) 1 ∧ u.mem = t.mem ∧ u.gln = t.gln) ∧
          (t.fenceOpen q = false → ∃ u, exec (.greq p f) s = .next u ∧ u.gln = { t.gln with parked := t.gln.parked ++ [q] } ∧
            Counted t u (glnCntServe 2) 1 ∧ u.mem = t.mem)))) ∧
    (Got1 s p 3 0x30 fs t bs → msgNat bs 2 1 = 0 → ∀ port : Strip, msgNat bs 0 2 % 64 = port.val → ∀ r,
      RowAwaited t port (msgNat bs 0 2 / 64) r → msgNat bs 4 4 = (t.table r.table).rowBytes →
      bs.length = 16 + (t.table r.table).rowBytes →
      ∃ u, exec (.gresp p fs) s = .next u ∧ Holds u r.outAddr (rowImage (t.table r.table) r.raw r.ofmt (bs.drop 16)) ∧
        Tab.look (u.gport port.val).reads (msgNat bs 0 2 / 64) = none) ∧
    (Got1 s p 2 0x21 [f] t bs → bs.length = 32 →
      let a := msgNat bs 0 6
      let n := msgNat bs 10 2
      let chip := msgNat bs 8 2
      t.live chip = true →
      (1 ≤ n → n ≤ 4096 → jobReach a n = true → ∃ u : State, exec (.rread p f) s = .next (u.send (mkMsg 3 0x31 chip false
        (leBytes 4 (msgNat bs 12 4) ++ leBytes 1 0 ++ leBytes 1 0 ++ leBytes 2 n ++ leBytes 8 0 ++ t.peeks a n))) ∧
        { u with clc := t.clc } = t) ∧
      (n = 0 ∨ 4096 < n ∨ jobReach a n = false → exec (.rread p f) s = .next (t.send (mkMsg 3 0x31 chip false
        (leBytes 4 (msgNat bs 12 4) ++ leBytes 1 1 ++ leBytes 1 0 ++ leBytes 2 0 ++ leBytes 8 0))))) ∧
    (Got1 s p 2 0x22 fs t bs →
      let a := msgNat bs 0 6
      let n := msgNat bs 10 2
      let chip := msgNat bs 8 2
      let ok : Bool := decide (1 ≤ n) && decide (n ≤ 4096) && jobReach a n && decide (bs.length = 32 + n)
      t.live chip = true → ∃ u : State, exec (.rwrite p fs) s = .next (u.send (mkMsg 3 0x32 chip false
          (leBytes 4 (msgNat bs 12 4) ++ leBytes 1 (if ok then 0 else 1) ++ leBytes 11 0))) ∧
        (ok = true → Holds u a (bs.drop 32) ∧ KeepsOutside t u a n) ∧ (ok = false → u = t)) ∧
    (Got1 s p 3 0x31 fs t bs → ∀ ch : Chan, msgNat bs 0 4 % 256 = ch.val → msgNat bs 0 4 < 2 ^ 24 → ∀ r a,
      AnswerAwaited t (msgNat bs 0 4) r a false →
      (msgNat bs 4 1 = 0 → msgNat bs 6 2 = a.len → bs.length = 16 + a.len → 0 < a.len → r.pos + a.len = hwLen r.cmd →
        r.cmd.op = 1 → LocalStream t r.dst (hwLen r.cmd) → PlainDest r.dst (hwLen r.cmd) → (∀ m ∈ r.src, m.chip ≠ t.chip) →
        ∃ u, exec (.rdata p fs) s = .next u ∧ HwMovedBy u ch r a.len r.result ∧
          ∀ o, o < a.len → u.peek (streamAt r.dst (r.pos + o)) = bs.getD (16 + o) 0) ∧
      (msgNat bs 4 1 = 1 → ∃ u, exec (.rdata p fs) s = .next u ∧ u.bit (chErr ch.val) 6 = true ∧
        (u.chan ch.val).halted = true ∧ JobFaulted u)) ∧
    (Got1 s p 3 0x32 [f] t bs → ∀ ch : Chan, msgNat bs 0 4 % 256 = ch.val → msgNat bs 0 4 < 2 ^ 24 → ∀ r a,
      AnswerAwaited t (msgNat bs 0 4) r a true →
      (msgNat bs 4 1 = 0 → r.pos + a.len = hwLen r.cmd → ∃ u, exec (.wack p f) s = .next u ∧ HwMovedBy u ch r a.len r.result ∧
        u.mem = t.mem) ∧
      (msgNat bs 4 1 = 1 → ∃ u, exec (.wack p f) s = .next u ∧ u.bit (chErr ch.val) 6 = true ∧
        (u.chan ch.val).halted = true ∧ JobFaulted u))

/-- R359, R357, R511, R328, R329, R331: gradients, reduction chunks and volunteers, of messages that have arrived whole. A
gradient message is merged into the entry of its row, or makes the entry, and is acknowledged; it is refused with a status
where the row is not of this module, the bank is not open for the step, or the bank has no place. An acknowledgement of OK
counts for its FLUSH, and any other halts the engine. A chunk of a child is added once into the bank of its step, whether or
not the command has started; it waits while the bank holds another step; one from any other port, or that no command runs for and whose
bank is out of reach, is discarded. A final chunk from the parent goes into the buffer, which then carries the step. A volunteer is
added to the next directory and its slot written, bumped or dropped, and one outside the sender's quota is discarded; hit
counts add up. -/
def Obligations.ModulesMergeAndShare : Prop :=
  (∀ (s t : State) (p : Port) (fs : List Flit) (bs : List Byte), s.Sound → s.Clean → Got1 s p 1 0x10 fs t bs →
    let row := msgNat bs 0 5
    let tb := msgNat bs 5 1 % 16
    let step := msgNat bs 12 4
    let chip := msgNat bs 8 2
    let eng := msgNat bs 6 1 % 64
    let m := rowEngine tb row
    let own : Bool := (t.table tb).valid row && decide ((t.ownWord (t.table tb) row).1 = t.chip)
    let isOpen : Bool := (t.sheaf m).openFor (BitVec.ofNat 32 step)
    let cs := gradSums (msgNat bs 32 8) ((t.table tb).dim / 32) 0 (bs.drop 48)
    t.live chip = true →
    (∀ a, own = true → isOpen = true → bankReach t m = true → t.probe (step % 2) tb row = .found a →
      ∃ u : State, exec (.grad p fs) s = .next (u.send (ackMsg chip eng 0)) ∧
        EntryAdded t u a cs (msgNat bs 24 8) (msgNat bs 16 4) ∧ Counted t u (shfCnt m 2) 1) ∧
    (∀ a, own = true → isOpen = true → bankReach t m = true → t.probe (step % 2) tb row = .free a →
      ∃ u : State, exec (.grad p fs) s = .next (u.send (ackMsg chip eng 0)) ∧
        EntryNew t u a tb row step cs (msgNat bs 24 8) (msgNat bs 16 4) ∧ Counted t u (shfCnt m 2) 1) ∧
    (own = false → ∃ u : State, exec (.grad p fs) s = .next (u.send (ackMsg chip eng 1)) ∧ u.bit (shfErr m) 5 = true ∧
      JobFaulted u ∧ u.mem = t.mem) ∧
    (own = true → isOpen = false → ∃ u : State, exec (.grad p fs) s = .next (u.send (ackMsg chip eng 2)) ∧
      u.bit (shfErr m) 6 = true ∧ JobFaulted u ∧ u.mem = t.mem) ∧
    (own = true → isOpen = true → bankReach t m = true → t.probe (step % 2) tb row = .full → ∃ u : State,
      exec (.grad p fs) s = .next (u.send (ackMsg chip eng 3)) ∧ u.bit (shfErr m) 4 = true ∧ JobFaulted u ∧ u.mem = t.mem)) ∧
  (∀ (s t : State) (p : Port) (f : Flit) (bs : List Byte), Got1 s p 3 0x33 [f] t bs →
    let e := msgNat bs 2 1 % 64
    ((t.sheaf e).flush = none → exec (.sack p f) s = .next t) ∧
    (∀ r, (t.sheaf e).flush = some r → msgNat bs 3 1 = 0 → ∃ u, exec (.sack p f) s = .next u ∧
      (u.sheaf e).flush = some { r with acked := r.acked + msgNat bs 4 4 } ∧ { u with shf := t.shf } = t) ∧
    (∀ r, (t.sheaf e).flush = some r → msgNat bs 3 1 ≠ 0 → ∃ u, exec (.sack p f) s = .next u ∧ u.bit (shfErr e) 5 = true ∧
      (u.sheaf e).halted = true ∧ JobFaulted u)) ∧
  (∀ (s t : State) (p : Port) (f : Flit) (bs : List Byte), s.Sound → s.Clean → Got1 s p 1 0x11 [f] t bs →
    Tab.get (s.port p.val).partialMsg [] 1 = [] → RidInDram t (chRid bs) →
    (treeChildren t (chTree bs) / 2 ^ p.val % 2 = 0 → ∃ u, exec (.rup p f) s = .next u ∧ u.bit spxErr 3 = true ∧
      u.red = t.red ∧ u.mem = t.mem) ∧
    (treeChildren t (chTree bs) / 2 ^ p.val % 2 = 1 → t.red.running = none → stageReach t (chRid bs) = false →
      ∃ u, exec (.rup p f) s = .next u ∧ u.bit spxErr 3 = true ∧ u.red = t.red ∧ u.mem = t.mem) ∧
    (treeChildren t (chTree bs) / 2 ^ p.val % 2 = 1 → t.red.running = none → stageReach t (chRid bs) = true →
      t.redBusy (chunkCmd (t.chunkOp bs) bs) = true →
      ∃ u, exec (.rup p f) s = .next u ∧ u.red = { t.red with queue := t.red.queue ++ [(p, f)] } ∧ u.mem = t.mem) ∧
    (treeChildren t (chTree bs) / 2 ^ p.val % 2 = 1 → t.chunkOp bs = 1 → t.redBusy (chunkCmd 1 bs) = false →
      (t.chunkRun bs).isSome = true ∨ stageReach t (chRid bs) = true →
      let c := chunkCmd 1 bs
      let k := chChunk bs
      let n := ridElems t (chRid bs)
      let a := bankAddr t (chRid bs) (chStep bs % 2) + 64 + 224 * k
      k < lastChunk t c → (t.redMask c k).getLsbD p.val = false →
      (∃ j, j < 32 ∧ j ≠ p.val ∧ treeChildren t (chTree bs) / 2 ^ j % 2 = 1 ∧ (t.redMask c k).getLsbD j = false) →
      (∃ j, j ≤ lastChunk t c ∧ (t.redMask c j).getLsbD 34 = false) →
      ∃ u, exec (.rup p f) s = .next u ∧ (u.redMask c k).getLsbD p.val = true ∧ u.red.running = t.red.running ∧
        (∀ i, i < min 28 (n - 28 * k) → u.sumAt (a + 8 * i) =
          wrap64 ((if t.redMask c k = 0 then 0 else t.sumAt (a + 8 * i)) + (msgNat bs (16 + 8 * i) 8 : Int))) ∧
        KeepsOutside t u a (8 * min 28 (n - 28 * k)))) ∧
  (∀ (s t : State) (p : Port) (f : Flit) (bs : List Byte), s.Sound → s.Clean → Got1 s p 1 0x12 [f] t bs →
    (treeRoot t (chTree bs) = true ∨ treeParent t (chTree bs) ≠ p.val → exec (.rdown p f) s = .next (t.setBit spxErr 3)) ∧
    (treeRoot t (chTree bs) = false → treeParent t (chTree bs) = p.val → t.red.running = none →
      exec (.rdown p f) s = .next (t.setBit spxErr 3)) ∧
    (∀ c, treeRoot t (chTree bs) = false → treeParent t (chTree bs) = p.val → t.red.running = some c →
      chunkFits c bs = true → c.op = 1 →
      let k := chChunk bs
      let n := ridElems t (rdRid c)
      k < lastChunk t c → spans inDram (c.a 8) (64 + 8 * n) = true → c.a 8 % 64 = 0 →
      Apart (ridAddr t (rdRid c)) 16 (c.a 8) (64 + 8 * n) →
      (∃ j, j ≤ lastChunk t c ∧ j ≠ k ∧ (t.redMask c j).getLsbD 34 = false) →
      ∃ u, exec (.rdown p f) s = .next u ∧ (u.redMask c k).getLsbD 34 = true ∧
        (∀ i, i < min 28 (n - 28 * k) → u.peekNat (c.a 8 + 64 + 224 * k + 8 * i) 8 = msgNat bs (16 + 8 * i) 8) ∧
        (denseOf (u.peeks (c.a 8) 64)).step = c.step.toNat)) ∧
  (∀ (s t : State) (p : Port) (fs : List Flit) (bs : List Byte), s.Sound → s.Clean →
    let tb := msgNat bs 1 1 % 16
    let slot := msgNat bs 4 4
    let row := msgNat bs 8 5
    let ver := msgNat bs 16 4
    let next := !t.gln.cur
    (VolGot s p fs 0 t bs → ∃ u, exec (.volRefresh p fs) s = .next u ∧ SlotQueued t u slot (some (bs.drop 32)) ver ∧
      u.mem = t.mem) ∧
    (VolGot s p fs 1 t bs → (t.slotSt (16384 + slot)).valid = true → ∃ u, exec (.volBump p fs) s = .next u ∧
      SlotQueued t u slot none ver ∧ u.mem = t.mem) ∧
    (VolGot s p fs 1 t bs → (t.slotSt (16384 + slot)).valid = false → exec (.volBump p fs) s = .next t) ∧
    (VolGot s p fs 2 t bs → t.gln.syncing = false → dirPlaced t = true → (∃ a ∈ dirEntries t next tb row, entryKind t a = 0) →
      t.dirLookup next tb row = none → (t.slotSt (16384 + slot)).free = true → slot < t.volSlots →
      ∃ u, exec (.volAdd p fs) s = .next u ∧ SlotQueued t u slot (some (bs.drop 32)) ver ∧
        (u.slotSt (16384 + slot)).inNext = true ∧ ∃ a, u.dirLookup next tb row = some (a, 2, slot)) ∧
    (VolGot s p fs 2 t bs → t.gln.syncing = false → dirPlaced t = true → (∀ a ∈ dirEntries t next tb row, entryKind t a ≠ 0) →
      ∃ q, OnlyRead t q ∧ exec (.volAdd p fs) s = .next (q.setBit glnErrVol 0)) ∧
    (VolGot s p fs 2 t bs → t.gln.syncing = true → exec (.volAdd p fs) s = .next (t.setBit glnErrVol 1)) ∧
    (∀ a kd m, VolGot s p fs 3 t bs → t.gln.syncing = false → t.dirLookup next tb row = some (a, kd, m) →
      ∃ u, exec (.volDrop p fs) s = .next u ∧ entryKind u a = 0 ∧ (u.slotSt (slotIndex kd m)).inNext = false) ∧
    (VolGot s p fs 3 t bs → t.gln.syncing = true →
      exec (.volDrop p fs) s = .next { t with gln := { t.gln with drops := t.gln.drops ++ [(tb, row)] } }) ∧
    (∀ x ∈ [(0, Instr.volRefresh p fs), (1, Instr.volBump p fs), (2, Instr.volAdd p fs), (3, Instr.volDrop p fs)],
      Got1 s p 3 0x34 fs t bs → msgNat bs 0 1 % 4 = x.1 → t.inQuota (msgNat bs 2 2) slot = false →
      exec x.2 s = .next (t.setBit glnErrVol 2))) ∧
  (∀ (s t : State) (p : Port) (f : Flit) (bs : List Byte), Got1 s p 2 0x23 [f] t bs → bs.length = 16 →
    ∃ u, exec (.vhits p f) s = .next u ∧
      Tab.get u.gln.volHits 0 (msgNat bs 0 4) = Tab.get t.gln.volHits 0 (msgNat bs 0 4) + msgNat bs 4 4 ∧
      { u with gln := { u.gln with volHits := t.gln.volHits } } = t)

-- Granary snapshots and recovery (chapter 16).

/-- R58, R518, R606, R617, R620, R622, R624, R626: the leader starts a recovery on a FAULT of its RSEQ or above when none is
pending; a HALT of a higher RSEQ replaces what is pending, one of a reserved ORDER is ignored, one for a tick already reached
sets LATE_CHANGE whatever its RSEQ, and a module in STOPPED notes the RSEQ alone; RESUME of the RSEQ ends the covered time and starts the step at its tick; complete LINKDOWN reports declare the
chip failed; a retirement is kept for the next seal. -/
def Obligations.RecoveryStartsAndResumes : Prop :=
  (∀ (s t : State) (p : Port) (f : Flit) (ns : Nat) (bs : List Byte), RecGot s p f 0 t bs →
    (t.isMaster = true → t.rcv.rseq.toNat ≤ msgNat bs 4 4 → t.rcv.covered = false → t.rcv.rseq.toNat + 1 < 2 ^ 32 →
      t.targetTick ns < 2 ^ 64 → t.rcv.st ≠ .stopped →
      ∃ u, exec (.recoveryFault p f ns) s = .next u ∧ HaltLed t u (msgNat bs 2 2) (t.targetTick ns) False) ∧
    (t.isMaster = false ∨ msgNat bs 4 4 < t.rcv.rseq.toNat ∨ t.rcv.covered = true → exec (.recoveryFault p f ns) s = .next t)) ∧
  (∀ (s t : State) (p : Port) (f : Flit) (bs : List Byte), RecGot s p f 1 t bs →
    let h := haltOf bs
    (1 < msgNat bs 28 4 ∨ (h.rseq.toNat ≤ t.rcv.rseq.toNat ∧ t.furCount.toNat < h.tick.toNat) →
      exec (.recoveryHalt p f) s = .next t) ∧
    (msgNat bs 28 4 ≤ 1 → t.rcv.rseq.toNat < h.rseq.toNat → t.furCount.toNat < h.tick.toNat →
      (t.rcv.st ≠ .stopped → ∃ u, exec (.recoveryHalt p f) s = .next u ∧ HaltTaken t u h ∧ { u with rcv := t.rcv } = t) ∧
      (t.rcv.st = .stopped → exec (.recoveryHalt p f) s = .next { t with rcv := { t.rcv with rseq := h.rseq } })) ∧
    (msgNat bs 28 4 ≤ 1 → h.tick.toNat ≤ t.furCount.toNat →
      ∃ u, exec (.recoveryHalt p f) s = .next u ∧ u.bit furFault 2 = true ∧ JobFaulted u ∧
        u.rcv.rseq.toNat = max t.rcv.rseq.toNat h.rseq.toNat ∧ u.rcv.haltAt = t.rcv.haltAt ∧
        (t.rcv.rseq.toNat < h.rseq.toNat → t.rcv.st ≠ .stopped → u.rcv.covered = true))) ∧
  (∀ (s t : State) (p : Port) (f : Flit) (bs : List Byte), RecGot s p f 3 t bs →
    (msgNat bs 4 4 ≠ t.rcv.rseq.toNat ∨ t.rcv.covered = false → t.furCount.toNat < msgNat bs 8 8 →
      exec (.recoveryResume p f) s = .next t) ∧
    (msgNat bs 4 4 ≠ t.rcv.rseq.toNat ∨ t.rcv.covered = false → msgNat bs 8 8 ≤ t.furCount.toNat →
      ∃ u, exec (.recoveryResume p f) s = .next u ∧ u.bit furFault 2 = true ∧ JobFaulted u ∧
        u.rcv.resumeAt = t.rcv.resumeAt) ∧
    (msgNat bs 4 4 = t.rcv.rseq.toNat → t.rcv.covered = true → t.furCount.toNat < msgNat bs 8 8 →
      let start := some (BitVec.ofNat 64 (msgNat bs 8 8), BitVec.ofNat 32 (msgNat bs 16 4))
      exec (.recoveryResume p f) s =
        .next { t with rcv := { t.rcv with covered := false, sentFor := none, resumeAt := start } }) ∧
    (msgNat bs 4 4 = t.rcv.rseq.toNat → t.rcv.covered = true → msgNat bs 8 8 ≤ t.furCount.toNat →
      ∃ u, exec (.recoveryResume p f) s = .next u ∧ u.bit furFault 2 = true ∧ u.rcv.covered = false ∧
        u.rcv.resumeAt = t.rcv.resumeAt)) ∧
  (∀ (s t : State) (p : Port) (f : Flit) (ns : Nat) (bs : List Byte), RecGot s p f 4 t bs →
    let c := msgNat bs 2 2
    let r : State := { t with mems := { t.mems with reports := t.mems.reports ++ [(msgNat bs 20 2, c)] } }
    (t.isMaster = false → exec (.recoveryLinkdown p f ns) s = .next t) ∧
    (t.isMaster = true → (∀ x ∈ r.mems.reports, t.live x.2 = false ∨ r.linksAllDown x.2 = false) →
      exec (.recoveryLinkdown p f ns) s = .next r) ∧
    (t.isMaster = true → (∀ x ∈ r.mems.reports, x.2 = c) → t.live c = true → r.linksAllDown c = true → t.targetTick ns < 2 ^ 64 →
      ∃ u, exec (.recoveryLinkdown p f ns) s = .next u ∧ DeclaredFailed r u c ∧ u.bit spxErr 1 = true)) ∧
  (∀ (s t : State) (p : Port) (f : Flit) (bs : List Byte), RecGot s p f 7 t bs →
    (t.isMaster = true → ∃ u, exec (.recoveryRetire p f) s = .next u ∧ msgNat bs 2 2 ∈ u.rcv.retireReq ∧
      (∀ c ∈ t.rcv.retireReq, c ∈ u.rcv.retireReq) ∧ u.bit sysFltStatus 1 = true ∧
      u.fld sysFltStatus 16 16 = msgNat bs 2 2 ∧ u.alert 7 = true ∧
      { u with rcv := { u.rcv with retireReq := t.rcv.retireReq } } = t.moduleFault (msgNat bs 2 2)) ∧
    (t.isMaster = false → exec (.recoveryRetire p f) s = .next t)) ∧
  ∀ (s : State) (v : Word), v.getLsbD 0 = true → ∃ u, exec (.retireWrite v) s = .next u ∧
    u.fld sysRecCtrl 8 8 = natBits v.toNat 8 8 ∧ (s.isMaster = true → s.chip ∈ u.rcv.retireReq) ∧
    u.bit sysFltStatus 1 = true ∧ u.fld sysFltStatus 16 16 = s.chip ∧
    ∀ m, s.master = some m → m ≠ s.chip →
      u = ((s.writePlain sysRecCtrl v).moduleFault s.chip).send (mkMsg 0 0x07 m false (recBytes 7 2 s.chip s.rcv.rseq.toNat 0 0 s.chip 0 0))

/-- R612, R613, R618, R620, R622, R624: a seal sets SEALED and RETRIES 0, and the master issues it when every role has
reported; the leader issues RESUME when every live member is READY; at the tick of a HALT no engine holds a plan, the module
leaves RUN for STOPPED, WAIT_HOST or another state of recovery, and remembers k0; at the tick of a RESUME it is back in RUN. -/
def Obligations.SealsHaltsAndReadiness : Prop :=
  (∀ (s t : State) (p : Port) (f : Flit) (bs : List Byte), RecGot s p f 5 t bs → ∃ u, exec (.recoverySeal p f) s = .next u ∧
    u.fld sysGrnStatus 0 32 = msgNat bs 16 4 ∧ u.rcv.retries = 0) ∧
  (∀ (s t : State) (p : Port) (f : Flit) (ns r : Nat) (bs : List Byte), RecGot s p f 2 t bs → t.isMaster = true →
    (msgNat bs 2 2 ≠ t.chip ∨ msgNat bs 20 2 = t.chip) → msgNat bs 24 8 ≠ 1 → msgNat bs 22 1 = 0 →
    t.roleOf (msgNat bs 20 2) = some r →
    (AllPushed t r → ∃ u, exec (.recoveryStatus p f ns) s = .next u ∧ u.fld sysGrnStatus 0 32 = msgNat bs 16 4 ∧
      u.rcv.retries = 0 ∧ u.rcv.pushedRoles = []) ∧
    (¬ AllPushed t r → ∃ u, exec (.recoveryStatus p f ns) s = .next u ∧ r ∈ u.rcv.pushedRoles ∧
      (∀ q ∈ t.rcv.pushedRoles, q ∈ u.rcv.pushedRoles) ∧ { u with rcv := t.rcv } = t)) ∧
  (∀ (s t : State) (p : Port) (f : Flit) (ns : Nat) (bs : List Byte), RecGot s p f 2 t bs → t.isMaster = true →
    (msgNat bs 2 2 ≠ t.chip ∨ msgNat bs 20 2 = t.chip) → msgNat bs 24 8 ≠ 1 → msgNat bs 22 1 = 5 →
    msgNat bs 4 4 = t.rcv.rseq.toNat → t.rcv.covered = true → t.rcv.st = .ready → t.targetTick ns < 2 ^ 64 →
    let all : Prop := ∀ c, t.live c = true → c = msgNat bs 20 2 ∨ c ∈ t.rcv.readyChips
    let k := (t.fld sysRecStep 0 32 + 1) % 2 ^ 32
    (all → ∃ u, exec (.recoveryStatus p f ns) s = .next u ∧ u.rcv.covered = false ∧
      u.rcv.resumeAt = some (BitVec.ofNat 64 (t.targetTick ns), BitVec.ofNat 32 k) ∧
      { u with rcv := t.rcv } = t.sendGroup (mkMsg 0 0x07 0 true
        (recBytes 3 0 t.chip t.rcv.rseq.toNat (t.targetTick ns) k t.chip 0 0))) ∧
    (¬ all → ∃ u, exec (.recoveryStatus p f ns) s = .next u ∧ msgNat bs 20 2 ∈ u.rcv.readyChips ∧
      u.rcv.resumeAt = t.rcv.resumeAt ∧ { u with rcv := t.rcv } = t)) ∧
  (∀ (s t : State) (p : Port) (f : Flit) (ns r : Nat) (k : BitVec 32) (bs : List Byte), RecGot s p f 2 t bs →
    msgNat bs 2 2 = t.chip → msgNat bs 20 2 ≠ t.chip → t.rcv.pushing = some k → t.myRole = some r →
    ∃ u, exec (.recoveryStatus p f ns) s = .next u ∧ u.rcv.pushing = (if msgNat bs 24 8 = 1 then some k else none)) ∧
  (∀ (s u : State) (w : BitVec 16) (h : Halt), s.mayTick = true → exec (.furrowTick w) s = .next u →
    s.rcv.haltAt = some h → h.tick.toNat ≤ s.furCount.toNat + 1 → s.furCount.toNat + 1 < 2 ^ 64 → s.pow.fallowAt = none →
    u.live u.chip = true → u.isMaster = false → EnginesEmpty u ∧ u.rcv.haltAt = none ∧ u.rcv.k0 = h.k0 ∧ u.fld sysRecStep 0 32 = h.k0.toNat ∧
      u.rcv.st ≠ .run ∧ (h.stop = true → u.rcv.st = .stopped ∧ u.alert 7 = true) ∧
      (s.Clean → h.stop = false → h.host = true → u.rcv.st = .waitHost ∨ u.rcv.st = .waitSpare ∨ u.rcv.st = .ready)) ∧
  ∀ (s u : State) (w : BitVec 16) (tk : Word) (k : BitVec 32), s.mayTick = true → exec (.furrowTick w) s = .next u →
    s.rcv.haltAt = none → s.rcv.resumeAt = some (tk, k) → tk.toNat ≤ s.furCount.toNat + 1 → s.furCount.toNat + 1 < 2 ^ 64 →
    s.pow.fallowAt = none → u.live u.chip = true → u.isMaster = false →
    u.rcv.st = .run ∧ u.rcv.resumeAt = none

/-- R611, R612, R619, R621: a local copy holds every region, the header and its DIGEST; BULK data with a good CRC is written at
its offset; DONE completes a generation or asks for it again; a restore brings back every byte of every region but the RUN
fields, which become 0, and the registers of the step after k0. R625: a local copy whose DIGEST fails is taken once more; then
its record holds nothing, and the other sources are asked. -/
def Obligations.SnapshotsAreCopiedAndRestored : Prop :=
  (∀ (s : State) (sn : Snap) (r : Nat), s.rcv.snap = some sn → s.myRole = some r → sn.started = true →
    s.phasesDone sn.step = true → s.Sound → s.Clean → s.job.hash.length = 32 →
    s.job.localArea + 8192 + s.bodyLen ≤ buddyBase →
    let body := (s.job.regions.map (fun (x : Nat × Nat × Bool) => padTo (up4k x.2.1) (s.peeks x.1 x.2.1))).flatten
    ∃ u : State, exec .snapshotCopyDone s = .next u ∧ u.peeks (s.job.localArea + 8192) s.bodyLen = body ∧
      u.peekNat s.job.localArea 8 = 0x47524E5434384C31 ∧ u.peekNat (s.job.localArea + 8) 4 = sn.step.toNat ∧
      u.peekNat (s.job.localArea + 16) 4 = sn.mseq.toNat ∧
      u.peeks (s.job.localArea + 64) 32 = shake256 body 32 ∧ u.peekNat (s.job.localArea + 96) 8 = sn.ingSeq.toNat ∧
      u.peekNat (s.job.localArea + 104) 1 = 2 ∧ u.holds 0 sn.step.toNat = true ∧
      u.fld sysGrnStatus 32 32 = sn.step.toNat ∧ u.rcv.snap = none ∧ (sn.ingestWas = true → u.bit drlCtrl 16 = true) ∧
      (∀ b, s.buddyOf r = some b → u.rcv.pushing = some sn.step)) ∧
  (∀ (s t : State) (p : Port) (fs : List Flit) (bs : List Byte), Got1 s p 3 0x35 fs t bs →
    let data := (bs.drop 32).take (msgNat bs 16 4)
    let role := msgNat bs 2 2
    let step := msgNat bs 4 4
    let off := msgNat bs 8 8
    let push := t.buddyArea role (genOf t step)
    let good : Prop := data.length = msgNat bs 16 4 ∧ (crc32c data).toNat = msgNat bs 20 4
    (¬ good → exec (.bulk p fs) s = .next t) ∧
    (good → t.Sound → t.Clean → 8192 ≤ off → off + data.length ≤ t.job.areaLen →
      (msgNat bs 0 1 = 0 → role < t.job.roles.length → t.buddyOf role = some t.chip → push + off + data.length ≤ buddyBase →
        ∃ u : State, exec (.bulk p fs) s = .next u ∧ u.peeks (push + off) data.length = data) ∧
      (msgNat bs 0 1 = 1 → t.myRole = some role → t.rcv.st = .restore ∨ t.rcv.st = .fill → step = t.rcv.k0.toNat →
        t.job.localArea + off + data.length ≤ buddyBase →
        ∃ u : State, exec (.bulk p fs) s = .next u ∧ u.peeks (t.job.localArea + off) data.length = data)) ∧
    (good → msgNat bs 0 1 = 2 → (t.mems.members.contains t.chip = false ∨ ∀ c ∈ t.mems.members, c = t.chip) →
      off % 4096 = 0 → off < 16384 →
      let got := Tab.put t.mems.received (off / 4096) data
      let whole : Prop := ∀ i, i < 4 → (Tab.look got i).isSome = true
      let image := ((List.range 4).map (fun i => Tab.get got [] i)).flatten
      ∃ u, exec (.bulk p fs) s = .next u ∧ (¬ whole → u = { t with mems := { t.mems with received := got } }) ∧
        (whole → u.stkEpoch.toNat = role ∧ u.mems.mseq.toNat = step ∧
          ∀ c, c < 65536 → (c ∈ u.mems.members ↔ leNat (image.take 8192) / 2 ^ c % 2 = 1)))) ∧
  (∀ (s t : State) (p : Port) (f : Flit) (bs : List Byte), RecGot s p f 6 t bs →
    let from_ := msgNat bs 20 2
    let len := msgNat bs 24 8
    let joiner : Prop := t.isMaster = true ∧ t.mems.transfer = some (BitVec.ofNat 16 from_) ∧ len = 16384
    (joiner → ∃ u, exec (.recoveryDone p f) s = .next u ∧ u.mems.transfer = none ∧ from_ ∈ u.mems.transferDone) ∧
    (¬ joiner → ∀ x, PushFrom t from_ x → t.Sound → t.Clean → t.job.hash.length = 32 → x.base + 128 ≤ buddyBase →
      x.role.toNat < 4096 →
      (t.pushGood x len = true → ∃ u : State, exec (.recoveryDone p f) s = .next u ∧
        u.holds (buddyRecord x.role.toNat (genOf t x.step.toNat)) x.step.toNat = true ∧ u.peekNat (x.base + 104) 1 = 2) ∧
      (t.pushGood x len = false → ∃ v : State, exec (.recoveryDone p f) s = .next
        (({ v with rcv := { t.rcv with rx := t.rcv.rx.filter (fun y => y != x) } } : State).send
          (mkMsg 0 0x07 from_ false (recBytes 2 0 from_ t.rcv.rseq.toNat 0 x.step.toNat t.chip (recCode t.rcv.st) 1))) ∧
        { v with clc := t.clc } = t)) ∧
    (¬ joiner → ∀ x, FillFirst t from_ x → t.Sound → t.Clean → t.job.hash.length = 32 → x.base + 128 ≤ buddyBase →
      (x.dones + 1 < t.fillSources x.role.toNat → exec (.recoveryDone p f) s = .next { t with rcv := { t.rcv with
        rx := t.rcv.rx.filter (fun y => y != x) ++ [{ x with dones := x.dones + 1 }] } }) ∧
      (t.fillSources x.role.toNat ≤ x.dones + 1 →
        (t.pushGood x len = true → ∃ u : State, exec (.recoveryDone p f) s = .next u ∧ u.holds 0 x.step.toNat = true ∧
          u.peekNat (x.base + 104) 1 = 2) ∧
        (t.pushGood x len = false → ∃ u : State, exec (.recoveryDone p f) s = .next u ∧ x ∉ u.rcv.rx ∧ u.mem = t.mem)))) ∧
  ∀ (s : State) (r : Nat), s.rcv.st = .restore → s.rcv.k0 ≠ 0xFFFFFFFF → s.holds 0 s.rcv.k0.toNat = true → s.myRole = some r →
    s.Sound → s.Clean →
    let k := s.rcv.k0.toNat
    (s.areaGood k = true → (∀ x ∈ s.placed, x.2.1 + x.2.2.1 ≤ buddyBase ∧
        Apart x.2.1 x.2.2.1 s.job.localArea (8192 + s.bodyLen)) →
      s.placed.Pairwise (fun x y => Apart x.2.1 x.2.2.1 y.2.1 y.2.2.1) → s.job.localArea + 8192 + s.bodyLen ≤ buddyBase →
      (∀ a ∈ s.job.amax, a + 72 ≤ buddyBase) →
      ∃ u : State, exec .restoreComplete s = .next u ∧ u.rcv.st = .ready ∧ u.fld furStep 0 32 = (k + 1) % 2 ^ 32 ∧
        u.fld drlSampled 0 32 = k ∧ (u.reg drlIngSeq).toNat = s.peekNat (s.job.localArea + 96) 8 ∧
        (∀ a ∈ s.job.amax, u.peekNat (a + 68) 4 = 0) ∧
        ∀ x ∈ s.placed, ∀ j, j < x.2.2.1 → (∀ a ∈ s.job.amax, x.2.1 + j < a + 68 ∨ a + 72 ≤ x.2.1 + j) →
          u.peek (x.2.1 + j) = s.peek (s.job.localArea + 8192 + x.1 + j)) ∧
    (s.areaGood k = false → s.rcv.asked = false → s.rcv.failed = false → ∃ u, exec .restoreComplete s = .next u ∧
      u.rcv = { s.rcv with failed := true } ∧ { u with rcv := s.rcv, clc := s.clc } = s) ∧
    (s.areaGood k = false → s.rcv.asked = false → s.rcv.failed = true → ∃ u, exec .restoreComplete s = .next u ∧
      u.holds 0 k = false ∧ u.rcv.asked = true ∧ u.rcv.st = if s.sourceChips r = [] then .waitHost else .restore) ∧
    (s.areaGood k = false → s.rcv.asked = true → ∃ u, exec .restoreComplete s = .next u ∧ u.holds 0 k = false)

-- The host port: datagrams and sessions (chapter 14).

/-- R541, R543, R545, R546, R548, R562, R595: a request that the boot, the session's privilege, fallow or the job's state does
not admit is answered with the status that says so and has no effect; each gets one reply of its TYPE, OP and REQ_ID in one
datagram of the next SEQ, tagged with the session's key, and the next request comes to the front. A CLOSE waits until the peer's
WINDOW (R537) has room for its reply. That REFUSED comes before
PRIV, FALLOW and BUSY is the model's reading (log entry 30). -/
def Obligations.RequestsAndReplies : Prop :=
  (∀ (i : Instr) (s : State) (sl : Slot) (ns typ op c : Nat) (r : Req), FgtRow i sl ns typ op → FgtFront s sl r typ op →
    s.turnedAway sl.val typ op = some c → (typ = 13 → s.linksDark = false) → Answers i s s sl r c []) ∧
  (∀ (s : State) (sl typ op : Nat), knownOp typ op = true →
    let ans := s.turnedAway sl typ op
    (s.stile.recoveryBoot = true → typ ∉ [1, 10, 12, 17, 18] → ans = some 5) ∧
    (s.stile.recoveryBoot = false ∨ typ ∈ [1, 10, 12, 17, 18] →
      (typ ∈ [10, 11, 12, 16, 18] → (s.session sl).mgmt = false → ans = some 6) ∧
      (typ ∉ [10, 11, 12, 16, 18] ∨ (s.session sl).mgmt = true →
        (s.linksDark = true → ans = if typ ∈ [1, 10, 13, 14, 15] then none else some 9) ∧
        (s.linksDark = false → typ ∈ [1, 10, 11, 12, 15, 16, 17, 18] ∨ JobTable s sl typ op → ans = none) ∧
        (s.linksDark = false → typ ∉ [1, 10, 11, 12, 15, 16, 17, 18] → ¬ JobTable s sl typ op → ans = some 4)))) ∧
  (∀ (s : State) (sl : Slot) (r : Req) (rest : List Req) (status : Nat) (body : List Byte),
    let x := s.session sl.val
    x.reqs = r :: rest → (∀ q ∈ rest.head?, q.bad = false) → x.waitTx = [] → x.unacked.length < x.peerWindow →
    body.length ≤ 9072 →
      let u := s.reply sl.val r status body
      let w := u.window (u.session sl.val)
      let msg := leBytes 1 r.type.toNat ++ leBytes 1 r.op.toNat ++ leBytes 1 status ++ leBytes 1 0 ++ leBytes 4 r.id.toNat ++
        leBytes 4 body.length ++ leBytes 4 0 ++ body
      let head := leBytes 1 1 ++ leBytes 1 0x0E ++ leBytes 1 sl.val ++ leBytes 1 0 ++ leBytes 4 x.epoch.toNat ++
        leBytes 8 x.txSeq ++ leBytes 8 x.rxNext ++ leBytes 4 x.ackMap ++ leBytes 2 w ++ leBytes 2 (16 + body.length)
      let dg := head ++ kmac256 x.key (head ++ msg) 16 (ascii "Fieldgate datagram") ++ msg
      w ≤ 256 ∧ (u.session sl.val).reqs = rest ∧ (u.session sl.val).holding = false ∧ (u.session sl.val).txSeq = x.txSeq + 1 ∧
        (u.session sl.val).unacked = x.unacked ++ [⟨x.txSeq, dg, 0⟩] ∧ u.sent = s.sent ++ [s.frame (.datagram x.peer dg)] ∧
        { u with sess := s.sess, csr := s.csr, sent := s.sent } = s) ∧
  (∀ (s : State) (sl : Slot) (r : Req), FgtMay s sl r 1 3 → Answers (.sessionPing sl) s s sl r 0 []) ∧
  ∀ (s : State) (sl : Slot) (r : Req), FgtMay s sl r 1 2 →
    let x := s.session sl.val
    (x.waitTx = [] → x.unacked.length < x.peerWindow → ∃ u, exec (.sessionClose sl) s = .next u ∧
      Closed s u sl ∧ LoadDropped s u sl ∧ ∃ dg, u.sent = s.sent ++ [s.frame (.datagram x.peer dg)]) ∧
    (x.waitTx ≠ [] ∨ x.peerWindow ≤ x.unacked.length → exec (.sessionClose sl) s = .next s)

/-- R533 to R538, R541, R542, R547: which datagrams are discarded, counted, answered with an ACK_ONLY or taken; a whole message
in order becomes a request; what the peer's ACK covers is resent no more; resending is byte-identical, and gives up after 20; a
session that closes leaves the batches of a FEED EDGES under way to be applied; a session opens with a fresh EPOCH and its own
key, or is answered FULL. Its reply too waits for the peer's WINDOW. -/
def Obligations.DatagramsAndSessions : Prop :=
  (∀ (s : State) (d : Datagram), s.pins.hostUp = true →
    (dgField d 2 1 = 0xFF → exec (.datagramRx d) s = .next { s with opens := s.opens ++ [d] }) ∧
    (dgField d 2 1 ≠ 0xFF → (64 ≤ dgField d 2 1 ∨ (s.session (dgField d 2 1)).isOpen = false ∨
      dgField d 4 4 ≠ (s.session (dgField d 2 1)).epoch.toNat ∨ dgGood d (s.session (dgField d 2 1)).key = false) →
      exec (.datagramRx d) s = .next (s.count (fgtCnt 1) 1)) ∧
    (∀ sl : Slot, dgField d 2 1 = sl.val → (s.session sl.val).isOpen = true →
      dgField d 4 4 = (s.session sl.val).epoch.toNat → dgGood d (s.session sl.val).key = true →
      dgFits d = false ∨ (⟨d.ethSrc, d.ipSrc, d.udpSrc⟩ : Peer) ≠ (s.session sl.val).peer →
      exec (.datagramRx d) s = .next s)) ∧
  (∀ (s : State) (sl : Slot) (d : Datagram), DgOf s sl d →
    let x := s.session sl.val
    let q := dgField d 8 8
    let dup : Prop := q < x.rxNext ∨ ∃ h ∈ x.rxHeld, h.1 = q
    (dgFlag d 0 = false → dup → ∃ u dg, exec (.datagramRx d) s = .next u ∧ u.sess = s.sess ∧ Counted s u (fgtCnt 2) 1 ∧
      u.sent = s.sent ++ [s.frame (.datagram x.peer dg)]) ∧
    (dgFlag d 0 = false → ¬ dup → s.storeRoom x = false → exec (.datagramRx d) s = .next (s.count (fgtCnt 4) 1)) ∧
    (dgFlag d 0 = true ∨ ¬ dup ∧ s.storeRoom x = true → x.waitTx = [] → (∀ r ∈ x.reqs, r.bad = false) →
      ∃ u, exec (.datagramRx d) s = .next u ∧ Counted s u (fgtCnt 0) 1 ∧ (u.session sl.val).peerWindow = min 256 (dgField d 28 2) ∧
        (dgFlag d 0 = true → (u.session sl.val).rxNext = x.rxNext ∧ (u.session sl.val).reqs = x.reqs ∧ u.sent = s.sent ∧
          (u.session sl.val).unacked.map (fun e => (e.seq, e.bytes)) = (x.unacked.filter (fun e => decide (dgField d 16 8 ≤ e.seq) &&
            !(decide (dgField d 16 8 < e.seq) && decide (e.seq ≤ dgField d 16 8 + 32) &&
              natBits (dgField d 24 4) (e.seq - dgField d 16 8 - 1) 1 == 1))).map (fun e => (e.seq, e.bytes))) ∧
        (dgFlag d 0 = false → x.rxNext < q → (∀ h ∈ x.rxHeld, h.1 ≠ x.rxNext) → (u.session sl.val).rxNext = x.rxNext ∧ (u.session sl.val).reqs = x.reqs ∧
          (q, dgFlag d 1, dgFlag d 2, d.payload) ∈ (u.session sl.val).rxHeld) ∧
        (dgFlag d 0 = false → q = x.rxNext → x.rxHeld = [] → dgFlag d 1 = true → dgFlag d 2 = true →
          (parseReq d.payload 1).bad = false → (u.session sl.val).rxNext = x.rxNext + 1 ∧
          (u.session sl.val).reqs = x.reqs ++ [parseReq d.payload 1]))) ∧
  (∀ (s : State) (sl : Slot) (pos : Nat) (e : TxDg), (s.session sl.val).unacked[pos]? = some e →
    (e.resends < 20 → ∃ u, exec (.datagramResend sl pos) s = .next u ∧ Counted s u (fgtCnt 3) 1 ∧
      u.sent = s.sent ++ [s.frame (.datagram (s.session sl.val).peer e.bytes)] ∧
      (u.session sl.val).unacked[pos]? = some { e with resends := e.resends + 1 }) ∧
    (20 ≤ e.resends → ∃ u, exec (.datagramResend sl pos) s = .next u ∧ Closed s u sl ∧ LoadDropped s u sl)) ∧
  (∀ (s : State) (sl : Slot), (s.session sl.val).isOpen = true → ∃ u, exec (.sessionTimeout sl) s = .next u ∧ Closed s u sl ∧
    LoadDropped s u sl ∧ u.drl.ingest.map (fun b => b.recs) = s.drl.ingest.map (fun b => b.recs) ∧
    (∀ r l, (s.session sl.val).reqs.head? = some r → (s.session sl.val).holding = true → r.type = 3 → r.op = 2 →
      edgeBatches sl (r.body.length + 1) 0 r.body = some l →
      u.drl.owed.map (fun b => b.recs) = s.drl.owed.map (fun b => b.recs) ++ (l.drop (s.session sl.val).fed).map (fun b => b.recs))) ∧
  (∀ (s : State) (a : BitVec 32) (m : BitVec 48), s.pins.hostUp = true → s.stile.image.ipv4 ≠ 0 → a = s.stile.image.ipv4 →
    exec (.arpRequest a m) s = .next { s with sent := s.sent ++ [s.frame (.arpReply a s.stile.image.mac m)] }) ∧
  (∀ (s : State) (a : BitVec 128) (m : BitVec 48), s.pins.hostUp = true → a = s.stile.image.ipv6 →
    exec (.neighbourSolicitation a m) s =
      .next { s with sent := s.sent ++ [s.frame (.neighbourAdvert a s.stile.image.mac m)] }) ∧
  (∀ (s : State) (v6 : Bool) (a : BitVec 128) (e : EchoBody), s.pins.hostUp = true → s.bit fgtCtrl 1 = true →
    (v6 = true → a = s.stile.image.ipv6) → (v6 = false → s.stile.image.ipv4 ≠ 0 ∧ a = s.stile.image.ipv4.setWidth 128) →
    exec (.echoRequest v6 a e) s =
      .next { s with sent := s.sent ++ [s.frame (.echoReply v6 e.ethSrc e.ipSrc e.data)] }) ∧
  ∀ (s : State) (d : Datagram) (rest : List Datagram), s.opens = d :: rest →
    let kid := BitVec.ofNat 16 (msgNat d.payload 16 2)
    let gone : State := { s with opens := rest }
    (s.stile.image.keys.find? (fun k => k.1 == kid) = none → exec .sessionOpen s = .next gone) ∧
    (∀ k m, s.stile.image.keys.find? (fun k => k.1 == kid) = some (k, m) →
      (dgGood d (hostKey s.stile.image.rootSecret kid) = false → exec .sessionOpen s = .next (gone.count (fgtCnt 1) 1)) ∧
      (dgGood d (hostKey s.stile.image.rootSecret kid) = true → ¬ OpenGood s d kid m → exec .sessionOpen s = .next gone)) ∧
    ∀ (k : BitVec 16) (m : Bool), OpenGood s d k m →
      ((∀ i, i < 64 → (s.session i).isOpen = true) → ∃ dg, exec .sessionOpen s =
        .next { s.count (fgtCnt 0) 1 with opens := rest, sent := s.sent ++ [s.frame (.datagram ⟨d.ethSrc, d.ipSrc, d.udpSrc⟩ dg)] } ∧
        msgNat dg 50 1 = 10 ∧ dg.length = 64) ∧
      ∀ i : Slot, (s.session i.val).isOpen = false → (∀ j, j < i.val → (s.session j).isOpen = true) →
        ∃ u dg, exec .sessionOpen s = .next u ∧ (u.session i.val).isOpen = true ∧
          (u.session i.val).epoch = (s.session i.val).epoch + 1 ∧
          ((u.session i.val).mgmt = true ↔ msgNat d.payload 18 1 = 1) ∧ (u.session i.val).rxNext = 0 ∧
          (u.session i.val).reqs = [] ∧
          (u.session i.val).key = kmac256 (hostKey s.stile.image.rootSecret k) (((d.payload.drop 32).take 16 ++
            leBytes 16 (Config.freeNonce s.draws).toNat) ++ leBytes 2 s.chip ++ leBytes 1 i.val ++
            leBytes 4 ((s.session i.val).epoch + 1).toNat) 32 (ascii "Fieldgate session") ∧
          (dgField d 28 2 = 0 → (u.session i.val).txSeq = 0 ∧ (u.session i.val).waitTx ≠ [] ∧ u.sent = s.sent) ∧
          (dgField d 28 2 ≠ 0 → (u.session i.val).txSeq = 1 ∧ (u.session i.val).waitTx = [] ∧
            u.sent = s.sent ++ [s.frame (.datagram ⟨d.ethSrc, d.ipSrc, d.udpSrc⟩ dg)] ∧
            (dg.drop 64).take 16 = leBytes 16 (Config.freeNonce s.draws).toNat) ∧
          Counted s u (fgtCnt 0) 1 ∧ ∀ j, j ≠ i.val → u.session j = s.session j

-- Jobs over the host port (chapter 14).

/-- R549, R550: BEGIN starts a load; each PART must start where the last one ended, and its bytes go to DRAM from 0 upward;
COMMIT checks length, hash and header, answers SIGFAIL, PART or REFUSED with the job NONE, or loads the job with every engine
empty and every thread idle but the one that R219 keeps for firmware; UNLOAD returns the job to NONE. -/
def Obligations.LoadingAJob : Prop :=
  (∀ (s : State) (sl : Slot) (r : Req), FgtMay s sl r 2 0 →
    let n := r.u 0 8
    (40 ≤ r.body.length → 0 < n → n ≤ dramJobEnd → ∃ v : State, Answers (.loadJobBegin sl) s v sl r 0 [] ∧
      v.job.st = .loading ∧ v.job.loadSlot = some sl ∧ v.job.length = n ∧ v.job.hash = (r.body.drop 8).take 32 ∧
      v.job.nextOff = 0 ∧ { v with job := s.job } = s) ∧
    (r.body.length < 40 ∨ n = 0 ∨ dramJobEnd < n → Answers (.loadJobBegin sl) s s sl r 5 [])) ∧
  (∀ (s : State) (sl : Slot) (r : Req), FgtMay s sl r 2 1 →
    let o := r.u 0 8
    let data := r.body.drop 8
    (8 ≤ r.body.length → o = s.job.nextOff → o + data.length ≤ s.job.length → s.job.length ≤ dramJobEnd → s.Sound → s.Clean →
      ∃ v : State, Answers (.loadJobPart sl) s v sl r 0 [] ∧ HoldsNow s v o data ∧ v.job.nextOff = o + data.length) ∧
    (r.body.length < 8 ∨ o ≠ s.job.nextOff ∨ s.job.length < o + data.length → Answers (.loadJobPart sl) s s sl r 5 [])) ∧
  (∀ (s : State) (sl : Slot) (r : Req), FgtMay s sl r 2 2 → s.Clean →
    let img := s.peeks 0 s.job.length
    let gone (v : State) : State := { v with job := {} }
    (r.body.length < 1 ∨ 1 < r.u 0 1 → Answers (.loadJobCommit sl) s s sl r 5 []) ∧
    (1 ≤ r.body.length → r.u 0 1 ≤ 1 →
      (s.job.nextOff ≠ s.job.length → Answers (.loadJobCommit sl) s (gone s) sl r 5 []) ∧
      (s.job.nextOff = s.job.length → ∃ q, OnlyRead s q ∧
        (shake256 img 32 ≠ s.job.hash → Answers (.loadJobCommit sl) s (gone q) sl r 13 []) ∧
        (shake256 img 32 = s.job.hash →
          (headerOk img = false → Answers (.loadJobCommit sl) s (gone q) sl r 5 []) ∧
          (headerOk img = true → imageParts s img = false → Answers (.loadJobCommit sl) s (gone q) sl r 11 []) ∧
          (∀ c w, q.commitImage img (decide (r.u 0 1 = 1)) = (c, w) → c ≠ 0 → OnlyRead q w ∧
            Answers (.loadJobCommit sl) s (gone w) sl r c []) ∧
          (∀ u, q.commitImage img (decide (r.u 0 1 = 1)) = (0, u) → Answers (.loadJobCommit sl) s u sl r 0 [] ∧
            u.job.st = .loaded ∧ u.job.spare = decide (r.u 0 1 = 1) ∧ u.job.hash = s.job.hash ∧
            u.job.period.toNat = msgNat img 24 4 ∧ u.job.phase = msgNat img 28 1 ∧ EnginesEmpty u ∧ u.stkEpoch = 0 ∧
            u.fur.starts = [] ∧ u.fur.ends = [] ∧ (∀ (st : Strip) (c : Fin 48), u.ctr st.val c.val = 0) ∧ u.waiters = [] ∧
            (∀ (st : Strip) (th : Thread), st.val ≠ 63 ∨ th.val ≠ 3 → (u.thread st.val th.val).st = .idle) ∧
            (u.thread 63 3).modeF = true ∧ (u.thread 63 3).st = .run))))) ∧
  ∀ (s : State) (sl : Slot) (r : Req), FgtMay s sl r 2 3 → ∃ v, Answers (.loadJobUnload sl) s v sl r 0 [] ∧ v.job = {} ∧
    v.fur.starts = [] ∧ v.fur.ends = []

/-- R551, R267, R280, R554, R587: FEED DATA writes within one host-writable region, but for HELD result slots; SEEDS writes the
table of a step into its ring entry, or is LATE once the step's build has begun; EDGES queues its batches as the ingest queue of
64 has room, none into a Drill block under reset, and holds its session; what does not fit is REFUSED with no effect. That FEED
DATA for a HELD slot is REFUSED is the model's choice (log entry 76). -/
def Obligations.FeedingAJob : Prop :=
  (∀ (s : State) (sl : Slot) (r : Req), FgtMay s sl r 3 0 → s.Clean →
    let a := r.u 0 8
    let data := r.body.drop 8
    let fits : Prop := jobReach a data.length = true ∧ (∃ e ∈ s.job.feedTab, e.1 ≤ a ∧ a + data.length ≤ e.1 + e.2) ∧
      s.meetsHeld a data.length = false
    (8 ≤ r.body.length → fits → s.Sound →
      ∃ v : State, Answers (.feedData sl) s v sl r 0 [] ∧ HoldsNow s v a data) ∧
    (r.body.length < 8 ∨ ¬ fits → Answers (.feedData sl) s s sl r 5 [])) ∧
  (∀ (s : State) (sl : Slot) (r : Req), FgtMay s sl r 3 1 →
    let k := r.u 0 4
    let tab := r.body.drop 4
    let a := s.job.seedTab + k % s.job.seedRing * s.job.seedStride
    let late : Prop := ∃ x, s.sampledStep = some x ∧ k ≤ x
    (r.body.length < 36 ∨ s.job.seedStride < tab.length → Answers (.feedSeeds sl) s s sl r 5 []) ∧
    (36 ≤ r.body.length → tab.length ≤ s.job.seedStride →
      (late → Answers (.feedSeeds sl) s s sl r 7 []) ∧
      (¬ late → jobReach a tab.length = false → Answers (.feedSeeds sl) s s sl r 5 []) ∧
      (¬ late → jobReach a tab.length = true → s.Sound → s.Clean →
        ∃ v : State, Answers (.feedSeeds sl) s v sl r 0 [] ∧ HoldsNow s v a tab))) ∧
  ∀ (s : State) (sl : Slot) (r : Req),
    (FgtMay s sl r 3 2 → ∀ l, edgeBatches sl (r.body.length + 1) 0 r.body = some l → l ≠ [] →
      ∃ u, exec (.feedEdges sl) s = .next u ∧
        u.drl.ingest = s.drl.ingest ++ (if s.closed 5 0 = true then [] else l.take (64 - s.drl.ingest.length)) ∧
        (u.session sl.val).holding = true ∧ (u.session sl.val).batches = l.length ∧ u.sent = s.sent) ∧
    (FgtMay s sl r 3 2 → (∀ l, edgeBatches sl (r.body.length + 1) 0 r.body = some l → l = []) →
      Answers (.feedEdges sl) s s sl r 5 []) ∧
    ((s.session sl.val).reqs.head? = some r → (s.session sl.val).holding = true → r.type = 3 → r.op = 2 →
      (s.session sl.val).fed < (s.session sl.val).batches → ∀ l, edgeBatches sl (r.body.length + 1) 0 r.body = some l →
      ∃ u, exec (.feedEdges sl) s = .next u ∧
        u.drl.ingest = s.drl.ingest ++
          (if s.closed 5 0 = true then [] else (l.drop (s.session sl.val).fed).take (64 - s.drl.ingest.length)) ∧
        (u.session sl.val).holding = true)

/-- R67, R218, R552: START and RESUME take effect at a tick at least GUARD away, or answer LATE; START replies with FUR_COUNT;
PAUSE_AT keeps the step after its own from starting and holds its session until the job has paused, when threads in mode J
become IDLE. That several PAUSE_ATs are all answered at that moment, and what a replaced pause step does, are the model's
readings (log entry 31). -/
def Obligations.StartingAndPausing : Prop :=
  (∀ (s : State) (sl : Slot) (ns : Nat) (r : Req), FgtMay s sl r 4 0 →
    let k := r.u 0 8
    (r.body.length < 8 → Answers (.start sl ns) s s sl r 5 []) ∧
    (8 ≤ r.body.length → k < s.targetTick ns → Answers (.start sl ns) s s sl r 7 []) ∧
    (8 ≤ r.body.length → s.targetTick ns ≤ k → ∃ v : State, Answers (.start sl ns) s v sl r 0 (leBytes 8 s.furCount.toNat) ∧
      v.job.st = .running ∧ Tab.look v.fur.starts 0 = some (BitVec.ofNat 64 k) ∧ v.job.runStep = some 0 ∧ v.job.pauseStep = none ∧
      { v with job := s.job, fur := s.fur } = s)) ∧
  (∀ (s : State) (sl : Slot) (ns : Nat) (r : Req), FgtMay s sl r 5 1 →
    let k := r.u 0 8
    (r.body.length < 8 → Answers (.resume sl ns) s s sl r 5 []) ∧
    (8 ≤ r.body.length → k < s.targetTick ns → Answers (.resume sl ns) s s sl r 7 []) ∧
    (∀ p, s.job.pauseStep = some p → 8 ≤ r.body.length → s.targetTick ns ≤ k →
      ∃ v : State, Answers (.resume sl ns) s v sl r 0 [] ∧ v.job.st = .running ∧
        Tab.look v.fur.starts (p.toNat + 1) = some (BitVec.ofNat 64 k) ∧ v.job.pauseStep = none ∧
        { v with job := s.job, fur := s.fur } = s)) ∧
  (∀ (s : State) (sl : Slot) (r : Req), FgtMay s sl r 5 0 →
    let k := r.u 0 4
    (r.body.length < 4 → Answers (.pauseAt sl) s s sl r 5 []) ∧
    (4 ≤ r.body.length → (Tab.look s.fur.starts (k + 1)).isSome = true → Answers (.pauseAt sl) s s sl r 7 []) ∧
    (4 ≤ r.body.length → Tab.look s.fur.starts (k + 1) = none → s.job.pauseStep = none →
      ∃ u, exec (.pauseAt sl) s = .next u ∧ u.job.pauseStep = some (BitVec.ofNat 32 k) ∧ sl ∈ u.job.pauseReplies ∧
        (u.session sl.val).holding = true ∧ u.sent = s.sent ∧ u.fur = s.fur) ∧
    (∀ p e, 4 ≤ r.body.length → Tab.look s.fur.starts (k + 1) = none → s.job.pauseStep = some p →
      Tab.look s.fur.ends p.toNat = some e → k ≠ p.toNat → s.furCount.toNat < e.toNat + s.fld furCtrl 8 8 →
      ∃ u, exec (.pauseAt sl) s = .next u ∧ u.job.pauseStep = some (BitVec.ofNat 32 k) ∧
        Tab.look u.fur.starts (p.toNat + 1) = some (BitVec.ofNat 64 (e.toNat + s.fld furCtrl 8 8)))) ∧
  ∀ (s : State) (k : BitVec 32) (e : Word) (sl : Slot) (r : Req), s.job.pauseStep = some k → Tab.look s.fur.ends k.toNat = some e →
    s.job.st = .running → e.toNat + s.job.phase ≤ s.furCount.toNat → s.job.pauseReplies = [sl] →
    (s.session sl.val).reqs.head? = some r → (s.session sl.val).holding = true →
    ∃ v : State, Answers .jobPause s v sl r 0 [] ∧ v.job.st = .paused ∧ v.sess = s.sess ∧
      ∀ (i : Strip) (j : Thread), (v.thread i.val j.val).modeF = (s.thread i.val j.val).modeF ∧
        ((s.thread i.val j.val).modeF = true → v.thread i.val j.val = s.thread i.val j.val) ∧
        ((s.thread i.val j.val).modeF = false → (v.thread i.val j.val).st = .idle)

/-- R553 to R559: FETCH and RELEASE answer as the first row of R555 that matches; a HELD object's bytes come with its
generation; RELEASE frees the slot. EXPORT_DELTA answers with this module's records of the steps asked for, in order, and where
the scan goes on; ownership words out of reach are answered REFUSED. -/
def Obligations.ResultsAndExport : Prop :=
  (∀ (s : State) (sl : Slot) (r : Req), FgtMay s sl r 6 0 →
    let e := resultOf s r
    let off := r.u 8 4
    let len := if r.u 12 4 = 0 then e.2.1 - off else r.u 12 4
    (r.body.length < 16 → Answers (.fetch sl) s s sl r 5 []) ∧
    (16 ≤ r.body.length →
      (NoSuch s r → Answers (.fetch sl) s s sl r 3 []) ∧
      (¬ NoSuch s r → e.2.1 < off + len → Answers (.fetch sl) s s sl r 5 []) ∧
      (¬ NoSuch s r → off + len ≤ e.2.1 →
        (IsHeld s r → s.Clean → ∃ v, OnlyRead s v ∧ Answers (.fetch sl) s v sl r 0 (leBytes 2 (r.u 0 2) ++ leBytes 2 0 ++ leBytes 4 (r.u 4 4) ++
          leBytes 8 (slotFor s r).gen.toNat ++ leBytes 4 e.2.1 ++ leBytes 4 off ++ leBytes 4 len ++ leBytes 4 0 ++
          s.peeks (e.1 + r.u 4 4 % e.2.2.1 * e.2.1 + off) len)) ∧
        (¬ IsHeld s r → NotYet s r → ∃ x exact, ExpectIs s (r.u 4 4) x exact ∧
          Answers (.fetch sl) s s sl r 1 (leBytes 8 x ++ leBytes 1 exact)) ∧
        (¬ IsHeld s r → ¬ NotYet s r → Answers (.fetch sl) s s sl r 2 [])))) ∧
  (∀ (s : State) (sl : Slot) (r : Req), FgtMay s sl r 7 0 →
    (r.body.length < 8 → Answers (.release sl) s s sl r 5 []) ∧
    (8 ≤ r.body.length →
      (NoSuch s r → Answers (.release sl) s s sl r 3 []) ∧
      (¬ NoSuch s r → IsHeld s r → ∃ v, Answers (.release sl) s v sl r 0 [] ∧ (slotFor v r).st = .free ∧ v.mem = s.mem) ∧
      (¬ NoSuch s r → ¬ IsHeld s r → NotYet s r → ∃ x exact, ExpectIs s (r.u 4 4) x exact ∧
        Answers (.release sl) s s sl r 1 (leBytes 8 x ++ leBytes 1 exact)) ∧
      (¬ NoSuch s r → ¬ IsHeld s r → ¬ NotYet s r → Answers (.release sl) s s sl r 2 []))) ∧
  ∀ (s : State) (sl : Slot) (r : Req), FgtMay s sl r 8 0 →
    let t := r.u 0 1
    let d := s.table t
    let raw : Bool := decide (r.u 1 1 % 2 = 1)
    let max' := r.u 24 4
    let bad : Prop := r.body.length < 28 ∨ max' < 1 ∨ 65536 < max' ∨ (raw = false ∧ 2 < r.u 2 1)
    (bad → Answers (.exportDelta sl) s s sl r 5 []) ∧
    (¬ bad → 16 ≤ t → Answers (.exportDelta sl) s s sl r 3 []) ∧
    (¬ bad → t < 16 → s.Clean → d.sound = false ∨ d.nrange = 0 → ∃ v, OnlyRead s v ∧ Answers (.exportDelta sl) s v sl r 3 []) ∧
    (¬ bad → t < 16 → s.Clean → d.sound = true → 0 < d.nrange → jobReach d.ownTab (8 * d.nrange) = false →
      ∃ v, OnlyRead s v ∧ Answers (.exportDelta sl) s v sl r 5 []) ∧
    (¬ bad → t < 16 → d.sound = true → 0 < d.nrange → s.Clean → jobReach d.ownTab (8 * d.nrange) = true →
      (∀ i, r.u 16 8 ≤ i → i < s.homeEnd d → (s.rangeAt d (i / 2 ^ d.shift)).isSome → jobReach (d.base + d.stride * i) d.rowBytes = true) →
      let all := (exported s r).take max'
      let next := if all.length < max' ∨ s.homeEnd d ≤ all.getLastD 0 + 1 then 2 ^ 64 - 1 else all.getLastD 0 + 1
      ∃ v, OnlyRead s v ∧ Answers (.exportDelta sl) s v sl r 0 (leBytes 8 next ++ leBytes 4 all.length ++
        all.flatMap (fun i => exportBytes d t (rowOf s d i) raw (r.u 2 1) (recordOf s d i))))

-- The other requests of the host port (chapters 14 to 17).

/-- R560, R561, R564, R595, R614, R615, R623: SNAPSHOT INFO lists what the granary index holds, READ returns bytes of a snapshot,
WRITE is accepted only while recovery waits for the host's copies, and the local area's record then says WRITING; CSR_READ and CSR_WRITE check every address first, then act
in order; DUMP_FETCH returns bytes of the dump region once a dump is complete. -/
def Obligations.SnapshotsRegistersAndDumps : Prop :=
  (∀ (s : State) (sl : Slot) (r : Req), FgtMay s sl r 9 0 → s.Clean →
    let l := s.ownRecords.filter s.recordLive
    ∃ v, OnlyRead s v ∧ Answers (.snapshotInfo sl) s v sl r 0 (leBytes 4 l.length ++ leBytes 4 0 ++ l.flatMap (fun i =>
      s.peeks (recordAddr i + 4) 4 ++ s.peeks (recordAddr i) 2 ++ s.peeks (recordAddr i + 3) 1 ++ s.peeks (recordAddr i + 2) 1 ++
      s.peeks (recordAddr i + 8288) 8))) ∧
  (∀ (s : State) (sl : Slot) (r : Req), FgtMay s sl r 9 1 → s.Clean →
    let off := r.u 8 8
    let len := r.u 16 4
    ∃ v, OnlyRead s v ∧
    (r.body.length < 20 ∨ 16777216 < len → Answers (.snapshotRead sl) s v sl r 5 []) ∧
    (20 ≤ r.body.length → len ≤ 16777216 →
      ((∀ i ∈ s.ownRecords, s.holds i (r.u 0 4) = false) → Answers (.snapshotRead sl) s v sl r 3 []) ∧
      (∀ i, s.ownRecords.find? (fun i => s.holds i (r.u 0 4)) = some i →
        (8192 + s.bodyLen < off + len → Answers (.snapshotRead sl) s v sl r 5 []) ∧
        (off + len ≤ 8192 + s.bodyLen →
          Answers (.snapshotRead sl) s v sl r 0 (s.peeks (s.peekNat (recordAddr i + 8) 8 + off) len))))) ∧
  (∀ (s : State) (sl : Slot) (r : Req), FgtMay s sl r 9 2 →
    let off := r.u 8 8
    let data := r.body.drop 16
    let fits : Prop := 16 ≤ r.body.length ∧ r.u 0 4 ≠ 0xFFFFFFFF ∧ r.u 0 4 = s.fld sysGrnHost 0 32 ∧
      off + data.length ≤ 8192 + s.bodyLen
    (s.rcv.st ≠ .waitHost → Answers (.snapshotWrite sl) s s sl r 4 []) ∧
    (s.rcv.st = .waitHost → ¬ fits → Answers (.snapshotWrite sl) s s sl r 5 []) ∧
    (s.rcv.st = .waitHost → fits → s.Sound → s.Clean → s.job.localArea + 8192 + s.bodyLen ≤ buddyBase →
      ∃ v : State, Answers (.snapshotWrite sl) s v sl r 0 [] ∧ v.peeks (s.job.localArea + off) data.length = data ∧
        (∀ x, x < s.job.localArea + off ∨ s.job.localArea + off + data.length ≤ x → x < recordAddr 0 ∨ recordAddr 1 ≤ x →
          v.peek x = s.peek x) ∧
        (s.myRole.isSome = true → v.peekNat (recordAddr 0 + 3) 1 = 1 ∧ v.peekNat (recordAddr 0 + 4) 4 = r.u 0 4))) ∧
  (∀ (s : State) (sl : Slot) (r : Req), FgtMay s sl r 10 0 →
    let n := r.u 0 4
    let addr (i : Nat) : Nat := r.u (8 + 8 * i) 8
    let good : Prop := 1 ≤ n ∧ n ≤ 64 ∧ 8 + 8 * n ≤ r.body.length ∧ ∀ i, i < n → inCsr (addr i) = true ∧ addr i % 8 = 0
    (¬ good → Answers (.csrRead sl) s s sl r 5 []) ∧
    let off (i : Nat) : Nat := addr i - csrBase
    let hidden (i : Nat) : Bool := (regInfo (off i)).isNone ||
      (s.stile.recoveryBoot && decide (off i ≠ sysId ∧ off i / 0x1000000 ≠ 12 ∧ off i / 0x1000000 ≠ 13))
    (good → (∀ i, i < n → s.timeRuns (off i) = false ∧ freeBits (off i) = 0) → Answers (.csrRead sl) s s sl r 0
      ((List.range n).flatMap (fun i => leBytes 8 (if hidden i then 0 else (s.csrValue (off i)).toNat)))) ∧
    (good → ∃ (v : State) (bs : List Byte), Answers (.csrRead sl) s v sl r 0 bs ∧ bs.length = 8 * n ∧
      { v with draws := s.draws, csr := s.csr } = s)) ∧
  (∀ (s : State) (sl : Slot) (ns : Nat) (r : Req), FgtMay s sl r 11 0 →
    let n := r.u 0 4
    let addr (i : Nat) : Nat := r.u (8 + 16 * i) 8
    let good : Prop := 1 ≤ n ∧ n ≤ 64 ∧ 8 + 16 * n ≤ r.body.length ∧ ∀ i, i < n → inCsr (addr i) = true ∧ addr i % 8 = 0
    (¬ good → Answers (.csrWrite sl ns) s s sl r 5 []) ∧
    (good → Answers (.csrWrite sl ns) s ((List.range n).foldl (fun v i =>
      v.writeCsr (addr i - csrBase) (BitVec.ofNat 64 (r.u (16 + 16 * i) 8)) ns false) s) sl r 0 [])) ∧
  ∀ (s : State) (sl : Slot) (r : Req), FgtMay s sl r 16 0 →
    let off := r.u 0 8
    let len := r.u 8 4
    let good : Prop := 12 ≤ r.body.length ∧ len ≤ 16777216 ∧ off + len ≤ 2 ^ 32
    (¬ good → Answers (.dumpFetch sl) s s sl r 5 []) ∧
    (good → s.dumpDone 0 = false → s.dumpDone 1 = false → Answers (.dumpFetch sl) s s sl r 3 []) ∧
    (good → s.dumpDone 0 = true ∨ s.dumpDone 1 = true → s.Clean →
      ∃ v, OnlyRead s v ∧ Answers (.dumpFetch sl) s v sl r 0 (s.peeks (dumpBase + off) len))

/-- R25, R563, R564, R565, R594, R596, R597, R600, R601, R603: a staged WRITE erases the sectors that it enters, counts them and
holds its session; the same command again programs its bytes and replies, WP where WP_N has cut it short; COMMIT leaves a trial
PENDING or the slot INVALID with the status of the failed check; ATTEST signs the report under the next index, and where none is
left reserves a block in two steps, in the other half of the index log where the active one is full; each answers WP while WP_N
is low; RESET replies, once the peer's WINDOW has room, and then resets warm. That WRITE and the reservation take two commands is
the model's choice (log entry 69). -/
def Obligations.StagingAttestationReset : Prop :=
  (∀ (s : State) (sl : Slot) (r : Req), FgtMay s sl r 12 0 →
    let t := s.finishStage
    let off := r.u 0 8
    let data := r.body.drop 8
    let b := !activeSlot t.stile.records
    let entered (a i : Nat) : Prop := a ≤ 65536 * i ∧ 65536 * i < a + data.length
    let fits : Prop := 8 ≤ r.body.length ∧ (off = 0 ∨ t.stile.stageNext = some off) ∧ off + data.length ≤ 33554432
    (s.stageBusy sl = true → exec (.imageStageWrite sl) s = .next s) ∧
    (s.stageBusy sl = false →
      (s.pins.wpN = false → Answers (.imageStageWrite sl) s t sl r 8 []) ∧
      (s.pins.wpN = true → t.trialRuns = true → Answers (.imageStageWrite sl) s t sl r 4 []) ∧
      (s.pins.wpN = true → t.trialRuns = false → ¬ fits → Answers (.imageStageWrite sl) s t sl r 5 []) ∧
      (s.pins.wpN = true → t.trialRuns = false → fits → ∃ u : State, exec (.imageStageWrite sl) s = .next u ∧
        let a := slotBase b + off
        u.stile.staging = some ⟨sl, a, data, false⟩ ∧ u.stile.stageNext = none ∧ (u.session sl.val).holding = true ∧
        u.sent = s.sent ∧ (∀ i, entered a i → Counted t u (stbErase i) 1) ∧
        (∀ x, entered a (x / 65536) → Tab.get u.stile.flash 0xFF x = 0xFF) ∧
        (∀ x, ¬ entered a (x / 65536) → off ≠ 0 ∨ x < recordBase →
          Tab.get u.stile.flash 0xFF x = Tab.get t.stile.flash 0xFF x) ∧
        (off = 0 → u.stile.slot b = 2 ∧ (pendingTrial u.stile.records).map (fun x => x.1) ≠ some b)))) ∧
  (∀ (s : State) (sl : Slot) (r : Req) (g : StageRun), (s.session sl.val).reqs.head? = some r → (s.session sl.val).holding = true →
    r.type = 12 → r.op = 0 → s.stile.staging = some g → g.owner = sl →
    (s.pins.wpN = true → g.cut = false → ∃ v : State, Answers (.imageStageWrite sl) s v sl r 0 [] ∧
      (∀ j, j < g.left.length → Tab.get v.stile.flash 0xFF (g.at_ + j) = g.left.getD j 0) ∧
      (∀ x, x < g.at_ ∨ g.at_ + g.left.length ≤ x → Tab.get v.stile.flash 0xFF x = Tab.get s.stile.flash 0xFF x) ∧
      v.stile.staging = none ∧
      v.stile.stageNext = some (g.at_ + g.left.length - slotBase (!activeSlot v.stile.records))) ∧
    (s.pins.wpN = false ∨ g.cut = true →
      Answers (.imageStageWrite sl) s { s with stile := { s.stile with staging := none } } sl r 8 [])) ∧
  (∀ (s : State) (sl : Slot) (r : Req), FgtMay s sl r 12 1 →
    let t := s.finishStage
    let q : State := { t with stile := { t.stile with stageNext := none } }
    let b := !activeSlot t.stile.records
    (s.stageBusy sl = true → exec (.imageStageCommit sl) s = .next s) ∧
    (s.stageBusy sl = false →
      (s.pins.wpN = false → Answers (.imageStageCommit sl) s t sl r 8 []) ∧
      (s.pins.wpN = true → t.trialRuns = true → Answers (.imageStageCommit sl) s t sl r 4 []) ∧
      (s.pins.wpN = true → t.trialRuns = false →
        (∀ im, q.verifySlot b = .good im → ∃ v, Answers (.imageStageCommit sl) s v sl r 0 [] ∧ v.stile.slot b = 3 ∧
          (16 * t.stile.used recordBase recordSize < recordSize →
            v.stile.records = t.stile.records ++ [.pending b]) ∧ pendingTrial v.stile.records = some (b, 0) ∧
          v.stile.stageNext = none ∧ ∀ x, x < recordBase ∨ recordBase + recordSize ≤ x →
            Tab.get v.stile.flash 0xFF x = Tab.get t.stile.flash 0xFF x) ∧
        (∀ e, q.verifySlot b = .bad e → ∃ v, Answers (.imageStageCommit sl) s v sl r (if e = 0 then 13 else if e = 2 then 11 else 5) [] ∧
          v.stile.slot b = 0 ∧ v.stile.flash = t.stile.flash ∧ v.bit stlErr e = true ∧ v.fld stlErr 16 1 = b.toNat)))) ∧
  (∀ (s : State) (sl : Slot) (r : Req),
    let idx := s.stile.nextIdx
    let signed (v : State) : Prop := ∃ rep : List Byte, Answers (.attest sl) s v sl r 0 (rep ++
        padTo 9893 ((Config.xmssmtSign (BitVec.ofNat 256 (fuseField s.stile.outputs 608 256)) idx rep).take 9893)) ∧
      rep.length = 256 ∧ msgNat rep 0 8 = (s.reg sysId).toNat ∧ msgNat rep 8 2 = s.chip ∧ msgNat rep 16 8 = s.furCount.toNat ∧
      msgNat rep 24 8 = idx ∧ (rep.drop 32).take 32 = r.body.take 32 ∧ v.stile.nextIdx = idx + 1
    (FgtMay s sl r 17 0 →
      (r.body.length < 32 → Answers (.attest sl) s s sl r 5 []) ∧
      (32 ≤ r.body.length → 2 ^ 40 ≤ idx → Answers (.attest sl) s (s.setBit stlErr 8) sl r 12 []) ∧
      (32 ≤ r.body.length → idx < 2 ^ 40 →
        (idx < s.stile.endIdx → s.job.hash.length ≤ 32 → s.stile.image.hash.length ≤ 32 → ∃ v, signed v ∧ v.stile.flash = s.stile.flash ∧ v.stile.endIdx = s.stile.endIdx) ∧
        (s.stile.endIdx ≤ idx → s.pins.wpN = false →
          Answers (.attest sl) s { s with stile := { s.stile with reserving := none } } sl r 8 []) ∧
        (s.stile.endIdx ≤ idx → s.pins.wpN = true → s.stile.reserving = none → ∃ u, exec (.attest sl) s = .next u ∧
          let h := s.stile.activeHalf
          let n := s.stile.used (logBase h) logSize
          let a := if n < indexCap then logBase h + 16 * n else logBase (!h)
          let e := indexEntry (s.stile.endIdx / 1024)
          u.stile.reserving = some (a + 8, e.drop 8) ∧ u.stile.flash = program (e.take 8) a s.stile.flash ∧
          (u.session sl.val).holding = true ∧ u.sent = s.sent ∧ u.stile.nextIdx = idx))) ∧
    (∀ a rest, (s.session sl.val).reqs.head? = some r → (s.session sl.val).holding = true → r.type = 17 → r.op = 0 →
      32 ≤ r.body.length → s.stile.endIdx ≤ idx → idx < s.stile.endIdx + 1024 → idx < 2 ^ 40 → s.pins.wpN = true →
      s.stile.reserving = some (a, rest) → s.job.hash.length ≤ 32 → s.stile.image.hash.length ≤ 32 →
      let t := s.flashWrite a rest
      let other := !decide (logBase true ≤ a)
      (t.stile.entry (a - 8) = indexEntry (s.stile.endIdx / 1024) → ∃ v, signed v ∧ v.stile.endIdx = s.stile.endIdx + 1024 ∧
        v.stile.reserving = none ∧
        (∀ x, logBase other ≤ x → x < logBase other + logSize → Tab.get v.stile.flash 0xFF x = 0xFF) ∧
        (∀ x, x < logBase other ∨ logBase other + logSize ≤ x → Tab.get v.stile.flash 0xFF x = Tab.get t.stile.flash 0xFF x) ∧
        (0 < t.stile.used (logBase other) logSize → ∀ i ∈ indexSectors other, Counted s v (stbErase i) 1)) ∧
      (t.stile.entry (a - 8) ≠ indexEntry (s.stile.endIdx / 1024) → ∃ u, exec (.attest sl) s = .next u ∧
        u.bit stlErr 4 = true ∧ u.stile.reserving = none ∧ u.stile.endIdx = s.stile.endIdx ∧ u.stile.nextIdx = idx ∧
        (u.session sl.val).holding = true ∧ u.sent = s.sent))) ∧
  ∀ (s : State) (sl : Slot) (r : Req), FgtMay s sl r 18 0 →
    let x := s.session sl.val
    (x.waitTx = [] → x.unacked.length < x.peerWindow → ∃ u dg, exec (.resetMessage sl) s = .next u ∧ WarmResetLeaves s u ∧
      u.pins.causes = s.pins.causes ++ [.message] ∧ u.sent = s.sent ++ [s.frame (.datagram x.peer dg)]) ∧
    (x.waitTx ≠ [] ∨ x.peerWindow ≤ x.unacked.length → exec (.resetMessage sl) s = .next s)

/-- R562, R566, R635 to R641, R651: FALLOW is scheduled for its tick or entered at once, with ports dark, DRAM kept and
PWR_PARK naming the ports that were UP; in FALLOW it is answered OK with no effect. WAKE leads back to IDLE with the furrow
unit held as R641 says. A subscription's report says where the module stands, and the next is due a period later. That the exit
sequence is one step, and that every enabled port trains after it, are the model's choices (log entry 32). -/
def Obligations.FallowWakeAndTelemetry : Prop :=
  (∀ (s : State) (sl : Slot) (ns : Nat) (r : Req),
    let k := r.u 0 8
    (FgtFront s sl r 13 0 → s.linksDark = true → Answers (.fallow sl ns) s s sl r 0 []) ∧
    (FgtMay s sl r 13 0 → s.linksDark = false →
      (r.body.length < 8 → Answers (.fallow sl ns) s s sl r 5 []) ∧
      (8 ≤ r.body.length → 0 < k → k < s.targetTick ns → Answers (.fallow sl ns) s s sl r 7 []) ∧
      (8 ≤ r.body.length → 0 < k → s.targetTick ns ≤ k →
        Answers (.fallow sl ns) s { s with pow := { s.pow with fallowAt := some (BitVec.ofNat 64 k) } } sl r 0 []) ∧
      (8 ≤ r.body.length → k = 0 → s.job.st ≠ .none → s.mems.members.length ≠ 1 → Answers (.fallow sl ns) s s sl r 5 []) ∧
      (8 ≤ r.body.length → k = 0 → s.job.st = .none ∨ s.mems.members.length = 1 → ∃ u, exec (.fallow sl ns) s = .next u ∧
        u.sent = (s.reply sl.val r 0 []).sent ∧ u.pow.st = 2 ∧ u.pow.fallowAt = none ∧ u.linksDark = true ∧
        u.furCount = s.furCount ∧ (∀ a, inDram a = true → u.peek a = s.peek a) ∧ u.bit memStatus 1 = true ∧
        (∀ p : Port, (u.port p.val).st ≠ .up ∧ (u.port p.val).st ≠ .train ∧ (u.port p.val).st ≠ .hello ∧
          (u.bit pwrPark p.val = true ↔ (s.port p.val).st = .up)) ∧ Counted s u pwrCntFallow 1))) ∧
  (∀ (s : State) (sl : Slot) (r : Req), FgtMay s sl r 14 0 → ∃ v, Answers (.wake sl) s v sl r 0 [] ∧ v.pow.st = 0 ∧
    v.pow.wakeGrace = true ∧ v.furCount = s.furCount ∧ v.mem = s.mem ∧ v.bit memStatus 1 = false ∧
    (∀ p : Port, (s.port p.val).st = .off → s.bit (spxPortCtrl p.val) 0 = true → (v.port p.val).st = .train) ∧
    (s.isMaster = true → v.fur.sync = .free ∧ (v.fur.holdTick = true ↔ s.fld pwrPark 0 32 ≠ 0)) ∧
    (s.master = none → v.fur.sync = .free) ∧
    (s.isMaster = false → s.master ≠ none → v.fur.sync = .acquire ∧ v.fur.nextTick = none ∧ v.mayTick = false)) ∧
  (∀ s : State, s.pow.wakeGrace = true → exec .wakeGraceEnd s = .next { s with pow := { s.pow with wakeGrace := false } }) ∧
  (∀ (s : State) (sl : Slot) (r : Req), FgtMay s sl r 15 0 →
    (r.body.length < 2 → Answers (.telemetrySubscribe sl) s s sl r 5 []) ∧
    (2 ≤ r.body.length → ∃ v, Answers (.telemetrySubscribe sl) s v sl r 0 [] ∧
      (r.u 0 2 = 0 → (v.session sl.val).sub = none) ∧
      (r.u 0 2 ≠ 0 → ∃ b, (v.session sl.val).sub = some b ∧ b.period.toNat = r.u 0 2 ∧ b.nextTick = s.furCount + 1 ∧
        b.furrows = 0 ∧ b.alarms = [] ∧ b.lost = 0))) ∧
  ∀ (s : State) (sl : Slot) (b : Subscription), (s.session sl.val).isOpen = true → (s.session sl.val).sub = some b →
    s.linksDark = true ∨ b.nextTick.toNat ≤ s.furCount.toNat → (s.session sl.val).waitTx = [] →
    (s.session sl.val).unacked.length < (s.session sl.val).peerWindow → b.alarms.flatten.length ≤ 120 →
    ∃ u dg, exec (.telemetryReport sl) s = .next u ∧ u.sent = s.sent ++ [s.frame (.datagram (s.session sl.val).peer dg)] ∧
      let body := dg.drop 64
      body.length = 256 ∧ msgNat dg 48 1 = 15 ∧ msgNat dg 49 1 = 1 ∧ msgNat dg 52 4 = 0 ∧ msgNat body 0 8 = s.furCount.toNat ∧
      msgNat body 8 4 = s.fld furStep 0 32 ∧ msgNat body 13 1 = s.job.st.code ∧ msgNat body 14 2 = s.chip ∧
      (0 < b.furrows → msgNat body 20 2 = b.wattSum / b.furrows % 2 ^ 16 ∧ msgNat body 22 2 = b.wattMax % 2 ^ 16) ∧
      msgNat body 28 4 = s.fld pwrAlert 0 9 ∧ msgNat body 48 8 = (s.reg fgtGen).toNat ∧
      msgNat body 56 4 = s.fld sysGrnStatus 0 32 ∧ msgNat body 60 4 = s.rcv.rseq.toNat ∧
      (body.drop 64).take b.alarms.flatten.length = b.alarms.flatten ∧
      ∃ c, (u.session sl.val).sub = some c ∧ c.period = b.period ∧ c.furrows = 0 ∧ c.wattSum = 0 ∧ c.alarms = [] ∧ c.lost = 0 ∧
        c.nextTick = if s.linksDark = true then b.nextTick else b.nextTick + b.period.setWidth 64
end

