-- ==== Sys2Proof/Laws/Tab.lean ====
section
/-!
SUPPORT. What a sparse table gives after an entry has been listed, and little-endian bytes there and back.
-/

namespace Sys2Proof

@[simp] theorem Tab.look_put_same {α : Type} (t : Tab α) (k : Nat) (v : α) : Tab.look (Tab.put t k v) k = some v := by
  induction t with
  | nil => simp [Tab.put, Tab.look]
  | cons p r ih =>
    obtain ⟨j, w⟩ := p
    simp only [Tab.put]
    split
    · simp [Tab.look]
    · split
      · simp [Tab.look]
      · simp [Tab.look, *]

theorem Tab.look_put_other {α : Type} (t : Tab α) (k j : Nat) (v : α) (h : j ≠ k) :
    Tab.look (Tab.put t k v) j = Tab.look t j := by
  induction t with
  | nil => simp [Tab.put, Tab.look, h]
  | cons p r ih =>
    obtain ⟨i, w⟩ := p
    simp only [Tab.put]
    split
    · rename_i e; subst e; simp [Tab.look, h]
    · split
      · simp [Tab.look, h]
      · simp [Tab.look, ih]

/-- A line that remains after another has been dropped was there before. -/
theorem Tab.look_drop {α : Type} (t : Tab α) (c k : Nat) (v : α) (h : Tab.look (Tab.drop t c) k = some v) : Tab.look t k = some v := by
  induction t with
  | nil => simp [Tab.drop, Tab.look] at h
  | cons p r ih =>
    obtain ⟨j, w⟩ := p
    unfold Tab.drop at h ih
    rw [List.filter_cons] at h
    by_cases hj : k = j
    · subst hj
      by_cases hc : k = c
      · exfalso
        subst hc
        have none : ∀ l : Tab α, Tab.look (l.filter (fun p => p.1 != k)) k = none := by
          intro l
          induction l with
          | nil => rfl
          | cons q l ihl =>
            obtain ⟨i, x⟩ := q
            by_cases hi : i = k
            · simpa [List.filter_cons, hi] using ihl
            · simpa [List.filter_cons, hi, Tab.look, Ne.symm hi] using ihl
        simp [none r] at h
      · simpa [hc, Tab.look] using h
    · by_cases hc : j = c
      · simp only [hc, bne_self_eq_false, Bool.false_eq_true, if_false] at h
        simpa [Tab.look, hj] using ih h
      · simp only [Tab.look, hj, if_false]
        simp only [bne_iff_ne, ne_eq, hc, not_false_eq_true, if_true, Tab.look, hj, if_false] at h
        exact ih h

@[simp] theorem Tab.get_put_same {α : Type} (t : Tab α) (d : α) (k : Nat) (v : α) : Tab.get (Tab.put t k v) d k = v := by
  simp [Tab.get]

theorem Tab.get_put_other {α : Type} (t : Tab α) (d : α) (k j : Nat) (v : α) (h : j ≠ k) :
    Tab.get (Tab.put t k v) d j = Tab.get t d j := by
  simp [Tab.get, Tab.look_put_other t k j v h]

/-- One lemma for both cases. -/
theorem Tab.get_put {α : Type} (t : Tab α) (d : α) (k j : Nat) (v : α) :
    Tab.get (Tab.put t k v) d j = if j = k then v else Tab.get t d j := by
  split
  · rename_i h; subst h; simp
  · rename_i h; exact Tab.get_put_other t d k j v h

@[simp] theorem leBytes_length (n v : Nat) : (leBytes n v).length = n := by
  induction n generalizing v with
  | zero => rfl
  | succ n ih => simp [leBytes, ih]

theorem leNat_leBytes (n v : Nat) : leNat (leBytes n v) = v % 256 ^ n := by
  induction n generalizing v with
  | zero => simp [leBytes, leNat, Nat.mod_one]
  | succ n ih =>
    rw [leBytes, leNat, ih]
    simp only [BitVec.toNat_ofNat]
    rw [show (256 : Nat) ^ (n + 1) = 256 * 256 ^ n by ring, Nat.mod_mul]

theorem leNat_lt (bs : List Byte) : leNat bs < 256 ^ bs.length := by
  induction bs with
  | nil => simp [leNat]
  | cons b r ih =>
    have hb : b.toNat < 256 := b.isLt
    simp only [leNat, List.length_cons]
    rw [show (256 : Nat) ^ (r.length + 1) = 256 * 256 ^ r.length by ring]
    omega

theorem leBytes_leNat (bs : List Byte) : leBytes bs.length (leNat bs) = bs := by
  induction bs with
  | nil => rfl
  | cons b r ih =>
    have hb : b.toNat < 256 := b.isLt
    simp only [List.length_cons, leBytes, leNat]
    rw [show (b.toNat + 256 * leNat r) / 256 = leNat r by omega, ih]
    congr 1
    apply BitVec.eq_of_toNat_eq
    simp only [BitVec.toNat_ofNat]
    omega

end Sys2Proof
end

