-- ==== Sys2Proof/Laws/Memory.lean ====
section
/-!
SUPPORT. The laws of memory: reads after writes, and that every operation keeps the canonical form.
-/

namespace Sys2Proof.Machine
open Sys2Proof

theorem Memory.wfFrom_cons (x k : Nat) (v : Byte) (r : List Host.Cell) :
    Memory.wfFrom x ((k, v) :: r) = true ↔ x ≤ k ∧ v ≠ 0 ∧ Memory.wfFrom (k + 1) r = true := by
  simp only [Memory.wfFrom, Bool.and_eq_true, decide_eq_true_eq, and_assoc]

theorem Memory.rd_wr (m : List Host.Cell) (a x : Nat) (b : Byte) (h : Memory.wfFrom x m = true) (c : Nat) :
    Memory.rd (Memory.wr m a b) c = if c = a then b else Memory.rd m c := by
  induction m generalizing x with
  | nil =>
    simp only [Memory.wr]
    split
    · rename_i e; simp [Memory.rd, e]
    · simp [Memory.rd]
  | cons p r ih =>
    obtain ⟨k, v⟩ := p
    simp only [Memory.wfFrom, Bool.and_eq_true, decide_eq_true_eq] at h
    obtain ⟨⟨hx, hv⟩, hr⟩ := h
    have low : ∀ (l : List Host.Cell) (n d : Nat), Memory.wfFrom n l = true → d < n → Memory.rd l d = 0 := by
      intro l
      induction l with
      | nil => intros; rfl
      | cons q l ihl =>
        intro n d hl hd
        obtain ⟨j, w⟩ := q
        simp only [Memory.wfFrom, Bool.and_eq_true, decide_eq_true_eq] at hl
        simp only [Memory.rd]
        rw [if_neg (by omega)]
        exact ihl (j + 1) d hl.2 (by omega)
    simp only [Memory.wr]
    split
    · rename_i e
      subst e
      split
      · rename_i e0
        subst e0
        by_cases hc : c = a
        · subst hc
          simp [low r (c + 1) c hr (by omega)]
        · simp [Memory.rd, hc]
      · by_cases hc : c = a <;> simp [Memory.rd, hc]
    · rename_i hak
      split
      · rename_i hlt
        split
        · rename_i e0
          subst e0
          by_cases hc : c = a
          · subst hc
            simp only [Memory.rd]
            rw [if_neg hak]
            simpa using low r (k + 1) c hr (by omega)
          · simp [hc]
        · by_cases hc : c = a <;> simp [Memory.rd, hc]
      · rw [Memory.rd, ih (k + 1) hr]
        simp only [Memory.rd]
        by_cases hc : c = a
        · subst hc; simp [hak]
        · simp [hc]

theorem Memory.wfFrom_mono (m : List Host.Cell) (x y : Nat) (h : Memory.wfFrom y m = true) (hxy : x ≤ y) :
    Memory.wfFrom x m = true := by
  cases m with
  | nil => rfl
  | cons p r =>
    obtain ⟨k, v⟩ := p
    simp only [Memory.wfFrom, Bool.and_eq_true, decide_eq_true_eq] at h ⊢
    exact ⟨⟨by omega, h.1.2⟩, h.2⟩

theorem Memory.wfFrom_wr (m : List Host.Cell) (a x : Nat) (b : Byte) (h : Memory.wfFrom x m = true) (hx : x ≤ a) :
    Memory.wfFrom x (Memory.wr m a b) = true := by
  induction m generalizing x with
  | nil =>
    simp only [Memory.wr]
    split
    · rfl
    · rename_i hb; exact (Memory.wfFrom_cons _ _ _ _).2 ⟨hx, hb, rfl⟩
  | cons p r ih =>
    obtain ⟨k, v⟩ := p
    simp only [Memory.wfFrom, Bool.and_eq_true, decide_eq_true_eq] at h
    obtain ⟨⟨hk, hv⟩, hr⟩ := h
    simp only [Memory.wr]
    split
    · rename_i e
      subst e
      split
      · exact Memory.wfFrom_mono r x (a + 1) hr (by omega)
      · rename_i hb
        exact (Memory.wfFrom_cons _ _ _ _).2 ⟨hk, hb, hr⟩
    · split
      · rename_i hlt
        split
        · exact (Memory.wfFrom_cons _ _ _ _).2 ⟨hk, hv, hr⟩
        · rename_i hb
          exact (Memory.wfFrom_cons _ _ _ _).2 ⟨hx, hb, (Memory.wfFrom_cons _ _ _ _).2 ⟨hlt, hv, hr⟩⟩
      · rename_i hne hnlt
        exact (Memory.wfFrom_cons _ _ _ _).2 ⟨hk, hv, ih (k + 1) hr (by omega)⟩

theorem Memory.wfFrom_filter (p : Host.Cell → Bool) (m : List Host.Cell) (x : Nat) (h : Memory.wfFrom x m = true) :
    Memory.wfFrom x (m.filter p) = true := by
  induction m generalizing x with
  | nil => rfl
  | cons q r ih =>
    obtain ⟨k, v⟩ := q
    simp only [Memory.wfFrom, Bool.and_eq_true, decide_eq_true_eq] at h
    obtain ⟨⟨hk, hv⟩, hr⟩ := h
    simp only [List.filter_cons]
    split
    · exact (Memory.wfFrom_cons _ _ _ _).2 ⟨hk, hv, ih (k + 1) hr⟩
    · exact Memory.wfFrom_mono _ x (k + 1) (ih (k + 1) hr) (by omega)

/-- A byte write keeps the canonical form. -/
theorem Memory.wf_wr (m : List Host.Cell) (a : Nat) (b : Byte) (h : Memory.wf m = true) : Memory.wf (Memory.wr m a b) = true :=
  Memory.wfFrom_wr m a 0 b h (Nat.zero_le a)

/-- Writes of bytes keep the canonical form. -/
theorem Memory.wf_wrN (m : List Host.Cell) (a : Nat) (bs : List Byte) (h : Memory.wf m = true) :
    Memory.wf (Memory.wrN m a bs) = true := by
  induction bs generalizing m a with
  | nil => exact h
  | cons b r ih => exact ih _ _ (Memory.wf_wr m a b h)

/-- Dropping cells keeps the canonical form. -/
theorem Memory.wf_filter (p : Host.Cell → Bool) (m : List Host.Cell) (h : Memory.wf m = true) : Memory.wf (m.filter p) = true :=
  Memory.wfFrom_filter p m 0 h

/-- Zeroing a range keeps the canonical form. -/
theorem Memory.wf_zero (m : List Host.Cell) (lo hi : Nat) (h : Memory.wf m = true) : Memory.wf (Memory.zero m lo hi) = true :=
  Memory.wf_filter _ m h

/-- The byte at an address after bytes have been written. -/
theorem Memory.rd_wrN (m : List Host.Cell) (a : Nat) (bs : List Byte) (h : Memory.wf m = true) (c : Nat) :
    Memory.rd (Memory.wrN m a bs) c = if a ≤ c ∧ c < a + bs.length then bs.getD (c - a) 0 else Memory.rd m c := by
  induction bs generalizing m a with
  | nil => simp only [Memory.wrN, List.length_nil]; rw [if_neg (by omega)]
  | cons b r ih =>
    simp only [Memory.wrN]
    rw [ih _ _ (Memory.wf_wr m a b h), Memory.rd_wr m a 0 b h c]
    simp only [List.length_cons]
    by_cases h1 : c = a
    · subst h1
      rw [if_neg (by omega), if_pos rfl, if_pos ⟨Nat.le_refl c, by omega⟩]
      simp
    · by_cases h2 : a + 1 ≤ c ∧ c < a + 1 + r.length
      · rw [if_pos h2, if_pos (by omega)]
        obtain ⟨d, rfl⟩ := Nat.exists_eq_add_of_le h2.1
        simp [show a + 1 + d - a = d + 1 by omega, show a + 1 + d - (a + 1) = d by omega]
      · rw [if_neg h2, if_neg h1, if_neg (by omega)]

@[simp] theorem Memory.rdN_length (m : List Host.Cell) (a n : Nat) : (Memory.rdN m a n).length = n := by
  induction n generalizing a with
  | zero => rfl
  | succ n ih => simp [Memory.rdN, ih]

theorem Memory.rdN_getD (m : List Host.Cell) (a n i : Nat) (h : i < n) : (Memory.rdN m a n).getD i 0 = Memory.rd m (a + i) := by
  induction n generalizing a i with
  | zero => omega
  | succ n ih =>
    cases i with
    | zero => simp [Memory.rdN]
    | succ i =>
      simp only [Memory.rdN, List.getD_cons_succ]
      rw [ih (a + 1) i (by omega)]
      congr 1; omega

/-- What has been written reads back. -/
theorem Memory.rdN_wrN_same (m : List Host.Cell) (a : Nat) (bs : List Byte) (h : Memory.wf m = true) :
    Memory.rdN (Memory.wrN m a bs) a bs.length = bs := by
  apply List.ext_getElem
  · simp
  · intro i h1 h2
    have e1 := Memory.rdN_getD (Memory.wrN m a bs) a bs.length i h2
    rw [Memory.rd_wrN m a bs h, if_pos ⟨by omega, by omega⟩] at e1
    simp only [List.getD_eq_getElem?_getD, List.getElem?_eq_getElem h1, Option.getD_some] at e1
    rw [e1]
    simp [List.getElem?_eq_getElem h2]

/-- The byte at an address after a range has been zeroed. -/
theorem Memory.rd_zero (m : List Host.Cell) (lo hi c : Nat) :
    Memory.rd (Memory.zero m lo hi) c = if lo ≤ c ∧ c < hi then 0 else Memory.rd m c := by
  induction m with
  | nil => simp [Memory.zero, Memory.rd]
  | cons p r ih =>
    obtain ⟨k, v⟩ := p
    simp only [Memory.zero, List.filter_cons] at ih ⊢
    by_cases hk : k < lo ∨ hi ≤ k
    · rw [if_pos (by simpa using hk)]
      simp only [Memory.rd]
      by_cases hc : c = k
      · subst hc
        rw [if_pos rfl, if_neg (by omega), if_pos rfl]
      · rw [if_neg hc, if_neg hc]; exact ih
    · rw [if_neg (by simpa using hk)]
      rw [ih]
      by_cases hc : lo ≤ c ∧ c < hi
      · rw [if_pos hc, if_pos hc]
      · rw [if_neg hc, if_neg hc]
        simp only [Memory.rd]
        rw [if_neg (by omega)]

end Sys2Proof.Machine
end

