-- ==== Sys2Proof/Laws/State.lean ====
section
/-!
SUPPORT. What the setters of State leave alone, one lemma per field and setter, and what the accessors read after them.
-/

namespace Sys2Proof.Machine
open Sys2Proof

-- State.setReg
@[simp] theorem State.setReg_firsts (s : State) (o : Nat) (v : Word) : (s.setReg o v).firsts = s.firsts := rfl
@[simp] theorem State.setReg_mem (s : State) (o : Nat) (v : Word) : (s.setReg o v).mem = s.mem := rfl
@[simp] theorem State.setReg_flips (s : State) (o : Nat) (v : Word) : (s.setReg o v).flips = s.flips := rfl
@[simp] theorem State.setReg_lost (s : State) (o : Nat) (v : Word) : (s.setReg o v).lost = s.lost := rfl
@[simp] theorem State.setReg_clc (s : State) (o : Nat) (v : Word) : (s.setReg o v).clc = s.clc := rfl
@[simp] theorem State.setReg_wbq (s : State) (o : Nat) (v : Word) : (s.setReg o v).wbq = s.wbq := rfl
@[simp] theorem State.setReg_sramPos (s : State) (o : Nat) (v : Word) : (s.setReg o v).sramPos = s.sramPos := rfl
@[simp] theorem State.setReg_pins (s : State) (o : Nat) (v : Word) : (s.setReg o v).pins = s.pins := rfl
@[simp] theorem State.setReg_stile (s : State) (o : Nat) (v : Word) : (s.setReg o v).stile = s.stile := rfl
@[simp] theorem State.setReg_block (s : State) (o : Nat) (v : Word) : (s.setReg o v).block = s.block := rfl
@[simp] theorem State.setReg_chResets (s : State) (o : Nat) (v : Word) : (s.setReg o v).chResets = s.chResets := rfl
@[simp] theorem State.setReg_furCount (s : State) (o : Nat) (v : Word) : (s.setReg o v).furCount = s.furCount := rfl
@[simp] theorem State.setReg_fur (s : State) (o : Nat) (v : Word) : (s.setReg o v).fur = s.fur := rfl
@[simp] theorem State.setReg_engines (s : State) (o : Nat) (v : Word) : (s.setReg o v).engines = s.engines := rfl
@[simp] theorem State.setReg_fifos (s : State) (o : Nat) (v : Word) : (s.setReg o v).fifos = s.fifos := rfl
@[simp] theorem State.setReg_thr (s : State) (o : Nat) (v : Word) : (s.setReg o v).thr = s.thr := rfl
@[simp] theorem State.setReg_stk (s : State) (o : Nat) (v : Word) : (s.setReg o v).stk = s.stk := rfl
@[simp] theorem State.setReg_waiters (s : State) (o : Nat) (v : Word) : (s.setReg o v).waiters = s.waiters := rfl
@[simp] theorem State.setReg_fires (s : State) (o : Nat) (v : Word) : (s.setReg o v).fires = s.fires := rfl
@[simp] theorem State.setReg_icache (s : State) (o : Nat) (v : Word) : (s.setReg o v).icache = s.icache := rfl
@[simp] theorem State.setReg_hclk (s : State) (o : Nat) (v : Word) : (s.setReg o v).hclk = s.hclk := rfl
@[simp] theorem State.setReg_tokens (s : State) (o : Nat) (v : Word) : (s.setReg o v).tokens = s.tokens := rfl
@[simp] theorem State.setReg_stkEpoch (s : State) (o : Nat) (v : Word) : (s.setReg o v).stkEpoch = s.stkEpoch := rfl
@[simp] theorem State.setReg_stkEpochAt (s : State) (o : Nat) (v : Word) : (s.setReg o v).stkEpochAt = s.stkEpochAt := rfl
@[simp] theorem State.setReg_win (s : State) (o : Nat) (v : Word) : (s.setReg o v).win = s.win := rfl
@[simp] theorem State.setReg_til (s : State) (o : Nat) (v : Word) : (s.setReg o v).til = s.til := rfl
@[simp] theorem State.setReg_drl (s : State) (o : Nat) (v : Word) : (s.setReg o v).drl = s.drl := rfl
@[simp] theorem State.setReg_gln (s : State) (o : Nat) (v : Word) : (s.setReg o v).gln = s.gln := rfl
@[simp] theorem State.setReg_shf (s : State) (o : Nat) (v : Word) : (s.setReg o v).shf = s.shf := rfl
@[simp] theorem State.setReg_hrw (s : State) (o : Nat) (v : Word) : (s.setReg o v).hrw = s.hrw := rfl
@[simp] theorem State.setReg_red (s : State) (o : Nat) (v : Word) : (s.setReg o v).red = s.red := rfl
@[simp] theorem State.setReg_ports (s : State) (o : Nat) (v : Word) : (s.setReg o v).ports = s.ports := rfl
@[simp] theorem State.setReg_mems (s : State) (o : Nat) (v : Word) : (s.setReg o v).mems = s.mems := rfl
@[simp] theorem State.setReg_sess (s : State) (o : Nat) (v : Word) : (s.setReg o v).sess = s.sess := rfl
@[simp] theorem State.setReg_opens (s : State) (o : Nat) (v : Word) : (s.setReg o v).opens = s.opens := rfl
@[simp] theorem State.setReg_job (s : State) (o : Nat) (v : Word) : (s.setReg o v).job = s.job := rfl
@[simp] theorem State.setReg_rcv (s : State) (o : Nat) (v : Word) : (s.setReg o v).rcv = s.rcv := rfl
@[simp] theorem State.setReg_hist (s : State) (o : Nat) (v : Word) : (s.setReg o v).hist = s.hist := rfl
@[simp] theorem State.setReg_pow (s : State) (o : Nat) (v : Word) : (s.setReg o v).pow = s.pow := rfl
@[simp] theorem State.setReg_sent (s : State) (o : Nat) (v : Word) : (s.setReg o v).sent = s.sent := rfl
@[simp] theorem State.setReg_draws (s : State) (o : Nat) (v : Word) : (s.setReg o v).draws = s.draws := rfl
@[simp] theorem State.setReg_pending (s : State) (o : Nat) (v : Word) : (s.setReg o v).pending = s.pending := rfl

-- State.setFld
@[simp] theorem State.setFld_firsts (s : State) (o lo w x : Nat) : (s.setFld o lo w x).firsts = s.firsts := rfl
@[simp] theorem State.setFld_mem (s : State) (o lo w x : Nat) : (s.setFld o lo w x).mem = s.mem := rfl
@[simp] theorem State.setFld_flips (s : State) (o lo w x : Nat) : (s.setFld o lo w x).flips = s.flips := rfl
@[simp] theorem State.setFld_lost (s : State) (o lo w x : Nat) : (s.setFld o lo w x).lost = s.lost := rfl
@[simp] theorem State.setFld_clc (s : State) (o lo w x : Nat) : (s.setFld o lo w x).clc = s.clc := rfl
@[simp] theorem State.setFld_wbq (s : State) (o lo w x : Nat) : (s.setFld o lo w x).wbq = s.wbq := rfl
@[simp] theorem State.setFld_sramPos (s : State) (o lo w x : Nat) : (s.setFld o lo w x).sramPos = s.sramPos := rfl
@[simp] theorem State.setFld_pins (s : State) (o lo w x : Nat) : (s.setFld o lo w x).pins = s.pins := rfl
@[simp] theorem State.setFld_stile (s : State) (o lo w x : Nat) : (s.setFld o lo w x).stile = s.stile := rfl
@[simp] theorem State.setFld_block (s : State) (o lo w x : Nat) : (s.setFld o lo w x).block = s.block := rfl
@[simp] theorem State.setFld_chResets (s : State) (o lo w x : Nat) : (s.setFld o lo w x).chResets = s.chResets := rfl
@[simp] theorem State.setFld_furCount (s : State) (o lo w x : Nat) : (s.setFld o lo w x).furCount = s.furCount := rfl
@[simp] theorem State.setFld_fur (s : State) (o lo w x : Nat) : (s.setFld o lo w x).fur = s.fur := rfl
@[simp] theorem State.setFld_engines (s : State) (o lo w x : Nat) : (s.setFld o lo w x).engines = s.engines := rfl
@[simp] theorem State.setFld_fifos (s : State) (o lo w x : Nat) : (s.setFld o lo w x).fifos = s.fifos := rfl
@[simp] theorem State.setFld_thr (s : State) (o lo w x : Nat) : (s.setFld o lo w x).thr = s.thr := rfl
@[simp] theorem State.setFld_stk (s : State) (o lo w x : Nat) : (s.setFld o lo w x).stk = s.stk := rfl
@[simp] theorem State.setFld_waiters (s : State) (o lo w x : Nat) : (s.setFld o lo w x).waiters = s.waiters := rfl
@[simp] theorem State.setFld_fires (s : State) (o lo w x : Nat) : (s.setFld o lo w x).fires = s.fires := rfl
@[simp] theorem State.setFld_icache (s : State) (o lo w x : Nat) : (s.setFld o lo w x).icache = s.icache := rfl
@[simp] theorem State.setFld_hclk (s : State) (o lo w x : Nat) : (s.setFld o lo w x).hclk = s.hclk := rfl
@[simp] theorem State.setFld_tokens (s : State) (o lo w x : Nat) : (s.setFld o lo w x).tokens = s.tokens := rfl
@[simp] theorem State.setFld_stkEpoch (s : State) (o lo w x : Nat) : (s.setFld o lo w x).stkEpoch = s.stkEpoch := rfl
@[simp] theorem State.setFld_stkEpochAt (s : State) (o lo w x : Nat) : (s.setFld o lo w x).stkEpochAt = s.stkEpochAt := rfl
@[simp] theorem State.setFld_win (s : State) (o lo w x : Nat) : (s.setFld o lo w x).win = s.win := rfl
@[simp] theorem State.setFld_til (s : State) (o lo w x : Nat) : (s.setFld o lo w x).til = s.til := rfl
@[simp] theorem State.setFld_drl (s : State) (o lo w x : Nat) : (s.setFld o lo w x).drl = s.drl := rfl
@[simp] theorem State.setFld_gln (s : State) (o lo w x : Nat) : (s.setFld o lo w x).gln = s.gln := rfl
@[simp] theorem State.setFld_shf (s : State) (o lo w x : Nat) : (s.setFld o lo w x).shf = s.shf := rfl
@[simp] theorem State.setFld_hrw (s : State) (o lo w x : Nat) : (s.setFld o lo w x).hrw = s.hrw := rfl
@[simp] theorem State.setFld_red (s : State) (o lo w x : Nat) : (s.setFld o lo w x).red = s.red := rfl
@[simp] theorem State.setFld_ports (s : State) (o lo w x : Nat) : (s.setFld o lo w x).ports = s.ports := rfl
@[simp] theorem State.setFld_mems (s : State) (o lo w x : Nat) : (s.setFld o lo w x).mems = s.mems := rfl
@[simp] theorem State.setFld_sess (s : State) (o lo w x : Nat) : (s.setFld o lo w x).sess = s.sess := rfl
@[simp] theorem State.setFld_opens (s : State) (o lo w x : Nat) : (s.setFld o lo w x).opens = s.opens := rfl
@[simp] theorem State.setFld_job (s : State) (o lo w x : Nat) : (s.setFld o lo w x).job = s.job := rfl
@[simp] theorem State.setFld_rcv (s : State) (o lo w x : Nat) : (s.setFld o lo w x).rcv = s.rcv := rfl
@[simp] theorem State.setFld_hist (s : State) (o lo w x : Nat) : (s.setFld o lo w x).hist = s.hist := rfl
@[simp] theorem State.setFld_pow (s : State) (o lo w x : Nat) : (s.setFld o lo w x).pow = s.pow := rfl
@[simp] theorem State.setFld_sent (s : State) (o lo w x : Nat) : (s.setFld o lo w x).sent = s.sent := rfl
@[simp] theorem State.setFld_draws (s : State) (o lo w x : Nat) : (s.setFld o lo w x).draws = s.draws := rfl
@[simp] theorem State.setFld_pending (s : State) (o lo w x : Nat) : (s.setFld o lo w x).pending = s.pending := rfl

-- State.setBit
@[simp] theorem State.setBit_firsts (s : State) (o b : Nat) : (s.setBit o b).firsts = s.firsts := rfl
@[simp] theorem State.setBit_mem (s : State) (o b : Nat) : (s.setBit o b).mem = s.mem := rfl
@[simp] theorem State.setBit_flips (s : State) (o b : Nat) : (s.setBit o b).flips = s.flips := rfl
@[simp] theorem State.setBit_lost (s : State) (o b : Nat) : (s.setBit o b).lost = s.lost := rfl
@[simp] theorem State.setBit_clc (s : State) (o b : Nat) : (s.setBit o b).clc = s.clc := rfl
@[simp] theorem State.setBit_wbq (s : State) (o b : Nat) : (s.setBit o b).wbq = s.wbq := rfl
@[simp] theorem State.setBit_sramPos (s : State) (o b : Nat) : (s.setBit o b).sramPos = s.sramPos := rfl
@[simp] theorem State.setBit_pins (s : State) (o b : Nat) : (s.setBit o b).pins = s.pins := rfl
@[simp] theorem State.setBit_stile (s : State) (o b : Nat) : (s.setBit o b).stile = s.stile := rfl
@[simp] theorem State.setBit_block (s : State) (o b : Nat) : (s.setBit o b).block = s.block := rfl
@[simp] theorem State.setBit_chResets (s : State) (o b : Nat) : (s.setBit o b).chResets = s.chResets := rfl
@[simp] theorem State.setBit_furCount (s : State) (o b : Nat) : (s.setBit o b).furCount = s.furCount := rfl
@[simp] theorem State.setBit_fur (s : State) (o b : Nat) : (s.setBit o b).fur = s.fur := rfl
@[simp] theorem State.setBit_engines (s : State) (o b : Nat) : (s.setBit o b).engines = s.engines := rfl
@[simp] theorem State.setBit_fifos (s : State) (o b : Nat) : (s.setBit o b).fifos = s.fifos := rfl
@[simp] theorem State.setBit_thr (s : State) (o b : Nat) : (s.setBit o b).thr = s.thr := rfl
@[simp] theorem State.setBit_stk (s : State) (o b : Nat) : (s.setBit o b).stk = s.stk := rfl
@[simp] theorem State.setBit_waiters (s : State) (o b : Nat) : (s.setBit o b).waiters = s.waiters := rfl
@[simp] theorem State.setBit_fires (s : State) (o b : Nat) : (s.setBit o b).fires = s.fires := rfl
@[simp] theorem State.setBit_icache (s : State) (o b : Nat) : (s.setBit o b).icache = s.icache := rfl
@[simp] theorem State.setBit_hclk (s : State) (o b : Nat) : (s.setBit o b).hclk = s.hclk := rfl
@[simp] theorem State.setBit_tokens (s : State) (o b : Nat) : (s.setBit o b).tokens = s.tokens := rfl
@[simp] theorem State.setBit_stkEpoch (s : State) (o b : Nat) : (s.setBit o b).stkEpoch = s.stkEpoch := rfl
@[simp] theorem State.setBit_stkEpochAt (s : State) (o b : Nat) : (s.setBit o b).stkEpochAt = s.stkEpochAt := rfl
@[simp] theorem State.setBit_win (s : State) (o b : Nat) : (s.setBit o b).win = s.win := rfl
@[simp] theorem State.setBit_til (s : State) (o b : Nat) : (s.setBit o b).til = s.til := rfl
@[simp] theorem State.setBit_drl (s : State) (o b : Nat) : (s.setBit o b).drl = s.drl := rfl
@[simp] theorem State.setBit_gln (s : State) (o b : Nat) : (s.setBit o b).gln = s.gln := rfl
@[simp] theorem State.setBit_shf (s : State) (o b : Nat) : (s.setBit o b).shf = s.shf := rfl
@[simp] theorem State.setBit_hrw (s : State) (o b : Nat) : (s.setBit o b).hrw = s.hrw := rfl
@[simp] theorem State.setBit_red (s : State) (o b : Nat) : (s.setBit o b).red = s.red := rfl
@[simp] theorem State.setBit_ports (s : State) (o b : Nat) : (s.setBit o b).ports = s.ports := rfl
@[simp] theorem State.setBit_mems (s : State) (o b : Nat) : (s.setBit o b).mems = s.mems := rfl
@[simp] theorem State.setBit_sess (s : State) (o b : Nat) : (s.setBit o b).sess = s.sess := rfl
@[simp] theorem State.setBit_opens (s : State) (o b : Nat) : (s.setBit o b).opens = s.opens := rfl
@[simp] theorem State.setBit_job (s : State) (o b : Nat) : (s.setBit o b).job = s.job := rfl
@[simp] theorem State.setBit_rcv (s : State) (o b : Nat) : (s.setBit o b).rcv = s.rcv := rfl
@[simp] theorem State.setBit_hist (s : State) (o b : Nat) : (s.setBit o b).hist = s.hist := rfl
@[simp] theorem State.setBit_pow (s : State) (o b : Nat) : (s.setBit o b).pow = s.pow := rfl
@[simp] theorem State.setBit_sent (s : State) (o b : Nat) : (s.setBit o b).sent = s.sent := rfl
@[simp] theorem State.setBit_draws (s : State) (o b : Nat) : (s.setBit o b).draws = s.draws := rfl
@[simp] theorem State.setBit_pending (s : State) (o b : Nat) : (s.setBit o b).pending = s.pending := rfl

-- State.clrBit
@[simp] theorem State.clrBit_firsts (s : State) (o b : Nat) : (s.clrBit o b).firsts = s.firsts := rfl
@[simp] theorem State.clrBit_mem (s : State) (o b : Nat) : (s.clrBit o b).mem = s.mem := rfl
@[simp] theorem State.clrBit_flips (s : State) (o b : Nat) : (s.clrBit o b).flips = s.flips := rfl
@[simp] theorem State.clrBit_lost (s : State) (o b : Nat) : (s.clrBit o b).lost = s.lost := rfl
@[simp] theorem State.clrBit_clc (s : State) (o b : Nat) : (s.clrBit o b).clc = s.clc := rfl
@[simp] theorem State.clrBit_wbq (s : State) (o b : Nat) : (s.clrBit o b).wbq = s.wbq := rfl
@[simp] theorem State.clrBit_sramPos (s : State) (o b : Nat) : (s.clrBit o b).sramPos = s.sramPos := rfl
@[simp] theorem State.clrBit_pins (s : State) (o b : Nat) : (s.clrBit o b).pins = s.pins := rfl
@[simp] theorem State.clrBit_stile (s : State) (o b : Nat) : (s.clrBit o b).stile = s.stile := rfl
@[simp] theorem State.clrBit_block (s : State) (o b : Nat) : (s.clrBit o b).block = s.block := rfl
@[simp] theorem State.clrBit_chResets (s : State) (o b : Nat) : (s.clrBit o b).chResets = s.chResets := rfl
@[simp] theorem State.clrBit_furCount (s : State) (o b : Nat) : (s.clrBit o b).furCount = s.furCount := rfl
@[simp] theorem State.clrBit_fur (s : State) (o b : Nat) : (s.clrBit o b).fur = s.fur := rfl
@[simp] theorem State.clrBit_engines (s : State) (o b : Nat) : (s.clrBit o b).engines = s.engines := rfl
@[simp] theorem State.clrBit_fifos (s : State) (o b : Nat) : (s.clrBit o b).fifos = s.fifos := rfl
@[simp] theorem State.clrBit_thr (s : State) (o b : Nat) : (s.clrBit o b).thr = s.thr := rfl
@[simp] theorem State.clrBit_stk (s : State) (o b : Nat) : (s.clrBit o b).stk = s.stk := rfl
@[simp] theorem State.clrBit_waiters (s : State) (o b : Nat) : (s.clrBit o b).waiters = s.waiters := rfl
@[simp] theorem State.clrBit_fires (s : State) (o b : Nat) : (s.clrBit o b).fires = s.fires := rfl
@[simp] theorem State.clrBit_icache (s : State) (o b : Nat) : (s.clrBit o b).icache = s.icache := rfl
@[simp] theorem State.clrBit_hclk (s : State) (o b : Nat) : (s.clrBit o b).hclk = s.hclk := rfl
@[simp] theorem State.clrBit_tokens (s : State) (o b : Nat) : (s.clrBit o b).tokens = s.tokens := rfl
@[simp] theorem State.clrBit_stkEpoch (s : State) (o b : Nat) : (s.clrBit o b).stkEpoch = s.stkEpoch := rfl
@[simp] theorem State.clrBit_stkEpochAt (s : State) (o b : Nat) : (s.clrBit o b).stkEpochAt = s.stkEpochAt := rfl
@[simp] theorem State.clrBit_win (s : State) (o b : Nat) : (s.clrBit o b).win = s.win := rfl
@[simp] theorem State.clrBit_til (s : State) (o b : Nat) : (s.clrBit o b).til = s.til := rfl
@[simp] theorem State.clrBit_drl (s : State) (o b : Nat) : (s.clrBit o b).drl = s.drl := rfl
@[simp] theorem State.clrBit_gln (s : State) (o b : Nat) : (s.clrBit o b).gln = s.gln := rfl
@[simp] theorem State.clrBit_shf (s : State) (o b : Nat) : (s.clrBit o b).shf = s.shf := rfl
@[simp] theorem State.clrBit_hrw (s : State) (o b : Nat) : (s.clrBit o b).hrw = s.hrw := rfl
@[simp] theorem State.clrBit_red (s : State) (o b : Nat) : (s.clrBit o b).red = s.red := rfl
@[simp] theorem State.clrBit_ports (s : State) (o b : Nat) : (s.clrBit o b).ports = s.ports := rfl
@[simp] theorem State.clrBit_mems (s : State) (o b : Nat) : (s.clrBit o b).mems = s.mems := rfl
@[simp] theorem State.clrBit_sess (s : State) (o b : Nat) : (s.clrBit o b).sess = s.sess := rfl
@[simp] theorem State.clrBit_opens (s : State) (o b : Nat) : (s.clrBit o b).opens = s.opens := rfl
@[simp] theorem State.clrBit_job (s : State) (o b : Nat) : (s.clrBit o b).job = s.job := rfl
@[simp] theorem State.clrBit_rcv (s : State) (o b : Nat) : (s.clrBit o b).rcv = s.rcv := rfl
@[simp] theorem State.clrBit_hist (s : State) (o b : Nat) : (s.clrBit o b).hist = s.hist := rfl
@[simp] theorem State.clrBit_pow (s : State) (o b : Nat) : (s.clrBit o b).pow = s.pow := rfl
@[simp] theorem State.clrBit_sent (s : State) (o b : Nat) : (s.clrBit o b).sent = s.sent := rfl
@[simp] theorem State.clrBit_draws (s : State) (o b : Nat) : (s.clrBit o b).draws = s.draws := rfl
@[simp] theorem State.clrBit_pending (s : State) (o b : Nat) : (s.clrBit o b).pending = s.pending := rfl

-- State.setBits
@[simp] theorem State.setBits_firsts (s : State) (o b : Nat) : (s.setBits o b).firsts = s.firsts := by unfold State.setBits; split <;> rfl
@[simp] theorem State.setBits_mem (s : State) (o b : Nat) : (s.setBits o b).mem = s.mem := by unfold State.setBits; split <;> rfl
@[simp] theorem State.setBits_flips (s : State) (o b : Nat) : (s.setBits o b).flips = s.flips := by unfold State.setBits; split <;> rfl
@[simp] theorem State.setBits_lost (s : State) (o b : Nat) : (s.setBits o b).lost = s.lost := by unfold State.setBits; split <;> rfl
@[simp] theorem State.setBits_clc (s : State) (o b : Nat) : (s.setBits o b).clc = s.clc := by unfold State.setBits; split <;> rfl
@[simp] theorem State.setBits_wbq (s : State) (o b : Nat) : (s.setBits o b).wbq = s.wbq := by unfold State.setBits; split <;> rfl
@[simp] theorem State.setBits_sramPos (s : State) (o b : Nat) : (s.setBits o b).sramPos = s.sramPos := by unfold State.setBits; split <;> rfl
@[simp] theorem State.setBits_pins (s : State) (o b : Nat) : (s.setBits o b).pins = s.pins := by unfold State.setBits; split <;> rfl
@[simp] theorem State.setBits_stile (s : State) (o b : Nat) : (s.setBits o b).stile = s.stile := by unfold State.setBits; split <;> rfl
@[simp] theorem State.setBits_block (s : State) (o b : Nat) : (s.setBits o b).block = s.block := by unfold State.setBits; split <;> rfl
@[simp] theorem State.setBits_chResets (s : State) (o b : Nat) : (s.setBits o b).chResets = s.chResets := by unfold State.setBits; split <;> rfl
@[simp] theorem State.setBits_furCount (s : State) (o b : Nat) : (s.setBits o b).furCount = s.furCount := by unfold State.setBits; split <;> rfl
@[simp] theorem State.setBits_fur (s : State) (o b : Nat) : (s.setBits o b).fur = s.fur := by unfold State.setBits; split <;> rfl
@[simp] theorem State.setBits_engines (s : State) (o b : Nat) : (s.setBits o b).engines = s.engines := by unfold State.setBits; split <;> rfl
@[simp] theorem State.setBits_fifos (s : State) (o b : Nat) : (s.setBits o b).fifos = s.fifos := by unfold State.setBits; split <;> rfl
@[simp] theorem State.setBits_thr (s : State) (o b : Nat) : (s.setBits o b).thr = s.thr := by unfold State.setBits; split <;> rfl
@[simp] theorem State.setBits_stk (s : State) (o b : Nat) : (s.setBits o b).stk = s.stk := by unfold State.setBits; split <;> rfl
@[simp] theorem State.setBits_waiters (s : State) (o b : Nat) : (s.setBits o b).waiters = s.waiters := by unfold State.setBits; split <;> rfl
@[simp] theorem State.setBits_fires (s : State) (o b : Nat) : (s.setBits o b).fires = s.fires := by unfold State.setBits; split <;> rfl
@[simp] theorem State.setBits_icache (s : State) (o b : Nat) : (s.setBits o b).icache = s.icache := by unfold State.setBits; split <;> rfl
@[simp] theorem State.setBits_hclk (s : State) (o b : Nat) : (s.setBits o b).hclk = s.hclk := by unfold State.setBits; split <;> rfl
@[simp] theorem State.setBits_tokens (s : State) (o b : Nat) : (s.setBits o b).tokens = s.tokens := by unfold State.setBits; split <;> rfl
@[simp] theorem State.setBits_stkEpoch (s : State) (o b : Nat) : (s.setBits o b).stkEpoch = s.stkEpoch := by unfold State.setBits; split <;> rfl
@[simp] theorem State.setBits_stkEpochAt (s : State) (o b : Nat) : (s.setBits o b).stkEpochAt = s.stkEpochAt := by unfold State.setBits; split <;> rfl
@[simp] theorem State.setBits_win (s : State) (o b : Nat) : (s.setBits o b).win = s.win := by unfold State.setBits; split <;> rfl
@[simp] theorem State.setBits_til (s : State) (o b : Nat) : (s.setBits o b).til = s.til := by unfold State.setBits; split <;> rfl
@[simp] theorem State.setBits_drl (s : State) (o b : Nat) : (s.setBits o b).drl = s.drl := by unfold State.setBits; split <;> rfl
@[simp] theorem State.setBits_gln (s : State) (o b : Nat) : (s.setBits o b).gln = s.gln := by unfold State.setBits; split <;> rfl
@[simp] theorem State.setBits_shf (s : State) (o b : Nat) : (s.setBits o b).shf = s.shf := by unfold State.setBits; split <;> rfl
@[simp] theorem State.setBits_hrw (s : State) (o b : Nat) : (s.setBits o b).hrw = s.hrw := by unfold State.setBits; split <;> rfl
@[simp] theorem State.setBits_red (s : State) (o b : Nat) : (s.setBits o b).red = s.red := by unfold State.setBits; split <;> rfl
@[simp] theorem State.setBits_ports (s : State) (o b : Nat) : (s.setBits o b).ports = s.ports := by unfold State.setBits; split <;> rfl
@[simp] theorem State.setBits_mems (s : State) (o b : Nat) : (s.setBits o b).mems = s.mems := by unfold State.setBits; split <;> rfl
@[simp] theorem State.setBits_sess (s : State) (o b : Nat) : (s.setBits o b).sess = s.sess := by unfold State.setBits; split <;> rfl
@[simp] theorem State.setBits_opens (s : State) (o b : Nat) : (s.setBits o b).opens = s.opens := by unfold State.setBits; split <;> rfl
@[simp] theorem State.setBits_job (s : State) (o b : Nat) : (s.setBits o b).job = s.job := by unfold State.setBits; split <;> rfl
@[simp] theorem State.setBits_rcv (s : State) (o b : Nat) : (s.setBits o b).rcv = s.rcv := by unfold State.setBits; split <;> rfl
@[simp] theorem State.setBits_hist (s : State) (o b : Nat) : (s.setBits o b).hist = s.hist := by unfold State.setBits; split <;> rfl
@[simp] theorem State.setBits_pow (s : State) (o b : Nat) : (s.setBits o b).pow = s.pow := by unfold State.setBits; split <;> rfl
@[simp] theorem State.setBits_sent (s : State) (o b : Nat) : (s.setBits o b).sent = s.sent := by unfold State.setBits; split <;> rfl
@[simp] theorem State.setBits_draws (s : State) (o b : Nat) : (s.setBits o b).draws = s.draws := by unfold State.setBits; split <;> rfl
@[simp] theorem State.setBits_pending (s : State) (o b : Nat) : (s.setBits o b).pending = s.pending := by unfold State.setBits; split <;> rfl

-- State.count
@[simp] theorem State.count_firsts (s : State) (o n : Nat) : (s.count o n).firsts = s.firsts := by unfold State.count; split <;> rfl
@[simp] theorem State.count_mem (s : State) (o n : Nat) : (s.count o n).mem = s.mem := by unfold State.count; split <;> rfl
@[simp] theorem State.count_flips (s : State) (o n : Nat) : (s.count o n).flips = s.flips := by unfold State.count; split <;> rfl
@[simp] theorem State.count_lost (s : State) (o n : Nat) : (s.count o n).lost = s.lost := by unfold State.count; split <;> rfl
@[simp] theorem State.count_clc (s : State) (o n : Nat) : (s.count o n).clc = s.clc := by unfold State.count; split <;> rfl
@[simp] theorem State.count_wbq (s : State) (o n : Nat) : (s.count o n).wbq = s.wbq := by unfold State.count; split <;> rfl
@[simp] theorem State.count_sramPos (s : State) (o n : Nat) : (s.count o n).sramPos = s.sramPos := by unfold State.count; split <;> rfl
@[simp] theorem State.count_pins (s : State) (o n : Nat) : (s.count o n).pins = s.pins := by unfold State.count; split <;> rfl
@[simp] theorem State.count_stile (s : State) (o n : Nat) : (s.count o n).stile = s.stile := by unfold State.count; split <;> rfl
@[simp] theorem State.count_block (s : State) (o n : Nat) : (s.count o n).block = s.block := by unfold State.count; split <;> rfl
@[simp] theorem State.count_chResets (s : State) (o n : Nat) : (s.count o n).chResets = s.chResets := by unfold State.count; split <;> rfl
@[simp] theorem State.count_furCount (s : State) (o n : Nat) : (s.count o n).furCount = s.furCount := by unfold State.count; split <;> rfl
@[simp] theorem State.count_fur (s : State) (o n : Nat) : (s.count o n).fur = s.fur := by unfold State.count; split <;> rfl
@[simp] theorem State.count_engines (s : State) (o n : Nat) : (s.count o n).engines = s.engines := by unfold State.count; split <;> rfl
@[simp] theorem State.count_fifos (s : State) (o n : Nat) : (s.count o n).fifos = s.fifos := by unfold State.count; split <;> rfl
@[simp] theorem State.count_thr (s : State) (o n : Nat) : (s.count o n).thr = s.thr := by unfold State.count; split <;> rfl
@[simp] theorem State.count_stk (s : State) (o n : Nat) : (s.count o n).stk = s.stk := by unfold State.count; split <;> rfl
@[simp] theorem State.count_waiters (s : State) (o n : Nat) : (s.count o n).waiters = s.waiters := by unfold State.count; split <;> rfl
@[simp] theorem State.count_fires (s : State) (o n : Nat) : (s.count o n).fires = s.fires := by unfold State.count; split <;> rfl
@[simp] theorem State.count_icache (s : State) (o n : Nat) : (s.count o n).icache = s.icache := by unfold State.count; split <;> rfl
@[simp] theorem State.count_hclk (s : State) (o n : Nat) : (s.count o n).hclk = s.hclk := by unfold State.count; split <;> rfl
@[simp] theorem State.count_tokens (s : State) (o n : Nat) : (s.count o n).tokens = s.tokens := by unfold State.count; split <;> rfl
@[simp] theorem State.count_stkEpoch (s : State) (o n : Nat) : (s.count o n).stkEpoch = s.stkEpoch := by unfold State.count; split <;> rfl
@[simp] theorem State.count_stkEpochAt (s : State) (o n : Nat) : (s.count o n).stkEpochAt = s.stkEpochAt := by unfold State.count; split <;> rfl
@[simp] theorem State.count_win (s : State) (o n : Nat) : (s.count o n).win = s.win := by unfold State.count; split <;> rfl
@[simp] theorem State.count_til (s : State) (o n : Nat) : (s.count o n).til = s.til := by unfold State.count; split <;> rfl
@[simp] theorem State.count_drl (s : State) (o n : Nat) : (s.count o n).drl = s.drl := by unfold State.count; split <;> rfl
@[simp] theorem State.count_gln (s : State) (o n : Nat) : (s.count o n).gln = s.gln := by unfold State.count; split <;> rfl
@[simp] theorem State.count_shf (s : State) (o n : Nat) : (s.count o n).shf = s.shf := by unfold State.count; split <;> rfl
@[simp] theorem State.count_hrw (s : State) (o n : Nat) : (s.count o n).hrw = s.hrw := by unfold State.count; split <;> rfl
@[simp] theorem State.count_red (s : State) (o n : Nat) : (s.count o n).red = s.red := by unfold State.count; split <;> rfl
@[simp] theorem State.count_ports (s : State) (o n : Nat) : (s.count o n).ports = s.ports := by unfold State.count; split <;> rfl
@[simp] theorem State.count_mems (s : State) (o n : Nat) : (s.count o n).mems = s.mems := by unfold State.count; split <;> rfl
@[simp] theorem State.count_sess (s : State) (o n : Nat) : (s.count o n).sess = s.sess := by unfold State.count; split <;> rfl
@[simp] theorem State.count_opens (s : State) (o n : Nat) : (s.count o n).opens = s.opens := by unfold State.count; split <;> rfl
@[simp] theorem State.count_job (s : State) (o n : Nat) : (s.count o n).job = s.job := by unfold State.count; split <;> rfl
@[simp] theorem State.count_rcv (s : State) (o n : Nat) : (s.count o n).rcv = s.rcv := by unfold State.count; split <;> rfl
@[simp] theorem State.count_hist (s : State) (o n : Nat) : (s.count o n).hist = s.hist := by unfold State.count; split <;> rfl
@[simp] theorem State.count_pow (s : State) (o n : Nat) : (s.count o n).pow = s.pow := by unfold State.count; split <;> rfl
@[simp] theorem State.count_sent (s : State) (o n : Nat) : (s.count o n).sent = s.sent := by unfold State.count; split <;> rfl
@[simp] theorem State.count_draws (s : State) (o n : Nat) : (s.count o n).draws = s.draws := by unfold State.count; split <;> rfl
@[simp] theorem State.count_pending (s : State) (o n : Nat) : (s.count o n).pending = s.pending := by unfold State.count; split <;> rfl

-- State.setEng
@[simp] theorem State.setEng_csr (s : State) (i : Nat) (e : EngSt) : (s.setEng i e).csr = s.csr := rfl
@[simp] theorem State.setEng_firsts (s : State) (i : Nat) (e : EngSt) : (s.setEng i e).firsts = s.firsts := rfl
@[simp] theorem State.setEng_mem (s : State) (i : Nat) (e : EngSt) : (s.setEng i e).mem = s.mem := rfl
@[simp] theorem State.setEng_flips (s : State) (i : Nat) (e : EngSt) : (s.setEng i e).flips = s.flips := rfl
@[simp] theorem State.setEng_lost (s : State) (i : Nat) (e : EngSt) : (s.setEng i e).lost = s.lost := rfl
@[simp] theorem State.setEng_clc (s : State) (i : Nat) (e : EngSt) : (s.setEng i e).clc = s.clc := rfl
@[simp] theorem State.setEng_wbq (s : State) (i : Nat) (e : EngSt) : (s.setEng i e).wbq = s.wbq := rfl
@[simp] theorem State.setEng_sramPos (s : State) (i : Nat) (e : EngSt) : (s.setEng i e).sramPos = s.sramPos := rfl
@[simp] theorem State.setEng_pins (s : State) (i : Nat) (e : EngSt) : (s.setEng i e).pins = s.pins := rfl
@[simp] theorem State.setEng_stile (s : State) (i : Nat) (e : EngSt) : (s.setEng i e).stile = s.stile := rfl
@[simp] theorem State.setEng_block (s : State) (i : Nat) (e : EngSt) : (s.setEng i e).block = s.block := rfl
@[simp] theorem State.setEng_chResets (s : State) (i : Nat) (e : EngSt) : (s.setEng i e).chResets = s.chResets := rfl
@[simp] theorem State.setEng_furCount (s : State) (i : Nat) (e : EngSt) : (s.setEng i e).furCount = s.furCount := rfl
@[simp] theorem State.setEng_fur (s : State) (i : Nat) (e : EngSt) : (s.setEng i e).fur = s.fur := rfl
@[simp] theorem State.setEng_fifos (s : State) (i : Nat) (e : EngSt) : (s.setEng i e).fifos = s.fifos := rfl
@[simp] theorem State.setEng_thr (s : State) (i : Nat) (e : EngSt) : (s.setEng i e).thr = s.thr := rfl
@[simp] theorem State.setEng_stk (s : State) (i : Nat) (e : EngSt) : (s.setEng i e).stk = s.stk := rfl
@[simp] theorem State.setEng_waiters (s : State) (i : Nat) (e : EngSt) : (s.setEng i e).waiters = s.waiters := rfl
@[simp] theorem State.setEng_fires (s : State) (i : Nat) (e : EngSt) : (s.setEng i e).fires = s.fires := rfl
@[simp] theorem State.setEng_icache (s : State) (i : Nat) (e : EngSt) : (s.setEng i e).icache = s.icache := rfl
@[simp] theorem State.setEng_hclk (s : State) (i : Nat) (e : EngSt) : (s.setEng i e).hclk = s.hclk := rfl
@[simp] theorem State.setEng_tokens (s : State) (i : Nat) (e : EngSt) : (s.setEng i e).tokens = s.tokens := rfl
@[simp] theorem State.setEng_stkEpoch (s : State) (i : Nat) (e : EngSt) : (s.setEng i e).stkEpoch = s.stkEpoch := rfl
@[simp] theorem State.setEng_stkEpochAt (s : State) (i : Nat) (e : EngSt) : (s.setEng i e).stkEpochAt = s.stkEpochAt := rfl
@[simp] theorem State.setEng_win (s : State) (i : Nat) (e : EngSt) : (s.setEng i e).win = s.win := rfl
@[simp] theorem State.setEng_til (s : State) (i : Nat) (e : EngSt) : (s.setEng i e).til = s.til := rfl
@[simp] theorem State.setEng_drl (s : State) (i : Nat) (e : EngSt) : (s.setEng i e).drl = s.drl := rfl
@[simp] theorem State.setEng_gln (s : State) (i : Nat) (e : EngSt) : (s.setEng i e).gln = s.gln := rfl
@[simp] theorem State.setEng_shf (s : State) (i : Nat) (e : EngSt) : (s.setEng i e).shf = s.shf := rfl
@[simp] theorem State.setEng_hrw (s : State) (i : Nat) (e : EngSt) : (s.setEng i e).hrw = s.hrw := rfl
@[simp] theorem State.setEng_red (s : State) (i : Nat) (e : EngSt) : (s.setEng i e).red = s.red := rfl
@[simp] theorem State.setEng_ports (s : State) (i : Nat) (e : EngSt) : (s.setEng i e).ports = s.ports := rfl
@[simp] theorem State.setEng_mems (s : State) (i : Nat) (e : EngSt) : (s.setEng i e).mems = s.mems := rfl
@[simp] theorem State.setEng_sess (s : State) (i : Nat) (e : EngSt) : (s.setEng i e).sess = s.sess := rfl
@[simp] theorem State.setEng_opens (s : State) (i : Nat) (e : EngSt) : (s.setEng i e).opens = s.opens := rfl
@[simp] theorem State.setEng_job (s : State) (i : Nat) (e : EngSt) : (s.setEng i e).job = s.job := rfl
@[simp] theorem State.setEng_rcv (s : State) (i : Nat) (e : EngSt) : (s.setEng i e).rcv = s.rcv := rfl
@[simp] theorem State.setEng_hist (s : State) (i : Nat) (e : EngSt) : (s.setEng i e).hist = s.hist := rfl
@[simp] theorem State.setEng_pow (s : State) (i : Nat) (e : EngSt) : (s.setEng i e).pow = s.pow := rfl
@[simp] theorem State.setEng_sent (s : State) (i : Nat) (e : EngSt) : (s.setEng i e).sent = s.sent := rfl
@[simp] theorem State.setEng_draws (s : State) (i : Nat) (e : EngSt) : (s.setEng i e).draws = s.draws := rfl
@[simp] theorem State.setEng_pending (s : State) (i : Nat) (e : EngSt) : (s.setEng i e).pending = s.pending := rfl

-- State.setPort
@[simp] theorem State.setPort_csr (s : State) (p : Nat) (x : PortSt) : (s.setPort p x).csr = s.csr := rfl
@[simp] theorem State.setPort_firsts (s : State) (p : Nat) (x : PortSt) : (s.setPort p x).firsts = s.firsts := rfl
@[simp] theorem State.setPort_mem (s : State) (p : Nat) (x : PortSt) : (s.setPort p x).mem = s.mem := rfl
@[simp] theorem State.setPort_flips (s : State) (p : Nat) (x : PortSt) : (s.setPort p x).flips = s.flips := rfl
@[simp] theorem State.setPort_lost (s : State) (p : Nat) (x : PortSt) : (s.setPort p x).lost = s.lost := rfl
@[simp] theorem State.setPort_clc (s : State) (p : Nat) (x : PortSt) : (s.setPort p x).clc = s.clc := rfl
@[simp] theorem State.setPort_wbq (s : State) (p : Nat) (x : PortSt) : (s.setPort p x).wbq = s.wbq := rfl
@[simp] theorem State.setPort_sramPos (s : State) (p : Nat) (x : PortSt) : (s.setPort p x).sramPos = s.sramPos := rfl
@[simp] theorem State.setPort_pins (s : State) (p : Nat) (x : PortSt) : (s.setPort p x).pins = s.pins := rfl
@[simp] theorem State.setPort_stile (s : State) (p : Nat) (x : PortSt) : (s.setPort p x).stile = s.stile := rfl
@[simp] theorem State.setPort_block (s : State) (p : Nat) (x : PortSt) : (s.setPort p x).block = s.block := rfl
@[simp] theorem State.setPort_chResets (s : State) (p : Nat) (x : PortSt) : (s.setPort p x).chResets = s.chResets := rfl
@[simp] theorem State.setPort_furCount (s : State) (p : Nat) (x : PortSt) : (s.setPort p x).furCount = s.furCount := rfl
@[simp] theorem State.setPort_fur (s : State) (p : Nat) (x : PortSt) : (s.setPort p x).fur = s.fur := rfl
@[simp] theorem State.setPort_engines (s : State) (p : Nat) (x : PortSt) : (s.setPort p x).engines = s.engines := rfl
@[simp] theorem State.setPort_fifos (s : State) (p : Nat) (x : PortSt) : (s.setPort p x).fifos = s.fifos := rfl
@[simp] theorem State.setPort_thr (s : State) (p : Nat) (x : PortSt) : (s.setPort p x).thr = s.thr := rfl
@[simp] theorem State.setPort_stk (s : State) (p : Nat) (x : PortSt) : (s.setPort p x).stk = s.stk := rfl
@[simp] theorem State.setPort_waiters (s : State) (p : Nat) (x : PortSt) : (s.setPort p x).waiters = s.waiters := rfl
@[simp] theorem State.setPort_fires (s : State) (p : Nat) (x : PortSt) : (s.setPort p x).fires = s.fires := rfl
@[simp] theorem State.setPort_icache (s : State) (p : Nat) (x : PortSt) : (s.setPort p x).icache = s.icache := rfl
@[simp] theorem State.setPort_hclk (s : State) (p : Nat) (x : PortSt) : (s.setPort p x).hclk = s.hclk := rfl
@[simp] theorem State.setPort_tokens (s : State) (p : Nat) (x : PortSt) : (s.setPort p x).tokens = s.tokens := rfl
@[simp] theorem State.setPort_stkEpoch (s : State) (p : Nat) (x : PortSt) : (s.setPort p x).stkEpoch = s.stkEpoch := rfl
@[simp] theorem State.setPort_stkEpochAt (s : State) (p : Nat) (x : PortSt) : (s.setPort p x).stkEpochAt = s.stkEpochAt := rfl
@[simp] theorem State.setPort_win (s : State) (p : Nat) (x : PortSt) : (s.setPort p x).win = s.win := rfl
@[simp] theorem State.setPort_til (s : State) (p : Nat) (x : PortSt) : (s.setPort p x).til = s.til := rfl
@[simp] theorem State.setPort_drl (s : State) (p : Nat) (x : PortSt) : (s.setPort p x).drl = s.drl := rfl
@[simp] theorem State.setPort_gln (s : State) (p : Nat) (x : PortSt) : (s.setPort p x).gln = s.gln := rfl
@[simp] theorem State.setPort_shf (s : State) (p : Nat) (x : PortSt) : (s.setPort p x).shf = s.shf := rfl
@[simp] theorem State.setPort_hrw (s : State) (p : Nat) (x : PortSt) : (s.setPort p x).hrw = s.hrw := rfl
@[simp] theorem State.setPort_red (s : State) (p : Nat) (x : PortSt) : (s.setPort p x).red = s.red := rfl
@[simp] theorem State.setPort_mems (s : State) (p : Nat) (x : PortSt) : (s.setPort p x).mems = s.mems := rfl
@[simp] theorem State.setPort_sess (s : State) (p : Nat) (x : PortSt) : (s.setPort p x).sess = s.sess := rfl
@[simp] theorem State.setPort_opens (s : State) (p : Nat) (x : PortSt) : (s.setPort p x).opens = s.opens := rfl
@[simp] theorem State.setPort_job (s : State) (p : Nat) (x : PortSt) : (s.setPort p x).job = s.job := rfl
@[simp] theorem State.setPort_rcv (s : State) (p : Nat) (x : PortSt) : (s.setPort p x).rcv = s.rcv := rfl
@[simp] theorem State.setPort_hist (s : State) (p : Nat) (x : PortSt) : (s.setPort p x).hist = s.hist := rfl
@[simp] theorem State.setPort_pow (s : State) (p : Nat) (x : PortSt) : (s.setPort p x).pow = s.pow := rfl
@[simp] theorem State.setPort_sent (s : State) (p : Nat) (x : PortSt) : (s.setPort p x).sent = s.sent := rfl
@[simp] theorem State.setPort_draws (s : State) (p : Nat) (x : PortSt) : (s.setPort p x).draws = s.draws := rfl
@[simp] theorem State.setPort_pending (s : State) (p : Nat) (x : PortSt) : (s.setPort p x).pending = s.pending := rfl

-- State.setThread
@[simp] theorem State.setThread_csr (s : State) (st t : Nat) (x : Thr) : (s.setThread st t x).csr = s.csr := rfl
@[simp] theorem State.setThread_firsts (s : State) (st t : Nat) (x : Thr) : (s.setThread st t x).firsts = s.firsts := rfl
@[simp] theorem State.setThread_mem (s : State) (st t : Nat) (x : Thr) : (s.setThread st t x).mem = s.mem := rfl
@[simp] theorem State.setThread_flips (s : State) (st t : Nat) (x : Thr) : (s.setThread st t x).flips = s.flips := rfl
@[simp] theorem State.setThread_lost (s : State) (st t : Nat) (x : Thr) : (s.setThread st t x).lost = s.lost := rfl
@[simp] theorem State.setThread_clc (s : State) (st t : Nat) (x : Thr) : (s.setThread st t x).clc = s.clc := rfl
@[simp] theorem State.setThread_wbq (s : State) (st t : Nat) (x : Thr) : (s.setThread st t x).wbq = s.wbq := rfl
@[simp] theorem State.setThread_sramPos (s : State) (st t : Nat) (x : Thr) : (s.setThread st t x).sramPos = s.sramPos := rfl
@[simp] theorem State.setThread_pins (s : State) (st t : Nat) (x : Thr) : (s.setThread st t x).pins = s.pins := rfl
@[simp] theorem State.setThread_stile (s : State) (st t : Nat) (x : Thr) : (s.setThread st t x).stile = s.stile := rfl
@[simp] theorem State.setThread_block (s : State) (st t : Nat) (x : Thr) : (s.setThread st t x).block = s.block := rfl
@[simp] theorem State.setThread_chResets (s : State) (st t : Nat) (x : Thr) : (s.setThread st t x).chResets = s.chResets := rfl
@[simp] theorem State.setThread_furCount (s : State) (st t : Nat) (x : Thr) : (s.setThread st t x).furCount = s.furCount := rfl
@[simp] theorem State.setThread_fur (s : State) (st t : Nat) (x : Thr) : (s.setThread st t x).fur = s.fur := rfl
@[simp] theorem State.setThread_engines (s : State) (st t : Nat) (x : Thr) : (s.setThread st t x).engines = s.engines := rfl
@[simp] theorem State.setThread_fifos (s : State) (st t : Nat) (x : Thr) : (s.setThread st t x).fifos = s.fifos := rfl
@[simp] theorem State.setThread_stk (s : State) (st t : Nat) (x : Thr) : (s.setThread st t x).stk = s.stk := rfl
@[simp] theorem State.setThread_waiters (s : State) (st t : Nat) (x : Thr) : (s.setThread st t x).waiters = s.waiters := rfl
@[simp] theorem State.setThread_fires (s : State) (st t : Nat) (x : Thr) : (s.setThread st t x).fires = s.fires := rfl
@[simp] theorem State.setThread_icache (s : State) (st t : Nat) (x : Thr) : (s.setThread st t x).icache = s.icache := rfl
@[simp] theorem State.setThread_hclk (s : State) (st t : Nat) (x : Thr) : (s.setThread st t x).hclk = s.hclk := rfl
@[simp] theorem State.setThread_tokens (s : State) (st t : Nat) (x : Thr) : (s.setThread st t x).tokens = s.tokens := rfl
@[simp] theorem State.setThread_stkEpoch (s : State) (st t : Nat) (x : Thr) : (s.setThread st t x).stkEpoch = s.stkEpoch := rfl
@[simp] theorem State.setThread_stkEpochAt (s : State) (st t : Nat) (x : Thr) : (s.setThread st t x).stkEpochAt = s.stkEpochAt := rfl
@[simp] theorem State.setThread_win (s : State) (st t : Nat) (x : Thr) : (s.setThread st t x).win = s.win := rfl
@[simp] theorem State.setThread_til (s : State) (st t : Nat) (x : Thr) : (s.setThread st t x).til = s.til := rfl
@[simp] theorem State.setThread_drl (s : State) (st t : Nat) (x : Thr) : (s.setThread st t x).drl = s.drl := rfl
@[simp] theorem State.setThread_gln (s : State) (st t : Nat) (x : Thr) : (s.setThread st t x).gln = s.gln := rfl
@[simp] theorem State.setThread_shf (s : State) (st t : Nat) (x : Thr) : (s.setThread st t x).shf = s.shf := rfl
@[simp] theorem State.setThread_hrw (s : State) (st t : Nat) (x : Thr) : (s.setThread st t x).hrw = s.hrw := rfl
@[simp] theorem State.setThread_red (s : State) (st t : Nat) (x : Thr) : (s.setThread st t x).red = s.red := rfl
@[simp] theorem State.setThread_ports (s : State) (st t : Nat) (x : Thr) : (s.setThread st t x).ports = s.ports := rfl
@[simp] theorem State.setThread_mems (s : State) (st t : Nat) (x : Thr) : (s.setThread st t x).mems = s.mems := rfl
@[simp] theorem State.setThread_sess (s : State) (st t : Nat) (x : Thr) : (s.setThread st t x).sess = s.sess := rfl
@[simp] theorem State.setThread_opens (s : State) (st t : Nat) (x : Thr) : (s.setThread st t x).opens = s.opens := rfl
@[simp] theorem State.setThread_job (s : State) (st t : Nat) (x : Thr) : (s.setThread st t x).job = s.job := rfl
@[simp] theorem State.setThread_rcv (s : State) (st t : Nat) (x : Thr) : (s.setThread st t x).rcv = s.rcv := rfl
@[simp] theorem State.setThread_hist (s : State) (st t : Nat) (x : Thr) : (s.setThread st t x).hist = s.hist := rfl
@[simp] theorem State.setThread_pow (s : State) (st t : Nat) (x : Thr) : (s.setThread st t x).pow = s.pow := rfl
@[simp] theorem State.setThread_sent (s : State) (st t : Nat) (x : Thr) : (s.setThread st t x).sent = s.sent := rfl
@[simp] theorem State.setThread_draws (s : State) (st t : Nat) (x : Thr) : (s.setThread st t x).draws = s.draws := rfl
@[simp] theorem State.setThread_pending (s : State) (st t : Nat) (x : Thr) : (s.setThread st t x).pending = s.pending := rfl

-- State.setWinnow
@[simp] theorem State.setWinnow_csr (s : State) (st : Nat) (x : WinSt) : (s.setWinnow st x).csr = s.csr := rfl
@[simp] theorem State.setWinnow_firsts (s : State) (st : Nat) (x : WinSt) : (s.setWinnow st x).firsts = s.firsts := rfl
@[simp] theorem State.setWinnow_mem (s : State) (st : Nat) (x : WinSt) : (s.setWinnow st x).mem = s.mem := rfl
@[simp] theorem State.setWinnow_flips (s : State) (st : Nat) (x : WinSt) : (s.setWinnow st x).flips = s.flips := rfl
@[simp] theorem State.setWinnow_lost (s : State) (st : Nat) (x : WinSt) : (s.setWinnow st x).lost = s.lost := rfl
@[simp] theorem State.setWinnow_clc (s : State) (st : Nat) (x : WinSt) : (s.setWinnow st x).clc = s.clc := rfl
@[simp] theorem State.setWinnow_wbq (s : State) (st : Nat) (x : WinSt) : (s.setWinnow st x).wbq = s.wbq := rfl
@[simp] theorem State.setWinnow_sramPos (s : State) (st : Nat) (x : WinSt) : (s.setWinnow st x).sramPos = s.sramPos := rfl
@[simp] theorem State.setWinnow_pins (s : State) (st : Nat) (x : WinSt) : (s.setWinnow st x).pins = s.pins := rfl
@[simp] theorem State.setWinnow_stile (s : State) (st : Nat) (x : WinSt) : (s.setWinnow st x).stile = s.stile := rfl
@[simp] theorem State.setWinnow_block (s : State) (st : Nat) (x : WinSt) : (s.setWinnow st x).block = s.block := rfl
@[simp] theorem State.setWinnow_chResets (s : State) (st : Nat) (x : WinSt) : (s.setWinnow st x).chResets = s.chResets := rfl
@[simp] theorem State.setWinnow_furCount (s : State) (st : Nat) (x : WinSt) : (s.setWinnow st x).furCount = s.furCount := rfl
@[simp] theorem State.setWinnow_fur (s : State) (st : Nat) (x : WinSt) : (s.setWinnow st x).fur = s.fur := rfl
@[simp] theorem State.setWinnow_engines (s : State) (st : Nat) (x : WinSt) : (s.setWinnow st x).engines = s.engines := rfl
@[simp] theorem State.setWinnow_fifos (s : State) (st : Nat) (x : WinSt) : (s.setWinnow st x).fifos = s.fifos := rfl
@[simp] theorem State.setWinnow_thr (s : State) (st : Nat) (x : WinSt) : (s.setWinnow st x).thr = s.thr := rfl
@[simp] theorem State.setWinnow_stk (s : State) (st : Nat) (x : WinSt) : (s.setWinnow st x).stk = s.stk := rfl
@[simp] theorem State.setWinnow_waiters (s : State) (st : Nat) (x : WinSt) : (s.setWinnow st x).waiters = s.waiters := rfl
@[simp] theorem State.setWinnow_fires (s : State) (st : Nat) (x : WinSt) : (s.setWinnow st x).fires = s.fires := rfl
@[simp] theorem State.setWinnow_icache (s : State) (st : Nat) (x : WinSt) : (s.setWinnow st x).icache = s.icache := rfl
@[simp] theorem State.setWinnow_hclk (s : State) (st : Nat) (x : WinSt) : (s.setWinnow st x).hclk = s.hclk := rfl
@[simp] theorem State.setWinnow_tokens (s : State) (st : Nat) (x : WinSt) : (s.setWinnow st x).tokens = s.tokens := rfl
@[simp] theorem State.setWinnow_stkEpoch (s : State) (st : Nat) (x : WinSt) : (s.setWinnow st x).stkEpoch = s.stkEpoch := rfl
@[simp] theorem State.setWinnow_stkEpochAt (s : State) (st : Nat) (x : WinSt) : (s.setWinnow st x).stkEpochAt = s.stkEpochAt := rfl
@[simp] theorem State.setWinnow_til (s : State) (st : Nat) (x : WinSt) : (s.setWinnow st x).til = s.til := rfl
@[simp] theorem State.setWinnow_drl (s : State) (st : Nat) (x : WinSt) : (s.setWinnow st x).drl = s.drl := rfl
@[simp] theorem State.setWinnow_gln (s : State) (st : Nat) (x : WinSt) : (s.setWinnow st x).gln = s.gln := rfl
@[simp] theorem State.setWinnow_shf (s : State) (st : Nat) (x : WinSt) : (s.setWinnow st x).shf = s.shf := rfl
@[simp] theorem State.setWinnow_hrw (s : State) (st : Nat) (x : WinSt) : (s.setWinnow st x).hrw = s.hrw := rfl
@[simp] theorem State.setWinnow_red (s : State) (st : Nat) (x : WinSt) : (s.setWinnow st x).red = s.red := rfl
@[simp] theorem State.setWinnow_ports (s : State) (st : Nat) (x : WinSt) : (s.setWinnow st x).ports = s.ports := rfl
@[simp] theorem State.setWinnow_mems (s : State) (st : Nat) (x : WinSt) : (s.setWinnow st x).mems = s.mems := rfl
@[simp] theorem State.setWinnow_sess (s : State) (st : Nat) (x : WinSt) : (s.setWinnow st x).sess = s.sess := rfl
@[simp] theorem State.setWinnow_opens (s : State) (st : Nat) (x : WinSt) : (s.setWinnow st x).opens = s.opens := rfl
@[simp] theorem State.setWinnow_job (s : State) (st : Nat) (x : WinSt) : (s.setWinnow st x).job = s.job := rfl
@[simp] theorem State.setWinnow_rcv (s : State) (st : Nat) (x : WinSt) : (s.setWinnow st x).rcv = s.rcv := rfl
@[simp] theorem State.setWinnow_hist (s : State) (st : Nat) (x : WinSt) : (s.setWinnow st x).hist = s.hist := rfl
@[simp] theorem State.setWinnow_pow (s : State) (st : Nat) (x : WinSt) : (s.setWinnow st x).pow = s.pow := rfl
@[simp] theorem State.setWinnow_sent (s : State) (st : Nat) (x : WinSt) : (s.setWinnow st x).sent = s.sent := rfl
@[simp] theorem State.setWinnow_draws (s : State) (st : Nat) (x : WinSt) : (s.setWinnow st x).draws = s.draws := rfl
@[simp] theorem State.setWinnow_pending (s : State) (st : Nat) (x : WinSt) : (s.setWinnow st x).pending = s.pending := rfl

-- State.setTiller
@[simp] theorem State.setTiller_csr (s : State) (st a : Nat) (x : TilArr) : (s.setTiller st a x).csr = s.csr := rfl
@[simp] theorem State.setTiller_firsts (s : State) (st a : Nat) (x : TilArr) : (s.setTiller st a x).firsts = s.firsts := rfl
@[simp] theorem State.setTiller_mem (s : State) (st a : Nat) (x : TilArr) : (s.setTiller st a x).mem = s.mem := rfl
@[simp] theorem State.setTiller_flips (s : State) (st a : Nat) (x : TilArr) : (s.setTiller st a x).flips = s.flips := rfl
@[simp] theorem State.setTiller_lost (s : State) (st a : Nat) (x : TilArr) : (s.setTiller st a x).lost = s.lost := rfl
@[simp] theorem State.setTiller_clc (s : State) (st a : Nat) (x : TilArr) : (s.setTiller st a x).clc = s.clc := rfl
@[simp] theorem State.setTiller_wbq (s : State) (st a : Nat) (x : TilArr) : (s.setTiller st a x).wbq = s.wbq := rfl
@[simp] theorem State.setTiller_sramPos (s : State) (st a : Nat) (x : TilArr) : (s.setTiller st a x).sramPos = s.sramPos := rfl
@[simp] theorem State.setTiller_pins (s : State) (st a : Nat) (x : TilArr) : (s.setTiller st a x).pins = s.pins := rfl
@[simp] theorem State.setTiller_stile (s : State) (st a : Nat) (x : TilArr) : (s.setTiller st a x).stile = s.stile := rfl
@[simp] theorem State.setTiller_block (s : State) (st a : Nat) (x : TilArr) : (s.setTiller st a x).block = s.block := rfl
@[simp] theorem State.setTiller_chResets (s : State) (st a : Nat) (x : TilArr) : (s.setTiller st a x).chResets = s.chResets := rfl
@[simp] theorem State.setTiller_furCount (s : State) (st a : Nat) (x : TilArr) : (s.setTiller st a x).furCount = s.furCount := rfl
@[simp] theorem State.setTiller_fur (s : State) (st a : Nat) (x : TilArr) : (s.setTiller st a x).fur = s.fur := rfl
@[simp] theorem State.setTiller_engines (s : State) (st a : Nat) (x : TilArr) : (s.setTiller st a x).engines = s.engines := rfl
@[simp] theorem State.setTiller_fifos (s : State) (st a : Nat) (x : TilArr) : (s.setTiller st a x).fifos = s.fifos := rfl
@[simp] theorem State.setTiller_thr (s : State) (st a : Nat) (x : TilArr) : (s.setTiller st a x).thr = s.thr := rfl
@[simp] theorem State.setTiller_stk (s : State) (st a : Nat) (x : TilArr) : (s.setTiller st a x).stk = s.stk := rfl
@[simp] theorem State.setTiller_waiters (s : State) (st a : Nat) (x : TilArr) : (s.setTiller st a x).waiters = s.waiters := rfl
@[simp] theorem State.setTiller_fires (s : State) (st a : Nat) (x : TilArr) : (s.setTiller st a x).fires = s.fires := rfl
@[simp] theorem State.setTiller_icache (s : State) (st a : Nat) (x : TilArr) : (s.setTiller st a x).icache = s.icache := rfl
@[simp] theorem State.setTiller_hclk (s : State) (st a : Nat) (x : TilArr) : (s.setTiller st a x).hclk = s.hclk := rfl
@[simp] theorem State.setTiller_tokens (s : State) (st a : Nat) (x : TilArr) : (s.setTiller st a x).tokens = s.tokens := rfl
@[simp] theorem State.setTiller_stkEpoch (s : State) (st a : Nat) (x : TilArr) : (s.setTiller st a x).stkEpoch = s.stkEpoch := rfl
@[simp] theorem State.setTiller_stkEpochAt (s : State) (st a : Nat) (x : TilArr) : (s.setTiller st a x).stkEpochAt = s.stkEpochAt := rfl
@[simp] theorem State.setTiller_win (s : State) (st a : Nat) (x : TilArr) : (s.setTiller st a x).win = s.win := rfl
@[simp] theorem State.setTiller_drl (s : State) (st a : Nat) (x : TilArr) : (s.setTiller st a x).drl = s.drl := rfl
@[simp] theorem State.setTiller_gln (s : State) (st a : Nat) (x : TilArr) : (s.setTiller st a x).gln = s.gln := rfl
@[simp] theorem State.setTiller_shf (s : State) (st a : Nat) (x : TilArr) : (s.setTiller st a x).shf = s.shf := rfl
@[simp] theorem State.setTiller_hrw (s : State) (st a : Nat) (x : TilArr) : (s.setTiller st a x).hrw = s.hrw := rfl
@[simp] theorem State.setTiller_red (s : State) (st a : Nat) (x : TilArr) : (s.setTiller st a x).red = s.red := rfl
@[simp] theorem State.setTiller_ports (s : State) (st a : Nat) (x : TilArr) : (s.setTiller st a x).ports = s.ports := rfl
@[simp] theorem State.setTiller_mems (s : State) (st a : Nat) (x : TilArr) : (s.setTiller st a x).mems = s.mems := rfl
@[simp] theorem State.setTiller_sess (s : State) (st a : Nat) (x : TilArr) : (s.setTiller st a x).sess = s.sess := rfl
@[simp] theorem State.setTiller_opens (s : State) (st a : Nat) (x : TilArr) : (s.setTiller st a x).opens = s.opens := rfl
@[simp] theorem State.setTiller_job (s : State) (st a : Nat) (x : TilArr) : (s.setTiller st a x).job = s.job := rfl
@[simp] theorem State.setTiller_rcv (s : State) (st a : Nat) (x : TilArr) : (s.setTiller st a x).rcv = s.rcv := rfl
@[simp] theorem State.setTiller_hist (s : State) (st a : Nat) (x : TilArr) : (s.setTiller st a x).hist = s.hist := rfl
@[simp] theorem State.setTiller_pow (s : State) (st a : Nat) (x : TilArr) : (s.setTiller st a x).pow = s.pow := rfl
@[simp] theorem State.setTiller_sent (s : State) (st a : Nat) (x : TilArr) : (s.setTiller st a x).sent = s.sent := rfl
@[simp] theorem State.setTiller_draws (s : State) (st a : Nat) (x : TilArr) : (s.setTiller st a x).draws = s.draws := rfl
@[simp] theorem State.setTiller_pending (s : State) (st a : Nat) (x : TilArr) : (s.setTiller st a x).pending = s.pending := rfl

-- State.setGport
@[simp] theorem State.setGport_csr (s : State) (n : Nat) (x : GlnPort) : (s.setGport n x).csr = s.csr := rfl
@[simp] theorem State.setGport_firsts (s : State) (n : Nat) (x : GlnPort) : (s.setGport n x).firsts = s.firsts := rfl
@[simp] theorem State.setGport_mem (s : State) (n : Nat) (x : GlnPort) : (s.setGport n x).mem = s.mem := rfl
@[simp] theorem State.setGport_flips (s : State) (n : Nat) (x : GlnPort) : (s.setGport n x).flips = s.flips := rfl
@[simp] theorem State.setGport_lost (s : State) (n : Nat) (x : GlnPort) : (s.setGport n x).lost = s.lost := rfl
@[simp] theorem State.setGport_clc (s : State) (n : Nat) (x : GlnPort) : (s.setGport n x).clc = s.clc := rfl
@[simp] theorem State.setGport_wbq (s : State) (n : Nat) (x : GlnPort) : (s.setGport n x).wbq = s.wbq := rfl
@[simp] theorem State.setGport_sramPos (s : State) (n : Nat) (x : GlnPort) : (s.setGport n x).sramPos = s.sramPos := rfl
@[simp] theorem State.setGport_pins (s : State) (n : Nat) (x : GlnPort) : (s.setGport n x).pins = s.pins := rfl
@[simp] theorem State.setGport_stile (s : State) (n : Nat) (x : GlnPort) : (s.setGport n x).stile = s.stile := rfl
@[simp] theorem State.setGport_block (s : State) (n : Nat) (x : GlnPort) : (s.setGport n x).block = s.block := rfl
@[simp] theorem State.setGport_chResets (s : State) (n : Nat) (x : GlnPort) : (s.setGport n x).chResets = s.chResets := rfl
@[simp] theorem State.setGport_furCount (s : State) (n : Nat) (x : GlnPort) : (s.setGport n x).furCount = s.furCount := rfl
@[simp] theorem State.setGport_fur (s : State) (n : Nat) (x : GlnPort) : (s.setGport n x).fur = s.fur := rfl
@[simp] theorem State.setGport_engines (s : State) (n : Nat) (x : GlnPort) : (s.setGport n x).engines = s.engines := rfl
@[simp] theorem State.setGport_fifos (s : State) (n : Nat) (x : GlnPort) : (s.setGport n x).fifos = s.fifos := rfl
@[simp] theorem State.setGport_thr (s : State) (n : Nat) (x : GlnPort) : (s.setGport n x).thr = s.thr := rfl
@[simp] theorem State.setGport_stk (s : State) (n : Nat) (x : GlnPort) : (s.setGport n x).stk = s.stk := rfl
@[simp] theorem State.setGport_waiters (s : State) (n : Nat) (x : GlnPort) : (s.setGport n x).waiters = s.waiters := rfl
@[simp] theorem State.setGport_fires (s : State) (n : Nat) (x : GlnPort) : (s.setGport n x).fires = s.fires := rfl
@[simp] theorem State.setGport_icache (s : State) (n : Nat) (x : GlnPort) : (s.setGport n x).icache = s.icache := rfl
@[simp] theorem State.setGport_hclk (s : State) (n : Nat) (x : GlnPort) : (s.setGport n x).hclk = s.hclk := rfl
@[simp] theorem State.setGport_tokens (s : State) (n : Nat) (x : GlnPort) : (s.setGport n x).tokens = s.tokens := rfl
@[simp] theorem State.setGport_stkEpoch (s : State) (n : Nat) (x : GlnPort) : (s.setGport n x).stkEpoch = s.stkEpoch := rfl
@[simp] theorem State.setGport_stkEpochAt (s : State) (n : Nat) (x : GlnPort) : (s.setGport n x).stkEpochAt = s.stkEpochAt := rfl
@[simp] theorem State.setGport_win (s : State) (n : Nat) (x : GlnPort) : (s.setGport n x).win = s.win := rfl
@[simp] theorem State.setGport_til (s : State) (n : Nat) (x : GlnPort) : (s.setGport n x).til = s.til := rfl
@[simp] theorem State.setGport_drl (s : State) (n : Nat) (x : GlnPort) : (s.setGport n x).drl = s.drl := rfl
@[simp] theorem State.setGport_shf (s : State) (n : Nat) (x : GlnPort) : (s.setGport n x).shf = s.shf := rfl
@[simp] theorem State.setGport_hrw (s : State) (n : Nat) (x : GlnPort) : (s.setGport n x).hrw = s.hrw := rfl
@[simp] theorem State.setGport_red (s : State) (n : Nat) (x : GlnPort) : (s.setGport n x).red = s.red := rfl
@[simp] theorem State.setGport_ports (s : State) (n : Nat) (x : GlnPort) : (s.setGport n x).ports = s.ports := rfl
@[simp] theorem State.setGport_mems (s : State) (n : Nat) (x : GlnPort) : (s.setGport n x).mems = s.mems := rfl
@[simp] theorem State.setGport_sess (s : State) (n : Nat) (x : GlnPort) : (s.setGport n x).sess = s.sess := rfl
@[simp] theorem State.setGport_opens (s : State) (n : Nat) (x : GlnPort) : (s.setGport n x).opens = s.opens := rfl
@[simp] theorem State.setGport_job (s : State) (n : Nat) (x : GlnPort) : (s.setGport n x).job = s.job := rfl
@[simp] theorem State.setGport_rcv (s : State) (n : Nat) (x : GlnPort) : (s.setGport n x).rcv = s.rcv := rfl
@[simp] theorem State.setGport_hist (s : State) (n : Nat) (x : GlnPort) : (s.setGport n x).hist = s.hist := rfl
@[simp] theorem State.setGport_pow (s : State) (n : Nat) (x : GlnPort) : (s.setGport n x).pow = s.pow := rfl
@[simp] theorem State.setGport_sent (s : State) (n : Nat) (x : GlnPort) : (s.setGport n x).sent = s.sent := rfl
@[simp] theorem State.setGport_draws (s : State) (n : Nat) (x : GlnPort) : (s.setGport n x).draws = s.draws := rfl
@[simp] theorem State.setGport_pending (s : State) (n : Nat) (x : GlnPort) : (s.setGport n x).pending = s.pending := rfl

-- State.setSheaf
@[simp] theorem State.setSheaf_csr (s : State) (e : Nat) (x : ShfEng) : (s.setSheaf e x).csr = s.csr := rfl
@[simp] theorem State.setSheaf_firsts (s : State) (e : Nat) (x : ShfEng) : (s.setSheaf e x).firsts = s.firsts := rfl
@[simp] theorem State.setSheaf_mem (s : State) (e : Nat) (x : ShfEng) : (s.setSheaf e x).mem = s.mem := rfl
@[simp] theorem State.setSheaf_flips (s : State) (e : Nat) (x : ShfEng) : (s.setSheaf e x).flips = s.flips := rfl
@[simp] theorem State.setSheaf_lost (s : State) (e : Nat) (x : ShfEng) : (s.setSheaf e x).lost = s.lost := rfl
@[simp] theorem State.setSheaf_clc (s : State) (e : Nat) (x : ShfEng) : (s.setSheaf e x).clc = s.clc := rfl
@[simp] theorem State.setSheaf_wbq (s : State) (e : Nat) (x : ShfEng) : (s.setSheaf e x).wbq = s.wbq := rfl
@[simp] theorem State.setSheaf_sramPos (s : State) (e : Nat) (x : ShfEng) : (s.setSheaf e x).sramPos = s.sramPos := rfl
@[simp] theorem State.setSheaf_pins (s : State) (e : Nat) (x : ShfEng) : (s.setSheaf e x).pins = s.pins := rfl
@[simp] theorem State.setSheaf_stile (s : State) (e : Nat) (x : ShfEng) : (s.setSheaf e x).stile = s.stile := rfl
@[simp] theorem State.setSheaf_block (s : State) (e : Nat) (x : ShfEng) : (s.setSheaf e x).block = s.block := rfl
@[simp] theorem State.setSheaf_chResets (s : State) (e : Nat) (x : ShfEng) : (s.setSheaf e x).chResets = s.chResets := rfl
@[simp] theorem State.setSheaf_furCount (s : State) (e : Nat) (x : ShfEng) : (s.setSheaf e x).furCount = s.furCount := rfl
@[simp] theorem State.setSheaf_fur (s : State) (e : Nat) (x : ShfEng) : (s.setSheaf e x).fur = s.fur := rfl
@[simp] theorem State.setSheaf_engines (s : State) (e : Nat) (x : ShfEng) : (s.setSheaf e x).engines = s.engines := rfl
@[simp] theorem State.setSheaf_fifos (s : State) (e : Nat) (x : ShfEng) : (s.setSheaf e x).fifos = s.fifos := rfl
@[simp] theorem State.setSheaf_thr (s : State) (e : Nat) (x : ShfEng) : (s.setSheaf e x).thr = s.thr := rfl
@[simp] theorem State.setSheaf_stk (s : State) (e : Nat) (x : ShfEng) : (s.setSheaf e x).stk = s.stk := rfl
@[simp] theorem State.setSheaf_waiters (s : State) (e : Nat) (x : ShfEng) : (s.setSheaf e x).waiters = s.waiters := rfl
@[simp] theorem State.setSheaf_fires (s : State) (e : Nat) (x : ShfEng) : (s.setSheaf e x).fires = s.fires := rfl
@[simp] theorem State.setSheaf_icache (s : State) (e : Nat) (x : ShfEng) : (s.setSheaf e x).icache = s.icache := rfl
@[simp] theorem State.setSheaf_hclk (s : State) (e : Nat) (x : ShfEng) : (s.setSheaf e x).hclk = s.hclk := rfl
@[simp] theorem State.setSheaf_tokens (s : State) (e : Nat) (x : ShfEng) : (s.setSheaf e x).tokens = s.tokens := rfl
@[simp] theorem State.setSheaf_stkEpoch (s : State) (e : Nat) (x : ShfEng) : (s.setSheaf e x).stkEpoch = s.stkEpoch := rfl
@[simp] theorem State.setSheaf_stkEpochAt (s : State) (e : Nat) (x : ShfEng) : (s.setSheaf e x).stkEpochAt = s.stkEpochAt := rfl
@[simp] theorem State.setSheaf_win (s : State) (e : Nat) (x : ShfEng) : (s.setSheaf e x).win = s.win := rfl
@[simp] theorem State.setSheaf_til (s : State) (e : Nat) (x : ShfEng) : (s.setSheaf e x).til = s.til := rfl
@[simp] theorem State.setSheaf_drl (s : State) (e : Nat) (x : ShfEng) : (s.setSheaf e x).drl = s.drl := rfl
@[simp] theorem State.setSheaf_gln (s : State) (e : Nat) (x : ShfEng) : (s.setSheaf e x).gln = s.gln := rfl
@[simp] theorem State.setSheaf_hrw (s : State) (e : Nat) (x : ShfEng) : (s.setSheaf e x).hrw = s.hrw := rfl
@[simp] theorem State.setSheaf_red (s : State) (e : Nat) (x : ShfEng) : (s.setSheaf e x).red = s.red := rfl
@[simp] theorem State.setSheaf_ports (s : State) (e : Nat) (x : ShfEng) : (s.setSheaf e x).ports = s.ports := rfl
@[simp] theorem State.setSheaf_mems (s : State) (e : Nat) (x : ShfEng) : (s.setSheaf e x).mems = s.mems := rfl
@[simp] theorem State.setSheaf_sess (s : State) (e : Nat) (x : ShfEng) : (s.setSheaf e x).sess = s.sess := rfl
@[simp] theorem State.setSheaf_opens (s : State) (e : Nat) (x : ShfEng) : (s.setSheaf e x).opens = s.opens := rfl
@[simp] theorem State.setSheaf_job (s : State) (e : Nat) (x : ShfEng) : (s.setSheaf e x).job = s.job := rfl
@[simp] theorem State.setSheaf_rcv (s : State) (e : Nat) (x : ShfEng) : (s.setSheaf e x).rcv = s.rcv := rfl
@[simp] theorem State.setSheaf_hist (s : State) (e : Nat) (x : ShfEng) : (s.setSheaf e x).hist = s.hist := rfl
@[simp] theorem State.setSheaf_pow (s : State) (e : Nat) (x : ShfEng) : (s.setSheaf e x).pow = s.pow := rfl
@[simp] theorem State.setSheaf_sent (s : State) (e : Nat) (x : ShfEng) : (s.setSheaf e x).sent = s.sent := rfl
@[simp] theorem State.setSheaf_draws (s : State) (e : Nat) (x : ShfEng) : (s.setSheaf e x).draws = s.draws := rfl
@[simp] theorem State.setSheaf_pending (s : State) (e : Nat) (x : ShfEng) : (s.setSheaf e x).pending = s.pending := rfl

-- State.setChan
@[simp] theorem State.setChan_csr (s : State) (c : Nat) (x : HrwCh) : (s.setChan c x).csr = s.csr := rfl
@[simp] theorem State.setChan_firsts (s : State) (c : Nat) (x : HrwCh) : (s.setChan c x).firsts = s.firsts := rfl
@[simp] theorem State.setChan_mem (s : State) (c : Nat) (x : HrwCh) : (s.setChan c x).mem = s.mem := rfl
@[simp] theorem State.setChan_flips (s : State) (c : Nat) (x : HrwCh) : (s.setChan c x).flips = s.flips := rfl
@[simp] theorem State.setChan_lost (s : State) (c : Nat) (x : HrwCh) : (s.setChan c x).lost = s.lost := rfl
@[simp] theorem State.setChan_clc (s : State) (c : Nat) (x : HrwCh) : (s.setChan c x).clc = s.clc := rfl
@[simp] theorem State.setChan_wbq (s : State) (c : Nat) (x : HrwCh) : (s.setChan c x).wbq = s.wbq := rfl
@[simp] theorem State.setChan_sramPos (s : State) (c : Nat) (x : HrwCh) : (s.setChan c x).sramPos = s.sramPos := rfl
@[simp] theorem State.setChan_pins (s : State) (c : Nat) (x : HrwCh) : (s.setChan c x).pins = s.pins := rfl
@[simp] theorem State.setChan_stile (s : State) (c : Nat) (x : HrwCh) : (s.setChan c x).stile = s.stile := rfl
@[simp] theorem State.setChan_block (s : State) (c : Nat) (x : HrwCh) : (s.setChan c x).block = s.block := rfl
@[simp] theorem State.setChan_chResets (s : State) (c : Nat) (x : HrwCh) : (s.setChan c x).chResets = s.chResets := rfl
@[simp] theorem State.setChan_furCount (s : State) (c : Nat) (x : HrwCh) : (s.setChan c x).furCount = s.furCount := rfl
@[simp] theorem State.setChan_fur (s : State) (c : Nat) (x : HrwCh) : (s.setChan c x).fur = s.fur := rfl
@[simp] theorem State.setChan_engines (s : State) (c : Nat) (x : HrwCh) : (s.setChan c x).engines = s.engines := rfl
@[simp] theorem State.setChan_fifos (s : State) (c : Nat) (x : HrwCh) : (s.setChan c x).fifos = s.fifos := rfl
@[simp] theorem State.setChan_thr (s : State) (c : Nat) (x : HrwCh) : (s.setChan c x).thr = s.thr := rfl
@[simp] theorem State.setChan_stk (s : State) (c : Nat) (x : HrwCh) : (s.setChan c x).stk = s.stk := rfl
@[simp] theorem State.setChan_waiters (s : State) (c : Nat) (x : HrwCh) : (s.setChan c x).waiters = s.waiters := rfl
@[simp] theorem State.setChan_fires (s : State) (c : Nat) (x : HrwCh) : (s.setChan c x).fires = s.fires := rfl
@[simp] theorem State.setChan_icache (s : State) (c : Nat) (x : HrwCh) : (s.setChan c x).icache = s.icache := rfl
@[simp] theorem State.setChan_hclk (s : State) (c : Nat) (x : HrwCh) : (s.setChan c x).hclk = s.hclk := rfl
@[simp] theorem State.setChan_tokens (s : State) (c : Nat) (x : HrwCh) : (s.setChan c x).tokens = s.tokens := rfl
@[simp] theorem State.setChan_stkEpoch (s : State) (c : Nat) (x : HrwCh) : (s.setChan c x).stkEpoch = s.stkEpoch := rfl
@[simp] theorem State.setChan_stkEpochAt (s : State) (c : Nat) (x : HrwCh) : (s.setChan c x).stkEpochAt = s.stkEpochAt := rfl
@[simp] theorem State.setChan_win (s : State) (c : Nat) (x : HrwCh) : (s.setChan c x).win = s.win := rfl
@[simp] theorem State.setChan_til (s : State) (c : Nat) (x : HrwCh) : (s.setChan c x).til = s.til := rfl
@[simp] theorem State.setChan_drl (s : State) (c : Nat) (x : HrwCh) : (s.setChan c x).drl = s.drl := rfl
@[simp] theorem State.setChan_gln (s : State) (c : Nat) (x : HrwCh) : (s.setChan c x).gln = s.gln := rfl
@[simp] theorem State.setChan_shf (s : State) (c : Nat) (x : HrwCh) : (s.setChan c x).shf = s.shf := rfl
@[simp] theorem State.setChan_red (s : State) (c : Nat) (x : HrwCh) : (s.setChan c x).red = s.red := rfl
@[simp] theorem State.setChan_ports (s : State) (c : Nat) (x : HrwCh) : (s.setChan c x).ports = s.ports := rfl
@[simp] theorem State.setChan_mems (s : State) (c : Nat) (x : HrwCh) : (s.setChan c x).mems = s.mems := rfl
@[simp] theorem State.setChan_sess (s : State) (c : Nat) (x : HrwCh) : (s.setChan c x).sess = s.sess := rfl
@[simp] theorem State.setChan_opens (s : State) (c : Nat) (x : HrwCh) : (s.setChan c x).opens = s.opens := rfl
@[simp] theorem State.setChan_job (s : State) (c : Nat) (x : HrwCh) : (s.setChan c x).job = s.job := rfl
@[simp] theorem State.setChan_rcv (s : State) (c : Nat) (x : HrwCh) : (s.setChan c x).rcv = s.rcv := rfl
@[simp] theorem State.setChan_hist (s : State) (c : Nat) (x : HrwCh) : (s.setChan c x).hist = s.hist := rfl
@[simp] theorem State.setChan_pow (s : State) (c : Nat) (x : HrwCh) : (s.setChan c x).pow = s.pow := rfl
@[simp] theorem State.setChan_sent (s : State) (c : Nat) (x : HrwCh) : (s.setChan c x).sent = s.sent := rfl
@[simp] theorem State.setChan_draws (s : State) (c : Nat) (x : HrwCh) : (s.setChan c x).draws = s.draws := rfl
@[simp] theorem State.setChan_pending (s : State) (c : Nat) (x : HrwCh) : (s.setChan c x).pending = s.pending := rfl

-- State.setSession
@[simp] theorem State.setSession_csr (s : State) (i : Nat) (x : Sess) : (s.setSession i x).csr = s.csr := rfl
@[simp] theorem State.setSession_firsts (s : State) (i : Nat) (x : Sess) : (s.setSession i x).firsts = s.firsts := rfl
@[simp] theorem State.setSession_mem (s : State) (i : Nat) (x : Sess) : (s.setSession i x).mem = s.mem := rfl
@[simp] theorem State.setSession_flips (s : State) (i : Nat) (x : Sess) : (s.setSession i x).flips = s.flips := rfl
@[simp] theorem State.setSession_lost (s : State) (i : Nat) (x : Sess) : (s.setSession i x).lost = s.lost := rfl
@[simp] theorem State.setSession_clc (s : State) (i : Nat) (x : Sess) : (s.setSession i x).clc = s.clc := rfl
@[simp] theorem State.setSession_wbq (s : State) (i : Nat) (x : Sess) : (s.setSession i x).wbq = s.wbq := rfl
@[simp] theorem State.setSession_sramPos (s : State) (i : Nat) (x : Sess) : (s.setSession i x).sramPos = s.sramPos := rfl
@[simp] theorem State.setSession_pins (s : State) (i : Nat) (x : Sess) : (s.setSession i x).pins = s.pins := rfl
@[simp] theorem State.setSession_stile (s : State) (i : Nat) (x : Sess) : (s.setSession i x).stile = s.stile := rfl
@[simp] theorem State.setSession_block (s : State) (i : Nat) (x : Sess) : (s.setSession i x).block = s.block := rfl
@[simp] theorem State.setSession_chResets (s : State) (i : Nat) (x : Sess) : (s.setSession i x).chResets = s.chResets := rfl
@[simp] theorem State.setSession_furCount (s : State) (i : Nat) (x : Sess) : (s.setSession i x).furCount = s.furCount := rfl
@[simp] theorem State.setSession_fur (s : State) (i : Nat) (x : Sess) : (s.setSession i x).fur = s.fur := rfl
@[simp] theorem State.setSession_engines (s : State) (i : Nat) (x : Sess) : (s.setSession i x).engines = s.engines := rfl
@[simp] theorem State.setSession_fifos (s : State) (i : Nat) (x : Sess) : (s.setSession i x).fifos = s.fifos := rfl
@[simp] theorem State.setSession_thr (s : State) (i : Nat) (x : Sess) : (s.setSession i x).thr = s.thr := rfl
@[simp] theorem State.setSession_stk (s : State) (i : Nat) (x : Sess) : (s.setSession i x).stk = s.stk := rfl
@[simp] theorem State.setSession_waiters (s : State) (i : Nat) (x : Sess) : (s.setSession i x).waiters = s.waiters := rfl
@[simp] theorem State.setSession_fires (s : State) (i : Nat) (x : Sess) : (s.setSession i x).fires = s.fires := rfl
@[simp] theorem State.setSession_icache (s : State) (i : Nat) (x : Sess) : (s.setSession i x).icache = s.icache := rfl
@[simp] theorem State.setSession_hclk (s : State) (i : Nat) (x : Sess) : (s.setSession i x).hclk = s.hclk := rfl
@[simp] theorem State.setSession_tokens (s : State) (i : Nat) (x : Sess) : (s.setSession i x).tokens = s.tokens := rfl
@[simp] theorem State.setSession_stkEpoch (s : State) (i : Nat) (x : Sess) : (s.setSession i x).stkEpoch = s.stkEpoch := rfl
@[simp] theorem State.setSession_stkEpochAt (s : State) (i : Nat) (x : Sess) : (s.setSession i x).stkEpochAt = s.stkEpochAt := rfl
@[simp] theorem State.setSession_win (s : State) (i : Nat) (x : Sess) : (s.setSession i x).win = s.win := rfl
@[simp] theorem State.setSession_til (s : State) (i : Nat) (x : Sess) : (s.setSession i x).til = s.til := rfl
@[simp] theorem State.setSession_drl (s : State) (i : Nat) (x : Sess) : (s.setSession i x).drl = s.drl := rfl
@[simp] theorem State.setSession_gln (s : State) (i : Nat) (x : Sess) : (s.setSession i x).gln = s.gln := rfl
@[simp] theorem State.setSession_shf (s : State) (i : Nat) (x : Sess) : (s.setSession i x).shf = s.shf := rfl
@[simp] theorem State.setSession_hrw (s : State) (i : Nat) (x : Sess) : (s.setSession i x).hrw = s.hrw := rfl
@[simp] theorem State.setSession_red (s : State) (i : Nat) (x : Sess) : (s.setSession i x).red = s.red := rfl
@[simp] theorem State.setSession_ports (s : State) (i : Nat) (x : Sess) : (s.setSession i x).ports = s.ports := rfl
@[simp] theorem State.setSession_mems (s : State) (i : Nat) (x : Sess) : (s.setSession i x).mems = s.mems := rfl
@[simp] theorem State.setSession_opens (s : State) (i : Nat) (x : Sess) : (s.setSession i x).opens = s.opens := rfl
@[simp] theorem State.setSession_job (s : State) (i : Nat) (x : Sess) : (s.setSession i x).job = s.job := rfl
@[simp] theorem State.setSession_rcv (s : State) (i : Nat) (x : Sess) : (s.setSession i x).rcv = s.rcv := rfl
@[simp] theorem State.setSession_hist (s : State) (i : Nat) (x : Sess) : (s.setSession i x).hist = s.hist := rfl
@[simp] theorem State.setSession_pow (s : State) (i : Nat) (x : Sess) : (s.setSession i x).pow = s.pow := rfl
@[simp] theorem State.setSession_sent (s : State) (i : Nat) (x : Sess) : (s.setSession i x).sent = s.sent := rfl
@[simp] theorem State.setSession_draws (s : State) (i : Nat) (x : Sess) : (s.setSession i x).draws = s.draws := rfl
@[simp] theorem State.setSession_pending (s : State) (i : Nat) (x : Sess) : (s.setSession i x).pending = s.pending := rfl

-- State.setSampler
@[simp] theorem State.setSampler_csr (s : State) (d : Nat) (x : SmpSt) : (s.setSampler d x).csr = s.csr := rfl
@[simp] theorem State.setSampler_firsts (s : State) (d : Nat) (x : SmpSt) : (s.setSampler d x).firsts = s.firsts := rfl
@[simp] theorem State.setSampler_mem (s : State) (d : Nat) (x : SmpSt) : (s.setSampler d x).mem = s.mem := rfl
@[simp] theorem State.setSampler_flips (s : State) (d : Nat) (x : SmpSt) : (s.setSampler d x).flips = s.flips := rfl
@[simp] theorem State.setSampler_lost (s : State) (d : Nat) (x : SmpSt) : (s.setSampler d x).lost = s.lost := rfl
@[simp] theorem State.setSampler_clc (s : State) (d : Nat) (x : SmpSt) : (s.setSampler d x).clc = s.clc := rfl
@[simp] theorem State.setSampler_wbq (s : State) (d : Nat) (x : SmpSt) : (s.setSampler d x).wbq = s.wbq := rfl
@[simp] theorem State.setSampler_sramPos (s : State) (d : Nat) (x : SmpSt) : (s.setSampler d x).sramPos = s.sramPos := rfl
@[simp] theorem State.setSampler_pins (s : State) (d : Nat) (x : SmpSt) : (s.setSampler d x).pins = s.pins := rfl
@[simp] theorem State.setSampler_stile (s : State) (d : Nat) (x : SmpSt) : (s.setSampler d x).stile = s.stile := rfl
@[simp] theorem State.setSampler_block (s : State) (d : Nat) (x : SmpSt) : (s.setSampler d x).block = s.block := rfl
@[simp] theorem State.setSampler_chResets (s : State) (d : Nat) (x : SmpSt) : (s.setSampler d x).chResets = s.chResets := rfl
@[simp] theorem State.setSampler_furCount (s : State) (d : Nat) (x : SmpSt) : (s.setSampler d x).furCount = s.furCount := rfl
@[simp] theorem State.setSampler_fur (s : State) (d : Nat) (x : SmpSt) : (s.setSampler d x).fur = s.fur := rfl
@[simp] theorem State.setSampler_engines (s : State) (d : Nat) (x : SmpSt) : (s.setSampler d x).engines = s.engines := rfl
@[simp] theorem State.setSampler_fifos (s : State) (d : Nat) (x : SmpSt) : (s.setSampler d x).fifos = s.fifos := rfl
@[simp] theorem State.setSampler_thr (s : State) (d : Nat) (x : SmpSt) : (s.setSampler d x).thr = s.thr := rfl
@[simp] theorem State.setSampler_stk (s : State) (d : Nat) (x : SmpSt) : (s.setSampler d x).stk = s.stk := rfl
@[simp] theorem State.setSampler_waiters (s : State) (d : Nat) (x : SmpSt) : (s.setSampler d x).waiters = s.waiters := rfl
@[simp] theorem State.setSampler_fires (s : State) (d : Nat) (x : SmpSt) : (s.setSampler d x).fires = s.fires := rfl
@[simp] theorem State.setSampler_icache (s : State) (d : Nat) (x : SmpSt) : (s.setSampler d x).icache = s.icache := rfl
@[simp] theorem State.setSampler_hclk (s : State) (d : Nat) (x : SmpSt) : (s.setSampler d x).hclk = s.hclk := rfl
@[simp] theorem State.setSampler_tokens (s : State) (d : Nat) (x : SmpSt) : (s.setSampler d x).tokens = s.tokens := rfl
@[simp] theorem State.setSampler_stkEpoch (s : State) (d : Nat) (x : SmpSt) : (s.setSampler d x).stkEpoch = s.stkEpoch := rfl
@[simp] theorem State.setSampler_stkEpochAt (s : State) (d : Nat) (x : SmpSt) : (s.setSampler d x).stkEpochAt = s.stkEpochAt := rfl
@[simp] theorem State.setSampler_win (s : State) (d : Nat) (x : SmpSt) : (s.setSampler d x).win = s.win := rfl
@[simp] theorem State.setSampler_til (s : State) (d : Nat) (x : SmpSt) : (s.setSampler d x).til = s.til := rfl
@[simp] theorem State.setSampler_gln (s : State) (d : Nat) (x : SmpSt) : (s.setSampler d x).gln = s.gln := rfl
@[simp] theorem State.setSampler_shf (s : State) (d : Nat) (x : SmpSt) : (s.setSampler d x).shf = s.shf := rfl
@[simp] theorem State.setSampler_hrw (s : State) (d : Nat) (x : SmpSt) : (s.setSampler d x).hrw = s.hrw := rfl
@[simp] theorem State.setSampler_red (s : State) (d : Nat) (x : SmpSt) : (s.setSampler d x).red = s.red := rfl
@[simp] theorem State.setSampler_ports (s : State) (d : Nat) (x : SmpSt) : (s.setSampler d x).ports = s.ports := rfl
@[simp] theorem State.setSampler_mems (s : State) (d : Nat) (x : SmpSt) : (s.setSampler d x).mems = s.mems := rfl
@[simp] theorem State.setSampler_sess (s : State) (d : Nat) (x : SmpSt) : (s.setSampler d x).sess = s.sess := rfl
@[simp] theorem State.setSampler_opens (s : State) (d : Nat) (x : SmpSt) : (s.setSampler d x).opens = s.opens := rfl
@[simp] theorem State.setSampler_job (s : State) (d : Nat) (x : SmpSt) : (s.setSampler d x).job = s.job := rfl
@[simp] theorem State.setSampler_rcv (s : State) (d : Nat) (x : SmpSt) : (s.setSampler d x).rcv = s.rcv := rfl
@[simp] theorem State.setSampler_hist (s : State) (d : Nat) (x : SmpSt) : (s.setSampler d x).hist = s.hist := rfl
@[simp] theorem State.setSampler_pow (s : State) (d : Nat) (x : SmpSt) : (s.setSampler d x).pow = s.pow := rfl
@[simp] theorem State.setSampler_sent (s : State) (d : Nat) (x : SmpSt) : (s.setSampler d x).sent = s.sent := rfl
@[simp] theorem State.setSampler_draws (s : State) (d : Nat) (x : SmpSt) : (s.setSampler d x).draws = s.draws := rfl
@[simp] theorem State.setSampler_pending (s : State) (d : Nat) (x : SmpSt) : (s.setSampler d x).pending = s.pending := rfl

-- State.setCtr
@[simp] theorem State.setCtr_csr (s : State) (st c : Nat) (v : BitVec 24) : (s.setCtr st c v).csr = s.csr := rfl
@[simp] theorem State.setCtr_firsts (s : State) (st c : Nat) (v : BitVec 24) : (s.setCtr st c v).firsts = s.firsts := rfl
@[simp] theorem State.setCtr_mem (s : State) (st c : Nat) (v : BitVec 24) : (s.setCtr st c v).mem = s.mem := rfl
@[simp] theorem State.setCtr_flips (s : State) (st c : Nat) (v : BitVec 24) : (s.setCtr st c v).flips = s.flips := rfl
@[simp] theorem State.setCtr_lost (s : State) (st c : Nat) (v : BitVec 24) : (s.setCtr st c v).lost = s.lost := rfl
@[simp] theorem State.setCtr_clc (s : State) (st c : Nat) (v : BitVec 24) : (s.setCtr st c v).clc = s.clc := rfl
@[simp] theorem State.setCtr_wbq (s : State) (st c : Nat) (v : BitVec 24) : (s.setCtr st c v).wbq = s.wbq := rfl
@[simp] theorem State.setCtr_sramPos (s : State) (st c : Nat) (v : BitVec 24) : (s.setCtr st c v).sramPos = s.sramPos := rfl
@[simp] theorem State.setCtr_pins (s : State) (st c : Nat) (v : BitVec 24) : (s.setCtr st c v).pins = s.pins := rfl
@[simp] theorem State.setCtr_stile (s : State) (st c : Nat) (v : BitVec 24) : (s.setCtr st c v).stile = s.stile := rfl
@[simp] theorem State.setCtr_block (s : State) (st c : Nat) (v : BitVec 24) : (s.setCtr st c v).block = s.block := rfl
@[simp] theorem State.setCtr_chResets (s : State) (st c : Nat) (v : BitVec 24) : (s.setCtr st c v).chResets = s.chResets := rfl
@[simp] theorem State.setCtr_furCount (s : State) (st c : Nat) (v : BitVec 24) : (s.setCtr st c v).furCount = s.furCount := rfl
@[simp] theorem State.setCtr_fur (s : State) (st c : Nat) (v : BitVec 24) : (s.setCtr st c v).fur = s.fur := rfl
@[simp] theorem State.setCtr_engines (s : State) (st c : Nat) (v : BitVec 24) : (s.setCtr st c v).engines = s.engines := rfl
@[simp] theorem State.setCtr_fifos (s : State) (st c : Nat) (v : BitVec 24) : (s.setCtr st c v).fifos = s.fifos := rfl
@[simp] theorem State.setCtr_thr (s : State) (st c : Nat) (v : BitVec 24) : (s.setCtr st c v).thr = s.thr := rfl
@[simp] theorem State.setCtr_waiters (s : State) (st c : Nat) (v : BitVec 24) : (s.setCtr st c v).waiters = s.waiters := rfl
@[simp] theorem State.setCtr_fires (s : State) (st c : Nat) (v : BitVec 24) : (s.setCtr st c v).fires = s.fires := rfl
@[simp] theorem State.setCtr_icache (s : State) (st c : Nat) (v : BitVec 24) : (s.setCtr st c v).icache = s.icache := rfl
@[simp] theorem State.setCtr_hclk (s : State) (st c : Nat) (v : BitVec 24) : (s.setCtr st c v).hclk = s.hclk := rfl
@[simp] theorem State.setCtr_tokens (s : State) (st c : Nat) (v : BitVec 24) : (s.setCtr st c v).tokens = s.tokens := rfl
@[simp] theorem State.setCtr_stkEpoch (s : State) (st c : Nat) (v : BitVec 24) : (s.setCtr st c v).stkEpoch = s.stkEpoch := rfl
@[simp] theorem State.setCtr_stkEpochAt (s : State) (st c : Nat) (v : BitVec 24) : (s.setCtr st c v).stkEpochAt = s.stkEpochAt := rfl
@[simp] theorem State.setCtr_win (s : State) (st c : Nat) (v : BitVec 24) : (s.setCtr st c v).win = s.win := rfl
@[simp] theorem State.setCtr_til (s : State) (st c : Nat) (v : BitVec 24) : (s.setCtr st c v).til = s.til := rfl
@[simp] theorem State.setCtr_drl (s : State) (st c : Nat) (v : BitVec 24) : (s.setCtr st c v).drl = s.drl := rfl
@[simp] theorem State.setCtr_gln (s : State) (st c : Nat) (v : BitVec 24) : (s.setCtr st c v).gln = s.gln := rfl
@[simp] theorem State.setCtr_shf (s : State) (st c : Nat) (v : BitVec 24) : (s.setCtr st c v).shf = s.shf := rfl
@[simp] theorem State.setCtr_hrw (s : State) (st c : Nat) (v : BitVec 24) : (s.setCtr st c v).hrw = s.hrw := rfl
@[simp] theorem State.setCtr_red (s : State) (st c : Nat) (v : BitVec 24) : (s.setCtr st c v).red = s.red := rfl
@[simp] theorem State.setCtr_ports (s : State) (st c : Nat) (v : BitVec 24) : (s.setCtr st c v).ports = s.ports := rfl
@[simp] theorem State.setCtr_mems (s : State) (st c : Nat) (v : BitVec 24) : (s.setCtr st c v).mems = s.mems := rfl
@[simp] theorem State.setCtr_sess (s : State) (st c : Nat) (v : BitVec 24) : (s.setCtr st c v).sess = s.sess := rfl
@[simp] theorem State.setCtr_opens (s : State) (st c : Nat) (v : BitVec 24) : (s.setCtr st c v).opens = s.opens := rfl
@[simp] theorem State.setCtr_job (s : State) (st c : Nat) (v : BitVec 24) : (s.setCtr st c v).job = s.job := rfl
@[simp] theorem State.setCtr_rcv (s : State) (st c : Nat) (v : BitVec 24) : (s.setCtr st c v).rcv = s.rcv := rfl
@[simp] theorem State.setCtr_hist (s : State) (st c : Nat) (v : BitVec 24) : (s.setCtr st c v).hist = s.hist := rfl
@[simp] theorem State.setCtr_pow (s : State) (st c : Nat) (v : BitVec 24) : (s.setCtr st c v).pow = s.pow := rfl
@[simp] theorem State.setCtr_sent (s : State) (st c : Nat) (v : BitVec 24) : (s.setCtr st c v).sent = s.sent := rfl
@[simp] theorem State.setCtr_draws (s : State) (st c : Nat) (v : BitVec 24) : (s.setCtr st c v).draws = s.draws := rfl
@[simp] theorem State.setCtr_pending (s : State) (st c : Nat) (v : BitVec 24) : (s.setCtr st c v).pending = s.pending := rfl

-- State.setFifo
@[simp] theorem State.setFifo_csr (s : State) (st k : Nat) (l : List Post) : (s.setFifo st k l).csr = s.csr := rfl
@[simp] theorem State.setFifo_firsts (s : State) (st k : Nat) (l : List Post) : (s.setFifo st k l).firsts = s.firsts := rfl
@[simp] theorem State.setFifo_mem (s : State) (st k : Nat) (l : List Post) : (s.setFifo st k l).mem = s.mem := rfl
@[simp] theorem State.setFifo_flips (s : State) (st k : Nat) (l : List Post) : (s.setFifo st k l).flips = s.flips := rfl
@[simp] theorem State.setFifo_lost (s : State) (st k : Nat) (l : List Post) : (s.setFifo st k l).lost = s.lost := rfl
@[simp] theorem State.setFifo_clc (s : State) (st k : Nat) (l : List Post) : (s.setFifo st k l).clc = s.clc := rfl
@[simp] theorem State.setFifo_wbq (s : State) (st k : Nat) (l : List Post) : (s.setFifo st k l).wbq = s.wbq := rfl
@[simp] theorem State.setFifo_sramPos (s : State) (st k : Nat) (l : List Post) : (s.setFifo st k l).sramPos = s.sramPos := rfl
@[simp] theorem State.setFifo_pins (s : State) (st k : Nat) (l : List Post) : (s.setFifo st k l).pins = s.pins := rfl
@[simp] theorem State.setFifo_stile (s : State) (st k : Nat) (l : List Post) : (s.setFifo st k l).stile = s.stile := rfl
@[simp] theorem State.setFifo_block (s : State) (st k : Nat) (l : List Post) : (s.setFifo st k l).block = s.block := rfl
@[simp] theorem State.setFifo_chResets (s : State) (st k : Nat) (l : List Post) : (s.setFifo st k l).chResets = s.chResets := rfl
@[simp] theorem State.setFifo_furCount (s : State) (st k : Nat) (l : List Post) : (s.setFifo st k l).furCount = s.furCount := rfl
@[simp] theorem State.setFifo_fur (s : State) (st k : Nat) (l : List Post) : (s.setFifo st k l).fur = s.fur := rfl
@[simp] theorem State.setFifo_engines (s : State) (st k : Nat) (l : List Post) : (s.setFifo st k l).engines = s.engines := rfl
@[simp] theorem State.setFifo_thr (s : State) (st k : Nat) (l : List Post) : (s.setFifo st k l).thr = s.thr := rfl
@[simp] theorem State.setFifo_stk (s : State) (st k : Nat) (l : List Post) : (s.setFifo st k l).stk = s.stk := rfl
@[simp] theorem State.setFifo_waiters (s : State) (st k : Nat) (l : List Post) : (s.setFifo st k l).waiters = s.waiters := rfl
@[simp] theorem State.setFifo_fires (s : State) (st k : Nat) (l : List Post) : (s.setFifo st k l).fires = s.fires := rfl
@[simp] theorem State.setFifo_icache (s : State) (st k : Nat) (l : List Post) : (s.setFifo st k l).icache = s.icache := rfl
@[simp] theorem State.setFifo_hclk (s : State) (st k : Nat) (l : List Post) : (s.setFifo st k l).hclk = s.hclk := rfl
@[simp] theorem State.setFifo_tokens (s : State) (st k : Nat) (l : List Post) : (s.setFifo st k l).tokens = s.tokens := rfl
@[simp] theorem State.setFifo_stkEpoch (s : State) (st k : Nat) (l : List Post) : (s.setFifo st k l).stkEpoch = s.stkEpoch := rfl
@[simp] theorem State.setFifo_stkEpochAt (s : State) (st k : Nat) (l : List Post) : (s.setFifo st k l).stkEpochAt = s.stkEpochAt := rfl
@[simp] theorem State.setFifo_win (s : State) (st k : Nat) (l : List Post) : (s.setFifo st k l).win = s.win := rfl
@[simp] theorem State.setFifo_til (s : State) (st k : Nat) (l : List Post) : (s.setFifo st k l).til = s.til := rfl
@[simp] theorem State.setFifo_drl (s : State) (st k : Nat) (l : List Post) : (s.setFifo st k l).drl = s.drl := rfl
@[simp] theorem State.setFifo_gln (s : State) (st k : Nat) (l : List Post) : (s.setFifo st k l).gln = s.gln := rfl
@[simp] theorem State.setFifo_shf (s : State) (st k : Nat) (l : List Post) : (s.setFifo st k l).shf = s.shf := rfl
@[simp] theorem State.setFifo_hrw (s : State) (st k : Nat) (l : List Post) : (s.setFifo st k l).hrw = s.hrw := rfl
@[simp] theorem State.setFifo_red (s : State) (st k : Nat) (l : List Post) : (s.setFifo st k l).red = s.red := rfl
@[simp] theorem State.setFifo_ports (s : State) (st k : Nat) (l : List Post) : (s.setFifo st k l).ports = s.ports := rfl
@[simp] theorem State.setFifo_mems (s : State) (st k : Nat) (l : List Post) : (s.setFifo st k l).mems = s.mems := rfl
@[simp] theorem State.setFifo_sess (s : State) (st k : Nat) (l : List Post) : (s.setFifo st k l).sess = s.sess := rfl
@[simp] theorem State.setFifo_opens (s : State) (st k : Nat) (l : List Post) : (s.setFifo st k l).opens = s.opens := rfl
@[simp] theorem State.setFifo_job (s : State) (st k : Nat) (l : List Post) : (s.setFifo st k l).job = s.job := rfl
@[simp] theorem State.setFifo_rcv (s : State) (st k : Nat) (l : List Post) : (s.setFifo st k l).rcv = s.rcv := rfl
@[simp] theorem State.setFifo_hist (s : State) (st k : Nat) (l : List Post) : (s.setFifo st k l).hist = s.hist := rfl
@[simp] theorem State.setFifo_pow (s : State) (st k : Nat) (l : List Post) : (s.setFifo st k l).pow = s.pow := rfl
@[simp] theorem State.setFifo_sent (s : State) (st k : Nat) (l : List Post) : (s.setFifo st k l).sent = s.sent := rfl
@[simp] theorem State.setFifo_draws (s : State) (st k : Nat) (l : List Post) : (s.setFifo st k l).draws = s.draws := rfl
@[simp] theorem State.setFifo_pending (s : State) (st k : Nat) (l : List Post) : (s.setFifo st k l).pending = s.pending := rfl

-- State.poke
@[simp] theorem State.poke_csr (s : State) (a : Nat) (bs : List Byte) : (s.poke a bs).csr = s.csr := rfl
@[simp] theorem State.poke_firsts (s : State) (a : Nat) (bs : List Byte) : (s.poke a bs).firsts = s.firsts := rfl
@[simp] theorem State.poke_flips (s : State) (a : Nat) (bs : List Byte) : (s.poke a bs).flips = s.flips := rfl
@[simp] theorem State.poke_lost (s : State) (a : Nat) (bs : List Byte) : (s.poke a bs).lost = s.lost := rfl
@[simp] theorem State.poke_clc (s : State) (a : Nat) (bs : List Byte) : (s.poke a bs).clc = s.clc := rfl
@[simp] theorem State.poke_wbq (s : State) (a : Nat) (bs : List Byte) : (s.poke a bs).wbq = s.wbq := rfl
@[simp] theorem State.poke_sramPos (s : State) (a : Nat) (bs : List Byte) : (s.poke a bs).sramPos = s.sramPos := rfl
@[simp] theorem State.poke_pins (s : State) (a : Nat) (bs : List Byte) : (s.poke a bs).pins = s.pins := rfl
@[simp] theorem State.poke_stile (s : State) (a : Nat) (bs : List Byte) : (s.poke a bs).stile = s.stile := rfl
@[simp] theorem State.poke_block (s : State) (a : Nat) (bs : List Byte) : (s.poke a bs).block = s.block := rfl
@[simp] theorem State.poke_chResets (s : State) (a : Nat) (bs : List Byte) : (s.poke a bs).chResets = s.chResets := rfl
@[simp] theorem State.poke_furCount (s : State) (a : Nat) (bs : List Byte) : (s.poke a bs).furCount = s.furCount := rfl
@[simp] theorem State.poke_fur (s : State) (a : Nat) (bs : List Byte) : (s.poke a bs).fur = s.fur := rfl
@[simp] theorem State.poke_engines (s : State) (a : Nat) (bs : List Byte) : (s.poke a bs).engines = s.engines := rfl
@[simp] theorem State.poke_fifos (s : State) (a : Nat) (bs : List Byte) : (s.poke a bs).fifos = s.fifos := rfl
@[simp] theorem State.poke_thr (s : State) (a : Nat) (bs : List Byte) : (s.poke a bs).thr = s.thr := rfl
@[simp] theorem State.poke_stk (s : State) (a : Nat) (bs : List Byte) : (s.poke a bs).stk = s.stk := rfl
@[simp] theorem State.poke_waiters (s : State) (a : Nat) (bs : List Byte) : (s.poke a bs).waiters = s.waiters := rfl
@[simp] theorem State.poke_fires (s : State) (a : Nat) (bs : List Byte) : (s.poke a bs).fires = s.fires := rfl
@[simp] theorem State.poke_icache (s : State) (a : Nat) (bs : List Byte) : (s.poke a bs).icache = s.icache := rfl
@[simp] theorem State.poke_hclk (s : State) (a : Nat) (bs : List Byte) : (s.poke a bs).hclk = s.hclk := rfl
@[simp] theorem State.poke_tokens (s : State) (a : Nat) (bs : List Byte) : (s.poke a bs).tokens = s.tokens := rfl
@[simp] theorem State.poke_stkEpoch (s : State) (a : Nat) (bs : List Byte) : (s.poke a bs).stkEpoch = s.stkEpoch := rfl
@[simp] theorem State.poke_stkEpochAt (s : State) (a : Nat) (bs : List Byte) : (s.poke a bs).stkEpochAt = s.stkEpochAt := rfl
@[simp] theorem State.poke_win (s : State) (a : Nat) (bs : List Byte) : (s.poke a bs).win = s.win := rfl
@[simp] theorem State.poke_til (s : State) (a : Nat) (bs : List Byte) : (s.poke a bs).til = s.til := rfl
@[simp] theorem State.poke_drl (s : State) (a : Nat) (bs : List Byte) : (s.poke a bs).drl = s.drl := rfl
@[simp] theorem State.poke_gln (s : State) (a : Nat) (bs : List Byte) : (s.poke a bs).gln = s.gln := rfl
@[simp] theorem State.poke_shf (s : State) (a : Nat) (bs : List Byte) : (s.poke a bs).shf = s.shf := rfl
@[simp] theorem State.poke_hrw (s : State) (a : Nat) (bs : List Byte) : (s.poke a bs).hrw = s.hrw := rfl
@[simp] theorem State.poke_red (s : State) (a : Nat) (bs : List Byte) : (s.poke a bs).red = s.red := rfl
@[simp] theorem State.poke_ports (s : State) (a : Nat) (bs : List Byte) : (s.poke a bs).ports = s.ports := rfl
@[simp] theorem State.poke_mems (s : State) (a : Nat) (bs : List Byte) : (s.poke a bs).mems = s.mems := rfl
@[simp] theorem State.poke_sess (s : State) (a : Nat) (bs : List Byte) : (s.poke a bs).sess = s.sess := rfl
@[simp] theorem State.poke_opens (s : State) (a : Nat) (bs : List Byte) : (s.poke a bs).opens = s.opens := rfl
@[simp] theorem State.poke_job (s : State) (a : Nat) (bs : List Byte) : (s.poke a bs).job = s.job := rfl
@[simp] theorem State.poke_rcv (s : State) (a : Nat) (bs : List Byte) : (s.poke a bs).rcv = s.rcv := rfl
@[simp] theorem State.poke_hist (s : State) (a : Nat) (bs : List Byte) : (s.poke a bs).hist = s.hist := rfl
@[simp] theorem State.poke_pow (s : State) (a : Nat) (bs : List Byte) : (s.poke a bs).pow = s.pow := rfl
@[simp] theorem State.poke_sent (s : State) (a : Nat) (bs : List Byte) : (s.poke a bs).sent = s.sent := rfl
@[simp] theorem State.poke_draws (s : State) (a : Nat) (bs : List Byte) : (s.poke a bs).draws = s.draws := rfl
@[simp] theorem State.poke_pending (s : State) (a : Nat) (bs : List Byte) : (s.poke a bs).pending = s.pending := rfl

-- State.cleanLines
@[simp] theorem State.cleanLines_csr (s : State) (a n : Nat) : (s.cleanLines a n).csr = s.csr := rfl
@[simp] theorem State.cleanLines_firsts (s : State) (a n : Nat) : (s.cleanLines a n).firsts = s.firsts := rfl
@[simp] theorem State.cleanLines_mem (s : State) (a n : Nat) : (s.cleanLines a n).mem = s.mem := rfl
@[simp] theorem State.cleanLines_lost (s : State) (a n : Nat) : (s.cleanLines a n).lost = s.lost := rfl
@[simp] theorem State.cleanLines_clc (s : State) (a n : Nat) : (s.cleanLines a n).clc = s.clc := rfl
@[simp] theorem State.cleanLines_wbq (s : State) (a n : Nat) : (s.cleanLines a n).wbq = s.wbq := rfl
@[simp] theorem State.cleanLines_sramPos (s : State) (a n : Nat) : (s.cleanLines a n).sramPos = s.sramPos := rfl
@[simp] theorem State.cleanLines_pins (s : State) (a n : Nat) : (s.cleanLines a n).pins = s.pins := rfl
@[simp] theorem State.cleanLines_stile (s : State) (a n : Nat) : (s.cleanLines a n).stile = s.stile := rfl
@[simp] theorem State.cleanLines_block (s : State) (a n : Nat) : (s.cleanLines a n).block = s.block := rfl
@[simp] theorem State.cleanLines_chResets (s : State) (a n : Nat) : (s.cleanLines a n).chResets = s.chResets := rfl
@[simp] theorem State.cleanLines_furCount (s : State) (a n : Nat) : (s.cleanLines a n).furCount = s.furCount := rfl
@[simp] theorem State.cleanLines_fur (s : State) (a n : Nat) : (s.cleanLines a n).fur = s.fur := rfl
@[simp] theorem State.cleanLines_engines (s : State) (a n : Nat) : (s.cleanLines a n).engines = s.engines := rfl
@[simp] theorem State.cleanLines_fifos (s : State) (a n : Nat) : (s.cleanLines a n).fifos = s.fifos := rfl
@[simp] theorem State.cleanLines_thr (s : State) (a n : Nat) : (s.cleanLines a n).thr = s.thr := rfl
@[simp] theorem State.cleanLines_stk (s : State) (a n : Nat) : (s.cleanLines a n).stk = s.stk := rfl
@[simp] theorem State.cleanLines_waiters (s : State) (a n : Nat) : (s.cleanLines a n).waiters = s.waiters := rfl
@[simp] theorem State.cleanLines_fires (s : State) (a n : Nat) : (s.cleanLines a n).fires = s.fires := rfl
@[simp] theorem State.cleanLines_icache (s : State) (a n : Nat) : (s.cleanLines a n).icache = s.icache := rfl
@[simp] theorem State.cleanLines_hclk (s : State) (a n : Nat) : (s.cleanLines a n).hclk = s.hclk := rfl
@[simp] theorem State.cleanLines_tokens (s : State) (a n : Nat) : (s.cleanLines a n).tokens = s.tokens := rfl
@[simp] theorem State.cleanLines_stkEpoch (s : State) (a n : Nat) : (s.cleanLines a n).stkEpoch = s.stkEpoch := rfl
@[simp] theorem State.cleanLines_stkEpochAt (s : State) (a n : Nat) : (s.cleanLines a n).stkEpochAt = s.stkEpochAt := rfl
@[simp] theorem State.cleanLines_win (s : State) (a n : Nat) : (s.cleanLines a n).win = s.win := rfl
@[simp] theorem State.cleanLines_til (s : State) (a n : Nat) : (s.cleanLines a n).til = s.til := rfl
@[simp] theorem State.cleanLines_drl (s : State) (a n : Nat) : (s.cleanLines a n).drl = s.drl := rfl
@[simp] theorem State.cleanLines_gln (s : State) (a n : Nat) : (s.cleanLines a n).gln = s.gln := rfl
@[simp] theorem State.cleanLines_shf (s : State) (a n : Nat) : (s.cleanLines a n).shf = s.shf := rfl
@[simp] theorem State.cleanLines_hrw (s : State) (a n : Nat) : (s.cleanLines a n).hrw = s.hrw := rfl
@[simp] theorem State.cleanLines_red (s : State) (a n : Nat) : (s.cleanLines a n).red = s.red := rfl
@[simp] theorem State.cleanLines_ports (s : State) (a n : Nat) : (s.cleanLines a n).ports = s.ports := rfl
@[simp] theorem State.cleanLines_mems (s : State) (a n : Nat) : (s.cleanLines a n).mems = s.mems := rfl
@[simp] theorem State.cleanLines_sess (s : State) (a n : Nat) : (s.cleanLines a n).sess = s.sess := rfl
@[simp] theorem State.cleanLines_opens (s : State) (a n : Nat) : (s.cleanLines a n).opens = s.opens := rfl
@[simp] theorem State.cleanLines_job (s : State) (a n : Nat) : (s.cleanLines a n).job = s.job := rfl
@[simp] theorem State.cleanLines_rcv (s : State) (a n : Nat) : (s.cleanLines a n).rcv = s.rcv := rfl
@[simp] theorem State.cleanLines_hist (s : State) (a n : Nat) : (s.cleanLines a n).hist = s.hist := rfl
@[simp] theorem State.cleanLines_pow (s : State) (a n : Nat) : (s.cleanLines a n).pow = s.pow := rfl
@[simp] theorem State.cleanLines_sent (s : State) (a n : Nat) : (s.cleanLines a n).sent = s.sent := rfl
@[simp] theorem State.cleanLines_draws (s : State) (a n : Nat) : (s.cleanLines a n).draws = s.draws := rfl
@[simp] theorem State.cleanLines_pending (s : State) (a n : Nat) : (s.cleanLines a n).pending = s.pending := rfl

-- State.staleBacks
@[simp] theorem State.staleBacks_csr (s : State) (a n : Nat) : (s.staleBacks a n).csr = s.csr := rfl
@[simp] theorem State.staleBacks_firsts (s : State) (a n : Nat) : (s.staleBacks a n).firsts = s.firsts := rfl
@[simp] theorem State.staleBacks_mem (s : State) (a n : Nat) : (s.staleBacks a n).mem = s.mem := rfl
@[simp] theorem State.staleBacks_flips (s : State) (a n : Nat) : (s.staleBacks a n).flips = s.flips := rfl
@[simp] theorem State.staleBacks_lost (s : State) (a n : Nat) : (s.staleBacks a n).lost = s.lost := rfl
@[simp] theorem State.staleBacks_clc (s : State) (a n : Nat) : (s.staleBacks a n).clc = s.clc := rfl
@[simp] theorem State.staleBacks_sramPos (s : State) (a n : Nat) : (s.staleBacks a n).sramPos = s.sramPos := rfl
@[simp] theorem State.staleBacks_pins (s : State) (a n : Nat) : (s.staleBacks a n).pins = s.pins := rfl
@[simp] theorem State.staleBacks_stile (s : State) (a n : Nat) : (s.staleBacks a n).stile = s.stile := rfl
@[simp] theorem State.staleBacks_block (s : State) (a n : Nat) : (s.staleBacks a n).block = s.block := rfl
@[simp] theorem State.staleBacks_chResets (s : State) (a n : Nat) : (s.staleBacks a n).chResets = s.chResets := rfl
@[simp] theorem State.staleBacks_furCount (s : State) (a n : Nat) : (s.staleBacks a n).furCount = s.furCount := rfl
@[simp] theorem State.staleBacks_fur (s : State) (a n : Nat) : (s.staleBacks a n).fur = s.fur := rfl
@[simp] theorem State.staleBacks_engines (s : State) (a n : Nat) : (s.staleBacks a n).engines = s.engines := rfl
@[simp] theorem State.staleBacks_fifos (s : State) (a n : Nat) : (s.staleBacks a n).fifos = s.fifos := rfl
@[simp] theorem State.staleBacks_thr (s : State) (a n : Nat) : (s.staleBacks a n).thr = s.thr := rfl
@[simp] theorem State.staleBacks_stk (s : State) (a n : Nat) : (s.staleBacks a n).stk = s.stk := rfl
@[simp] theorem State.staleBacks_waiters (s : State) (a n : Nat) : (s.staleBacks a n).waiters = s.waiters := rfl
@[simp] theorem State.staleBacks_fires (s : State) (a n : Nat) : (s.staleBacks a n).fires = s.fires := rfl
@[simp] theorem State.staleBacks_icache (s : State) (a n : Nat) : (s.staleBacks a n).icache = s.icache := rfl
@[simp] theorem State.staleBacks_hclk (s : State) (a n : Nat) : (s.staleBacks a n).hclk = s.hclk := rfl
@[simp] theorem State.staleBacks_tokens (s : State) (a n : Nat) : (s.staleBacks a n).tokens = s.tokens := rfl
@[simp] theorem State.staleBacks_stkEpoch (s : State) (a n : Nat) : (s.staleBacks a n).stkEpoch = s.stkEpoch := rfl
@[simp] theorem State.staleBacks_stkEpochAt (s : State) (a n : Nat) : (s.staleBacks a n).stkEpochAt = s.stkEpochAt := rfl
@[simp] theorem State.staleBacks_win (s : State) (a n : Nat) : (s.staleBacks a n).win = s.win := rfl
@[simp] theorem State.staleBacks_til (s : State) (a n : Nat) : (s.staleBacks a n).til = s.til := rfl
@[simp] theorem State.staleBacks_drl (s : State) (a n : Nat) : (s.staleBacks a n).drl = s.drl := rfl
@[simp] theorem State.staleBacks_gln (s : State) (a n : Nat) : (s.staleBacks a n).gln = s.gln := rfl
@[simp] theorem State.staleBacks_shf (s : State) (a n : Nat) : (s.staleBacks a n).shf = s.shf := rfl
@[simp] theorem State.staleBacks_hrw (s : State) (a n : Nat) : (s.staleBacks a n).hrw = s.hrw := rfl
@[simp] theorem State.staleBacks_red (s : State) (a n : Nat) : (s.staleBacks a n).red = s.red := rfl
@[simp] theorem State.staleBacks_ports (s : State) (a n : Nat) : (s.staleBacks a n).ports = s.ports := rfl
@[simp] theorem State.staleBacks_mems (s : State) (a n : Nat) : (s.staleBacks a n).mems = s.mems := rfl
@[simp] theorem State.staleBacks_sess (s : State) (a n : Nat) : (s.staleBacks a n).sess = s.sess := rfl
@[simp] theorem State.staleBacks_opens (s : State) (a n : Nat) : (s.staleBacks a n).opens = s.opens := rfl
@[simp] theorem State.staleBacks_job (s : State) (a n : Nat) : (s.staleBacks a n).job = s.job := rfl
@[simp] theorem State.staleBacks_rcv (s : State) (a n : Nat) : (s.staleBacks a n).rcv = s.rcv := rfl
@[simp] theorem State.staleBacks_hist (s : State) (a n : Nat) : (s.staleBacks a n).hist = s.hist := rfl
@[simp] theorem State.staleBacks_pow (s : State) (a n : Nat) : (s.staleBacks a n).pow = s.pow := rfl
@[simp] theorem State.staleBacks_sent (s : State) (a n : Nat) : (s.staleBacks a n).sent = s.sent := rfl
@[simp] theorem State.staleBacks_draws (s : State) (a n : Nat) : (s.staleBacks a n).draws = s.draws := rfl
@[simp] theorem State.staleBacks_pending (s : State) (a n : Nat) : (s.staleBacks a n).pending = s.pending := rfl

-- State.draw
@[simp] theorem State.draw_csr (s : State) : (s.draw).csr = s.csr := rfl
@[simp] theorem State.draw_firsts (s : State) : (s.draw).firsts = s.firsts := rfl
@[simp] theorem State.draw_mem (s : State) : (s.draw).mem = s.mem := rfl
@[simp] theorem State.draw_flips (s : State) : (s.draw).flips = s.flips := rfl
@[simp] theorem State.draw_lost (s : State) : (s.draw).lost = s.lost := rfl
@[simp] theorem State.draw_clc (s : State) : (s.draw).clc = s.clc := rfl
@[simp] theorem State.draw_wbq (s : State) : (s.draw).wbq = s.wbq := rfl
@[simp] theorem State.draw_sramPos (s : State) : (s.draw).sramPos = s.sramPos := rfl
@[simp] theorem State.draw_pins (s : State) : (s.draw).pins = s.pins := rfl
@[simp] theorem State.draw_stile (s : State) : (s.draw).stile = s.stile := rfl
@[simp] theorem State.draw_block (s : State) : (s.draw).block = s.block := rfl
@[simp] theorem State.draw_chResets (s : State) : (s.draw).chResets = s.chResets := rfl
@[simp] theorem State.draw_furCount (s : State) : (s.draw).furCount = s.furCount := rfl
@[simp] theorem State.draw_fur (s : State) : (s.draw).fur = s.fur := rfl
@[simp] theorem State.draw_engines (s : State) : (s.draw).engines = s.engines := rfl
@[simp] theorem State.draw_fifos (s : State) : (s.draw).fifos = s.fifos := rfl
@[simp] theorem State.draw_thr (s : State) : (s.draw).thr = s.thr := rfl
@[simp] theorem State.draw_stk (s : State) : (s.draw).stk = s.stk := rfl
@[simp] theorem State.draw_waiters (s : State) : (s.draw).waiters = s.waiters := rfl
@[simp] theorem State.draw_fires (s : State) : (s.draw).fires = s.fires := rfl
@[simp] theorem State.draw_icache (s : State) : (s.draw).icache = s.icache := rfl
@[simp] theorem State.draw_hclk (s : State) : (s.draw).hclk = s.hclk := rfl
@[simp] theorem State.draw_tokens (s : State) : (s.draw).tokens = s.tokens := rfl
@[simp] theorem State.draw_stkEpoch (s : State) : (s.draw).stkEpoch = s.stkEpoch := rfl
@[simp] theorem State.draw_stkEpochAt (s : State) : (s.draw).stkEpochAt = s.stkEpochAt := rfl
@[simp] theorem State.draw_win (s : State) : (s.draw).win = s.win := rfl
@[simp] theorem State.draw_til (s : State) : (s.draw).til = s.til := rfl
@[simp] theorem State.draw_drl (s : State) : (s.draw).drl = s.drl := rfl
@[simp] theorem State.draw_gln (s : State) : (s.draw).gln = s.gln := rfl
@[simp] theorem State.draw_shf (s : State) : (s.draw).shf = s.shf := rfl
@[simp] theorem State.draw_hrw (s : State) : (s.draw).hrw = s.hrw := rfl
@[simp] theorem State.draw_red (s : State) : (s.draw).red = s.red := rfl
@[simp] theorem State.draw_ports (s : State) : (s.draw).ports = s.ports := rfl
@[simp] theorem State.draw_mems (s : State) : (s.draw).mems = s.mems := rfl
@[simp] theorem State.draw_sess (s : State) : (s.draw).sess = s.sess := rfl
@[simp] theorem State.draw_opens (s : State) : (s.draw).opens = s.opens := rfl
@[simp] theorem State.draw_job (s : State) : (s.draw).job = s.job := rfl
@[simp] theorem State.draw_rcv (s : State) : (s.draw).rcv = s.rcv := rfl
@[simp] theorem State.draw_hist (s : State) : (s.draw).hist = s.hist := rfl
@[simp] theorem State.draw_pow (s : State) : (s.draw).pow = s.pow := rfl
@[simp] theorem State.draw_sent (s : State) : (s.draw).sent = s.sent := rfl
@[simp] theorem State.draw_pending (s : State) : (s.draw).pending = s.pending := rfl

-- State.clcAccess
@[simp] theorem State.clcAccess_csr (s : State) (dirty : Bool) (a n : Nat) : (s.clcAccess dirty a n).csr = s.csr := by unfold State.clcAccess; split <;> rfl
@[simp] theorem State.clcAccess_firsts (s : State) (dirty : Bool) (a n : Nat) : (s.clcAccess dirty a n).firsts = s.firsts := by unfold State.clcAccess; split <;> rfl
@[simp] theorem State.clcAccess_mem (s : State) (dirty : Bool) (a n : Nat) : (s.clcAccess dirty a n).mem = s.mem := by unfold State.clcAccess; split <;> rfl
@[simp] theorem State.clcAccess_flips (s : State) (dirty : Bool) (a n : Nat) : (s.clcAccess dirty a n).flips = s.flips := by unfold State.clcAccess; split <;> rfl
@[simp] theorem State.clcAccess_lost (s : State) (dirty : Bool) (a n : Nat) : (s.clcAccess dirty a n).lost = s.lost := by unfold State.clcAccess; split <;> rfl
@[simp] theorem State.clcAccess_wbq (s : State) (dirty : Bool) (a n : Nat) : (s.clcAccess dirty a n).wbq = s.wbq := by unfold State.clcAccess; split <;> rfl
@[simp] theorem State.clcAccess_sramPos (s : State) (dirty : Bool) (a n : Nat) : (s.clcAccess dirty a n).sramPos = s.sramPos := by unfold State.clcAccess; split <;> rfl
@[simp] theorem State.clcAccess_pins (s : State) (dirty : Bool) (a n : Nat) : (s.clcAccess dirty a n).pins = s.pins := by unfold State.clcAccess; split <;> rfl
@[simp] theorem State.clcAccess_stile (s : State) (dirty : Bool) (a n : Nat) : (s.clcAccess dirty a n).stile = s.stile := by unfold State.clcAccess; split <;> rfl
@[simp] theorem State.clcAccess_block (s : State) (dirty : Bool) (a n : Nat) : (s.clcAccess dirty a n).block = s.block := by unfold State.clcAccess; split <;> rfl
@[simp] theorem State.clcAccess_chResets (s : State) (dirty : Bool) (a n : Nat) : (s.clcAccess dirty a n).chResets = s.chResets := by unfold State.clcAccess; split <;> rfl
@[simp] theorem State.clcAccess_furCount (s : State) (dirty : Bool) (a n : Nat) : (s.clcAccess dirty a n).furCount = s.furCount := by unfold State.clcAccess; split <;> rfl
@[simp] theorem State.clcAccess_fur (s : State) (dirty : Bool) (a n : Nat) : (s.clcAccess dirty a n).fur = s.fur := by unfold State.clcAccess; split <;> rfl
@[simp] theorem State.clcAccess_engines (s : State) (dirty : Bool) (a n : Nat) : (s.clcAccess dirty a n).engines = s.engines := by unfold State.clcAccess; split <;> rfl
@[simp] theorem State.clcAccess_fifos (s : State) (dirty : Bool) (a n : Nat) : (s.clcAccess dirty a n).fifos = s.fifos := by unfold State.clcAccess; split <;> rfl
@[simp] theorem State.clcAccess_thr (s : State) (dirty : Bool) (a n : Nat) : (s.clcAccess dirty a n).thr = s.thr := by unfold State.clcAccess; split <;> rfl
@[simp] theorem State.clcAccess_stk (s : State) (dirty : Bool) (a n : Nat) : (s.clcAccess dirty a n).stk = s.stk := by unfold State.clcAccess; split <;> rfl
@[simp] theorem State.clcAccess_waiters (s : State) (dirty : Bool) (a n : Nat) : (s.clcAccess dirty a n).waiters = s.waiters := by unfold State.clcAccess; split <;> rfl
@[simp] theorem State.clcAccess_fires (s : State) (dirty : Bool) (a n : Nat) : (s.clcAccess dirty a n).fires = s.fires := by unfold State.clcAccess; split <;> rfl
@[simp] theorem State.clcAccess_icache (s : State) (dirty : Bool) (a n : Nat) : (s.clcAccess dirty a n).icache = s.icache := by unfold State.clcAccess; split <;> rfl
@[simp] theorem State.clcAccess_hclk (s : State) (dirty : Bool) (a n : Nat) : (s.clcAccess dirty a n).hclk = s.hclk := by unfold State.clcAccess; split <;> rfl
@[simp] theorem State.clcAccess_tokens (s : State) (dirty : Bool) (a n : Nat) : (s.clcAccess dirty a n).tokens = s.tokens := by unfold State.clcAccess; split <;> rfl
@[simp] theorem State.clcAccess_stkEpoch (s : State) (dirty : Bool) (a n : Nat) : (s.clcAccess dirty a n).stkEpoch = s.stkEpoch := by unfold State.clcAccess; split <;> rfl
@[simp] theorem State.clcAccess_stkEpochAt (s : State) (dirty : Bool) (a n : Nat) : (s.clcAccess dirty a n).stkEpochAt = s.stkEpochAt := by unfold State.clcAccess; split <;> rfl
@[simp] theorem State.clcAccess_win (s : State) (dirty : Bool) (a n : Nat) : (s.clcAccess dirty a n).win = s.win := by unfold State.clcAccess; split <;> rfl
@[simp] theorem State.clcAccess_til (s : State) (dirty : Bool) (a n : Nat) : (s.clcAccess dirty a n).til = s.til := by unfold State.clcAccess; split <;> rfl
@[simp] theorem State.clcAccess_drl (s : State) (dirty : Bool) (a n : Nat) : (s.clcAccess dirty a n).drl = s.drl := by unfold State.clcAccess; split <;> rfl
@[simp] theorem State.clcAccess_gln (s : State) (dirty : Bool) (a n : Nat) : (s.clcAccess dirty a n).gln = s.gln := by unfold State.clcAccess; split <;> rfl
@[simp] theorem State.clcAccess_shf (s : State) (dirty : Bool) (a n : Nat) : (s.clcAccess dirty a n).shf = s.shf := by unfold State.clcAccess; split <;> rfl
@[simp] theorem State.clcAccess_hrw (s : State) (dirty : Bool) (a n : Nat) : (s.clcAccess dirty a n).hrw = s.hrw := by unfold State.clcAccess; split <;> rfl
@[simp] theorem State.clcAccess_red (s : State) (dirty : Bool) (a n : Nat) : (s.clcAccess dirty a n).red = s.red := by unfold State.clcAccess; split <;> rfl
@[simp] theorem State.clcAccess_ports (s : State) (dirty : Bool) (a n : Nat) : (s.clcAccess dirty a n).ports = s.ports := by unfold State.clcAccess; split <;> rfl
@[simp] theorem State.clcAccess_mems (s : State) (dirty : Bool) (a n : Nat) : (s.clcAccess dirty a n).mems = s.mems := by unfold State.clcAccess; split <;> rfl
@[simp] theorem State.clcAccess_sess (s : State) (dirty : Bool) (a n : Nat) : (s.clcAccess dirty a n).sess = s.sess := by unfold State.clcAccess; split <;> rfl
@[simp] theorem State.clcAccess_opens (s : State) (dirty : Bool) (a n : Nat) : (s.clcAccess dirty a n).opens = s.opens := by unfold State.clcAccess; split <;> rfl
@[simp] theorem State.clcAccess_job (s : State) (dirty : Bool) (a n : Nat) : (s.clcAccess dirty a n).job = s.job := by unfold State.clcAccess; split <;> rfl
@[simp] theorem State.clcAccess_rcv (s : State) (dirty : Bool) (a n : Nat) : (s.clcAccess dirty a n).rcv = s.rcv := by unfold State.clcAccess; split <;> rfl
@[simp] theorem State.clcAccess_hist (s : State) (dirty : Bool) (a n : Nat) : (s.clcAccess dirty a n).hist = s.hist := by unfold State.clcAccess; split <;> rfl
@[simp] theorem State.clcAccess_pow (s : State) (dirty : Bool) (a n : Nat) : (s.clcAccess dirty a n).pow = s.pow := by unfold State.clcAccess; split <;> rfl
@[simp] theorem State.clcAccess_sent (s : State) (dirty : Bool) (a n : Nat) : (s.clcAccess dirty a n).sent = s.sent := by unfold State.clcAccess; split <;> rfl
@[simp] theorem State.clcAccess_draws (s : State) (dirty : Bool) (a n : Nat) : (s.clcAccess dirty a n).draws = s.draws := by unfold State.clcAccess; split <;> rfl
@[simp] theorem State.clcAccess_pending (s : State) (dirty : Bool) (a n : Nat) : (s.clcAccess dirty a n).pending = s.pending := by unfold State.clcAccess; split <;> rfl

-- State.clcFlush
@[simp] theorem State.clcFlush_csr (s : State) : (s.clcFlush).csr = s.csr := rfl
@[simp] theorem State.clcFlush_firsts (s : State) : (s.clcFlush).firsts = s.firsts := rfl
@[simp] theorem State.clcFlush_mem (s : State) : (s.clcFlush).mem = s.mem := rfl
@[simp] theorem State.clcFlush_flips (s : State) : (s.clcFlush).flips = s.flips := rfl
@[simp] theorem State.clcFlush_lost (s : State) : (s.clcFlush).lost = s.lost := rfl
@[simp] theorem State.clcFlush_wbq (s : State) : (s.clcFlush).wbq = s.wbq := rfl
@[simp] theorem State.clcFlush_sramPos (s : State) : (s.clcFlush).sramPos = s.sramPos := rfl
@[simp] theorem State.clcFlush_pins (s : State) : (s.clcFlush).pins = s.pins := rfl
@[simp] theorem State.clcFlush_stile (s : State) : (s.clcFlush).stile = s.stile := rfl
@[simp] theorem State.clcFlush_block (s : State) : (s.clcFlush).block = s.block := rfl
@[simp] theorem State.clcFlush_chResets (s : State) : (s.clcFlush).chResets = s.chResets := rfl
@[simp] theorem State.clcFlush_furCount (s : State) : (s.clcFlush).furCount = s.furCount := rfl
@[simp] theorem State.clcFlush_fur (s : State) : (s.clcFlush).fur = s.fur := rfl
@[simp] theorem State.clcFlush_engines (s : State) : (s.clcFlush).engines = s.engines := rfl
@[simp] theorem State.clcFlush_fifos (s : State) : (s.clcFlush).fifos = s.fifos := rfl
@[simp] theorem State.clcFlush_thr (s : State) : (s.clcFlush).thr = s.thr := rfl
@[simp] theorem State.clcFlush_stk (s : State) : (s.clcFlush).stk = s.stk := rfl
@[simp] theorem State.clcFlush_waiters (s : State) : (s.clcFlush).waiters = s.waiters := rfl
@[simp] theorem State.clcFlush_fires (s : State) : (s.clcFlush).fires = s.fires := rfl
@[simp] theorem State.clcFlush_icache (s : State) : (s.clcFlush).icache = s.icache := rfl
@[simp] theorem State.clcFlush_hclk (s : State) : (s.clcFlush).hclk = s.hclk := rfl
@[simp] theorem State.clcFlush_tokens (s : State) : (s.clcFlush).tokens = s.tokens := rfl
@[simp] theorem State.clcFlush_stkEpoch (s : State) : (s.clcFlush).stkEpoch = s.stkEpoch := rfl
@[simp] theorem State.clcFlush_stkEpochAt (s : State) : (s.clcFlush).stkEpochAt = s.stkEpochAt := rfl
@[simp] theorem State.clcFlush_win (s : State) : (s.clcFlush).win = s.win := rfl
@[simp] theorem State.clcFlush_til (s : State) : (s.clcFlush).til = s.til := rfl
@[simp] theorem State.clcFlush_drl (s : State) : (s.clcFlush).drl = s.drl := rfl
@[simp] theorem State.clcFlush_gln (s : State) : (s.clcFlush).gln = s.gln := rfl
@[simp] theorem State.clcFlush_shf (s : State) : (s.clcFlush).shf = s.shf := rfl
@[simp] theorem State.clcFlush_hrw (s : State) : (s.clcFlush).hrw = s.hrw := rfl
@[simp] theorem State.clcFlush_red (s : State) : (s.clcFlush).red = s.red := rfl
@[simp] theorem State.clcFlush_ports (s : State) : (s.clcFlush).ports = s.ports := rfl
@[simp] theorem State.clcFlush_mems (s : State) : (s.clcFlush).mems = s.mems := rfl
@[simp] theorem State.clcFlush_sess (s : State) : (s.clcFlush).sess = s.sess := rfl
@[simp] theorem State.clcFlush_opens (s : State) : (s.clcFlush).opens = s.opens := rfl
@[simp] theorem State.clcFlush_job (s : State) : (s.clcFlush).job = s.job := rfl
@[simp] theorem State.clcFlush_rcv (s : State) : (s.clcFlush).rcv = s.rcv := rfl
@[simp] theorem State.clcFlush_hist (s : State) : (s.clcFlush).hist = s.hist := rfl
@[simp] theorem State.clcFlush_pow (s : State) : (s.clcFlush).pow = s.pow := rfl
@[simp] theorem State.clcFlush_sent (s : State) : (s.clcFlush).sent = s.sent := rfl
@[simp] theorem State.clcFlush_draws (s : State) : (s.clcFlush).draws = s.draws := rfl
@[simp] theorem State.clcFlush_pending (s : State) : (s.clcFlush).pending = s.pending := rfl

-- State.clcFlushDie
@[simp] theorem State.clcFlushDie_csr (s : State) (die : Nat) : (s.clcFlushDie die).csr = s.csr := rfl
@[simp] theorem State.clcFlushDie_firsts (s : State) (die : Nat) : (s.clcFlushDie die).firsts = s.firsts := rfl
@[simp] theorem State.clcFlushDie_mem (s : State) (die : Nat) : (s.clcFlushDie die).mem = s.mem := rfl
@[simp] theorem State.clcFlushDie_flips (s : State) (die : Nat) : (s.clcFlushDie die).flips = s.flips := rfl
@[simp] theorem State.clcFlushDie_lost (s : State) (die : Nat) : (s.clcFlushDie die).lost = s.lost := rfl
@[simp] theorem State.clcFlushDie_wbq (s : State) (die : Nat) : (s.clcFlushDie die).wbq = s.wbq := rfl
@[simp] theorem State.clcFlushDie_sramPos (s : State) (die : Nat) : (s.clcFlushDie die).sramPos = s.sramPos := rfl
@[simp] theorem State.clcFlushDie_pins (s : State) (die : Nat) : (s.clcFlushDie die).pins = s.pins := rfl
@[simp] theorem State.clcFlushDie_stile (s : State) (die : Nat) : (s.clcFlushDie die).stile = s.stile := rfl
@[simp] theorem State.clcFlushDie_block (s : State) (die : Nat) : (s.clcFlushDie die).block = s.block := rfl
@[simp] theorem State.clcFlushDie_chResets (s : State) (die : Nat) : (s.clcFlushDie die).chResets = s.chResets := rfl
@[simp] theorem State.clcFlushDie_furCount (s : State) (die : Nat) : (s.clcFlushDie die).furCount = s.furCount := rfl
@[simp] theorem State.clcFlushDie_fur (s : State) (die : Nat) : (s.clcFlushDie die).fur = s.fur := rfl
@[simp] theorem State.clcFlushDie_engines (s : State) (die : Nat) : (s.clcFlushDie die).engines = s.engines := rfl
@[simp] theorem State.clcFlushDie_fifos (s : State) (die : Nat) : (s.clcFlushDie die).fifos = s.fifos := rfl
@[simp] theorem State.clcFlushDie_thr (s : State) (die : Nat) : (s.clcFlushDie die).thr = s.thr := rfl
@[simp] theorem State.clcFlushDie_stk (s : State) (die : Nat) : (s.clcFlushDie die).stk = s.stk := rfl
@[simp] theorem State.clcFlushDie_waiters (s : State) (die : Nat) : (s.clcFlushDie die).waiters = s.waiters := rfl
@[simp] theorem State.clcFlushDie_fires (s : State) (die : Nat) : (s.clcFlushDie die).fires = s.fires := rfl
@[simp] theorem State.clcFlushDie_icache (s : State) (die : Nat) : (s.clcFlushDie die).icache = s.icache := rfl
@[simp] theorem State.clcFlushDie_hclk (s : State) (die : Nat) : (s.clcFlushDie die).hclk = s.hclk := rfl
@[simp] theorem State.clcFlushDie_tokens (s : State) (die : Nat) : (s.clcFlushDie die).tokens = s.tokens := rfl
@[simp] theorem State.clcFlushDie_stkEpoch (s : State) (die : Nat) : (s.clcFlushDie die).stkEpoch = s.stkEpoch := rfl
@[simp] theorem State.clcFlushDie_stkEpochAt (s : State) (die : Nat) : (s.clcFlushDie die).stkEpochAt = s.stkEpochAt := rfl
@[simp] theorem State.clcFlushDie_win (s : State) (die : Nat) : (s.clcFlushDie die).win = s.win := rfl
@[simp] theorem State.clcFlushDie_til (s : State) (die : Nat) : (s.clcFlushDie die).til = s.til := rfl
@[simp] theorem State.clcFlushDie_drl (s : State) (die : Nat) : (s.clcFlushDie die).drl = s.drl := rfl
@[simp] theorem State.clcFlushDie_gln (s : State) (die : Nat) : (s.clcFlushDie die).gln = s.gln := rfl
@[simp] theorem State.clcFlushDie_shf (s : State) (die : Nat) : (s.clcFlushDie die).shf = s.shf := rfl
@[simp] theorem State.clcFlushDie_hrw (s : State) (die : Nat) : (s.clcFlushDie die).hrw = s.hrw := rfl
@[simp] theorem State.clcFlushDie_red (s : State) (die : Nat) : (s.clcFlushDie die).red = s.red := rfl
@[simp] theorem State.clcFlushDie_ports (s : State) (die : Nat) : (s.clcFlushDie die).ports = s.ports := rfl
@[simp] theorem State.clcFlushDie_mems (s : State) (die : Nat) : (s.clcFlushDie die).mems = s.mems := rfl
@[simp] theorem State.clcFlushDie_sess (s : State) (die : Nat) : (s.clcFlushDie die).sess = s.sess := rfl
@[simp] theorem State.clcFlushDie_opens (s : State) (die : Nat) : (s.clcFlushDie die).opens = s.opens := rfl
@[simp] theorem State.clcFlushDie_job (s : State) (die : Nat) : (s.clcFlushDie die).job = s.job := rfl
@[simp] theorem State.clcFlushDie_rcv (s : State) (die : Nat) : (s.clcFlushDie die).rcv = s.rcv := rfl
@[simp] theorem State.clcFlushDie_hist (s : State) (die : Nat) : (s.clcFlushDie die).hist = s.hist := rfl
@[simp] theorem State.clcFlushDie_pow (s : State) (die : Nat) : (s.clcFlushDie die).pow = s.pow := rfl
@[simp] theorem State.clcFlushDie_sent (s : State) (die : Nat) : (s.clcFlushDie die).sent = s.sent := rfl
@[simp] theorem State.clcFlushDie_draws (s : State) (die : Nat) : (s.clcFlushDie die).draws = s.draws := rfl
@[simp] theorem State.clcFlushDie_pending (s : State) (die : Nat) : (s.clcFlushDie die).pending = s.pending := rfl

-- State.setResSlot
@[simp] theorem State.setResSlot_csr (s : State) (i slot : Nat) (x : ResSlot) : (s.setResSlot i slot x).csr = s.csr := rfl
@[simp] theorem State.setResSlot_firsts (s : State) (i slot : Nat) (x : ResSlot) : (s.setResSlot i slot x).firsts = s.firsts := rfl
@[simp] theorem State.setResSlot_mem (s : State) (i slot : Nat) (x : ResSlot) : (s.setResSlot i slot x).mem = s.mem := rfl
@[simp] theorem State.setResSlot_flips (s : State) (i slot : Nat) (x : ResSlot) : (s.setResSlot i slot x).flips = s.flips := rfl
@[simp] theorem State.setResSlot_lost (s : State) (i slot : Nat) (x : ResSlot) : (s.setResSlot i slot x).lost = s.lost := rfl
@[simp] theorem State.setResSlot_clc (s : State) (i slot : Nat) (x : ResSlot) : (s.setResSlot i slot x).clc = s.clc := rfl
@[simp] theorem State.setResSlot_wbq (s : State) (i slot : Nat) (x : ResSlot) : (s.setResSlot i slot x).wbq = s.wbq := rfl
@[simp] theorem State.setResSlot_sramPos (s : State) (i slot : Nat) (x : ResSlot) : (s.setResSlot i slot x).sramPos = s.sramPos := rfl
@[simp] theorem State.setResSlot_pins (s : State) (i slot : Nat) (x : ResSlot) : (s.setResSlot i slot x).pins = s.pins := rfl
@[simp] theorem State.setResSlot_stile (s : State) (i slot : Nat) (x : ResSlot) : (s.setResSlot i slot x).stile = s.stile := rfl
@[simp] theorem State.setResSlot_block (s : State) (i slot : Nat) (x : ResSlot) : (s.setResSlot i slot x).block = s.block := rfl
@[simp] theorem State.setResSlot_chResets (s : State) (i slot : Nat) (x : ResSlot) : (s.setResSlot i slot x).chResets = s.chResets := rfl
@[simp] theorem State.setResSlot_furCount (s : State) (i slot : Nat) (x : ResSlot) : (s.setResSlot i slot x).furCount = s.furCount := rfl
@[simp] theorem State.setResSlot_fur (s : State) (i slot : Nat) (x : ResSlot) : (s.setResSlot i slot x).fur = s.fur := rfl
@[simp] theorem State.setResSlot_engines (s : State) (i slot : Nat) (x : ResSlot) : (s.setResSlot i slot x).engines = s.engines := rfl
@[simp] theorem State.setResSlot_fifos (s : State) (i slot : Nat) (x : ResSlot) : (s.setResSlot i slot x).fifos = s.fifos := rfl
@[simp] theorem State.setResSlot_thr (s : State) (i slot : Nat) (x : ResSlot) : (s.setResSlot i slot x).thr = s.thr := rfl
@[simp] theorem State.setResSlot_stk (s : State) (i slot : Nat) (x : ResSlot) : (s.setResSlot i slot x).stk = s.stk := rfl
@[simp] theorem State.setResSlot_waiters (s : State) (i slot : Nat) (x : ResSlot) : (s.setResSlot i slot x).waiters = s.waiters := rfl
@[simp] theorem State.setResSlot_fires (s : State) (i slot : Nat) (x : ResSlot) : (s.setResSlot i slot x).fires = s.fires := rfl
@[simp] theorem State.setResSlot_icache (s : State) (i slot : Nat) (x : ResSlot) : (s.setResSlot i slot x).icache = s.icache := rfl
@[simp] theorem State.setResSlot_hclk (s : State) (i slot : Nat) (x : ResSlot) : (s.setResSlot i slot x).hclk = s.hclk := rfl
@[simp] theorem State.setResSlot_tokens (s : State) (i slot : Nat) (x : ResSlot) : (s.setResSlot i slot x).tokens = s.tokens := rfl
@[simp] theorem State.setResSlot_stkEpoch (s : State) (i slot : Nat) (x : ResSlot) : (s.setResSlot i slot x).stkEpoch = s.stkEpoch := rfl
@[simp] theorem State.setResSlot_stkEpochAt (s : State) (i slot : Nat) (x : ResSlot) : (s.setResSlot i slot x).stkEpochAt = s.stkEpochAt := rfl
@[simp] theorem State.setResSlot_win (s : State) (i slot : Nat) (x : ResSlot) : (s.setResSlot i slot x).win = s.win := rfl
@[simp] theorem State.setResSlot_til (s : State) (i slot : Nat) (x : ResSlot) : (s.setResSlot i slot x).til = s.til := rfl
@[simp] theorem State.setResSlot_drl (s : State) (i slot : Nat) (x : ResSlot) : (s.setResSlot i slot x).drl = s.drl := rfl
@[simp] theorem State.setResSlot_gln (s : State) (i slot : Nat) (x : ResSlot) : (s.setResSlot i slot x).gln = s.gln := rfl
@[simp] theorem State.setResSlot_shf (s : State) (i slot : Nat) (x : ResSlot) : (s.setResSlot i slot x).shf = s.shf := rfl
@[simp] theorem State.setResSlot_hrw (s : State) (i slot : Nat) (x : ResSlot) : (s.setResSlot i slot x).hrw = s.hrw := rfl
@[simp] theorem State.setResSlot_red (s : State) (i slot : Nat) (x : ResSlot) : (s.setResSlot i slot x).red = s.red := rfl
@[simp] theorem State.setResSlot_ports (s : State) (i slot : Nat) (x : ResSlot) : (s.setResSlot i slot x).ports = s.ports := rfl
@[simp] theorem State.setResSlot_mems (s : State) (i slot : Nat) (x : ResSlot) : (s.setResSlot i slot x).mems = s.mems := rfl
@[simp] theorem State.setResSlot_sess (s : State) (i slot : Nat) (x : ResSlot) : (s.setResSlot i slot x).sess = s.sess := rfl
@[simp] theorem State.setResSlot_opens (s : State) (i slot : Nat) (x : ResSlot) : (s.setResSlot i slot x).opens = s.opens := rfl
@[simp] theorem State.setResSlot_rcv (s : State) (i slot : Nat) (x : ResSlot) : (s.setResSlot i slot x).rcv = s.rcv := rfl
@[simp] theorem State.setResSlot_hist (s : State) (i slot : Nat) (x : ResSlot) : (s.setResSlot i slot x).hist = s.hist := rfl
@[simp] theorem State.setResSlot_pow (s : State) (i slot : Nat) (x : ResSlot) : (s.setResSlot i slot x).pow = s.pow := rfl
@[simp] theorem State.setResSlot_sent (s : State) (i slot : Nat) (x : ResSlot) : (s.setResSlot i slot x).sent = s.sent := rfl
@[simp] theorem State.setResSlot_draws (s : State) (i slot : Nat) (x : ResSlot) : (s.setResSlot i slot x).draws = s.draws := rfl
@[simp] theorem State.setResSlot_pending (s : State) (i slot : Nat) (x : ResSlot) : (s.setResSlot i slot x).pending = s.pending := rfl

-- Registers.

@[simp] theorem State.reg_setReg (s : State) (o p : Nat) (v : Word) :
    (s.setReg o v).reg p = if p = o then v else s.reg p := by
  unfold State.reg State.setReg
  by_cases h : p = o
  · simp [h, Tab.look_put_same]
  · simp [h, Tab.look_put_other]

theorem State.reg_setFld (s : State) (o p lo w x : Nat) :
    (s.setFld o lo w x).reg p = if p = o then putBits (s.reg o) lo w x else s.reg p := by
  simp [State.setFld]

theorem State.reg_setBit (s : State) (o p b : Nat) :
    (s.setBit o b).reg p = if p = o then s.reg o ||| BitVec.ofNat 64 (2 ^ b) else s.reg p := by
  simp [State.setBit]

theorem State.reg_clrBit (s : State) (o p b : Nat) :
    (s.clrBit o b).reg p = if p = o then s.reg o &&& ~~~(BitVec.ofNat 64 (2 ^ b)) else s.reg p := by
  simp [State.clrBit]

theorem State.reg_setBits (s : State) (o p b : Nat) :
    (s.setBits o b).reg p = if p = o then s.reg o ||| BitVec.ofNat 64 b else s.reg p := by
  unfold State.setBits
  split
  · next h => by_cases hp : p = o <;> simp [h, hp]
  · simp

theorem State.reg_count (s : State) (o p n : Nat) (h : p ≠ o) : (s.count o n).reg p = s.reg p := by
  unfold State.count
  split <;> simp [h]

theorem State.reg_count_self (s : State) (o n : Nat) (h : n ≠ 0) :
    (s.count o n).reg o = BitVec.ofNat 64 (min ((s.reg o).toNat % 2 ^ 48 + n) (2 ^ 48 - 1)) := by
  simp [State.count, h, satAdd]

/-- Counting changes registers alone. -/
theorem State.count_frame (s : State) (o n : Nat) : { s.count o n with csr := s.csr } = s := by
  unfold State.count
  split <;> rfl

/-- A counter of time changes registers and the number of free values drawn. -/
theorem State.clk_frame (s : State) (o : Nat) : { s.clk o with csr := s.csr, draws := s.draws } = s := by
  exact congrArg (fun (t : State) => { t with draws := s.draws }) (s.count_frame o _)

-- Repeated units: what is read where it was put, and elsewhere.

@[simp] theorem State.eng_setEng (s : State) (i j : Nat) (e : EngSt) :
    (s.setEng i e).eng j = if j = i then e else s.eng j := by
  simp only [State.eng, State.setEng, Tab.get_put]

@[simp] theorem State.port_setPort (s : State) (i j : Nat) (x : PortSt) :
    (s.setPort i x).port j = if j = i then x else s.port j := by
  simp only [State.port, State.setPort, Tab.get_put]

@[simp] theorem State.thread_setThread_self (s : State) (st t : Nat) (x : Thr) : (s.setThread st t x).thread st t = x := by
  simp [State.thread, State.setThread]

theorem State.thread_setThread (s : State) (i st : Strip) (j t : Thread) (x : Thr) :
    (s.setThread st.val t.val x).thread i.val j.val = if (i, j) = (st, t) then x else s.thread i.val j.val := by
  have h : i.val * 4 + j.val = st.val * 4 + t.val ↔ (i, j) = (st, t) := by
    simp only [Prod.mk.injEq, Fin.ext_iff]
    omega
  simp only [State.thread, State.setThread, Tab.get_put, h]

@[simp] theorem State.winnow_setWinnow (s : State) (i j : Nat) (x : WinSt) :
    (s.setWinnow i x).winnow j = if j = i then x else s.winnow j := by
  simp only [State.winnow, State.setWinnow, Tab.get_put]

@[simp] theorem State.tiller_setTiller_self (s : State) (st a : Nat) (x : TilArr) :
    (s.setTiller st a x).tiller st a = x := by
  simp [State.tiller, State.setTiller]

@[simp] theorem State.gport_setGport (s : State) (i j : Nat) (x : GlnPort) :
    (s.setGport i x).gport j = if j = i then x else s.gport j := by
  simp only [State.gport, State.setGport, Tab.get_put]

@[simp] theorem State.sheaf_setSheaf (s : State) (i j : Nat) (x : ShfEng) :
    (s.setSheaf i x).sheaf j = if j = i then x else s.sheaf j := by
  simp only [State.sheaf, State.setSheaf, Tab.get_put]

@[simp] theorem State.chan_setChan (s : State) (i j : Nat) (x : HrwCh) :
    (s.setChan i x).chan j = if j = i then x else s.chan j := by
  simp only [State.chan, State.setChan, Tab.get_put]

@[simp] theorem State.session_setSession (s : State) (i j : Nat) (x : Sess) :
    (s.setSession i x).session j = if j = i then x else s.session j := by
  simp only [State.session, State.setSession, Tab.get_put]

@[simp] theorem State.sampler_setSampler (s : State) (i j : Nat) (x : SmpSt) :
    (s.setSampler i x).sampler j = if j = i then x else s.sampler j := by
  simp only [State.sampler, State.setSampler, Tab.get_put]

@[simp] theorem State.ctr_setCtr_self (s : State) (st c : Nat) (v : BitVec 24) : (s.setCtr st c v).ctr st c = v := by
  simp [State.ctr, State.setCtr]

@[simp] theorem State.fifo_setFifo_self (s : State) (st k : Nat) (l : List Post) : (s.setFifo st k l).fifo st k = l := by
  simp [State.fifo, State.setFifo]

-- Memory without the protection code.

theorem State.peek_poke (s : State) (h : Memory.wf s.mem = true) (a x : Nat) (bs : List Byte) :
    (s.poke a bs).peek x = if a ≤ x ∧ x < a + bs.length then bs.getD (x - a) 0 else s.peek x := by
  simp only [State.peek, State.poke, Memory.rd_wrN _ _ _ h]

end Sys2Proof.Machine
end

