-- ==== Sys2Proof/Laws/Access.lean ====
section
/-!
SUPPORT. Reads and writes through the protection code while no line holds an error: said once, for every reader and writer.
-/

namespace Sys2Proof.Machine
open Sys2Proof

theorem State.errLines_clean {s : State} (h : s.Clean) (a n : Nat) : s.errLines a n = [] := by
  simp [State.errLines, h.1, h.2]

/-- A read gives the stored bytes, and only the check-line cache notices. -/
theorem State.read_clean {s : State} (h : s.Clean) (src a n : Nat) :
    s.read src a n = (s.clcAccess false a n, some (s.peeks a n)) := by
  simp [State.read, State.errLines_clean h, readLines]

theorem State.views_clean {s : State} (h : s.Clean) (a n : Nat) : s.views a n = s.peeks a n := by
  simp [State.views, State.errLines_clean h]

theorem State.viewNat_clean {s : State} (h : s.Clean) (a n : Nat) : s.viewNat a n = s.peekNat a n := by
  simp [State.viewNat, State.peekNat, State.views_clean h]

theorem onlyRead_clcAccess (s : State) (a n : Nat) : OnlyRead s (s.clcAccess false a n) := by
  unfold OnlyRead State.clcAccess
  split <;> rfl

theorem State.Clean.clcAccess {s : State} (h : s.Clean) (d : Bool) (a n : Nat) : (s.clcAccess d a n).Clean := by
  simpa [State.Clean] using h

theorem OnlyRead.trans {s t u : State} (h : OnlyRead s t) (k : OnlyRead t u) : OnlyRead s u := by
  unfold OnlyRead at *
  rw [← h, ← k]

/-- Reads of several ranges find no error, and only the check-line cache notices. -/
theorem State.touch_clean {s : State} (h : s.Clean) (src : Nat) (l : List (Nat × Nat)) :
    OnlyRead s (s.touch src l).1 ∧ (s.touch src l).2 = true := by
  unfold State.touch
  induction l generalizing s with
  | nil => exact ⟨rfl, rfl⟩
  | cons x l ih =>
    have k := ih (h.clcAccess false x.1 x.2)
    simp only [touchAll, State.read_clean h]
    exact ⟨(onlyRead_clcAccess s x.1 x.2).trans k.1, k.2⟩

/-- Bytes outside what a store covers stay, whatever lines refuse it. -/
theorem rd_storeBytes_outside (bad : List Nat) (m : List Host.Cell) (a : Nat) (bs : List Byte) (h : Memory.wf m = true) (c : Nat)
    (hc : c < a ∨ a + bs.length ≤ c) : Memory.rd (storeBytes bad m a bs) c = Memory.rd m c := by
  induction bs generalizing m a with
  | nil => rfl
  | cons b bs ih =>
    simp only [List.length_cons] at hc
    rw [storeBytes, ih _ _ (by split <;> first | exact Memory.wf_wr _ _ _ h | exact h) (by omega)]
    split
    · rw [Memory.rd_wr _ _ 0 _ h, if_neg (by omega)]
    · rfl

/-- A write while no line holds an error changes no byte outside it, and leaves no error. -/
theorem State.write_clean {s : State} (h : s.Clean) (hw : s.Sound) (src a : Nat) (bs : List Byte) :
    (s.write src a bs).Clean ∧ KeepsOutside s (s.write src a bs) a bs.length := by
  have e : s.write src a bs = { (s.clcAccess true a bs.length).staleBacks a bs.length with
      mem := storeBytes [] s.mem a bs } := by
    simp [State.write, State.errLines_clean h, writeLines]
  refine ⟨?_, fun x hx => ?_⟩
  · simpa [e, State.Clean] using h
  · simpa [e, State.peek] using rd_storeBytes_outside [] s.mem a bs hw x hx

end Sys2Proof.Machine
end

