-- ==== Sys2Proof/Laws/Crypto.lean ====
section
/-!
SUPPORT. The lengths of digests and tags (R539, R541, R549), and what a datagram's header gives back of its bytes (R534).
-/

namespace Sys2Proof.Machine
open Sys2Proof

theorem keccakRound_length (a : List Word) (rc : Word) : (keccakRound a rc).length = 25 := by simp [keccakRound]

theorem keccak_rounds_length (l : List Word) (a : List Word) (h : a.length = 25) : (l.foldl keccakRound a).length = 25 := by
  induction l generalizing a with
  | nil => exact h
  | cons r l ih => exact ih _ (keccakRound_length a r)

theorem keccakF_length (a : List Word) (h : a.length = 25) : (keccakF a).length = 25 := keccak_rounds_length _ a h

theorem keccakAbsorb_length (n : Nat) (a : List Word) (bs : List Byte) (h : a.length = 25) : (keccakAbsorb n a bs).length = 25 := by
  induction n generalizing a bs with
  | zero => exact h
  | succ n ih => exact ih _ _ (keccakF_length _ (by simp [keccakXor]))

theorem keccakBytes_length (a : List Word) : (keccakBytes a).length = 8 * a.length := by
  unfold keccakBytes
  induction a with
  | nil => rfl
  | cons w a ih => simp only [List.map_cons, List.flatten_cons, List.length_append, leBytes_length, List.length_cons, ih]; omega

theorem keccakSqueeze_length (n : Nat) (a : List Word) (h : a.length = 25) : (keccakSqueeze n a).length = 136 * n := by
  induction n generalizing a with
  | zero => rfl
  | succ n ih =>
    simp only [keccakSqueeze, List.length_append, List.length_take, keccakBytes_length, h, ih _ (keccakF_length a h)]
    omega

theorem keccakSponge_length (x : Byte) (m : List Byte) (n : Nat) : (keccakSponge x m n).length = n := by
  simp only [keccakSponge, List.length_take]
  rw [keccakSqueeze_length _ _ (keccakAbsorb_length _ _ _ (by simp)), ceilDiv]
  omega

@[simp] theorem shake256_length (m : List Byte) (n : Nat) : (shake256 m n).length = n := keccakSponge_length _ _ _
@[simp] theorem kmac256_length (k m : List Byte) (n : Nat) (c : List Byte) : (kmac256 k m n c).length = n := keccakSponge_length _ _ _
@[simp] theorem dgTag_length (k h p : List Byte) : (dgTag k h p).length = 16 := kmac256_length _ _ _ _

/-- A datagram whose header holds 48 bytes has those bytes as its header. -/
theorem dgHead_of (bs p : List Byte) (e : BitVec 48) (i : BitVec 128) (u : BitVec 16) (h : bs.length = 48) :
    dgHead ⟨BitVec.ofNat 384 (leNat bs), p, e, i, u⟩ = bs := by
  have hl : leNat bs < 2 ^ 384 := by
    have := leNat_leBytes 48 (leNat bs)
    rw [show leBytes 48 (leNat bs) = bs from by rw [← h]; exact leBytes_leNat bs] at this
    rw [this, show 384 = 8 * 48 from rfl, Nat.pow_mul]
    exact Nat.mod_lt _ (Nat.pow_pos (by decide))
  rw [dgHead, BitVec.toNat_ofNat, Nat.mod_eq_of_lt hl, ← h]
  exact leBytes_leNat bs

/-- The flags of a datagram are the bits of byte 1 of its header. -/
theorem dgFlag_of (b0 b1 : Byte) (r p : List Byte) (e : BitVec 48) (i : BitVec 128) (u : BitVec 16) (h : r.length = 46) (b : Nat)
    (hb : b < 8) : dgFlag ⟨BitVec.ofNat 384 (leNat (b0 :: b1 :: r)), p, e, i, u⟩ b = decide (b1.toNat / 2 ^ b % 2 = 1) := by
  have hh := dgHead_of (b0 :: b1 :: r) p e i u (by simp [h])
  have hl := leNat_leBytes 48 (BitVec.ofNat 384 (leNat (b0 :: b1 :: r))).toNat
  rw [dgHead] at hh
  rw [hh] at hl
  have hm : (BitVec.ofNat 384 (leNat (b0 :: b1 :: r))).toNat % 256 ^ 48 = (BitVec.ofNat 384 (leNat (b0 :: b1 :: r))).toNat := by
    apply Nat.mod_eq_of_lt
    have := (BitVec.ofNat 384 (leNat (b0 :: b1 :: r))).isLt
    rwa [show 384 = 8 * 48 from rfl, Nat.pow_mul] at this
  rw [hm] at hl
  rw [dgFlag, ← hl]
  have h0 := b0.isLt
  have h1 := b1.isLt
  have key : ∀ R, (b0.toNat + 256 * (b1.toNat + 256 * R)) / 2 ^ (8 + b) % 2 ^ 1 = b1.toNat / 2 ^ b % 2 := by
    intro R
    interval_cases b <;> simp only [Nat.reduceAdd, Nat.reducePow] <;> omega
  simp only [leNat, natBits, key]

/-- A header whose bytes 32 to 47 are its TAG verifies (R539). -/
theorem dgGood_of (k hd p : List Byte) (e : BitVec 48) (i : BitVec 128) (u : BitVec 16) (h : hd.length = 32) :
    dgGood ⟨BitVec.ofNat 384 (leNat (hd ++ dgTag k hd p)), p, e, i, u⟩ k = true := by
  rw [dgGood, dgHead_of _ _ _ _ _ (by simp [h])]
  rw [List.take_left' h, List.drop_left' h]
  exact decide_eq_true rfl

end Sys2Proof.Machine
end

