-- ==== Sys2Proof/Laws/Headland.lean ====
section
/-!
SUPPORT. What the shared runner of Headland and the writes of a thread do, said once.
-/

namespace Sys2Proof.Machine
open Sys2Proof

-- A thread's registers.

theorem Thr.x_setX (t : Thr) (r q : Nat) (v : Word) :
    (t.setX r v).x q = if q = r then (if r = 0 then 0 else v) else t.x q := by
  unfold Thr.setX Thr.x
  by_cases hr : r = 0 <;> by_cases hq : q = 0 <;> by_cases h : q = r <;> simp_all [Tab.get_put]

@[simp] theorem Thr.x_zero (t : Thr) : t.x 0 = 0 := by simp [Thr.x]
@[simp] theorem Thr.next_x (t : Thr) (q : Nat) : t.next.x q = t.x q := rfl
@[simp] theorem Thr.next_pc (t : Thr) : t.next.pc = t.pc + 8 := rfl
@[simp] theorem Thr.next_st (t : Thr) : t.next.st = t.st := rfl
@[simp] theorem Thr.next_modeF (t : Thr) : t.next.modeF = t.modeF := rfl
@[simp] theorem Thr.next_regs (t : Thr) : t.next.regs = t.regs := rfl
@[simp] theorem Thr.setX_pc (t : Thr) (r : Nat) (v : Word) : (t.setX r v).pc = t.pc := by unfold Thr.setX; split <;> rfl
@[simp] theorem Thr.setX_st (t : Thr) (r : Nat) (v : Word) : (t.setX r v).st = t.st := by unfold Thr.setX; split <;> rfl
@[simp] theorem Thr.setX_modeF (t : Thr) (r : Nat) (v : Word) : (t.setX r v).modeF = t.modeF := by
  unfold Thr.setX; split <;> rfl

@[simp] theorem State.thread_count (s : State) (o n i j : Nat) : (s.count o n).thread i j = s.thread i j := by
  simp [State.thread]

@[simp] theorem State.thread_onThread_self (s : State) (st th : Nat) (f : Thr → Thr) :
    (s.onThread st th f).thread st th = f (s.thread st th) := by
  simp [State.onThread]

/-- Headland fetches from no DRAM line (R222). -/
theorem fetch_not_dram {st pc : Nat} (hs : st < 64) (h : inSlice st pc 8 = true ∨ spans inBuf pc 8 = true) :
    inDram (lineOf pc) = false := by
  unfold inSlice spans inBuf sliceBase plotBase bufBase bufEnd at h
  unfold inDram lineOf dramEnd
  simp only [Bool.and_eq_true, Bool.or_eq_true, decide_eq_true_eq, decide_eq_false_iff_not] at *
  omega

/-- A fetch changes only what the instruction cache holds. -/
theorem fetchWord_frame (s : State) (st pc : Nat) (hd : inDram (lineOf pc) = false) (he : s.errLines (lineOf pc) 64 = []) :
    { (s.fetchWord st pc).1 with icache := s.icache, draws := s.draws } = s := by
  unfold State.fetchWord
  cases Tab.look s.icache (icKey st (lineOf pc)) with
  | some bs => rfl
  | none => simp [State.read, he, readLines, State.clcAccess, hd, State.icFill]

/-- What the issue of an instruction changes: registers, the instruction cache and the number of free values drawn. -/
theorem hdlIssue_frame (s : State) (st th : Nat) : { s.hdlIssue st th with csr := s.csr, draws := s.draws } = s := by
  unfold State.hdlIssue
  dsimp only
  split
  · refine Eq.trans ?_ (s.count_frame (hdlCntIssue st) 1)
    exact congrArg (fun (t : State) => { t with csr := s.csr }) ((s.count (hdlCntIssue st) 1).clk_frame (hdlCntPoststall st))
  · exact congrArg (fun (t : State) => { t with draws := s.draws }) (s.count_frame (hdlCntIssue st) 1)

theorem hdlIssued_frame {s : State} {st : Strip} {th : Thread} {w : Word} {cls op : Nat} (h : HdlReady s st th w cls op) :
    { hdlIssued s st th with csr := s.csr, icache := s.icache, draws := s.draws } = s := by
  have f := fetchWord_frame s st.val _ (fetch_not_dram st.isLt h.2.1) h.2.2.2.1
  unfold hdlIssued
  generalize (s.fetchWord st.val (s.thread st.val th.val).pc.toNat).1 = u at f ⊢
  refine Eq.trans ?_ (congrArg (fun (t : State) => { t with csr := s.csr }) f)
  exact congrArg (fun (t : State) => { t with csr := s.csr, icache := s.icache, draws := s.draws }) (hdlIssue_frame u st.val th.val)

@[simp] theorem hdlIssued_thread {s : State} {st : Strip} {th : Thread} {w : Word} {cls op : Nat} (h : HdlReady s st th w cls op)
    (i j : Nat) : (hdlIssued s st th).thread i j = s.thread i j := by
  have f := congrArg State.thr (hdlIssued_frame h)
  simp only [State.thread]
  rw [show (hdlIssued s st th).thr = s.thr from f]

/-- A thread that may issue runs the body of its operation on the state in which its issue is counted. -/
theorem hdlRun_of_ready {s : State} {st : Strip} {th : Thread} {w : Word} {cls op : Nat} (h : HdlReady s st th w cls op)
    (body : State → Option State) (hr : hdlReserved cls op = false) {v : State}
    (hb : body (hdlIssued s st th) = some v) : hdlRun st th cls op w s body = .next v := by
  obtain ⟨h1, h2, h3, _, h4, h5⟩ := h
  unfold hdlIssued at hb
  obtain ⟨u, hu⟩ : ∃ u, s.fetchWord st.val (s.thread st.val th.val).pc.toNat = (u, some w) := ⟨_, Prod.ext rfl h3⟩
  simp only [hu] at hb
  simp [hdlRun, h1, h2, h4, h5, hr, hu, hb]

/-- The lines of an instruction cache after a fetch: the one fetched, and none that was not there. -/
theorem fetchWord_icache (s : State) (st pc k : Nat) (l : List Byte) (hk : k ≠ icKey st (lineOf pc))
    (hd : inDram (lineOf pc) = false) (he : s.errLines (lineOf pc) 64 = [])
    (h : Tab.look (s.fetchWord st pc).1.icache k = some l) :
    Tab.look s.icache k = some l := by
  unfold State.fetchWord at h
  cases e : Tab.look s.icache (icKey st (lineOf pc)) with
  | some bs => simpa [e] using h
  | none =>
    simp only [e, State.read, he, readLines, State.clcAccess, hd, State.icFill] at h
    rw [Tab.look_put_other _ _ _ _ hk] at h
    split at h
    · exact h
    · exact Tab.look_drop _ _ _ _ h

/-- A thread is changed alone, after its instruction has issued. -/
theorem hdlOthers_onThread {s : State} {st : Strip} {th : Thread} {w : Word} {cls op : Nat} (h : HdlReady s st th w cls op)
    (f : Thr → Thr) : HdlOthers s ((hdlIssued s st th).onThread st.val th.val f) st th := by
  have hd := fetch_not_dram st.isLt h.2.1
  have he := h.2.2.2.1
  have hf := fetchWord_frame s st.val _ hd he
  have hi := fun k l hk => fetchWord_icache s st.val (s.thread st.val th.val).pc.toNat k l hk hd he
  unfold hdlIssued
  generalize (s.fetchWord st.val (s.thread st.val th.val).pc.toNat).1 = u at hf hi ⊢
  have hc : u.csr = s.csr := by have := congrArg State.csr hf; exact this
  have ht : u.thr = s.thr := by have := congrArg State.thr hf; exact this
  have hr : ∀ o, u.reg o = s.reg o := fun o => by simp only [State.reg, hc]
  have hth : ∀ i j, u.thread i j = s.thread i j := fun i j => by simp only [State.thread, ht]
  have hic : (u.hdlIssue st.val th.val).icache = u.icache := by
    have := congrArg State.icache (hdlIssue_frame u st.val th.val); exact this
  have hit : (u.hdlIssue st.val th.val).thr = u.thr := by
    have := congrArg State.thr (hdlIssue_frame u st.val th.val); exact this
  refine ⟨?_, ?_, ?_, ?_⟩
  · have e : (u.hdlIssue st.val th.val).reg (hdlCntIssue st.val) = (u.count (hdlCntIssue st.val) 1).reg (hdlCntIssue st.val) := by
      unfold State.hdlIssue
      dsimp only
      split
      · simp only [State.clk]
        rw [State.reg, State.draw_csr, ← State.reg, State.reg_count _ _ _ _ (by unfold hdlCntIssue hdlCntPoststall; omega)]
      · rfl
    show ((u.hdlIssue st.val th.val).setThread _ _ _).reg _ = _
    rw [State.reg, State.setThread_csr, ← State.reg, e, State.reg_count_self _ _ _ (by decide), hr]
  · intro o ho hs
    show ((u.hdlIssue st.val th.val).setThread _ _ _).reg _ = _
    rw [State.reg, State.setThread_csr, ← State.reg]
    unfold State.hdlIssue
    dsimp only
    split
    · rename_i hst
      have hne : o ≠ hdlCntPoststall st.val := by
        rcases hs with hs | hs
        · exact hs
        · rw [hth, hs] at hst; simp at hst
      simp only [State.clk]
      rw [State.reg, State.draw_csr, ← State.reg, State.reg_count _ _ _ _ hne, State.reg_count _ _ _ _ ho, hr]
    · rw [State.reg_count _ _ _ _ ho, hr]
  · intro i j hij
    show ((u.hdlIssue st.val th.val).setThread st.val th.val _).thread i.val j.val = _
    rw [State.thread_setThread, if_neg hij]
    simp only [State.thread, hit, ht]
  · intro k l hk hl
    apply hi k l hk
    rw [← hic]
    exact hl

/-- Everything else of the module stays. -/
theorem hdlKeeps_onThread {s : State} {st : Strip} {th : Thread} {w : Word} {cls op : Nat} (h : HdlReady s st th w cls op)
    (f : Thr → Thr) : HdlKeeps s ((hdlIssued s st th).onThread st.val th.val f) := by
  have k := hdlIssued_frame h
  exact congrArg (fun (t : State) => { t with thr := s.thr }) k

/-- RD is written and the thread goes on. -/
theorem hdlWrote_setX {s : State} {st : Strip} {th : Thread} {w v : Word} {cls op : Nat} (h : HdlReady s st th w cls op) :
    HdlWrote s ((hdlIssued s st th).onThread st.val th.val (fun t => (t.setX (hdlRd w) v).next)) st th w v := by
  refine ⟨hdlOthers_onThread h _, hdlKeeps_onThread h _, ?_⟩
  rw [State.thread_onThread_self, hdlIssued_thread h]
  refine ⟨by simp [h.1], by simp, by simp [Thr.x_setX], ?_, by simp⟩
  intro r hr
  simp [Thr.x_setX, hr]

end Sys2Proof.Machine
end

