-- ==== Sys2Proof/Laws/Kept.lean ====
section
/-!
SUPPORT. What no operation of the machine breaks, said once as a relation between the state before and the state after, and
its lemmas over the shapes in which operations are written. The files beside this one prove it of every operation.
-/

namespace Sys2Proof.Machine
open Sys2Proof

/-- What every operation keeps: the canonical form of memory; the queue of commands; the order of free values; blown fuses;
the level of WP_N and, while it is low, the seed flash with its boot records and index log. -/
structure Kept (s t : State) : Prop where
  mem : Memory.wf s.mem = true → Memory.wf t.mem = true
  pending : t.pending = s.pending
  draws : s.draws ≤ t.draws
  fuses : s.stile.fuses &&& t.stile.fuses = s.stile.fuses
  wp : t.pins.wpN = s.pins.wpN
  flash : s.pins.wpN = false → t.stile.flash = s.stile.flash ∧ t.stile.records = s.stile.records ∧
    t.stile.indexBlocks = s.stile.indexBlocks

theorem Kept.refl (s : State) : Kept s s :=
  ⟨id, rfl, Nat.le_refl _, by simp, rfl, fun _ => ⟨rfl, rfl, rfl⟩⟩

theorem Kept.trans {r s t : State} (h : Kept r s) (k : Kept s t) : Kept r t where
  mem := fun w => k.mem (h.mem w)
  pending := k.pending.trans h.pending
  draws := Nat.le_trans h.draws k.draws
  fuses := by
    have a := h.fuses
    have b := k.fuses
    rw [← a, BitVec.and_assoc, b]
  wp := k.wp.trans h.wp
  flash := fun w => by
    obtain ⟨a, b, c⟩ := h.flash w
    obtain ⟨d, e, f⟩ := k.flash (h.wp.trans w)
    exact ⟨d.trans a, e.trans b, f.trans c⟩

/-- An update of fields that this relation does not name; memory may change if it stays canonical. -/
theorem Kept.updMem {r s t : State} (h : Kept r s) (hm : Memory.wf s.mem = true → Memory.wf t.mem = true)
    (hq : t.pending = s.pending := by rfl) (hd : s.draws ≤ t.draws := by exact Nat.le_refl _)
    (hs : t.stile = s.stile := by rfl) (hp : t.pins = s.pins := by rfl) : Kept r t :=
  h.trans ⟨hm, hq, hd, by simp [hs], by rw [hp], fun _ => by rw [hs]; exact ⟨rfl, rfl, rfl⟩⟩

/-- The same with memory as it was. -/
theorem Kept.upd {r s t : State} (h : Kept r s) (hm : t.mem = s.mem := by rfl) (hq : t.pending = s.pending := by rfl)
    (hd : s.draws ≤ t.draws := by exact Nat.le_refl _) (hs : t.stile = s.stile := by rfl) (hp : t.pins = s.pins := by rfl) :
    Kept r t :=
  h.updMem (fun w => hm ▸ w) hq hd hs hp

/-- A state that is named on the way. -/
theorem Kept.cut (r x : State) {p : Prop} (h : Kept r x) (k : Kept r x → p) : p := k h

/-- The next free value has been drawn. -/
theorem Kept.updDraws {r s : State} {n : Nat} (h : Kept r s) (hn : s.draws ≤ n) : Kept r { s with draws := n } :=
  h.trans ⟨id, rfl, hn, by simp, rfl, fun _ => ⟨rfl, rfl, rfl⟩⟩

/-- A fold of operations. -/
theorem Kept.foldl {r s : State} {α : Type} (h : Kept r s) (f : State → α → State) (l : List α)
    (hf : ∀ t x, Kept r t → Kept r (f t x)) : Kept r (l.foldl f s) := by
  induction l generalizing s with
  | nil => exact h
  | cons x l ih => exact ih (hf s x h)

/-- A fold of operations that carries something else along. -/
theorem Kept.foldlPair {r : State} {α β : Type} {p : State × β} (h : Kept r p.1) (f : State × β → α → State × β) (l : List α)
    (hf : ∀ t x, Kept r t.1 → Kept r (f t x).1) : Kept r (l.foldl f p).1 := by
  induction l generalizing p with
  | nil => exact h
  | cons x l ih => exact ih (hf p x h)

/-- An outcome keeps what its next state keeps; likewise the answers of other shapes that carry a state. -/
def KeptOut (r : State) : Out → Prop
  | .next t => Kept r t
  | .fault _ => True
  | .refused _ => True

def KeptOpt (r : State) : Option State → Prop
  | some t => Kept r t
  | none => True

def KeptOptP {β : Type} (r : State) : Option (State × β) → Prop
  | some p => Kept r p.1
  | none => True

def KeptRx (r : State) : Rx → Prop
  | .unfit => True
  | .taken t => Kept r t
  | .msg t _ _ => Kept r t

def KeptDir (r : State) : DirRes → Prop
  | .done t => Kept r t
  | .code t _ => Kept r t

def KeptRd {α : Type} (r : State) : RdR α → Prop
  | .ok t _ => Kept r t
  | .need _ => True
  | .ue t => Kept r t
  | .out t => Kept r t

theorem KeptOut.next {r t : State} (h : Kept r t) : KeptOut r (.next t) := h
theorem KeptOpt.some {r t : State} (h : Kept r t) : KeptOpt r (some t) := h
theorem KeptOpt.none {r : State} : KeptOpt r none := trivial
theorem KeptOptP.some {β : Type} {r t : State} {v : β} (h : Kept r t) : KeptOptP r (some (t, v)) := h
theorem KeptOptP.none {β : Type} {r : State} : KeptOptP (β := β) r none := trivial
theorem KeptRx.unfit {r : State} : KeptRx r .unfit := trivial
theorem KeptRx.taken {r t : State} (h : Kept r t) : KeptRx r (.taken t) := h
theorem KeptRx.msg {r t : State} (f : Flit) (bs : List Byte) (h : Kept r t) : KeptRx r (.msg t f bs) := h
theorem KeptDir.done {r t : State} (h : Kept r t) : KeptDir r (.done t) := h
theorem KeptDir.code {r t : State} (n : Nat) (h : Kept r t) : KeptDir r (.code t n) := h
theorem KeptRd.ok {α : Type} {r t : State} (a : α) (h : Kept r t) : KeptRd r (.ok t a) := h
theorem KeptRd.need {α : Type} {r : State} (q : MemRun) : KeptRd (α := α) r (.need q) := trivial
theorem KeptRd.ue {α : Type} {r t : State} (h : Kept r t) : KeptRd (α := α) r (.ue t) := h
theorem KeptRd.out {α : Type} {r t : State} (h : Kept r t) : KeptRd (α := α) r (.out t) := h

-- The state inside an answer that a match has opened.
theorem Kept.ofPair {β : Type} {r t : State} {p : State × β} {v : β} (e : p = (t, v)) (h : Kept r p.1) : Kept r t := by
  subst e; exact h
theorem Kept.ofOpt {r t : State} {o : Option State} (e : o = some t) (h : KeptOpt r o) : Kept r t := by
  subst e; exact h
theorem Kept.ofOptP {β : Type} {r t : State} {v : β} {o : Option (State × β)} (e : o = some (t, v)) (h : KeptOptP r o) :
    Kept r t := by
  subst e; exact h
theorem Kept.ofTaken {r t : State} {x : Rx} (e : x = .taken t) (h : KeptRx r x) : Kept r t := by
  subst e; exact h
theorem Kept.ofMsg {r t : State} {x : Rx} {f : Flit} {bs : List Byte} (e : x = .msg t f bs) (h : KeptRx r x) : Kept r t := by
  subst e; exact h
theorem Kept.ofDone {r t : State} {x : DirRes} (e : x = .done t) (h : KeptDir r x) : Kept r t := by
  subst e; exact h
theorem Kept.ofOk {α : Type} {r t : State} {a : α} {x : RdR α} (e : x = .ok t a) (h : KeptRd r x) : Kept r t := by
  subst e; exact h

-- Operations on memory alone.

theorem putElem_wf (m : List Host.Cell) (a w i v : Nat) (h : Memory.wf m = true) : Memory.wf (putElem m a w i v) = true :=
  Memory.wf_wrN _ _ _ h

theorem writeElems_wf (m : List Host.Cell) (a w : Nat) (vs : List Nat) (h : Memory.wf m = true) :
    Memory.wf (writeElems m a w vs) = true := by
  unfold writeElems
  dsimp only
  split <;> exact Memory.wf_wrN _ _ _ h

theorem zeroElems_wf (m : List Host.Cell) (a w n cap : Nat) (h : Memory.wf m = true) :
    Memory.wf (zeroElems m a w n cap) = true := by
  unfold zeroElems
  dsimp only
  split
  · exact h
  · apply Memory.wf_zero
    split
    · exact h
    · exact putElem_wf _ _ _ _ _ h

theorem storeBytes_wf (bad : List Nat) (m : List Host.Cell) (a : Nat) (bs : List Byte) (h : Memory.wf m = true) :
    Memory.wf (storeBytes bad m a bs) = true := by
  induction bs generalizing m a with
  | nil => exact h
  | cons b r ih =>
    unfold storeBytes
    dsimp only
    apply ih
    split
    · exact Memory.wf_wr _ _ _ h
    · exact h

theorem foldl_wf {α : Type} (f : List Host.Cell → α → List Host.Cell) (l : List α) (m : List Host.Cell)
    (h : Memory.wf m = true) (hf : ∀ n x, Memory.wf n = true → Memory.wf (f n x) = true) : Memory.wf (l.foldl f m) = true := by
  induction l generalizing m with
  | nil => exact h
  | cons x l ih => exact ih (f m x) (hf m x h)

end Sys2Proof.Machine
end

