-- ==== Sys2Proof/Laws/Tiles.lean ====
section
/-!
SUPPORT. Element formats take whole bytes: what a write of packed elements puts into memory, element by element.
-/

namespace Sys2Proof.Machine
open Sys2Proof

theorem Memory.wrN_append (m : List Host.Cell) (a : Nat) (xs ys : List Byte) :
    Memory.wrN m a (xs ++ ys) = Memory.wrN (Memory.wrN m a xs) (a + xs.length) ys := by
  induction xs generalizing m a with
  | nil => simp [Memory.wrN]
  | cons x xs ih =>
    simp only [List.cons_append, Memory.wrN, ih, List.length_cons]
    congr 1
    omega

/-- Reads see only the bytes they name. -/
theorem Memory.rdN_congr (m k : List Host.Cell) (a n : Nat) (h : ∀ c, a ≤ c → c < a + n → Memory.rd m c = Memory.rd k c) :
    Memory.rdN m a n = Memory.rdN k a n := by
  induction n generalizing a with
  | zero => rfl
  | succ n ih =>
    simp only [Memory.rdN]
    rw [h a (Nat.le_refl _) (by omega), ih (a + 1) (fun c h1 h2 => h c (by omega) (by omega))]

theorem Memory.rdN_add (m : List Host.Cell) (a i j : Nat) :
    Memory.rdN m a (i + j) = Memory.rdN m a i ++ Memory.rdN m (a + i) j := by
  induction i generalizing a with
  | zero => simp [Memory.rdN]
  | succ i ih =>
    rw [show i + 1 + j = (i + j) + 1 by omega]
    simp only [Memory.rdN, ih, List.cons_append]
    rw [show a + 1 + i = a + (i + 1) by omega]

theorem leBytes_append (i j v : Nat) : leBytes (i + j) v = leBytes i v ++ leBytes j (v / 256 ^ i) := by
  induction i generalizing v with
  | zero => simp [leBytes]
  | succ i ih =>
    rw [show i + 1 + j = (i + j) + 1 by omega]
    simp only [leBytes, ih, List.cons_append]
    rw [Nat.div_div_eq_div_mul, show (256 : Nat) * 256 ^ i = 256 ^ (i + 1) by ring]

theorem leBytes_mod (n v w : Nat) (h : v % 256 ^ n = w % 256 ^ n) : leBytes n v = leBytes n w := by
  induction n generalizing v w with
  | zero => rfl
  | succ n ih =>
    have e : (256 : Nat) ^ (n + 1) = 256 * 256 ^ n := by ring
    rw [e] at h
    have h1 : v % 256 = w % 256 := by
      have a := congrArg (· % 256) h
      simpa [Nat.mod_mul_right_mod] using a
    have h2 : v / 256 % 256 ^ n = w / 256 % 256 ^ n := by
      have a := congrArg (· / 256) h
      simpa [Nat.mod_mul_right_div_self] using a
    simp only [leBytes]
    rw [ih _ _ h2]
    congr 1
    apply BitVec.eq_of_toNat_eq
    simpa using h1

/-- Packed elements of b bytes stand one after another. -/
theorem packElems_cons (b v : Nat) (vs : List Nat) :
    packElems (8 * b) (v :: vs) = leBytes b v ++ packElems (8 * b) vs := by
  unfold packElems
  have e : (2 : Nat) ^ (8 * b) = 256 ^ b := by rw [Nat.pow_mul]
  have l : ∀ n, (8 * b * n + 7) / 8 = b * n := fun n => by
    rw [Nat.mul_assoc]; omega
  rw [l, l, List.length_cons, show b * (vs.length + 1) = b + b * vs.length by ring, leBytes_append, List.foldr_cons, e]
  congr 1
  · apply leBytes_mod
    simp
  · congr 1
    rw [Nat.mul_comm, Nat.mul_add_div (show 0 < 256 ^ b by positivity), Nat.div_eq_of_lt (Nat.mod_lt _ (show 0 < 256 ^ b by positivity))]
    simp

theorem packElems_length (b : Nat) (vs : List Nat) : (packElems (8 * b) vs).length = b * vs.length := by
  unfold packElems
  rw [leBytes_length, Nat.mul_assoc]
  omega

theorem writeElems_bytes (m : List Host.Cell) (a b : Nat) (vs : List Nat) :
    writeElems m a (8 * b) vs = Memory.wrN m a (packElems (8 * b) vs) := by
  unfold writeElems
  rw [if_pos]
  rw [Nat.mul_assoc]
  omega

/-- An element of b bytes, read as bytes. -/
theorem elemAt_bytes (m : List Host.Cell) (a b i : Nat) :
    elemAt m a (8 * b) i = leNat (Memory.rdN m (a + b * i) b) % 256 ^ b := by
  unfold elemAt natBits
  rw [show 8 * b * i / 8 = b * i by rw [Nat.mul_assoc]; omega, show 8 * b * i % 8 = 0 by rw [Nat.mul_assoc]; omega,
    show (8 * b + 7) / 8 + 1 = b + 1 by omega, Memory.rdN_add]
  have app : ∀ xs ys : List Byte, leNat (xs ++ ys) = leNat xs + 256 ^ xs.length * leNat ys := by
    intro xs ys
    induction xs with
    | nil => simp [leNat]
    | cons x xs ih => simp only [List.cons_append, leNat, ih, List.length_cons]; ring
  rw [app, Memory.rdN_length, show (2 : Nat) ^ (8 * b) = 256 ^ b by rw [Nat.pow_mul]]
  simp

/-- Each element that is written reads back as its value modulo the width. -/
theorem elemAt_writeElems (m : List Host.Cell) (a b : Nat) (vs : List Nat) (h : Memory.wf m = true) (k : Nat)
    (hk : k < vs.length) : elemAt (writeElems m a (8 * b) vs) a (8 * b) k = vs.getD k 0 % 256 ^ b := by
  rw [writeElems_bytes, elemAt_bytes]
  induction vs generalizing m a k with
  | nil => simp at hk
  | cons v vs ih =>
    rw [packElems_cons, Memory.wrN_append, leBytes_length]
    cases k with
    | zero =>
      have e : Memory.rdN (Memory.wrN (Memory.wrN m a (leBytes b v)) (a + b) (packElems (8 * b) vs)) (a + b * 0) b =
          leBytes b v := by
        rw [Nat.mul_zero, Nat.add_zero]
        have r := Memory.rdN_wrN_same m a (leBytes b v) h
        rw [leBytes_length] at r
        conv_rhs => rw [← r]
        apply Memory.rdN_congr
        intro c h1 h2
        rw [Memory.rd_wrN _ _ _ (Memory.wf_wrN _ _ _ h), if_neg (by omega)]
      rw [e, leNat_leBytes]
      simp
    | succ k =>
      have r := ih (Memory.wrN m a (leBytes b v)) (a + b) (Memory.wf_wrN _ _ _ h) k (by simpa using hk)
      rw [show a + b * (k + 1) = a + b + b * k by ring]
      simpa using r

/-- Bytes outside the run of elements stay. -/
theorem rd_writeElems (m : List Host.Cell) (a b : Nat) (vs : List Nat) (h : Memory.wf m = true) (c : Nat)
    (hc : c < a ∨ a + b * vs.length ≤ c) : Memory.rd (writeElems m a (8 * b) vs) c = Memory.rd m c := by
  rw [writeElems_bytes, Memory.rd_wrN _ _ _ h, packElems_length, if_neg (by omega)]

/-- The tail of a destination is zero, and bytes outside it stay. -/
theorem rd_zeroElems (m : List Host.Cell) (a b n cap c : Nat) :
    Memory.rd (zeroElems m a (8 * b) n cap) c = if a + b * n ≤ c ∧ c < a + b * cap then 0 else Memory.rd m c := by
  unfold zeroElems
  split
  · next h =>
    rw [if_neg]
    have := Nat.mul_le_mul_left b h
    omega
  · rw [if_pos (by rw [Nat.mul_assoc]; omega)]
    simp only [Memory.rd_zero]
    rw [show 8 * b * n / 8 = b * n by rw [Nat.mul_assoc]; omega, show 8 * b * cap / 8 = b * cap by rw [Nat.mul_assoc]; omega]

end Sys2Proof.Machine
end

