-- ==== Sys2Proof/WellFormed.lean ====
section
/-!
DEFINITION. Which commands are well formed: what the sender of a command can send at all. The machine's
meanings do not rest on it; a command that is not well formed is one that the hardware's surroundings cannot
produce.
-/

namespace Sys2Proof

/-- Bits [lo + w − 1 : lo] of a flit header. -/
def hdrBits (f : Flit) (lo w : Nat) : Nat := natBits f.hdr.toNat lo w

/-- A flit's PLEN gives its payload bytes, at most 240 (R483). -/
def Flit.wf (f : Flit) : Bool := hdrBits f 32 8 == f.payload.length && f.payload.length ≤ 240

/-- A one-flit Class A message has CLASS 0, FIRST, LAST and PLEN 32 (R486). -/
def Flit.wfA (f : Flit) : Bool :=
  Flit.wf f && hdrBits f 0 2 == 0 && hdrBits f 3 2 == 3 && f.payload.length == 32

/-- The flits of one message, or a run of them: LAST on the last flit alone if at all, PLEN 240 on every flit
before it (R486). -/
def wfRun : List Flit → Bool
  | [] => false
  | [f] => Flit.wf f
  | f :: r => Flit.wf f && hdrBits f 4 1 == 0 && f.payload.length == 240 && wfRun r

/-- Flits of one class of one message, with FIRST on the first flit alone if at all (R486). -/
def wfMsg (cls : Nat) (fs : List Flit) : Bool :=
  wfRun fs && fs.all (fun f => hdrBits f 0 2 == cls) && fs.tail.all (fun f => hdrBits f 3 1 == 0)

/-- A one-flit message of a class other than A. -/
def wfOne (cls : Nat) (f : Flit) : Bool := wfMsg cls [f] && hdrBits f 3 2 == 3

/-- A gauge is read for a subsystem of its group (R648), and its limit differs from its fresh value (R647). -/
def GaugeReading.wf (r : GaugeReading) : Bool :=
  let i := r.sub.val
  let inGroup := match r.gauge.val with
    | 0 => decide (i < 64)
    | 1 => decide (i < 64)
    | 2 => decide (64 ≤ i ∧ i < 72)
    | 3 => decide (64 ≤ i ∧ i < 72)
    | 4 => decide (84 ≤ i ∧ i < 101)
    | 5 => decide (72 ≤ i ∧ i < 84)
    | _ => decide (i = 101)
  inGroup && r.limit != r.fresh

/-- Upsets of one line name distinct symbols and change them (R416). -/
def wfUpsets (u : List (Fin 68 × Byte)) : Bool := (u.map (·.1)).Nodup && u.all (fun e => e.2 != 0)

/-- Strap conversions come in sets of eight, at most four sets (R574); read pairs at most four (R578). -/
def ReleaseInput.wf (r : ReleaseInput) : Bool :=
  r.strap.length ≤ 4 && r.strap.all (fun c => c.length == 8) && r.fuseReads.length ≤ 4 && r.trimReads.length ≤ 4

/-- A datagram fits a frame of 9,216 bytes, with 14 + 4 of Ethernet, 20 of IPv4, 8 of UDP and its header of 48 (R533, R534). -/
def Datagram.wf (d : Datagram) : Bool := d.payload.length ≤ 9122

/-- The well-formed commands. -/
def Instr.wf : Instr → Bool
  | .thermalTrip _ c => 110 ≤ c.toNat
  | .releaseOrder r => r.wf
  | .hello _ f => f.wfA
  | .marker _ f _ _ => f.wfA
  | .stook _ f => f.wfA
  | .delay _ f _ _ => f.wfA
  | .heartbeat _ f => f.wfA
  | .member _ f => f.wfA
  | .alarm _ f => f.wfA
  | .park _ f => f.wfA
  | .recoveryFault _ f _ => f.wfA
  | .recoveryHalt _ f => f.wfA
  | .recoveryStatus _ f _ => f.wfA
  | .recoveryResume _ f => f.wfA
  | .recoveryLinkdown _ f _ => f.wfA
  | .recoverySeal _ f => f.wfA
  | .recoveryDone _ f => f.wfA
  | .recoveryRetire _ f => f.wfA
  | .idleFlit _ f => f.wf && hdrBits f 2 1 == 1
  | .grad _ fs => wfMsg 1 fs
  | .rup _ f => wfOne 1 f
  | .rdown _ f => wfOne 1 f
  | .greq _ f => wfOne 2 f
  | .rread _ f => wfOne 2 f
  | .rwrite _ fs => wfMsg 2 fs
  | .vhits _ f => wfOne 2 f
  | .gresp _ fs => wfMsg 3 fs
  | .rdata _ fs => wfMsg 3 fs
  | .wack _ f => wfOne 3 f
  | .sack _ f => wfOne 3 f
  | .volAdd _ fs => wfMsg 3 fs
  | .volRefresh _ fs => wfMsg 3 fs
  | .volBump _ fs => wfMsg 3 fs
  | .volDrop _ fs => wfMsg 3 fs
  | .bulk _ fs => wfMsg 3 fs
  | .flitForward _ f => f.wf
  | .scrubRead sram u => wfUpsets u.symbols && !(sram && u.checkLost)
  | .datagramRx d => d.wf
  | .gaugeSample rs => rs.all (fun r => r.wf)
  | .csrWritePlain a _ => 0x7F0000000000 ≤ a.toNat && a.toNat < 0x7F0100000000 && a.toNat % 8 == 0
  | _ => true

end Sys2Proof
end

