-- ==== Sys2Proof/Tests/Slice0.lean ====
section
/-!
SUPPORT. Tests: ill-formed terms that WellFormed refuses; a few results known from outside the model; and, for each
statement of Certificates/Slice0, a witness: concrete states and operands that meet the hypotheses of its clauses.
-/
namespace Sys2Proof.Tests
set_option Elab.async false
open Sys2Proof Sys2Proof.Machine

-- Well-formedness: an ill-formed term for each check, which the check refuses, beside a well-formed one.

/-- A flit with a header and n payload bytes of 0. -/
def flitOf (hdr n : Nat) : Flit := ⟨BitVec.ofNat 128 hdr, List.replicate n 0⟩

theorem test_wf_celsius : Instr.wf (.thermalTrip 0 110) = true ∧ Instr.wf (.thermalTrip 0 109) = false := by decide +kernel
theorem test_wf_flit : Flit.wf (flitOf (240 * 2 ^ 32) 240) = true ∧ Flit.wf (flitOf (2 ^ 32) 0) = false ∧
    Flit.wf (flitOf (241 * 2 ^ 32) 241) = false := by decide +kernel
theorem test_wf_classA : Flit.wfA (flitOf (24 + 32 * 2 ^ 32) 32) = true ∧ Flit.wfA (flitOf (25 + 32 * 2 ^ 32) 32) = false ∧
    Flit.wfA (flitOf (16 + 32 * 2 ^ 32) 32) = false ∧ Flit.wfA (flitOf (8 + 32 * 2 ^ 32) 32) = false ∧
    Flit.wfA (flitOf (24 + 31 * 2 ^ 32) 31) = false := by decide +kernel
theorem test_wf_idle : Instr.wf (.idleFlit 0 (flitOf 4 0)) = true ∧ Instr.wf (.idleFlit 0 (flitOf 0 0)) = false := by decide +kernel
theorem test_wf_run : wfRun [flitOf (8 + 240 * 2 ^ 32) 240, flitOf 16 0] = true ∧ wfRun [] = false ∧
    wfRun [flitOf (24 + 240 * 2 ^ 32) 240, flitOf 16 0] = false ∧ wfRun [flitOf (8 + 239 * 2 ^ 32) 239, flitOf 16 0] = false := by
  decide +kernel
theorem test_wf_message : wfMsg 3 [flitOf (11 + 240 * 2 ^ 32) 240, flitOf 19 0] = true ∧ wfMsg 2 [flitOf 27 0] = false ∧
    wfMsg 3 [flitOf (11 + 240 * 2 ^ 32) 240, flitOf 27 0] = false := by decide +kernel
theorem test_wf_one : wfOne 1 (flitOf 25 0) = true ∧ wfOne 1 (flitOf 9 0) = false := by decide +kernel
theorem test_wf_gauge : GaugeReading.wf ⟨0, 63, 0, 0, 4⟩ = true ∧ GaugeReading.wf ⟨0, 64, 0, 0, 4⟩ = false ∧
    GaugeReading.wf ⟨2, 63, 0, 0, 4⟩ = false ∧ GaugeReading.wf ⟨3, 72, 0, 0, 4⟩ = false ∧ GaugeReading.wf ⟨4, 83, 0, 0, 4⟩ = false ∧
    GaugeReading.wf ⟨5, 84, 0, 0, 4⟩ = false ∧ GaugeReading.wf ⟨6, 100, 0, 0, 4⟩ = false ∧
    GaugeReading.wf ⟨0, 0, 0, 4, 4⟩ = false := by decide +kernel
theorem test_wf_upsets : wfUpsets [(0, 1), (67, 255)] = true ∧ wfUpsets [(5, 1), (5, 2)] = false ∧ wfUpsets [(5, 0)] = false := by
  decide +kernel
theorem test_wf_release : ReleaseInput.wf {} = true ∧ ReleaseInput.wf { strap := List.replicate 5 (List.replicate 8 0) } = false ∧
    ReleaseInput.wf { strap := [List.replicate 7 0] } = false ∧ ReleaseInput.wf { fuseReads := List.replicate 5 (0, 0) } = false ∧
    ReleaseInput.wf { trimReads := List.replicate 5 (0, 0) } = false := by decide +kernel
theorem test_wf_datagram : Datagram.wf ⟨0, [], 0, 0, 0⟩ = true ∧ Datagram.wf ⟨0, List.replicate 9123 0, 0, 0, 0⟩ = false := by
  decide +kernel
theorem test_wf_csr : Instr.wf (.csrWritePlain 0x7F00000000F8 0) = true ∧ Instr.wf (.csrWritePlain 0x7EFFFFFFFFF8 0) = false ∧
    Instr.wf (.csrWritePlain 0x7F0100000000 0) = false ∧ Instr.wf (.csrWritePlain 0x7F0000000004 0) = false := by decide +kernel

-- Results known from outside the model.

/-- The check value of CRC-32C for the digits 1 to 9, from its published parameters. -/
theorem test_crc32c : crc32c [0x31, 0x32, 0x33, 0x34, 0x35, 0x36, 0x37, 0x38, 0x39] = 0xE3069283 := by decide +kernel
/-- The known answer of Philox4x32-10 for a key and counter of zeros. -/
theorem test_philox : philox 0 0 0 0 0 = [0x6627E8D5, 0xE169C58D, 0xBC57AC4C, 0x9B00DBD8] := by decide +kernel
/-- SHAKE256 of no bytes begins 46 B9 DD 2B. -/
theorem test_shake256 : (shake256 [] 32).take 4 = [0x46, 0xB9, 0xDD, 0x2B] := by decide +kernel

-- Witnesses: for the hypotheses of each statement, a state and operands that meet them.

/-- The state after reset with pins set. -/
def pinned (x : PinSt) : State := { State.reset with pins := x }

/-- A module alone in its fabric, its own furrow master; with its furrow unit enabled; and with the host port up. -/
def alone : State := { State.reset with mems := { members := [0] } }
def ticking : State := alone.setBit furCtrl 0
def hosted : State := { alone with pins := { alone.pins with hostUp := true } }

/-- A member of a fabric whose master is chip 0: chip 1, its port 0 UP towards chip 0, with both chips routed. -/
def linked : State :=
  (((({ State.reset with mems := { members := [0, 1] } } : State).setReg spxId 1).setReg (spxRoute 0) (BitVec.ofNat 64 (2 ^ 33 + 1))).setReg
    (spxRoute 1) (BitVec.ofNat 64 (2 ^ 33))).setPort
    0 { st := .up, nbrChip := 0, credA := 64, credB := 64, credC := 64, credD := 64 }

theorem test_alone_is_master : alone.isMaster = true ∧ linked.isMaster = false ∧ linked.master = some 0 := by decide +kernel
theorem test_reset_idles : step State.reset = .next State.reset := rfl
theorem witness_EveryStepKeepsMemoryCanonical : State.reset.Sound ∧ step State.reset = .next State.reset := ⟨rfl, rfl⟩
theorem witness_FusesOnlyBlow : step ticking = .next ticking := rfl
theorem witness_WriteProtectHoldsTheFlash : exec .holdoverEntry State.reset = .next State.reset ∧ State.reset.pins.wpN = false :=
  ⟨rfl, rfl⟩
theorem witness_LatchesHoldUntilPowerDown : ∃ t, exec .powerOn (pinned { ovLatch := true, tripLatch := true }) = .next t ∧
    t.pins.ovLatch = true ∧ t.pins.tripLatch = true := ⟨_, rfl, by decide +kernel, by decide +kernel⟩

theorem witness_PowerCommands : (pinned {}).pins.supervisory = false ∧
    (let p := (pinned { supervisory := true }).pins
     p.supervisory = true ∧ p.pwrGood = false ∧ p.ovLatch = false ∧ p.tripLatch = false) ∧
    (pinned { ovLatch := true }).pins.ovLatch = true ∧ (pinned { tripLatch := true }).pins.tripLatch = true ∧
    State.reset.pins.supervisory = true ∧ 110 ≤ (110 : BitVec 8).toNat := by decide +kernel

/-- A strip reset under way, applied or not. -/
def blockOf (applied : Bool) : State := { State.reset with block := some ⟨1, 63, applied⟩ }

/-- Strip 63 has a command in flight, so that it is not idle. -/
def blockBusy : State := (blockOf false).setEng (engTil 63) { inFlight := 1 }

theorem witness_ResetsAndTheirRegisters :
    (State.reset.pins.supervisory = true ∧ State.reset.pins.resetN = true ∧ State.reset.pins.pwrGood = true) ∧
    (pinned { supervisory := true }).pins.pwrGood = false ∧ (pinned { pulse := .measuring }).pins.pulse = .measuring ∧
    (pinned { pulse := .warm }).pins.pulse = .warm ∧ (pinned { supervisory := true, resetN := false }).pins.resetN = false ∧
    State.reset.stile.staging = none ∧ (pinned { causes := [.powerOn], releasing := true }).pins.releasing = true ∧
    ({ State.reset with stile := { staging := some ⟨0, 0x7800000, [1, 2], false⟩ } } : State).stile.staging =
      some ⟨0, 0x7800000, [1, 2], false⟩ ∧
    ((State.reset.setFld rstStatus 0 5 26).setBit rstCtrl 0).watchdogRuns = true ∧
    (State.reset.setFld rstStatus 0 5 26).ready = true ∧ State.reset.releaseDue = true ∧ State.reset.firstSlotBad = true ∧
    State.reset.goAllowed 1 63 = true ∧ State.reset.goAllowed 2 11 = true ∧ State.reset.goAllowed 3 31 = true ∧
    (blockOf false).blockIdle 1 63 = true ∧ blockBusy.blockIdle 1 63 = false ∧ (blockOf true).block = some ⟨1, 63, true⟩ := by
  decide +kernel

/-- The outcomes of the release order whose boot finds no image, and of one whose fuse reads never agree. The other two
follow below, where the verification of the image's signature, which the model leaves open (log entry 7), succeeds. -/
theorem witness_ReleaseOrder : State.reset.releaseDue = true ∧
    (State.reset.releaseFuses {}).2 = true ∧
    (tryBoot ((State.reset.releaseFuses {}).1.bootOrder (State.reset.releaseFuses {}).1.strapModeNow) false
      (State.reset.releaseFuses {}).1).2 = false ∧
    (State.reset.toRecovery.releaseTrim {}).2 = true ∧
    (State.reset.toRecovery.releaseTrim { trimReads := List.replicate 4 (0, 1) }).2 = false ∧
    (State.reset.releaseFuses { fuseReads := List.replicate 4 (0, 1) }).2 = false ∧
    (∀ k ∈ [1, 2], (State.reset.releaseFuses { cut := some ⟨k, 0⟩ }).2 = true ∧
      (State.reset.toRecovery.releaseTrim { cut := some ⟨k, 0⟩ }).2 = true) := by decide +kernel

/-- A seed image of 512 bytes: seven empty sections, for this part. -/
def seedHeader : List Byte :=
  padTo 512 (leBytes 8 0x534545445434384C ++ leBytes 2 0x48 ++ leBytes 2 0x4101 ++ leBytes 4 0 ++ leBytes 4 512 ++ leBytes 2 7 ++
    leBytes 106 0 ++ [1, 2, 3, 4, 5, 6, 7].flatMap (fun t => leBytes 16 t))
/-- The fuses of a part whose buyer's key is the image's. -/
def seedFuses : BitVec 4096 :=
  let f := State.resetFuses.toNat % 2 ^ 4000 + leNat (shake256 ((seedHeader.drop 32).take 68) 32) * 2 ^ 96
  BitVec.ofNat 4096 (f + (crc32c (leBytes 500 f)).toNat * 2 ^ 4000)
/-- The bytes of the flash with such an image in a slot. -/
def seedFlash (b : Bool) : Tab Byte := (seedHeader.zipIdx (slotBase b)).map (fun x => (x.2, x.1))
/-- The module right after a cold reset with such an image in slot A. -/
def imaged : State :=
  { State.reset with stile := { State.reset.stile with fuses := seedFuses, flash := seedFlash false } }
def seedIn : State := (imaged.releaseFuses {}).1
theorem get_zipIdx (l : List Byte) (k i : Nat) (h : i < l.length) :
    Tab.get ((l.zipIdx k).map (fun x => (x.2, x.1))) 0xFF (k + i) = l[i] := by
  induction l generalizing k i with
  | nil => simp at h
  | cons b r ih =>
    rcases i with _ | i
    · simp [Tab.get, Tab.look]
    · have e : k + (i + 1) = k + 1 + i := by omega
      have j := ih (k + 1) i (by simpa using h)
      simp only [Tab.get] at j ⊢
      simp only [List.zipIdx_cons, List.map_cons, Tab.look]
      rw [if_neg (by omega), e, j]
      rfl
theorem seed_flash (s : State) (b : Bool) (h : s.stile.flash = seedFlash b) :
    s.flashBytes (slotBase b) seedHeader.length = seedHeader := by
  refine List.ext_getElem (by simp [State.flashBytes]) (fun i a c => ?_)
  simp only [State.flashBytes, List.getElem_map, List.getElem_range, h, seedFlash]
  exact get_zipIdx seedHeader (slotBase b) i c
theorem releaseFuses_flash (s : State) (inp : ReleaseInput) : (s.releaseFuses inp).1.stile.flash = s.stile.flash := by
  unfold State.releaseFuses
  generalize readPairs fusePairOk s.stile.fuses 4 inp.fuseReads 0 = g
  obtain ⟨_ | ⟨a, b⟩, rep⟩ := g <;> simp
  split <;> split <;> rfl
theorem seed_length : seedHeader.length = 512 := by decide +kernel
theorem seed_order : seedIn.bootOrder seedIn.strapModeNow = [(false, false, false), (true, false, true)] ∧ seedIn.stile.slot false = 0 ∧
    seedIn.stile.outputs = seedFuses ∧ seedIn.stile.minSvn = 0 ∧ seedIn.stile.flash = seedFlash false := by
  refine ⟨by decide +kernel, by decide +kernel, by decide +kernel, by decide +kernel, ?_⟩
  unfold seedIn
  rw [releaseFuses_flash]
  rfl
theorem seed_checks : msgNat seedHeader 0 8 = 0x534545445434384C ∧ msgNat seedHeader 16 4 = 512 ∧ msgNat seedHeader 20 2 = 7 ∧
    leNat (shake256 ((seedHeader.drop 32).take 68) 32) = fuseField seedFuses 96 256 ∧ msgNat seedHeader 8 2 = fuseField seedFuses 64 16 ∧
    msgNat seedHeader 10 2 = fuseField seedFuses 80 16 ∧ msgNat seedHeader 12 2 = 0 ∧ sectsOk seedHeader (imageSects seedHeader) = true := by
  decide +kernel
theorem verify_good (s : State) (b : Bool) (hd : List Byte) (hb : s.flashBytes (slotBase b) 512 = hd) (h0 : msgNat hd 0 8 = 0x534545445434384C)
    (h1 : msgNat hd 16 4 = 512) (h2 : msgNat hd 20 2 = 7) (h3 : leNat (shake256 ((hd.drop 32).take 68) 32) = fuseField s.stile.outputs 96 256)
    (h4 : msgNat hd 8 2 = fuseField s.stile.outputs 64 16) (h5 : msgNat hd 10 2 = fuseField s.stile.outputs 80 16)
    (h6 : s.stile.minSvn ≤ msgNat hd 12 2) (h7 : sectsOk hd (imageSects hd) = true)
    (hx : Config.xmssVerify ((hd.drop 32).take 68) hd (s.flashBytes (slotBase b + 512) 2820) = true) :
    s.verifySlot b = .good (parseImage b hd (imageSects hd)) := by
  simp [State.verifySlot, hb, h0, h1, h2, h3, h4, h5, h7, hx, Nat.not_lt.mpr h6]
theorem tryBoot_good (s : State) (r : List (Bool × Bool × Bool)) (img : SeedImage) (h : s.stile.slot false = 0) (v : s.verifySlot false = .good img) :
    tryBoot ((false, false, false) :: r) false s =
      (s.bootSlot false false false img, true) := by
  simp [tryBoot, State.trySlot, h, v]
/-- Where the signature verifies, the release order ends at READY. -/
theorem witness_ReleaseOrder_ready
    (h : Config.xmssVerify ((seedHeader.drop 32).take 68) seedHeader (seedIn.flashBytes 512 2820) = true) :
    imaged.releaseDue = true ∧ imaged.warmKind = false ∧ (imaged.releaseFuses {}).2 = true ∧
    (tryBoot (seedIn.bootOrder seedIn.strapModeNow) false seedIn).2 = true ∧
    ((tryBoot (seedIn.bootOrder seedIn.strapModeNow) false seedIn).1.releaseTrim {}).2 = true ∧
    ((tryBoot (seedIn.bootOrder seedIn.strapModeNow) false seedIn).1.releaseTrim { cut := some ⟨9, 0⟩ }).2 = true ∧
    ((tryBoot (seedIn.bootOrder seedIn.strapModeNow) false seedIn).1.releaseTrim { trimReads := List.replicate 4 (0, 1) }).2 = false := by
  obtain ⟨o, sl, fu, ms, fl⟩ := seed_order
  have fb := seed_flash seedIn false fl
  rw [seed_length] at fb
  obtain ⟨a, b, c, d, e, f, g, i⟩ := seed_checks
  have v := verify_good seedIn false seedHeader fb a b c (fu ▸ d) (fu ▸ e) (fu ▸ f) (Nat.le_of_eq (ms.trans g.symm)) i h
  rw [o, tryBoot_good seedIn _ _ sl v]
  refine ⟨by decide +kernel, by decide +kernel, by decide +kernel, rfl, ?_, ?_, ?_⟩ <;> decide +kernel

theorem witness_RefusedGoOnlySetsRefused : ((BitVec.ofNat 64 (2 ^ 16 + 1) : Word).getLsbD 16 = true ∧ (blockOf false).block.isSome = true) ∧
    ((BitVec.ofNat 64 (2 ^ 16 + 64 * 2 ^ 8 + 1) : Word).toNat / 2 ^ 8 % 2 ^ 8 = 64) ∧
    ((BitVec.ofNat 64 (2 ^ 16 + 2) : Word).toNat % 8 = 2 ∧ ticking.bit furCtrl 0 = true) := by decide +kernel

/-- A plan of a step, and an engine that has it queued or runs it. -/
def planOf (bound count addr : Nat) : Plan := ⟨BitVec.ofNat 48 addr, BitVec.ofNat 16 count, 0, 0, true, false, 5, BitVec.ofNat 32 bound, 0, false⟩
def queued (tick : Word) : State :=
  { ticking.setEng 0 { queue := [planOf 1000 1 0x4000] } with furCount := 9, fur := { starts := [(5, tick)] } }

theorem witness_FurrowTicks : ticking.mayTick = true ∧ State.reset.bit furCtrl 0 = false ∧
    ({ ticking with pow := { st := 2 } } : State).linksDark = true ∧
    ((ticking.setEng 0 { running := some (planOf 1000 1 0) }).eng 0).running = some (planOf 1000 1 0) ∧
    (((queued 9).eng 0).running = none ∧ ((queued 9).eng 0).queue = [planOf 1000 1 0x4000] ∧
      (queued 9).due (planOf 1000 1 0x4000) = some 9 ∧ (queued 9).engClosed 0 = false ∧ listReach 0x4000 64 false = true ∧
      (queued 9).errLines 0x4000 64 = []) ∧
    (queued 10).due (planOf 1000 1 0x4000) = some 10 ∧
    ((queued 5).due (planOf 1000 1 0x4000) = some 5 ∧ 5 + (queued 5).slack ≤ (queued 5).furCount.toNat) := by decide +kernel

/-- A number worked out before it is used. -/
def force {α : Type} (n : Nat) (k : Nat → α) : α :=
  match n with
  | 0 => k 0
  | m + 1 => k (m + 1)
/-- A flit with its CRC. -/
def crcd (f : Flit) : Flit := force (f.set 96 32 f.crcOf.toNat).hdr.toNat (fun h => ⟨BitVec.ofNat 128 h, f.payload⟩)
/-- A Class A message of 32 bytes on port 0 for a chip, with its CRC, as the first flit of the link. -/
def flitA (typ dest : Nat) (mcast : Bool) (bs : List Byte) : Flit := crcd ((mkFlit 0 typ dest true true mcast (padTo 32 bs)).set 48 16 1)

/-- A message arrives whole, and the state that it leaves and its bytes have a property. -/
def hits (r : Rx) (p : State → List Byte → Bool) : Bool :=
  match r with
  | .msg t _ bs => p t bs
  | _ => false

theorem hits_got (r : Rx) (p : State → List Byte → Bool) (h : hits r p = true) : ∃ t g bs, r = .msg t g bs ∧ p t bs = true := by
  cases r with
  | msg t g bs => exact ⟨t, g, bs, rfl, h⟩
  | unfit => cases h
  | taken t => cases h

theorem test_flit_arrives : hits (linked.rx 0 0 0x07 [flitA 0x07 1 false (recBytes 5 0 0 0 0 7 0 0 0)])
    (fun _ bs => msgNat bs 0 1 == 5 && msgNat bs 16 4 == 7 && bs.length == 32) = true := by decide +kernel

theorem witness_FurrowUnitAndMarkers : ({ State.reset with fur := { sync := .locked } } : State).fur.sync = .locked ∧
    (ticking.isMaster = true ∧ ticking.bit furCtrl 0 = true ∧ ticking.linksDark = false) ∧
    ((16 : Word).toNat / 4 % 8 ≤ 4 ∧ 5 ≤ (20 : Word).toNat / 4 % 8) ∧
    (5000 ≤ (5000 : Word).toNat % 2 ^ 20 ∧ (1000000 : Word).toNat % 2 ^ 20 ≤ 1000000 ∧ (4999 : Word).toNat % 2 ^ 20 < 5000 ∧
      1000000 < (1000001 : Word).toNat % 2 ^ 20) ∧ State.reset.isMaster = false ∧ ticking.fur.leads = false ∧
    ({ ticking with fur := { leads := true } } : State).isMaster = true ∧ ({ ticking with fur := { leads := true } } : State).fur.leads = true := by
  decide +kernel

/-- Markers of the master at a member, of 10 hops, 11 hops and a kind that does not exist; and one at the master. -/
def markerFlit (kind hops : Nat) : Flit := flitA 0x01 0 true (markerBytes 100 5000 0 25000 kind hops 0)
/-- Chip 0 leads, and a port of it is UP. -/
def leader : State :=
  ((ticking.setReg (spxRoute 0) (BitVec.ofNat 64 (2 ^ 33))).setReg (spxRoute 1) (BitVec.ofNat 64 (2 ^ 33 + 1))).setPort 0
    { st := .up, nbrChip := 1, credA := 64 }
def goodMarker (t : State) (bs : List Byte) : Bool :=
  decide (msgNat bs 24 4 / 2 ^ 24 % 16 ≤ 10) && decide (msgNat bs 24 4 / 2 ^ 20 % 16 ≤ 1) && t.master == some (msgNat bs 28 2)
theorem goodMarker_iff (t : State) (bs : List Byte) : goodMarker t bs = true ↔ MarkerGood t bs := by
  simp [goodMarker, MarkerGood, and_assoc]
theorem witness_markers :
    hits (linked.rx 0 0 0x01 [markerFlit 0 10] true) (fun t bs => goodMarker t bs && !t.isMaster && !t.bit furCtrl 0) = true ∧
    hits ((linked.setBit furCtrl 0).rx 0 0 0x01 [markerFlit 0 10] true) (fun t bs => goodMarker t bs && !t.isMaster && t.bit furCtrl 0 &&
      t.fur.sync == .free) = true ∧
    hits (linked.rx 0 0 0x01 [markerFlit 1 10] true) (fun t bs => goodMarker t bs) = true ∧
    hits (linked.rx 0 0 0x01 [markerFlit 0 11] true) (fun t bs => !goodMarker t bs) = true ∧
    hits (linked.rx 0 0 0x01 [markerFlit 2 0] true) (fun t bs => !goodMarker t bs) = true ∧
    hits (leader.rx 0 0 0x01 [markerFlit 0 10] true) (fun t bs => goodMarker t bs && t.isMaster) = true := by decide +kernel
theorem witness_phase : phaseNear (BitVec.ofInt 32 50000) ∧ phaseNear (BitVec.ofInt 32 (-50000)) ∧ ¬ phaseNear (BitVec.ofInt 32 50001) ∧
    phaseFar (BitVec.ofInt 32 1000001) ∧ ¬ phaseFar (BitVec.ofInt 32 1000000) ∧ phaseFar (BitVec.ofInt 32 (-1000001)) := by
  unfold phaseNear phaseFar; decide +kernel
theorem witness_sync_states : ({ linked with fur := { sync := .acquire, nextTick := some 5, goodMarkers := 15 } } : State).fur.goodMarkers = 15 ∧
    ({ linked with fur := { sync := .holdover } } : State).fur.sync = .holdover := by decide +kernel
theorem witness_HoldoverTimeoutFaults : ({ State.reset with fur := { sync := .holdover } } : State).fur.sync = .holdover := rfl

/-- A posting FIFO of strip 0 with one entry. -/
def posted (k : Nat) (x : Post) : State := ticking.setFifo 0 k [x]
def cmd0 (word : Nat) : QCmd := ⟨0, BitVec.ofNat 512 word, 0, true, 0, 0, false, true⟩
theorem witness_PlansEnterAndComplete :
    (∀ p ∈ [planOf 250000 1 64, planOf 250001 1 64, planOf 250000 0 64, planOf 250000 1 65],
      ((posted 0 (.plan 0 p)).fifo 0 0)[0]? = some (.plan 0 p) ∧ entryReady ((posted 0 (.plan 0 p)).fifo 0 0) 0 0 (.plan 0 p) = true ∧
      (posted 0 (.plan 0 p)).engClosed 0 = false ∧ ((posted 0 (.plan 0 p)).eng 0).queue.length < 4) ∧
    ((planOf 250000 1 64).bound.toNat ≤ ticking.periodNs ∧ ticking.periodNs < (planOf 250001 1 64).bound.toNat) ∧
    ((posted 4 (.command 320 (cmd0 0))).fifo 0 4)[0]? = some (.command 320 (cmd0 0)) ∧
    (let s := ticking.setEng 320 { running := some (planOf 1 1 0) }
     (s.eng 320).running = some (planOf 1 1 0) ∧ (s.eng 320).cmds = [] ∧ (s.eng 320).inFlight = 0 ∧ (s.eng 320).stuck = false) := by
  decide +kernel

/-- A thread of strip 0 waits on counter 47 for n. -/
def waiting (n : Nat) : State :=
  { (ticking.setThread 0 0 { st := .wait, waitCtr := 47 }) with waiters := [(ctrKey 0 47, [⟨.thread 0, n⟩])] }
/-- Counter 0 of strip 0 is a node with an action and has fired. -/
def firing (act rest : Nat) : State := { linked.setReg (stkNode 0 0) (BitVec.ofNat 64 (1 + act * 2 ^ 24 + rest)) with fires := [(0, 0)] }
theorem witness_StookCountersAndNodes : Tab.get (waiting 3).waiters [] (ctrKey 0 47) = [⟨.thread 0, 3⟩] ∧
    ((waiting 3).thread 0 0).st = .wait ∧ 2 ^ 24 ≤ ((ticking.setCtr 0 47 (BitVec.ofNat 24 (2 ^ 24 - 1))).ctr 0 47).toNat + 1 ∧
    (∀ act ∈ [0, 1, 2, 3], (firing act 0).fires.contains (0, 0) = true ∧ ((firing act 0).reg (stkNode 0 0)).toNat / 2 ^ 24 % 4 = act) ∧
    (((firing 1 0).port 0).st = .up ∧ (firing 1 0).live ((firing 1 0).port 0).nbrChip.toNat = true ∧
      ({ firing 1 0 with mems := { members := [1] } } : State).live ((firing 1 0).port 0).nbrChip.toNat = false) ∧
    (firing 2 0).fld (stkChild 0 0) 0 32 = 0 ∧ (firing 3 0).targetTick 0 < 2 ^ 64 ∧ (firing 3 0).fld (stkNode 0 0) 0 24 = 1 ∧
    State.reset.bit furCtrl 0 = false ∧ ticking.bit furCtrl 0 = true ∧
    ((BitVec.ofNat 64 (47 * 2 ^ 38 + 63 * 2 ^ 44) : Word).toNat / 2 ^ 44 % 64 = 63) ∧
    (48 ≤ (BitVec.ofNat 64 (48 * 2 ^ 38) : Word).toNat / 2 ^ 38 % 64) ∧ ((BitVec.ofNat 64 (62 * 2 ^ 44) : Word).toNat / 2 ^ 44 % 64 = 62) := by
  decide +kernel

theorem witness_SensorsGaugesAndWear : sensorRaises .vin 43999 = true ∧ sensorRaises .vin 54001 = true ∧ sensorRaises .tj 106 = true ∧
    sensorRaises .coolant 46 = true ∧ sensorClears .vin 44000 = true ∧ sensorClears .vin 54000 = true ∧ sensorClears .tj 102 = true ∧
    sensorClears .coolant 44 = true ∧ sensorRaises .tj 105 = false ∧ State.reset.pins.supervisory = true ∧ State.reset.pow.st = 0 := by
  decide +kernel
theorem witness_margins : ∀ sub g, State.reset.margin sub g ≤ 65535 := fun _ _ => Nat.le_refl _

/-- A module whose DRAM is trained and scrubbed, with symbol errors in the line at MEM_SCRUB_POS. -/
def scrubbing (errs : List (Nat × Byte)) : State :=
  { ((State.reset.setBit memStatus 0).setBit memCtrl 0).clrBit memStatus 1 with flips := if errs.isEmpty then [] else [(0, errs)] }
def isFixed : Decoded → Bool
  | .fixed _ => true
  | _ => false
def isBad : Decoded → Bool
  | .bad _ => true
  | _ => false

/-- One or two wrong symbols of a line are corrected and leave nothing (R414). -/
theorem test_reed_solomon : decodeLine [(67, 255)] = .fixed [] ∧ decodeLine [(0, 1), (1, 255)] = .fixed [] := by decide +kernel
theorem witness_ScrubbingAndMemoryRegisters :
    (∀ e ∈ [[], [(0, 1)], [(0, 1), (1, 1), (2, 1)]], (scrubbing e).bit memStatus 0 = true ∧ (scrubbing e).bit memCtrl 0 = true ∧
      (scrubbing e).bit memStatus 1 = false ∧ (scrubbing e).fld memScrubPos 0 48 < dramEnd) ∧
    isFixed ((scrubbing [(0, 1)]).decode 0) = true ∧ isBad (({ scrubbing [] with lost := [0] } : State).decode 0) = true ∧
    ((scrubbing []).flips = [] ∧ (scrubbing []).lost = []) ∧
    (let s : State := { State.reset with wbq := [⟨64, [], false⟩, ⟨128, [], true⟩] }
     s.wbq = [⟨64, [], false⟩, ⟨128, [], true⟩] ∧ Memory.wf s.mem = true ∧ s.bit memStatus 1 = false ∧
       (s.setBit memStatus 1).wbq = s.wbq ∧ (s.setBit memStatus 1).bit memStatus (if inDram 64 then 1 else 2) = true) := by decide +kernel

-- Headland.

/-- A Headland word: class, OP, RD, RA, RB, I and the low bits. -/
def hw (cls op rd ra rb i low : Nat) : Word :=
  BitVec.ofNat 64 (cls * 2 ^ 62 + op * 2 ^ 56 + rd * 2 ^ 51 + ra * 2 ^ 46 + rb * 2 ^ 41 + i * 2 ^ 40 + low)
/-- Thread 0 of strip 0 runs at the start of its slice, with registers. -/
def running (modeF : Bool) (regs : Tab Word) : State :=
  alone.setThread 0 0 { st := .run, pc := BitVec.ofNat 48 plotBase, regs := regs, modeF := modeF }
/-- The line of its PC in the instruction cache of strip 0, with a word first. -/
def fetched (w : Word) (s : State) : State := { s with icache := [(icKey 0 plotBase, leBytes 8 w.toNat ++ leBytes 56 0)] }
def hdlRows : List (Nat × Nat) :=
  (List.range 0x13).map (fun op => (0, op)) ++ (List.range 8).map (fun k => (0, 0x20 + k)) ++
    [(1, 0), (1, 1), (1, 2), (1, 3), (1, 4), (1, 5), (1, 6), (1, 8), (1, 9), (1, 10), (1, 11), (1, 0x10), (1, 0x11), (2, 0), (2, 1),
     (2, 2), (2, 3), (2, 4), (2, 8), (2, 9), (2, 0xC), (2, 0x10), (3, 0x10)]
/-- Every row of Headland has a ready thread. -/
theorem witness_HdlReady : ∀ x ∈ hdlRows,
    HdlReady (fetched (hw x.1 x.2 1 1 2 0 0) (running false [])) 0 0 (hw x.1 x.2 1 1 2 0 0) x.1 x.2 := by
  unfold HdlReady; decide +kernel
/-- A word that memory holds and no cache is fetched too. -/
theorem witness_fetch_fills : HdlReady ((running false []).poke plotBase (leBytes 8 (hw 2 0x10 0 0 0 0 0).toNat)) 0 0
    (hw 2 0x10 0 0 0 0 0) 2 0x10 := by unfold HdlReady; decide +kernel

/-- The exact results of the ALU on numbers whose results the manual's words give: a sum that wraps, a shift by 64 that takes
b mod 64, the high half of a product, signed and unsigned orders (R224). -/
def aluOf (op : Nat) (a b : Word) (row : Strip → Thread → Word → Instr) : Option Word :=
  match exec (row 0 0 (hw 0 op 3 1 2 0 0)) (fetched (hw 0 op 3 1 2 0 0) (running false [(1, a), (2, b)])) with
  | .next t => some ((t.thread 0 0).x 3)
  | _ => none
theorem test_alu : aluOf 0 0xFFFFFFFFFFFFFFFF 1 .hdlAdd = some 0 ∧ aluOf 5 1 65 .hdlShl = some 2 ∧
    aluOf 7 0x8000000000000000 63 .hdlShra = some 0xFFFFFFFFFFFFFFFF ∧ aluOf 9 0x8000000000000000 4 .hdlMulhu = some 2 ∧
    aluOf 0xA 0xFFFFFFFFFFFFFFFF 0 .hdlSlt = some 1 ∧ aluOf 0xB 0xFFFFFFFFFFFFFFFF 0 .hdlSltu = some 0 := by decide +kernel

theorem witness_HeadlandBranchesAndJumps : (3 : Word) ≠ 4 ∧
    (((running false [(1, 16)]).thread 0 0).a (hw 0 0x27 1 1 0 0 8) + hdlImm (hw 0 0x27 1 1 0 0 8)).toNat % 8 = 0 ∧
    (((running false [(1, 16)]).thread 0 0).a (hw 0 0x27 1 1 0 0 4) + hdlImm (hw 0 0x27 1 1 0 0 4)).toNat % 8 ≠ 0 := by decide +kernel

/-- A load or store at an address in x1. -/
def mayAt (modeF : Bool) (a n : Nat) : Prop :=
  let s := running modeF [(1, BitVec.ofNat 64 a)]
  HdlMay (s.thread 0 0).modeF ((s.thread 0 0).addr (hw 1 0 3 1 2 0 0)) n ∧ s.errLines ((s.thread 0 0).addr (hw 1 0 3 1 2 0 0)) n = []
theorem witness_HeadlandMemoryAccesses : mayAt false (bufEnd - 1) 1 ∧ mayAt false (plotEnd - 2) 2 ∧ mayAt false (dumpBase - 4) 4 ∧
    mayAt true (dramEnd - 8) 8 ∧ mayAt false winBaseAddr 8 ∧
    (spans inPlot plotBase 8 = true ∧ spans inBuf (bufEnd - 8) 8 = true ∧ Memory.wf (running false []).mem = true) ∧
    (((running true [(1, BitVec.ofNat 64 csrBase)]).thread 0 0).modeF = true ∧
      ((running true [(1, BitVec.ofNat 64 csrBase)]).thread 0 0).addr (hw 1 3 3 1 2 0 0) % 8 = 0 ∧
      spans inCsr (((running true [(1, BitVec.ofNat 64 csrBase)]).thread 0 0).addr (hw 1 3 3 1 2 0 0)) 8 = true) := by
  unfold mayAt HdlMay; decide +kernel

theorem witness_HeadlandModeJIsRefused : ((running false []).thread 0 0).modeF = false ∧
    inCsr (((running false [(1, BitVec.ofNat 64 csrBase)]).thread 0 0).addr (hw 1 0 3 1 2 0 0)) = true ∧
    (dumpBase ≤ ((running false [(1, BitVec.ofNat 64 dumpBase)]).thread 0 0).addr (hw 1 0 3 1 2 0 0)) ∧
    (((running false [(1, BitVec.ofNat 64 (dramEnd - 1))]).thread 0 0).a (hw 2 8 3 1 2 0 0)).toNat < dramEnd := by decide +kernel

/-- A queue of n Winnow instructions of thread 0, the front one given. -/
def winIns (w xa xb : Word) : WinIns := { word := w, xa := xa, xb := xb, pc := 0 }
def winning (c : WinCtx) (s : State) : State := s.setWctx 0 0 c
theorem witness_HeadlandSyncPostsAndPasses :
    (hdlCtr (hw 2 0 0 1 2 1 (47 * 2 ^ 32)) = 47 ∧ hdlCtr (hw 2 0 0 1 2 0 (48 * 2 ^ 32)) = 48 ∧
      (((running false [(2, BitVec.ofNat 64 (2 ^ 24 - 1))]).thread 0 0).b (hw 2 0 0 1 2 0 0)).toNat = 2 ^ 24 - 1 ∧
      (((running false []).thread 0 0).b (hw 2 1 0 1 2 0 0)).toNat = 0) ∧
    WinQuiet (running false []) 0 0 ∧
    ((({ running false [] with mems := { members := [0, 1] } } : State).live 1 = true ∧ (running false []).chip = 0) ∧
      (running false []).live 1 = false) ∧
    ((winning { queue := [winIns 0 0 0] } (running false [])).wctx 0 0).queue ≠ [] ∧ (running false []).isNode 0 47 = false ∧
    ((running false [(1, BitVec.ofNat 64 (47 * 2 ^ 22))]).thread 0 0).a (hw 2 4 0 1 2 0 0) = BitVec.ofNat 64 (47 * 2 ^ 22) ∧
    (fifoOf 0 0 = some 0 ∧ fifoOf 63 320 = some 4 ∧ (running false []).fifoFull 0 0 = false ∧
      ((running false []).setFifo 0 0 (List.replicate 8 (.plan 0 (planOf 1 1 0)))).fifoFull 0 0 = true ∧
      (running false []).tooLate (Machine.planOf ((running false []).peeks plotBase 32) 0 false) = false ∧
      (running true []).bit furCtrl 0 = false) ∧ mayAt true plotBase 64 ∧
    ((running false []).winnow 0).halted = false ∧
    (((running false []).setWinnow 0 { halted := true }).winnow 0).halted = true := by
  unfold mayAt HdlMay WinQuiet; decide +kernel
/-- A full bucket has a token, and an empty one has none where no time has refilled it. -/
theorem witness_tokens : (running false []).tokensNow 0 ≠ 0 ∧ ((Config.freeReading (hdlBase 0) 0).toNat % 17 = 0 →
    ({ running false [] with tokens := [(0, 0)] } : State).tokensNow 0 = 0) := by
  constructor
  · show min 16 (16 + _) ≠ 0
    omega
  · intro h
    show min 16 (0 + (Config.freeReading (hdlBase 0) 0).toNat % 17) = 0
    omega

-- Winnow.

/-- A Winnow word: OP, TD, TA, TB, TC, FMT, FMT2 and the low bits. -/
def ww (op td ta tb tc f g low : Nat) : Word :=
  BitVec.ofNat 64 (op * 2 ^ 56 + td * 2 ^ 50 + ta * 2 ^ 44 + tb * 2 ^ 38 + tc * 2 ^ 32 + f * 2 ^ 28 + g * 2 ^ 24 + low)
/-- Thread 0's front instruction, with a count of n and registers xa and xb. -/
def fronted (w xa xb : Word) (n : Nat) : State := winning { queue := [winIns w xa xb], c0 := n } (running false [])
def winRows : List Nat :=
  [0, 1, 2, 3, 4, 5, 8, 9, 0xA, 0xB] ++ (List.range 13).map (· + 0x10) ++ [0x20, 0x21, 0x22, 0x23, 0x24, 0x28, 0x29, 0x2A, 0x2B, 0x2C,
    0x2D, 0x30, 0x31, 0x32, 0x34, 0x35, 0x36, 0x38, 0x39, 0x3A, 0x3B, 0x3C, 0x3D]
theorem witness_WinFront : ∀ op ∈ 0x3F :: winRows, WinFront (fronted (ww op 1 2 3 4 0 0 0) 0 0 1024) 0 0 (winIns (ww op 1 2 3 4 0 0 0) 0 0) [] op := by
  unfold WinFront; decide +kernel
/-- Element formats at their largest counts: FP32, FP16, INT8 and INT32, from FP32 to them too (R170). -/
theorem witness_WinnowElementwise : ∀ x ∈ [(0, 0, 1024), (2, 2, 2048), (0, 7, 1024), (5, 5, 4096), (7, 7, 1024), (6, 6, 2048)],
    ElemFits (winIns (ww 0x10 1 2 3 4 x.1 x.2.1 0) 0 0)
      (winN (fronted (ww 0x10 1 2 3 4 x.1 x.2.1 0) 0 0 x.2.2) 0 0 (winIns (ww 0x10 1 2 3 4 x.1 x.2.1 0) 0 0)) ∧
    Memory.wf (fronted (ww 0x10 1 2 3 4 x.1 x.2.1 0) 0 0 x.2.2).mem = true := by unfold ElemFits; decide +kernel
theorem witness_winnow_formats : (isFloat 0 && isFloat 4) = true ∧ (isInt 5 && (5 : Nat) == 5) = true := by decide +kernel

/-- An amax record of format g with K = 1 at the start of the slice, which the thread names. -/
def amaxState (w : Word) (g : Nat) : State :=
  (winning { queue := [winIns w 0 0], c0 := 2048, amax := BitVec.ofNat 48 plotBase } (running false [])).poke (plotBase + 65)
    [1, 0, BitVec.ofNat 8 g]
theorem witness_WinnowConversions :
    (∀ x ∈ [(0, 0, 1024), (5, 2, 2048), (8, 8, 4096), (7, 10, 1024), (11, 0, 1024)],
      let s := fronted (ww 0x30 1 2 0 0 x.1 x.2.1 0) 0 0 x.2.2
      s.Sound ∧ x.1 < 14 ∧ x.2.1 < 14 ∧ winN s 0 0 (winIns (ww 0x30 1 2 0 0 x.1 x.2.1 0) 0 0) ≤ fmtCap x.1 ∧
        winN s 0 0 (winIns (ww 0x30 1 2 0 0 x.1 x.2.1 0) 0 0) ≤ fmtCap x.2.1 ∧ winBc (ww 0x30 1 2 0 0 x.1 x.2.1 0) = false ∧
        (isElem x.2.1 = true ∨ isBlock x.2.1 = true)) ∧
    (∀ g ∈ [2, 3, 4], let s := amaxState (ww 0x30 1 2 0 0 2 g (2 ^ 17)) g
      s.amaxOk 0 0 g = true ∧ s.errLines (plotBase + 64) 16 = []) := by
  unfold State.Sound; decide +kernel

/-- A table pair of lookup table 7, valid. -/
def tabled : State :=
  (fronted (ww 0x31 1 2 3 4 0 0 7) 0 0 1024).setWinnow 0
    { (fronted (ww 0x31 1 2 3 4 0 0 7) 0 0 1024).winnow 0 with luts := [(7, { valid := true })] }
theorem leNat_zeros (n : Nat) : leNat (List.replicate n 0) = 0 := by
  induction n with
  | zero => rfl
  | succ n ih => simp only [List.replicate_succ, leNat, ih]; rfl
theorem words32_zeros (n m : Nat) : ∀ x ∈ words32 n (List.replicate m 0), x = 0 := by
  induction n generalizing m with
  | zero => simp [words32]
  | succ n ih =>
    simp only [words32, List.take_replicate, List.drop_replicate, leNat_zeros]
    intro x hx
    rcases List.mem_cons.mp hx with h | h
    · exact h
    · exact ih _ x h
theorem peeks_nothing (a n : Nat) : Memory.rdN [] a n = List.replicate n 0 := by
  induction n generalizing a with
  | zero => rfl
  | succ n ih => simp [Memory.rdN, Memory.rd, ih, List.replicate_succ]
/-- The table pair of empty memory is finite. -/
theorem finite_pair (s : State) (h : s.mem = []) (a : Nat) :
    ∀ x ∈ words32 6144 ((s.peeks a 24592).drop 16), finite32 x.toNat = true := by
  intro x hx
  rw [State.peeks, h, peeks_nothing, List.drop_replicate] at hx
  rw [words32_zeros _ _ x hx]; decide
theorem witness_WinnowLookupTables :
    (let s := fronted (ww 4 0 0 0 0 0 0 0) (BitVec.ofNat 64 plotBase) 0 0
     let bs := s.peeks plotBase 24592
     inSlice 0 plotBase 24592 = true ∧ s.errLines plotBase 24592 = [] ∧ finite32 (msgNat bs 0 4) = true ∧ s.mem = [] ∧ -24 ≤ toSigned 8 (msgNat bs 4 1) ∧
       toSigned 8 (msgNat bs 4 1) ≤ 8 ∧ msgNat bs 5 1 ≤ 1 ∧ msgNat bs 6 10 = 0) ∧
    (Tab.get (tabled.winnow 0).luts {} 7).valid = true ∧ (Tab.get ((running false []).winnow 0).luts {} 7).valid = false := by
  decide +kernel

/-- A segment instruction: W = 2^a, n segments. -/
def segWord (op a n : Nat) : Word := ww op 1 2 3 0 0 0 (a + 8 * n)
theorem witness_WinnowReductionsAndSegments :
    (∀ x ∈ [(0, 1024, 1024), (3, 128, 1024), (0, 1, 0)],
      winN (fronted (segWord 0x38 x.1 x.2.1) 0 0 x.2.2) 0 0 (winIns (segWord 0x38 x.1 x.2.1) 0 0) = x.2.2 ∧ x.2.2 ≤ fmtCap 0 ∧
      x.2.2 % 2 ^ x.1 = 0 ∧ insBits (segWord 0x38 x.1 x.2.1) 3 13 = x.2.1 ∧ 1 ≤ x.2.1 ∧ x.2.1 ≤ 4096 ∧ x.2.1 * 2 ^ x.1 ≤ fmtCap 0 ∧
      winBc (segWord 0x38 x.1 x.2.1) = false ∧ x.2.2 / 2 ^ x.1 ≤ 2048) := by decide +kernel

theorem witness_WinnowMemory :
    (let i := winIns (ww 8 1 0 0 0 5 0 (2 ^ 18 - 1)) (BitVec.ofNat 64 (plotBase + 16)) 0
     (i.xa + BitVec.ofInt 64 (16 * toSigned 18 (i.word.toNat % 2 ^ 18))).toNat = plotBase ∧ isElem 5 = true ∧ plotBase % 16 = 0 ∧
       winReach plotBase 4096 = true ∧ (running false []).errLines plotBase 4096 = []) ∧
    (winReach (bufEnd - 4096) 4096 = true ∧ 1024 % 2 ^ 7 = 0 ∧ bufBase % 4 = 0 ∧ winReach bufBase (7 * 4096 + 512) = true ∧ 512 ≤ 4096 ∧
      (∀ r, r < 8 → (running false []).errLines (bufBase + r * 4096) 512 = [])) := by decide +kernel

/-- An accumulator read of a thread waits. -/
def readWaits (th : Nat) (s : State) : State := s.setWinnow 0 { s.winnow 0 with accWait := some (th, winIns (ww 0x3D 0 0 0 0 0 0 0) 0 0, 0) }
theorem witness_waiting_reads :
    WinFront (readWaits 1 (fronted (ww 5 1 2 3 4 0 0 0) 0 0 1024)) 0 0 (winIns (ww 5 1 2 3 4 0 0 0) 0 0) [] 5 ∧
    ((readWaits 1 (fronted (ww 5 1 2 3 4 0 0 0) 0 0 1024)).winnow 0).accWait.isSome = true ∧
    ((fronted (ww 5 1 2 3 4 0 0 0) 0 0 1024).winnow 0).accWait = none := by
  unfold WinFront; decide +kernel
theorem witness_WinnowControl :
    (∀ n ∈ [0, 4096, 4097, 8191], (ww 1 0 0 0 0 0 0 n).toNat % 8192 = n) ∧
    ((ww 5 (47) 0 0 0 0 0 0).toNat / 2 ^ 50 % 64 = 47 ∧ (ww 5 0 1 0 0 0 0 0).toNat / 2 ^ 42 % 256 ≠ 0) ∧
    (∀ op ∈ [6, 0x0C, 0x0F, 0x1D, 0x1F, 0x25, 0x2E, 0x33, 0x37, 0x3E, 0x3F], winReserved op = true ∧
      winOp (ww op 0 0 0 0 0 0 0) = op) := by decide +kernel

/-- A 64-byte command from fields (byte, value). -/
def cmdOf (fs : List (Nat × Nat)) : QCmd :=
  ⟨0x4000, BitVec.ofNat 512 (fs.foldl (fun v f => v + f.2 * 2 ^ (8 * f.1)) 0), 0, true, 7, 0, false, true⟩
/-- The engine runs a plan whose one fetched command is c. -/
def atHead (s : State) (e : Nat) (c : QCmd) : State := s.setEng e { running := some (planOf 250000 1 0x4000), cmds := [c] }
theorem head_is (s : State) (e : Nat) (c : QCmd) (op : Nat) (h : c.op = op) (b : c.badSig = false)
    (k : s.headCmd e = some c) : HeadIs s e c op := ⟨k, h, b⟩

/-- Array 0 of strip 0 is present and holds what it may hold. -/
def tilled (x : TilArr) : State := (running false []).setTiller 0 0 x |>.setReg (tilCtrl 0) 1
/-- ACCRD and ACCREL: count 0 of n records, array mask 1, bank 1, from record r. -/
def accWord (op r : Nat) : Word := ww op 1 0 0 0 0 0 0 + BitVec.ofNat 64 (2 ^ 40 + 2 ^ 30 + r * 2 ^ 31)
def accState (drain : Nat) : State := winning { queue := [winIns (accWord 0x3C 496) 0 0], c0 := 16 } (tilled { drain1 := BitVec.ofNat 32 drain })
/-- ACCREL has left its queue and waits, and its groups are now in DRAIN. -/
theorem witness_release : let i := winIns (accWord 0x3D 496) 0 0
    let s := (accState (2 ^ 31)).setWinnow 0 { (accState (2 ^ 31)).winnow 0 with accWait := some (0, i, 0) }
    (s.winnow 0).accWait = some (0, i, 0) ∧ winOp i.word = 0x3D ∧ s.drained 0 1 (maskArrays 1) (recGroups 496 16) = true := by decide +kernel
def joinCmd (target : Nat) : QCmd := cmdOf [(0, 2), (2, 63), (8, target), (11, 47)]
theorem witness_WinnowAccumulatorsAndGates :
    (let x := (accWord 0x3C 496).toNat
     x / 2 ^ 30 % 2 = 1 ∧ x / 2 ^ 31 % 512 = 496 ∧ x / 2 ^ 40 % 1024 = 1 ∧ (1 &&& ((accState 0).reg (tilCtrl 0)).toNat % 1024) = 1 ∧
       ((accState 0).wctx 0 0).count (x / 2 ^ 24 % 4) = 16 ∧ 496 + 16 ≤ 512 ∧
       (accState (2 ^ 31)).drained 0 1 (maskArrays 1) (recGroups 496 16) = true ∧
       (accState 0).drained 0 1 (maskArrays 1) (recGroups 496 16) = false ∧
       (drainReads (accState (2 ^ 31)) 0 1 (maskArrays 1) 16 496).isSome = true ∧ x / 2 ^ 16 % 4 ≠ 3 ∧ x / 2 ^ 19 % 2 = 0 ∧
       (let s := (accState (2 ^ 31)).setTiller 0 1 { drain1 := BitVec.ofNat 32 (2 ^ 31), recs := [(1008, { anchor := 1 })] }
        s.drained 0 1 [0, 1] [31] = true ∧ drainReads s 0 1 [0, 1] 1 496 = none)) ∧
    (joinCmd 3).op = 2 ∧ (joinCmd 3).badSig = false ∧ (joinCmd 3).b 11 0 6 = 47 ∧ (joinCmd 3).u 8 3 = 3 ∧ (joinCmd 3).sigCtr = 63 ∧
    (ticking.setCtr 0 47 3).isNode 0 47 = false ∧ 3 ≤ ((ticking.setCtr 0 47 3).ctr 0 47).toNat ∧
    (atHead ticking (engWin 0) (joinCmd 3)).headCmd (engWin 0) = some (joinCmd 3) ∧
    ((atHead ticking (engWin 0) (joinCmd 3)).eng (engWin 0)).gate = .idle ∧
    Tab.get ticking.waiters [] (ctrKey 0 47) = [] ∧ (ticking.winnow 0).halted = false := by decide +kernel

-- Tiller.

/-- LOAD and STREAM of one row or group of 32 rows, one column, format BFP8, at the start of the slice. -/
def loadCmd : QCmd := cmdOf [(0, 1), (2, 63), (8, plotBase), (16, plotBase + 256), (24, 9), (26, 32), (28, 1), (32, 32), (36, 1)]
def streamCmd : QCmd :=
  cmdOf [(0, 2), (2, 63), (8, plotBase), (16, plotBase + 256), (24, 9), (25, 2 + 4), (28, 1), (29, 1), (32, 1), (40, 32), (44, 1), (48, 1),
    (50, 1), (52, 1), (54, 0x111111)]
/-- STREAMs with an exchange, and frozen with ROLE 2. -/
def swapCmd : QCmd := cmdOf [(0, 2), (2, 63), (25, 1)]
def frozenCmd : QCmd := cmdOf [(0, 2), (2, 63), (25, 160)]
/-- The streams of lot 0 of array 0, of which the head command is one, with groups of bank 0 in DRAIN. -/
def streaming (drain : Nat) (js : List StreamJob) : State :=
  atHead (tilled { drain0 := BitVec.ofNat 32 drain, lots := [(0, { streams := js })] }) (engTil 0) streamCmd
def jobOf (done : Nat) : StreamJob := { cmd := streamCmd, setsDone := done }
theorem witness_TillerCommandsAndSets :
    (∀ c ∈ [cmdOf [(2, 63)], cmdOf [(0, 3), (2, 63), (8, 3)], loadCmd, streamCmd],
      TilFront (atHead (tilled {}) (engTil 0) c) 0 0 c c.op) ∧
    (((tilled {}).tiller 0 0).quiet = true ∧ ((tilled {}).tiller 0 0).drain0 = 0 ∧ ((tilled {}).tiller 0 0).loading = none) ∧
    (({ drain1 := 4 } : TilArr).quiet = true ∧ ({ setmode := some (cmdOf [(0, 3)]) } : TilArr).setmode = some (cmdOf [(0, 3)])) ∧
    ldBad ((tilled {}).tiller 0 0) 0 loadCmd = [] ∧ (∀ g ∈ ldGroups loadCmd, ∀ r ∈ g, (tilled {}).errLines r.1 r.2 = []) ∧
    stBad ((tilled {}).tiller 0 0) 0 streamCmd = [] ∧ stFrozen streamCmd = false ∧ setCount 0 streamCmd = 1 ∧
    stSwap streamCmd = false := by
  unfold TilFront
  have h : ∀ c ∈ [cmdOf [(2, 63)], cmdOf [(0, 3), (2, 63), (8, 3)], loadCmd, streamCmd],
      tilFind 0 ((atHead (tilled {}) (engTil 0) c).eng (engTil 0)).cmds = some (0, c) ∧
      ((atHead (tilled {}) (engTil 0) c).eng (engTil 0)).fetchLeft = 0 ∧ ((atHead (tilled {}) (engTil 0) c).tiller 0 0).halted = false ∧
      ((atHead (tilled {}) (engTil 0) c).tiller 0 0).setmode = none ∧ c.op = c.op ∧ c.arr = 0 ∧ c.badSig = false ∧
      (atHead (tilled {}) (engTil 0) c).bit (tilCtrl 0) 0 = true := by decide +kernel
  refine ⟨fun c hc => ⟨⟨0, (h c hc).1⟩, (h c hc).2⟩, ?_⟩
  decide +kernel
/-- A LOAD that ends, with and without a STREAM whose exchange waits for it; STREAMs that have run, or wait for their last set. -/
theorem witness_exchanges :
    (stSwap swapCmd = true ∧ dueSwap 0 [{ cmd := swapCmd }] = some 0 ∧ dueSwap 0 [] = none ∧ dueSwap 0 [jobOf 1, { cmd := swapCmd }] = some 1) ∧
    (let x : TilArr := { loading := some ⟨0, {}, loadCmd⟩, lots := [(0, { shadowState := .loading, fresh := true })] }
     x.loading = some ⟨0, {}, loadCmd⟩ ∧ (x.lot 0).shadowState = .loading) ∧
    ((jobOf 1).ran 0 = true ∧ (jobOf 1).held = [] ∧ ({ jobOf 0 with held := [{ buf := {}, vecs := [] }] } : StreamJob).ran 0 = true ∧
      stFrozen frozenCmd = true ∧ ({ cmd := frozenCmd } : StreamJob).ran 0 = true) := by decide +kernel
theorem witness_sets : ∀ drain ∈ [0, 2 ^ 32 - 1], let s := streaming drain [jobOf 0]
    let x := s.tiller 0 0
    (x.lot 0).streams = [jobOf 0] ∧ stBank streamCmd = 0 ∧ x.blocked 0 (setRecs 0 false 0 0 1) = (drain != 0) ∧
      (s.feedSet (engTil 0) (jobOf 0) 0 1).1 = s ∧ ((s.feedSet (engTil 0) (jobOf 0) 0 1).2.map (fun r => r.2.length)) = some 1 := by
  decide +kernel
theorem witness_TillerDotProduct : stWrap (cmdOf [(25, 8)]) = true := by decide +kernel

-- Registers.

theorem witness_RegisterWrites : inCsr (csrBase + 0x1FFFFF8) = true ∧ regInfo 0x1FFFFF8 = none ∧ (regInfo (drlErr 0)).isSome = true ∧
    inCsr (csrBase + drlErr 0) = true ∧ (csrBase + drlErr 0) % 8 = 0 ∧ (16 * 2 ^ 48 : Nat) / 2 ^ 48 % 32 = 16 ∧
    (bufBase % 16 = 0 ∧ inBuf bufBase = true) ∧ inBuf 16 = false := by decide +kernel

-- Glean.

/-- Table 0: rows 0 to 63 of 32 FP16 elements, all of LRANGE 0 of chip 0, at 2 MiB. -/
def tableBytes : List Byte :=
  leBytes 8 0x200000 ++ leBytes 8 0x300000 ++ leBytes 4 4 ++ [4, 2] ++ leBytes 2 32 ++ leBytes 4 80 ++ leBytes 4 0 ++
    leBytes 8 0 ++ leBytes 8 64
/-- Glean with table 0, port 0 enabled, a fence of steps up to 8. -/
def gleaning : State :=
  ((((alone.setReg glnTtab 0x100000).poke 0x100000 tableBytes).setReg glnPortEn 1).setReg glnCtrl 0x500001).setReg glnFence
    (BitVec.ofNat 64 (8 * (2 ^ 32 + 1)))
/-- A GATHER of the row of the ID at 0x8000, whose image goes to the base-die buffers. -/
def gatherCmd (gate : Nat) : QCmd :=
  cmdOf [(0, 1), (1, gate), (2, 63), (8, 0x8000), (24, bufBase), (44, 1), (48, 1), (52, 128), (58, 16), (60, 1)]
def markCmd (which step : Nat) : QCmd := cmdOf [(0, 2), (1, 63), (2, 63), (8, which), (12, step)]
def refreshCmd : QCmd := cmdOf [(0, 3), (1, 63), (2, 63), (8, 7)]
def slotted : State :=
  { gleaning with gln := { slots := [(0, { inCur := true, valid := true, ver := 7, row := 5 }), (16384, { inNext := true, row := 6 })] } }

theorem witness_GlnFront : ∀ c ∈ [cmdOf [(1, 63), (2, 63)], gatherCmd 63, markCmd 0 7, refreshCmd],
    GlnFront (atHead slotted (engGln 0) c) 0 c c.op ∧ GateOpen (atHead slotted (engGln 0) c) (engGln 0) c := by
  unfold GlnFront GateOpen HeadIs; decide +kernel
theorem witness_GateShut : GlnFront (atHead gleaning (engGln 0) (gatherCmd 47)) 0 (gatherCmd 47) 1 ∧
    GateShut (atHead gleaning (engGln 0) (gatherCmd 47)) (engGln 0) (gatherCmd 47) := by
  unfold GlnFront GateShut HeadIs; decide +kernel
theorem witness_mark : (markCmd 0 7).b 8 0 1 = 0 ∧ gleaning.fld glnFence 0 32 ≤ ((markCmd 0 7).u 12 4 + 1) % 2 ^ 32 ∧
    (markCmd 1 7).b 8 0 1 = 1 ∧ gleaning.fld glnFence 32 32 ≤ ((markCmd 1 7).u 12 4 + 1) % 2 ^ 32 ∧
    ((markCmd 1 7).u 12 4 + 1) % 2 ^ 32 ≤ gleaning.fld glnFence 0 32 ∧ ((markCmd 0 6).u 12 4 + 1) % 2 ^ 32 < gleaning.fld glnFence 0 32 ∧
    gleaning.fld glnFence 0 32 < ((markCmd 1 8).u 12 4 + 1) % 2 ^ 32 := by decide +kernel
theorem witness_refresh : slotted.fld glnFence 32 32 = (refreshCmd.u 8 4 + 1) % 2 ^ 32 ∧ slotted.Clean ∧
    (slotted.gln.slots.map (fun p => p.1)).Nodup ∧ refreshNames slotted 0 ∧ (∀ i, refreshNames slotted i → slotted.homeReach i = true) ∧
    (∀ i, ¬ refreshNames gleaning i) ∧ NoRefresh gleaning ∧ refreshBumps slotted 7 0 = true := by
  have hn : ¬ refreshNames slotted 16384 := by unfold refreshNames; decide +kernel
  have h0 : slotted.homeReach 0 = true := by decide +kernel
  refine ⟨by decide +kernel, ⟨rfl, rfl⟩, by decide +kernel, by unfold refreshNames; decide +kernel, fun i h => ?_, fun i h => ?_,
    by unfold NoRefresh; decide +kernel, by decide +kernel⟩
  · have hi : i = 0 ∨ i = 16384 := by simpa [slotted] using h.1
    rcases hi with rfl | rfl
    · exact h0
    · exact absurd h hn
  · cases h.1
theorem witness_gather : let s := atHead gleaning (engGln 0) (gatherCmd 63)
    s.Sound ∧ gatherBad s (gatherCmd 63) = [] ∧ gaDedup (gatherCmd 63) = false ∧ gaCount (gatherCmd 63) = 1 ∧ 1 ≤ gaMax (gatherCmd 63) ∧
    (gaRaw (gatherCmd 63) = true ∧ (gatherCmd 63).a 32 = 0) ∧
    s.mapId (gaTables (gatherCmd 63)) (entryId s (gatherCmd 63) 0) = some (0, 0) := by
  unfold State.Sound; decide +kernel
theorem witness_GatherQuiet : GatherQuiet (atHead gleaning (engGln 0) (gatherCmd 63)) 0 (gatherCmd 63) := by
  have h : let s := atHead gleaning (engGln 0) (gatherCmd 63)
      s.fld glnDir 0 48 = 0 ∧ s.bit glnCtrl 0 = true ∧ s.bit glnCtrl 1 = false ∧ s.gln.requests = [] ∧ s.gln.parked = [] ∧
      (s.gport 0).reads = [] ∧ (s.gport 0).dead = [] ∧ (gatherCmd 63).step.toNat ≤ s.fld glnFence 32 32 ∧
      spans inJobDram (s.fld glnTtab 0 48) 1024 = true ∧ spans inJobDram ((gatherCmd 63).a 8 + listSize (gaLfmt (gatherCmd 63)) *
        gaFirst (gatherCmd 63)) (listSize (gaLfmt (gatherCmd 63)) * gaCount (gatherCmd 63)) = true := by decide +kernel
  obtain ⟨h1, h2, h3, h4, h5, h6, h7, h8, h9, h10⟩ := h
  refine ⟨⟨rfl, rfl⟩, h1, h2, h3, h4, h5, h6, h7, h8, h9, h10, ?_⟩
  intro j hj t r h
  have hj0 : j = 0 := by have : gaCount (gatherCmd 63) = 1 := by decide +kernel
                         omega
  subst hj0
  have hm : (atHead gleaning (engGln 0) (gatherCmd 63)).mapId (gaTables (gatherCmd 63))
      (entryId (atHead gleaning (engGln 0) (gatherCmd 63)) (gatherCmd 63) 0) = some (0, 0) := by decide +kernel
  rw [hm] at h
  obtain ⟨rfl, rfl⟩ : t = 0 ∧ r = 0 := by simpa [eq_comm] using h
  decide +kernel
def gathered : GatherRun := { id := 1, cmd := gatherCmd 63, next := 1, pairs := [], rows := 1, listDone := true }
theorem witness_gatherDone : ((gleaning.setGport 0 { runs := [gathered] }).gport 0).runs = [gathered] ∧ gathered.listDone = true ∧
    ((gleaning.setGport 0 { runs := [gathered] }).gport 0).reads = [] := by decide +kernel

/-- Slot 0 waits to be written with an image and to be bumped. -/
def rewriting (image : Option (List Byte)) : State :=
  { slotted with gln := { slotted.gln with jobs := [⟨0, image, 8, true⟩] } }
/-- A read waits behind the fence, of port 0 or of chip 1. -/
def parkedState (a : Asker) : State :=
  { (gleaning.setGport 0 { reads := [(3, ⟨1, 0, 5, bufBase, 0, true, 0⟩)] }) with gln := { (gleaning.setGport 0 { reads := [(3, ⟨1, 0, 5, bufBase, 0, true, 0⟩)] }).gln with parked := [⟨0, 5, 8, a⟩] } }
/-- A directory of 2^10 buckets at the base-die buffers, and an edit of row r. -/
def directory (r kind : Nat) : State :=
  ((gleaning.setReg glnDir (BitVec.ofNat 64 (bufBase + 10 * 2 ^ 48))).setReg glnDirArg (BitVec.ofNat 64 (r + kind * 2 ^ 44))).setReg glnCopy
    (BitVec.ofNat 64 (16384 * 2 ^ 48))
def editOk (s : State) (v : Word) (full here slotOk kindOk : Bool) : Bool :=
  let r := editRow s
  let t := editTable s
  let k := editKind s
  let n := editSlot v
  full == (!dirPlaced s || (dirEntries s (!s.gln.cur) t r).all (fun a => entryKind s a != 0)) &&
    here == (s.dirLookup (!s.gln.cur) t r).isSome &&
    slotOk == ((s.slotSt (slotIndex k n)).free && (k != 1 || decide (n < s.copySlots))) &&
    kindOk == ((k == 1 && (s.ownWord (s.table t) r).1 == s.chip) || (k == 2 && s.inQuota s.chip n))
/-- Row 5 stands in the next bank. -/
def inserted : State :=
  match exec (.dirInsert 1) (directory 5 1) with
  | .next t => t
  | _ => directory 5 1
theorem witness_GleanSlotsAndDirectory :
    ((rewriting (some [1])).gln.jobs = [⟨0, some [1], 8, true⟩] ∧ ((rewriting none).slotSt 0).refs = 0 ∧
      (rewriting (some [1])).slotReach 0 = true ∧ 1 ≤ (rewriting (some [1])).fld glnCtrl 16 16) ∧
    (let s := parkedState (.here 0 3)
     s.gln.parked[0]? = some ⟨0, 5, 8, .here 0 3⟩ ∧ s.fenceOpen ⟨0, 5, 8, .here 0 3⟩ = true ∧ (s.table 0).sound = true ∧
       sramReach bufBase (outBytes (s.table 0) true 0) = true ∧ s.gln.requests = [] ∧ s.bit glnCtrl 1 = false ∧ s.live 0 = true ∧
       jobReach (s.homeAddr (s.table 0) 5) (s.table 0).rowBytes = true ∧ (s.gport 0).runs = []) ∧
    (editOk (directory 5 1) 1 false false true true = true ∧ (directory 5 1).gln.syncing = false ∧ editOk inserted 1 false true false true = true ∧
      editOk (directory 5 2) 1 false false true false = true ∧ editOk slotted 1 true false false false = true ∧
      dirPlaced (directory 5 1) = true) := by decide +kernel
theorem witness_lists : ListsRead gleaning ∧ ({ directory 5 1 with gln := { syncing := true } } : State).gln.drops = [] :=
  ⟨fun _ _ h => (by cases h), rfl⟩

-- Drill.

theorem witness_SamplingWithinCaps : ∀ w, (fun _ : Nat => 0) w < 2 ^ 32 := fun _ => Nat.two_pow_pos 32
/-- A SAMPLE of sampler 0 alone: seed tables at 0x8000, a sampling descriptor of one hop, recent, fanout 2, at 0x9000, the parcel
to the base-die buffers. The seed table of step 7 holds one micro-batch of one seed, of node 9; graph 0 has no node. -/
def sampleCmd : QCmd := cmdOf [(0, 1), (2, 63), (8, 0x8000), (16, 0x9000), (24, bufBase), (32, 4096), (36, 64), (40, 1)]
def seeded : State :=
  (((alone.setReg drlCtrl (2 ^ 16 + 1)).poke 0x8000 (leBytes 8 (7 + 2 ^ 32) ++ leBytes 16 1 ++ leBytes 8 0 ++ leBytes 8 0xA000 ++
    leBytes 8 1)).poke 0x9000 (leBytes 4 1 ++ leBytes 4 4 ++ leBytes 4 4 ++ leBytes 4 4 ++ leBytes 8 0x201)).poke 0xA000 [9]
def joinedState : State :=
  { seeded with drl := { smp := [(0, { joined := some sampleCmd })] } }
def built : Build := ⟨0, 0, sampleCmd, [], none⟩
def buildOk (b : Build) (s : State) : Bool :=
  match runBuild b s with
  | .ok _ r => r.1.seeds == [(0, 0, 9)] && r.2.2.2 &&
      drlReach (sampleCmd.a 24) (parcelBlock 7 0 r.2.2.1 r.2.1 r.1 r.2.2.2).length
  | _ => false
theorem witness_DrillCommandsAndBuilds :
    (let s := atHead seeded (engDrl 0) sampleCmd
     DrlFront s 0 sampleCmd 1 ∧ SampleFits s 0 sampleCmd ∧ s.errLines 0x9000 64 = []) ∧
    (let s := atHead seeded (engDrl 0) (cmdOf [(2, 63)])
     DrlFront s 0 (cmdOf [(2, 63)]) 0 ∧ s.bit drlCtrl 0 = true) ∧
    (joinedState.drl.build = none ∧ joinedState.closed 5 0 = false ∧ joinedState.readyBuild = some (0, sampleCmd) ∧
      joinedState.flips = [] ∧ joinedState.lost = [] ∧ drlReach (seedTabAddr sampleCmd) 32 = true ∧ seqBad joinedState sampleCmd = false) ∧
    (let s : State := { joinedState with drl := { joinedState.drl with closed := some sampleCmd.step } }
     s.drl.build = none ∧ s.readyBuild = some (0, sampleCmd) ∧ seqBad s sampleCmd = true) ∧
    buildOk built { joinedState with drl := { joinedState.drl with build := some built } } = true := by
  unfold DrlFront SampleFits HeadIs; decide +kernel

/-- A batch of one edge 1 → 2 of graph 0, whose node records are at 0xB000 and whose node 1 has a segment of one edge at 0xC000. -/
def edgeBatch (seq step : Nat) : Batch := ⟨BitVec.ofNat 64 seq, BitVec.ofNat 32 step, 0, [(1, 3, 2)], none⟩
def ingesting (b : Batch) (sampled : Nat) (last : Option (BitVec 32)) : State :=
  let s := (alone.setReg drlCtrl (2 ^ 16)).setReg drlSampled (BitVec.ofNat 64 sampled)
  let u := (s.poke 0 (leBytes 8 0xB000 ++ leBytes 8 0 ++ leBytes 8 0xA000 ++ leBytes 4 1 ++ [4])).poke 0xB028
    (leBytes 8 0xC000 ++ leBytes 8 0 ++ leBytes 4 1)
  { u.poke 0xC00C [1] with drl := { ingest := [b], lastApply := last } }
def tailIs (s : State) (n a k : Nat) : Bool :=
  match tailSeg (n + 2) a s with
  | .ok _ r => r == some (a, k)
  | _ => false
theorem witness_EdgeBatches :
    (let s := ingesting (edgeBatch 1 8) 7 (some 8)
     BatchAlone s (edgeBatch 1 8) ∧ s.Sound ∧ s.flips = [] ∧ s.lost = [] ∧ drlReach (graphAddr s 0) 64 = true ∧
       (let g := batchGraph s (edgeBatch 1 8)
        g.valid 1 = true ∧ g.valid 2 = true ∧ nodeOwner s g 1 = s.chip ∧ nodeAddr s g 1 = 0xB020 ∧
          (nodeOf (s.peeks 0xB020 32)).seg = 0xC000 ∧ (nodeOf (s.peeks 0xB020 32)).newLen = 1 ∧ tailIs s 1 0xC000 1 = true ∧
          drlReach (g.partTab + 8 * (1 / 2 ^ g.shift)) 8 = true ∧ drlReach 0xB020 32 = true ∧ drlReach 0xC000 4096 = true)) ∧
    ((edgeBatch 0 8).seq.toNat ≤ ((ingesting (edgeBatch 0 8) 7 none).reg drlIngSeq).toNat ∧
      (ingesting (edgeBatch 1 7) 7 none).sampledStep = some 7 ∧ (edgeBatch 1 7).applyStep.toNat ≤ 7 ∧
      (edgeBatch 1 8).applyStep.toNat < (9 : BitVec 32).toNat) := by
  unfold BatchAlone State.Sound; decide +kernel
theorem witness_BatchInOrder : BatchInOrder (ingesting (edgeBatch 1 8) 7 (some 8)) (edgeBatch 1 8) ∧
    BatchInOrder (ingesting (edgeBatch 1 0) (2 ^ 32 - 1) none) (edgeBatch 1 0) := by
  have h8 : (ingesting (edgeBatch 1 8) 7 (some 8)).sampledStep = some 7 := by decide +kernel
  have h0 : (ingesting (edgeBatch 1 0) (2 ^ 32 - 1) none).sampledStep = none := by decide +kernel
  refine ⟨⟨by decide +kernel, ?_, by rw [h8]; rfl⟩, ⟨by decide +kernel, by intro x h; simp [ingesting] at h, by rw [h0]; rfl⟩⟩
  intro x h
  obtain rfl : x = 8 := by simpa [ingesting, eq_comm] using h
  decide +kernel

-- Sheaf.

/-- The engine that merges row 0 of table 0. -/
def mEng : Nat := rowEngine 0 0
/-- Every Sheaf engine is enabled; the row's engine has banks of 4 entries at 4 MiB and is open for step 7. -/
def merging : State :=
  { (((gleaning.setReg shfCtrl (BitVec.ofNat 64 (2 ^ 48 - 1))).setReg shfGeom 320).setReg (shfBank mEng) (BitVec.ofNat 64 (0x400000 + 2 * 2 ^ 48))) with
    shf := { engs := [(mEng, { open1 := some 7 })], cfStep := some 7 } }
/-- The row has an entry of a state in the bank of step 7. -/
def entered (state : Nat) : State := merging.poke (entryAddr merging mEng 1 0) (leBytes 8 (state * 2 ^ 44) ++ leBytes 4 7)
def absorbCmd : QCmd := cmdOf [(0, 1), (1, 63), (2, 63), (8, 0x8000), (16, bufBase), (28, 1), (38, 2)]
/-- A dense buffer of 8 elements for the engine, and one of step 7. -/
def denseAt (k : Nat) : Nat := 3072 * k + 64 * mEng
def dense : State := (merging.poke (denseAt 100) (leBytes 8 (8 * 2 ^ 32) ++ leBytes 4 6)).poke (denseAt 101) (leBytes 8 (8 * 2 ^ 32) ++ leBytes 4 7)
def daccCmd : QCmd := cmdOf [(0, 2), (1, 63), (2, 63), (8, bufBase), (16, denseAt 100), (24, 4), (28, 4)]
def dsumCmd : QCmd := cmdOf [(0, 3), (1, 63), (2, 63), (8, denseAt 101), (16, denseAt 100)]
def mEngine : Eng := ⟨mEng, by decide +kernel⟩
def shfOpen (s : State) (c : QCmd) : Prop :=
  ShfFront (atHead s (engShf mEng) c) mEngine c c.op ∧ ((atHead s (engShf mEng) c).sheaf mEng).openFor c.step = true

/-- The banks of every engine are open for step 7. -/
def allOpen : State := { (List.range 48).foldl (fun s m => s.setReg (shfBank m) (BitVec.ofNat 64 (0x400000 + 2 * 2 ^ 48))) merging with
  shf := { engs := (List.range 48).map (fun m => (m, { open1 := some 7 })), cfStep := some 7 } }
theorem witness_SheafContributionsInAnyOrder :
    shfOpen allOpen absorbCmd ∧ absorbBad allOpen absorbCmd = [] ∧ BanksOpen allOpen 7 ∧
    shfOpen merging absorbCmd ∧ absorbBad merging absorbCmd = [] ∧ absorbRowOf merging absorbCmd = some (0, 0) ∧ bankReach merging mEng = true ∧
    abCount absorbCmd = 1 ∧ jobReach ((merging.table 0).ownAddr 0) 8 = true ∧ absorbRowOf (merging.poke 0x8000 [64]) absorbCmd = none ∧
    (({ merging with shf := {} } : State).sheaf mEng).openFor 7 = false := by
  unfold shfOpen ShfFront HeadIs GateOpen BanksOpen; decide +kernel
theorem witness_dense_buffers :
    shfOpen dense daccCmd ∧ daccBad dense true daccCmd = [] ∧ (dense.sheaf (bufEngine (daccCmd.a 16))).openFor 7 = true ∧
    shfOpen dense dsumCmd ∧ dsumBad dense true dsumCmd = [] ∧ spans inDram 0x400000 (64 + 8) = true := by
  unfold shfOpen ShfFront HeadIs GateOpen; decide +kernel
/-- Found entries and places for new ones. -/
def probeIs (s : State) (k : Nat) : Bool :=
  match s.probe 1 0 0 with
  | .found _ => k == 0
  | .free _ => k == 1
  | .full => k == 2
  | .bad => k == 3
theorem witness_probes : probeIs merging 1 = true ∧ probeIs (entered 2) 0 = true := by decide +kernel

def shfCmd (op : Nat) (fs : List (Nat × Nat)) : QCmd := cmdOf ([(0, op), (1, 63), (2, 63)] ++ fs)
def ledgered (x : Ledger) : State := { merging with shf := { merging.shf with ledger := [(0, x)] } }
/-- The row belongs to chip 1, and its entry is FOREIGN. -/
def foreign : State := { ((entered 1).poke 0x300000 [1]) with mems := { members := [0, 1] } }
theorem witness_SheafCommands :
    (∀ op ∈ [0, 4, 5, 6, 7, 8], shfOpen (entered 2) (shfCmd op [])) ∧ shfOpen foreign (shfCmd 4 []) ∧
    (entered 2).bankEntries mEng 1 2 = [entryAddr merging mEng 1 0] ∧ foreign.bankEntries mEng 1 1 = [entryAddr merging mEng 1 0] ∧
    foreign.absorbing 7 = false ∧ 64 ≤ entryStride foreign ∧ foreign.live (foreign.entryOwner (entryAddr merging mEng 1 0)) = true ∧
    jobReach (merging.optAddr 255) 64 = true ∧ (∀ m, m < 48 → ((entered 2).sheaf m).bankWait = false) ∧
    (entered 2).optReach ((entered 2).entryTables (((entered 2).bankEntries mEng 1 2).filter (inRange (entered 2)))) = true ∧
    (({ merging with shf := { engs := [(mEng, { flush := some ⟨shfCmd 4 [], 2, 2⟩ })] } } : State).sheaf mEng).flush = some ⟨shfCmd 4 [], 2, 2⟩ ∧
    (let s := entered 2
     let a := entryAddr merging mEng 1 0
     ownedOf s mEng 7 = [a] ∧ applyBad s mEng (shfCmd 7 []) [a] = [] ∧ inRange s a = true ∧ entryHome s a = 0x200000 ∧
       (appliedRecord s a 7).length = 80 ∧ jobReach 0x200000 80 = true ∧ 0x200000 + 80 ≤ bankLo s mEng 1) := by
  unfold shfOpen ShfFront HeadIs GateOpen; decide +kernel
theorem witness_ledger :
    (∀ x ∈ [(⟨5, false, false, 0, 0⟩, 0), (⟨6, false, false, 0, 0⟩, 0), (⟨4, false, false, 0, 0⟩, 0), (⟨5, false, false, 0, 1⟩, 1),
        (⟨4, false, false, 0, 0⟩, 2), (⟨4, false, true, 0, 0⟩, 3)],
      LedFront (atHead (ledgered x.1) (engShf mEng) (shfCmd 8 [(9, x.2), (12, 5)])) mEngine (shfCmd 8 [(9, x.2), (12, 5)]) x.2) ∧
    ((⟨5, false, false, 0, 1⟩ : Ledger).users 5 = 1 ∧ (⟨4, false, false, 0, 0⟩ : Ledger).writing 5 = false ∧
      (⟨4, false, true, 0, 0⟩ : Ledger).writing 5 = true) := by
  unfold LedFront ShfFront HeadIs GateOpen; decide +kernel

-- Harrow.

/-- Channel 255, enabled, with a descriptor first in its list. -/
def harrowing (c : QCmd) : State := ((atHead alone (chEng 255) c).setReg (hrwCtrl 63) 15).setChan 255 { baton := 1 }
def hwCmd (op start : Nat) (fs : List (Nat × Nat)) : QCmd := cmdOf ([(0, op + 48 + 64 * start), (1, 63), (2, 63)] ++ fs)
def copyCmd : QCmd := hwCmd 1 0 [(16, 0x1000), (24, 16)]
def checkIs (bad : Bool) (s : State) (c : QCmd) : Bool :=
  match hwCheck s 255 c with
  | .ok _ _ _ bits => bits.isEmpty != bad
  | .ue _ _ _ => false
theorem witness_starts :
    (∀ c ∈ [copyCmd, hwCmd 0 1 [(28, 250)], hwCmd 0 2 []], hwFind 255 ((harrowing c).eng (chEng 255)).cmds = some (0, c) ∧ c.gateCtr = 63 ∧
      ((harrowing c).eng (chEng 255)).fetchLeft = 0 ∧ (harrowing c).hwMayStart 255 c 25000 = true ∧ checkIs false (harrowing c) c = true ∧
      ((harrowing c).chan 255).halted = false ∧ ((harrowing c).chan 255).running = none) ∧
    checkIs true (harrowing (hwCmd 1 3 [])) (hwCmd 1 3 []) = true ∧ (harrowing copyCmd).closed 4 255 = false := by decide +kernel
def runOf (c : QCmd) : HrwRun :=
  { cmd := c, src := [⟨0, 0, 16⟩], dst := [⟨0, 0x1000, 16⟩], moved := false, pos := 0, hold := [], retries := 0, doneBytes := 0, result := 0, acc := none }
def inRun (r : HrwRun) : State := (harrowing r.cmd).setChan 255 { running := some r }
def remoteAcc (tries : Nat) (backoff : Bool) : RemAcc := ⟨0, false, [], 64, tries, backoff, 0⟩
theorem witness_HarrowDescriptors :
    (∀ op ∈ [0, 1, 2, 3, 4, 5, 6, 7], HwRunning (inRun (runOf (hwCmd op 0 []))) 255 (runOf (hwCmd op 0 [])) op) ∧
    (let r := { runOf (hwCmd 0 0 [(1, 192), (30, 255), (31, 1)]) with moved := true }
     ((inRun r).chan 255).running = some r ∧ r.moved = true ∧ spans inDram r.cmd.addr.toNat 64 = true ∧ hwWb r.cmd = true ∧
       hwFlag r.cmd 0 = true ∧ r.cmd.u 30 1 = 255 ∧ ((inRun r).chan 255).baton ≠ 65535) ∧
    (∀ tries ∈ [0, 7], ((inRun { runOf copyCmd with acc := some (remoteAcc tries false) }).chan 255).running =
      some { runOf copyCmd with acc := some (remoteAcc tries false) }) ∧
    (0 < (((inRun (runOf copyCmd)).setReg (hrwCtrl 63) (BitVec.ofNat 64 (7 * 16 + 15))).fld (hrwCtrl 63) 4 3) ∧ alone.live 0 = true) ∧
    (alone.chanQuiet 255 = true ∧ (inRun (runOf copyCmd)).chanQuiet 255 = false ∧ alone.closed 4 255 = false ∧
      ({ alone with chResets := [(0, false)] } : State).chPending true = some 0 ∧
      ({ inRun (runOf copyCmd) with chResets := [(255, false)] } : State).chPending false = some 255) := by
  unfold HwRunning; decide +kernel

theorem stream_one (c a n o : Nat) (h : o < n) : streamAt [⟨c, a, n⟩] o = a + o := by simp [streamAt, segAt, h]
theorem no_gap (x : Nat) (h : x < winBaseAddr) : tileGap x = false := by
  have : inTiles x = false := by unfold inTiles; simp; omega
  simp [tileGap, this]
theorem witness_streams : LocalStream (inRun (runOf copyCmd)) (runOf copyCmd).src (hwLen copyCmd) ∧
    PlainDest (runOf copyCmd).dst (hwLen copyCmd) ∧
    ∀ o p, o < hwLen copyCmd → p < hwLen copyCmd → streamAt (runOf copyCmd).src o ≠ streamAt (runOf copyCmd).dst p := by
  have hn : hwLen copyCmd = 16 := by decide +kernel
  rw [hn]
  refine ⟨⟨by decide +kernel, by decide +kernel⟩, ⟨fun o p ho hp h => ?_, fun o ho => ?_⟩, fun o p ho hp h => ?_⟩
  · simp only [runOf, stream_one _ _ _ _ ho, stream_one _ _ _ _ hp] at h; omega
  · simp only [runOf, stream_one _ _ _ _ ho]; exact no_gap _ (by unfold winBaseAddr; omega)
  · simp only [runOf, stream_one _ _ _ _ ho, stream_one _ _ _ _ hp] at h; omega
/-- SPLIT and MERGE of squares of BFP8, ILV and DILV of two streams, and SPACK of one row group. -/
def splitCmd (op : Nat) : QCmd := hwCmd op 0 [(16, 0x10000), (24, 2), (32, 25), (36, 1024), (40, 1024)]
def ilvCmd (op : Nat) : QCmd := hwCmd op 0 [(16, 0x10000), (24, 4), (32, 2), (33, 2), (36, 16)]
def spackCmd : QCmd := hwCmd 7 0 [(16, 0x10000), (32, 9 + 32), (33, 1), (34, 1), (40, 64)]
theorem witness_HwLocal : ∀ c ∈ [splitCmd 3, splitCmd 4, ilvCmd 5, ilvCmd 6, spackCmd], HwLocal (inRun (runOf c)) c := by
  have h : ∀ c ∈ [splitCmd 3, splitCmd 4, ilvCmd 5, ilvCmd 6, spackCmd], (inRun (runOf c)).Sound ∧ (inRun (runOf c)).flips = [] ∧ (inRun (runOf c)).lost = [] ∧
      hwGeom c = true ∧ extentsMeet (hwSrc c) (hwExtents c).1 (hwDst c) (hwExtents c).2 = false ∧
      hwDst c + (hwExtents c).2 ≤ winBaseAddr := by unfold State.Sound; decide +kernel
  intro c hc
  obtain ⟨h1, h2, h2', h3, h4, h5⟩ := h c hc
  exact ⟨h1, ⟨h2, h2'⟩, h3, h4, fun x _ hx => no_gap x (by omega)⟩

-- The reduction engine.

/-- RID 0: 4 elements, staging at 6 MiB; reduction tree 0 has its root here, with or without a child at port 0. -/
def reducing (kids : Nat) (c : QCmd) : State :=
  ((((atHead { linked with mems := { members := [0, 1] } } engRed c).setReg spxRidtab 0x500000).poke 0x500000 (leBytes 8 0x600000 ++ leBytes 8 4)).poke
    0x700000 (leBytes 8 (4 * 2 ^ 32) ++ leBytes 4 7)).setReg (spxRtree 0) (BitVec.ofNat 64 (32 + kids * 2 ^ 32))
def rdenseCmd : QCmd := cmdOf [(0, 1), (1, 63), (2, 63), (8, 0x700000), (16, bufBase)]
/-- A list of four amax records of FP16, all at 8 MiB. -/
def rnormCmd : QCmd := cmdOf [(0, 2), (1, 63), (2, 63), (8, 0x780000)]
def normed (kids : Nat) : State :=
  ((reducing kids rnormCmd).poke 0x800043 [2]).poke 0x780000 (leBytes 8 0x800000 ++ leBytes 8 0x800000 ++ leBytes 8 0x800000 ++ leBytes 8 0x800000)
theorem witness_ReductionCommands :
    (∀ kids ∈ [0, 1], RedFront (reducing kids rdenseCmd) rdenseCmd 1 ∧ denseFits (reducing kids rdenseCmd) rdenseCmd = true ∧
      treeChildren (reducing kids rdenseCmd) 0 = kids ∧ treeRoot (reducing kids rdenseCmd) 0 = true ∧
      RedFront (normed kids) rnormCmd 2 ∧ normFits (normed kids) rnormCmd = true) ∧
    (rdRid rdenseCmd = 0 ∧ rdTree rdenseCmd = 0 ∧ ridElems (reducing 0 rdenseCmd) 0 = 4 ∧ ridStage (reducing 0 rdenseCmd) 0 = 0x600000) ∧
    denseFits ((reducing 0 rdenseCmd).poke 0x700004 [5]) rdenseCmd = false ∧
    Tab.look (reducing 0 rdenseCmd).red.banks (redKey rdenseCmd) = none ∧
    (spans inDram 0x700000 96 = true ∧ Apart 0x700000 96 0x500000 16 ∧ Apart 0x700000 96 0x600000 192) := by
  unfold RedFront HeadIs GateOpen Apart; decide +kernel
theorem witness_RedClean : RedClean (reducing 1 rdenseCmd) rdenseCmd ∧ RedClean (normed 0) rnormCmd := by
  unfold RedClean State.Sound State.Clean; decide +kernel
theorem witness_shift : 0 < (Ex.ofInt 1).n ∧ 0 < (Ex.ofInt 1).d := by decide +kernel

-- Links and ports.

/-- A flit with another header field. -/
def alt (f : Flit) (lo w v : Nat) : Flit := crcd ((f.set lo w v).set 96 32 0)
/-- The flits of a message as they arrive first on a link. -/
def msgC (cls typ dest : Nat) (bs : List Byte) : List Flit :=
  (mkMsg cls typ dest false bs).zipIdx.map (fun x => crcd (x.1.set 48 16 (x.2 + 1)))
def hitsC (s : State) (cls typ : Nat) (bs : List Byte) (p : State → List Byte → Bool) : Bool :=
  hits (s.rx 0 cls typ (msgC cls typ s.chip bs)) p
def sig : Flit := flitA 2 1 false (leBytes 8 0)
def idle (credit seq : Nat) : Flit := crcd (((⟨4, []⟩ : Flit).set 80 16 credit).set 48 16 seq)
def withPort (x : PortSt) : State := linked.setPort 0 x
/-- A flit that passes through to chip d, after h hops. -/
def passing (d h : Nat) (first last : Bool) : Flit :=
  crcd (((mkFlit 0 2 d first last false (List.replicate 32 0)).set 48 16 1).set 8 4 h)

/-- A port that holds n flits without acknowledgement. -/
def unacked (n : Nat) : State := withPort { st := .up, replay := List.replicate n ⟨sig, 0⟩ }
theorem witness_links : NoRefresh linked ∧
    (FlitIn linked 0 sig ∧ FlitNext linked 0 sig ∧ (linked.port 0).waiting = [] ∧ (linked.port 0).owes = false ∧ sig.mcast = false ∧
      sig.dest = linked.chip ∧ sig.isFirst = true ∧ sig.isLast = true) ∧
    (FlitIn linked 0 (alt sig 48 16 5) ∧ (alt sig 48 16 5).seq ≠ 1 ∧ (alt sig 48 16 5).isIdle = false) ∧
    (FlitIn (withPort { st := .up, owedA := 64 }) 0 sig ∧ classBufs sig.cls ≤ bufsTaken (withPort { st := .up, owedA := 64 }) 0 sig) ∧
    (∀ b ∈ [(⟨3, 0, false⟩ : BlockReset), ⟨6, 0, true⟩], let s : State := { linked with block := some b }
      (s.closed 3 0 || s.closed 6 0) = true ∧ (s.port 0).st = .up ∧ sig.crc = sig.crcOf.toNat) ∧
    (sig.set 96 32 0).crc ≠ (sig.set 96 32 0).crcOf.toNat ∧
    (FlitIn linked 0 (idle 0 9) ∧ (idle 0 9).isIdle = true ∧ (idle 0 9).credit = 0) ∧
    (FlitIn linked 0 (idle 0x1111 1) ∧ (idle 0x1111 1).credit ≠ 0 ∧ (idle 0x1111 1).seq = 1) ∧
    ((withPort { st := .up, replay := [⟨sig, 7⟩] }).port 0).replay = [⟨sig, 7⟩] ∧ linked.linksDark = false ∧
    (∃ r ∈ ((withPort { st := .up, replay := [⟨sig, 8⟩] }).port 0).replay, 8 ≤ r.resent) ∧
    ({ linked with pow := { st := 2 } } : State).linksDark = true := by
  unfold FlitIn FlitNext NoRefresh; decide +kernel
theorem witness_full_replay : FlitIn (unacked 4096) 0 sig ∧ FlitNext (unacked 4096) 0 sig ∧
    4096 ≤ (((unacked 4096).port 0).replay.filter (fun r => !seqLe r.flit.seq sig.ack)).length := by
  unfold FlitIn FlitNext; decide +kernel
theorem witness_forward :
    (∀ f ∈ [passing 0 9 true true, passing 5 10 true true, passing 0 9 false false, passing 5 9 true true],
      (linked.bufFlit 0 f).2 = true ∧ transits linked f = true ∧ validType f.cls f.typ = true) ∧
    (passing 0 9 true true).hops < 10 ∧ linked.routeOut 0 0 false = some 0 ∧ linked.routeOut 0 5 false = none ∧
    (passing 5 10 true true).hops = 10 ∧ (alt sig 40 8 0xFF).typ = 0xFF ∧ (linked.bufFlit 0 (alt sig 40 8 0xFF)).2 = true ∧
    (let f := alt (passing 0 9 true true) 40 8 0x30
     (linked.bufFlit 0 f).2 = true ∧ transits linked f = true ∧ validType f.cls f.typ = false) := by
  decide +kernel

/-- Port 0 in a state, allowed by the link policy and enabled. -/
def portIn (st : PortState) : State :=
  { ((withPort { st := st }).setReg (spxPortCtrl 0) 1) with stile := { linked.stile with image := { linked.stile.image with portEn := 1 } } }
def helloFlit (chip fabric : Nat) : Flit := flitA 3 0 false (leBytes 4 chip ++ leBytes 4 fabric ++ leBytes 8 64 ++ [1])
theorem witness_PortStates :
    ((portIn .off).policyAllows 0 = true ∧ linked.policyAllows 0 = false ∧ ((portIn .off).port 0).st = .off ∧
      (portIn .off).bit (spxPortCtrl 0) 0 = true) ∧
    ((5 : Word).toNat / 4 % 4 = 1 ∧ (9 : Word).toNat / 4 % 4 = 2 ∧ ((portIn .fenced).port 0).st = .fenced) ∧
    (∀ f ∈ [helloFlit 2 0, helloFlit 1 0, helloFlit 2 7], f.cls = 0 ∧ f.typ = 3 ∧ f.isIdle = false ∧ f.crc = f.crcOf.toNat) ∧
    (msgNat (helloFlit 2 0).payload 4 4 = (portIn .hello).fld spxId 16 32 ∧ msgNat (helloFlit 2 0).payload 0 2 ≠ (portIn .hello).chip ∧
      msgNat (helloFlit 1 0).payload 0 2 = (portIn .hello).chip ∧ msgNat (helloFlit 2 7).payload 4 4 ≠ (portIn .hello).fld spxId 16 32) ∧
    (∀ k ∈ [0, 1], hits (linked.rx 0 0 4 [flitA 4 1 false [k]] true) (fun _ bs => msgNat bs 0 1 == k.toNat) = true) ∧
    hits (linked.rx 0 0 9 [flitA 9 1 false []] true) (fun t _ => !t.linksDark) = true ∧
    hits (({ linked with pow := { st := 2 } } : State).rx 0 0 9 [flitA 9 1 false []] true) (fun t _ => t.linksDark) = true := by
  decide +kernel

-- Members.

/-- A signal for counter 47 in an epoch; a MEMBER of a kind for MSEQ m at tick 9. -/
def stookMsg (epoch : Nat) : List Byte := [0, 0, 0, 47, 1, 0, 0, 0] ++ leBytes 2 epoch ++ List.replicate 22 0
def memberBytes (kind m : Nat) : List Byte := leBytes 2 kind ++ leBytes 2 0 ++ leBytes 4 m ++ leBytes 8 9 ++ leBytes 16 0
def leading (run misses : Nat) : State :=
  { leader with furCount := 9, mems := { members := [0, 1], beats := [(1, { misses := misses, judged := BitVec.ofNat 64 run })] } }
theorem witness_MembersSpeak :
    (hitsC linked 0 2 (stookMsg 0) (fun t bs => msgNat bs 7 1 % 4 == 0 && msgNat bs 8 2 == t.stkEpoch.toNat && decide (msgNat bs 3 1 % 64 < 48)) = true ∧
      hitsC linked 0 2 (stookMsg 1) (fun t bs => msgNat bs 8 2 != t.stkEpoch.toNat) = true) ∧
    (linked.master = some 0 ∧ linked.live linked.chip = true ∧ (linked.setBit furCtrl 0).bit furCtrl 0 = true) ∧
    (hitsC leader 0 5 (leBytes 32 1) (fun t _ => t.isMaster) = true ∧ hitsC linked 0 5 (leBytes 32 1) (fun t _ => !t.isMaster) = true) ∧
    (BeatMissing (leading 8 2) 1 ∧ BeatMissing (leading 7 2) 1 ∧ (leading 8 2).targetTick 0 < 2 ^ 64) ∧
    (hitsC linked 0 6 (memberBytes 0 1) (fun t bs => msgNat bs 0 1 ≤ 2 && (memberOf bs).mseq == t.lastMseq + 1 &&
        decide (t.furCount.toNat < (memberOf bs).tick.toNat)) = true ∧
      hitsC { linked with furCount := 9 } 0 6 (memberBytes 0 1) (fun t bs => (memberOf bs).mseq == t.lastMseq + 1 &&
        decide ((memberOf bs).tick.toNat ≤ t.furCount.toNat)) = true ∧
      hitsC linked 0 6 (memberBytes 2 5) (fun t bs => (memberOf bs).mseq != t.lastMseq + 1) = true) ∧
    ({ linked with mems := { members := [0, 1], transfer := some 2 } } : State).mems.transfer = some 2 ∧
    (let s : State := { linked with mems := { members := [0, 1], markersMissed := 3 } }
     s.master = some 0 ∧ s.deputy = some s.chip ∧ 3 ≤ s.mems.markersMissed ∧ s.pow.wakeGrace = false ∧ s.fur.holdTick = false ∧
       s.fur.sync = .free ∧ s.linksDark = false ∧ s.targetTick 0 < 2 ^ 64) ∧
    (hitsC leader 0 8 (leBytes 32 1) (fun t _ => t.isMaster) = true ∧ hitsC linked 0 8 (leBytes 32 1) (fun t _ => !t.isMaster) = true) := by
  unfold BeatMissing; decide +kernel

-- Messages of data.

/-- The module of the row, chip 0, with chip 1 at port 0. -/
def data : State :=
  { (merging.setReg (spxRoute 0) (BitVec.ofNat 64 (2 ^ 33))).setPort 0 { st := .up, nbrChip := 1, credA := 64, credB := 64, credC := 64, credD := 64 } with
    mems := { members := [0, 1] } }
def greqMsg (row step : Nat) : List Byte := leBytes 5 row ++ leBytes 1 0 ++ leBytes 2 1 ++ leBytes 4 step ++ leBytes 20 0
def awaiting (r : HrwRun) (write : Bool) : HrwRun := { r with acc := some ⟨0, write, [], 16, 0, false, 255⟩, src := if write then [⟨0, 0, 16⟩] else [⟨1, 0, 16⟩] }
def asking (write : Bool) : State := (data.setChan 255 { running := some (awaiting (runOf copyCmd) write) })
def runIs (t : State) (write : Bool) : Bool := (t.chan 255).running == some (awaiting (runOf copyCmd) write)
theorem witness_ModulesReadAndWriteEachOther : data.Sound ∧ (data.flips = [] ∧ data.lost = []) ∧
    (hitsC data 2 0x20 (greqMsg 64 0) (fun t bs => bs.length == 32 && t.live (msgNat bs 6 2) && !(t.table 0).valid (greqOf bs).row) = true ∧
      hitsC (data.poke 0x300000 [1]) 2 0x20 (greqMsg 5 0) (fun t bs => (t.table 0).valid (greqOf bs).row && (t.ownWord (t.table 0) 5).1 != t.chip) = true ∧
      (∀ x ∈ [(8, true), (9, false)], hitsC data 2 0x20 (greqMsg 5 x.1) (fun t bs => (t.table 0).valid (greqOf bs).row &&
        (t.ownWord (t.table 0) 5).1 == t.chip && jobReach ((t.table 0).ownAddr 5) 8 &&
        jobReach (t.homeAddr (t.table 0) 5) (t.table 0).rowBytes && t.gln.requests.isEmpty && t.serveRoom && t.dirLookup t.gln.cur 0 5 == none &&
        !t.bit glnCtrl 1 && t.fenceOpen (greqOf bs) == x.2) = true) ∧
      hitsC (data.setReg glnCtrl 0) 2 0x20 (greqMsg 5 8) (fun t bs => bs.length == 32 && t.gln.requests.isEmpty && !t.serveRoom) = true) ∧
    hitsC (data.setGport 0 { reads := [(3, ⟨1, 0, 5, bufBase, 0, true, 0⟩)] }) 3 0x30
      (leBytes 2 (64 * 3) ++ leBytes 2 0 ++ leBytes 4 80 ++ List.replicate 88 0) (fun t bs => msgNat bs 2 1 == 0 && msgNat bs 0 2 / 64 == 3 &&
        Tab.look (t.gport 0).reads 3 == some ⟨1, 0, 5, bufBase, 0, true, 0⟩ && !(t.gport 0).halted && (t.table 0).sound &&
        sramReach bufBase (outBytes (t.table 0) true 0) && msgNat bs 4 4 == (t.table 0).rowBytes && bs.length == 16 + (t.table 0).rowBytes) = true ∧
    (∀ x ∈ [(4096, true), (0, false), (4097, false)], hitsC data 2 0x21 (leBytes 8 0x8000 ++ leBytes 2 1 ++ leBytes 2 x.1 ++ leBytes 20 7)
      (fun t bs => bs.length == 32 && t.live (msgNat bs 8 2) && msgNat bs 10 2 == x.1 && jobReach (msgNat bs 0 6) 4096 &&
        (decide (1 ≤ msgNat bs 10 2) && decide (msgNat bs 10 2 ≤ 4096)) == x.2) = true) ∧
    (∀ x ∈ [(16, true), (64, false)], hitsC data 2 0x22 (leBytes 8 0x8000 ++ leBytes 2 1 ++ leBytes 2 x.1 ++ leBytes 20 7 ++ List.replicate 16 9)
      (fun t bs => t.live (msgNat bs 8 2) && jobReach (msgNat bs 0 6) 64 && decide (bs.length = 32 + msgNat bs 10 2) == x.2) = true) ∧
    (∀ st ∈ [0, 1], hitsC (asking false) 3 0x31 (leBytes 4 255 ++ leBytes 2 st ++ leBytes 2 16 ++ leBytes 8 0 ++ List.replicate 16 5)
      (fun t bs => msgNat bs 4 1 == st && msgNat bs 6 2 == 16 && bs.length == 32 && runIs t false) = true) ∧
    (∀ st ∈ [0, 1], hitsC (asking true) 3 0x32 (leBytes 4 255 ++ leBytes 2 st ++ leBytes 10 0) (fun t bs => msgNat bs 4 1 == st && runIs t true) = true) := by
  unfold State.Sound; decide +kernel

def gradMsg (step : Nat) : List Byte := leBytes 8 0 ++ leBytes 4 1 ++ leBytes 4 step ++ leBytes 4 1 ++ leBytes 28 0
/-- Every entry of the bank holds another row. -/
def fullBank : State :=
  (List.range 4).foldl (fun s i => s.poke (entryAddr merging mEng 1 i) (leBytes 8 (2 * 2 ^ 44 + 1 + i) ++ leBytes 4 7)) data
def gradOk (t : State) (bs : List Byte) (own isOpen : Bool) : Bool :=
  t.live (msgNat bs 8 2) && own == ((t.table 0).valid (msgNat bs 0 5) && decide ((t.ownWord (t.table 0) (msgNat bs 0 5)).1 = t.chip)) &&
    isOpen == (t.sheaf (rowEngine 0 (msgNat bs 0 5))).openFor (BitVec.ofNat 32 (msgNat bs 12 4))
/-- An RDENSE runs whose tree has children at ports 0 and 1, or its parent at port 0. -/
def chunking (tree : Nat) : State :=
  { ((reducing 0 rdenseCmd).setReg (spxRtree 0) (BitVec.ofNat 64 tree)) with red := { running := some rdenseCmd } }
def chunkMsg (n : Nat) : List Byte := leBytes 4 0 ++ leBytes 4 7 ++ leBytes 8 0 ++ List.replicate n 3
theorem witness_merging :
    (hitsC { data with mem := (entered 2).mem } 1 0x10 (gradMsg 7) (fun t bs => gradOk t bs true true && probeIs t 0 && bankReach t mEng) = true ∧
      hitsC data 1 0x10 (gradMsg 7) (fun t bs => gradOk t bs true true && probeIs t 1) = true ∧
      hitsC fullBank 1 0x10 (gradMsg 7) (fun t bs => gradOk t bs true true && probeIs t 2) = true ∧
      hitsC (data.poke 0x300000 [1]) 1 0x10 (gradMsg 7) (fun t bs => gradOk t bs false true) = true ∧
      hitsC data 1 0x10 (gradMsg 9) (fun t bs => gradOk t bs true false) = true) ∧
    (∀ st ∈ [0, 1], hitsC { data with shf := { engs := [(5, { flush := some ⟨shfCmd 4 [], 2, 1⟩ })] } } 3 0x33 (leBytes 2 0 ++ leBytes 1 5 ++ leBytes 1 st ++ leBytes 12 1)
      (fun t bs => msgNat bs 3 1 == st && (t.sheaf (msgNat bs 2 1 % 64)).flush == some ⟨shfCmd 4 [], 2, 1⟩) = true) ∧
    (hitsC (chunking (3 * 2 ^ 32)) 1 0x11 (chunkMsg 32) (fun t bs => chRid bs == 0 && ridElems t 0 == 4 &&
        decide (treeChildren t (chTree bs) % 2 = 1) && t.red.running == some rdenseCmd && chunkFits rdenseCmd bs && chChunk bs == 0 &&
        lastChunk t rdenseCmd == 1 && !(t.redMask rdenseCmd 0).getLsbD 0 && !(t.redMask rdenseCmd 0).getLsbD 1 &&
        !(t.redMask rdenseCmd 0).getLsbD 34 && decide (treeChildren t 0 / 2 % 2 = 1) && t.chunkOp bs == 1 && (t.chunkRun bs).isSome &&
        !t.redBusy (chunkCmd 1 bs) && (Tab.get (t.port 0).partialMsg [] 1).isEmpty) = true ∧
      hitsC (chunking (2 * 2 ^ 32)) 1 0x11 (chunkMsg 32) (fun t bs => decide (treeChildren t (chTree bs) % 2 = 0)) = true ∧
      hitsC ((reducing 1 rdenseCmd).poke 0x500000 (leBytes 8 dumpBase)) 1 0x11 (chunkMsg 32) (fun t bs =>
        decide (treeChildren t (chTree bs) % 2 = 1) && t.red.running == none && !stageReach t (chRid bs) &&
        decide (spans inDram (ridStage t (chRid bs)) 192)) = true ∧
      hitsC { reducing 1 rdenseCmd with red := { banks := [(redKey rdenseCmd, ⟨6, 0, []⟩)] } } 1 0x11 (chunkMsg 32) (fun t bs =>
        t.red.running == none && stageReach t (chRid bs) && t.redBusy (chunkCmd (t.chunkOp bs) bs)) = true ∧
      hitsC (chunking 0) 1 0x12 (chunkMsg 32) (fun t bs => !treeRoot t (chTree bs) && treeParent t (chTree bs) == 0 && chunkFits rdenseCmd bs &&
        decide (chChunk bs < lastChunk t rdenseCmd) && !(t.redMask rdenseCmd 1).getLsbD 34) = true ∧
      hitsC (chunking 32) 1 0x12 (chunkMsg 32) (fun t bs => treeRoot t (chTree bs)) = true) ∧
    Apart (ridAddr (chunking 0) 0) 16 0x700000 96 ∧ RidInDram (chunking 0) 0 := by
  unfold Apart RidInDram; decide +kernel

def volMsg (kind chip slot : Nat) : List Byte := leBytes 2 kind ++ leBytes 2 chip ++ leBytes 4 slot ++ leBytes 8 5 ++ leBytes 16 8 ++ [1]
/-- Two members share 8 VOL slots, and the directory lies in the base-die buffers. -/
def volunteering : State := (data.setReg glnDir (BitVec.ofNat 64 (bufBase + 10 * 2 ^ 48))).setReg glnVol (BitVec.ofNat 64 (8 * 2 ^ 48))
/-- Its next bank has row 5, or a full bucket for it. -/
def volIn (full : Bool) : State :=
  let as := dirEntries volunteering true 0 5
  if full then as.foldl (fun s a => s.poke a (leBytes 8 (2 * 2 ^ 44 + 6))) volunteering
  else volunteering.poke (as.getD 0 0) (leBytes 8 (2 * 2 ^ 44 + 5) ++ leBytes 4 4)
theorem witness_volunteers :
    (∀ k ∈ [0, 1, 2, 3], hitsC volunteering 3 0x34 (volMsg k 1 4) (fun t bs => msgNat bs 0 1 % 4 == k && t.inQuota (msgNat bs 2 2) (msgNat bs 4 4)) = true ∧
      hitsC volunteering 3 0x34 (volMsg k 1 3) (fun t bs => !t.inQuota (msgNat bs 2 2) (msgNat bs 4 4)) = true) ∧
    hitsC { volunteering with gln := { slots := [(16388, { valid := true })] } } 3 0x34 (volMsg 1 1 4) (fun t _ => (t.slotSt 16388).valid) = true ∧
    hitsC volunteering 3 0x34 (volMsg 2 1 4) (fun t bs => dirPlaced t && (dirEntries t (!t.gln.cur) 0 (msgNat bs 8 5)).any (fun a => entryKind t a == 0) &&
      t.dirLookup (!t.gln.cur) 0 5 == none && (t.slotSt 16388).free && decide (4 < t.volSlots) && !t.gln.syncing) = true ∧
    (∀ k ∈ [2, 3], hitsC { volunteering with gln := { syncing := true } } 3 0x34 (volMsg k 1 4) (fun t _ => t.gln.syncing) = true) ∧
    hitsC (volIn true) 3 0x34 (volMsg 2 1 4) (fun t _ => (dirEntries t (!t.gln.cur) 0 5).all (fun a => entryKind t a != 0)) = true ∧
    hitsC (volIn false) 3 0x34 (volMsg 3 1 4) (fun t bs => (t.dirLookup (!t.gln.cur) 0 (msgNat bs 8 5)).isSome) = true ∧
    hitsC data 2 0x23 (leBytes 8 0x100000003 ++ leBytes 8 0) (fun _ bs => bs.length == 16) = true := by decide +kernel

-- Recovery.

/-- RECOVERY messages reach the leader and a member. -/
def recHits (s : State) (kind : Nat) (bs : List Byte) (p : State → List Byte → Bool) : Bool :=
  hitsC s 0 7 bs (fun t bs => msgNat bs 0 1 == kind && p t bs)
def covering (x : RecSt) : State := { linked with rcv := x, furCount := 9 }
theorem witness_RecoveryStartsAndResumes :
    recHits leader 0 (recBytes 0 1 1 0 0 0 1 0 0) (fun t bs => t.isMaster && t.rcv.rseq.toNat ≤ msgNat bs 4 4 && !t.rcv.covered && t.rcv.st == .run &&
      decide (t.rcv.rseq.toNat + 1 < 2 ^ 32) && decide (t.targetTick 0 < 2 ^ 64)) = true ∧
    recHits linked 0 (recBytes 0 1 1 0 0 0 1 0 0) (fun t _ => !t.isMaster) = true ∧
    (∀ x ∈ [(10, 0), (9, 0), (10, 1)], recHits (covering {}) 1 (recBytes 1 1 0 1 x.1 5 0 0 (x.2 * 2 ^ 32)) (fun t bs => decide (msgNat bs 28 4 ≤ 1) &&
      decide (t.rcv.rseq.toNat < (haltOf bs).rseq.toNat) && decide (t.furCount.toNat < (haltOf bs).tick.toNat) == (x.1 == 10)) = true) ∧
    recHits (covering {}) 1 (recBytes 1 1 0 1 10 5 0 0 (2 * 2 ^ 32)) (fun _ bs => decide (1 < msgNat bs 28 4)) = true ∧
    recHits (covering { rseq := 5 }) 1 (recBytes 1 1 0 1 10 5 0 0 0) (fun t bs => decide ((haltOf bs).rseq.toNat ≤ t.rcv.rseq.toNat) &&
      decide (t.furCount.toNat < (haltOf bs).tick.toNat)) = true ∧
    recHits (covering { st := .stopped }) 1 (recBytes 1 1 0 1 10 5 0 0 0) (fun t bs => t.rcv.st == .stopped &&
      decide (t.rcv.rseq.toNat < (haltOf bs).rseq.toNat) && decide (t.furCount.toNat < (haltOf bs).tick.toNat)) = true ∧
    (∀ k ∈ [9, 10], recHits (covering { covered := true, rseq := 2 }) 3 (recBytes 3 0 0 1 k 6 0 0 0) (fun t bs => msgNat bs 4 4 != t.rcv.rseq.toNat &&
      decide (t.furCount.toNat < msgNat bs 8 8) == (k == 10)) = true) ∧
    (∀ k ∈ [9, 10], recHits (covering { covered := true, rseq := 1 }) 3 (recBytes 3 0 0 1 k 6 0 0 0) (fun t bs => msgNat bs 4 4 == t.rcv.rseq.toNat &&
      t.rcv.covered && decide (t.furCount.toNat < msgNat bs 8 8) == (k == 10)) = true) ∧
    recHits leader 4 (recBytes 4 0 5 0 0 0 1 0 0) (fun t bs => t.isMaster && !t.live (msgNat bs 2 2) && t.mems.reports.isEmpty) = true ∧
    recHits leader 7 (recBytes 7 2 1 0 0 0 1 0 0) (fun t _ => t.isMaster) = true ∧ recHits linked 7 (recBytes 7 2 1 0 0 0 1 0 0) (fun t _ => !t.isMaster) = true ∧
    (linked.master = some 0 ∧ linked.chip = 1) := by decide +kernel
/-- All links of a member are down where there is one between it and this module: how many there are is the board's, and free. -/
theorem witness_links_down (h : Config.linksBetween 0 1 = 1) :
    ({ leader with mems := { members := [0, 1], reports := [(0, 1)] } } : State).linksAllDown 1 = true := by
  have l : ({ leader with mems := { members := [0, 1], reports := [(0, 1)] } } : State).liveList = [0, 1] := rfl
  unfold State.linksAllDown
  rw [l]
  simp [h]

/-- The leader of chips 0 and 1, which hold roles 0 and 1, in a recovery of RSEQ 3; READY waits for chip 1. -/
def roleState (st : RecState) (pushed : List Nat) : State :=
  { leader with furCount := 9, mems := { members := [0, 1], roleMap := [(0, 0), (1, 1)] },
                job := { st := .running, roles := [(0, 1, 0, 0), (1, 0, 0, 0)], every := 8 },
                rcv := { st := st, covered := true, rseq := 3, pushedRoles := pushed, readyChips := [0] } }
theorem witness_SealsHaltsAndReadiness :
    recHits linked 5 (recBytes 5 0 0 0 0 7 0 0 0) (fun _ _ => true) = true ∧
    (∀ p ∈ [[], [0]], recHits (roleState .run p) 2 (recBytes 2 0 1 3 0 7 1 0 0) (fun t bs => t.isMaster && msgNat bs 2 2 != t.chip &&
      msgNat bs 24 8 != 1 && msgNat bs 22 1 == 0 && t.roleOf (msgNat bs 20 2) == some 1 && t.rcv.pushedRoles == p && t.holder 0 == 0) = true) ∧
    recHits (roleState .ready []) 2 (recBytes 2 0 1 3 0 7 1 5 0) (fun t bs => msgNat bs 22 1 == 5 && msgNat bs 4 4 == t.rcv.rseq.toNat &&
      t.rcv.covered && t.rcv.st == .ready && t.liveList == [0, 1] && decide (t.targetTick 0 < 2 ^ 64)) = true ∧
    recHits { roleState .run [] with rcv := { pushing := some 7 } } 2 (recBytes 2 0 0 0 0 7 1 0 0) (fun t bs => msgNat bs 2 2 == t.chip &&
      msgNat bs 20 2 != t.chip && t.rcv.pushing == some 7 && t.myRole == some 0) = true := by decide +kernel
/-- A member whose HALT falls due at the next tick, and one whose RESUME does. -/
def halting (h : Option Halt) (r : Option (Word × BitVec 32)) : State :=
  { linked.setBit furCtrl 0 with fur := { sync := .locked }, rcv := { haltAt := h, resumeAt := r } }
def haltIs (stop host : Bool) : Halt := ⟨1, 1, 7, host, 6, stop⟩
def afterTick (s : State) : State :=
  match exec (.furrowTick 0) s with
  | .next t => t
  | _ => s
theorem witness_ticks : (∀ x ∈ [(true, true), (true, false), (false, true), (false, false)],
      (halting (some (haltIs x.1 x.2)) none).mayTick = true ∧ (afterTick (halting (some (haltIs x.1 x.2)) none)).live 1 = true ∧
        (afterTick (halting (some (haltIs x.1 x.2)) none)).isMaster = false) ∧
    (halting none (some (1, 8))).mayTick = true ∧ (halting none (some (1, 8))).pow.fallowAt = none ∧
    (afterTick (halting none (some (1, 8)))).live 1 = true ∧ (afterTick (halting none (some (1, 8)))).isMaster = false := by decide +kernel

-- Snapshots: this module holds role 0 of a job with one region of 16 bytes at 0x8000 and its local area at 1 MiB.

def snapping (x : RecSt) : State :=
  { data with
    mems := { members := [0, 1], roleMap := [(0, 0), (1, 1)] },
    job := { st := .running, hash := List.replicate 32 5, roles := [(0, 1, 0, 0), (1, 0, 0, 0)], every := 8, regions := [(0x8000, 16, false)],
             localArea := 0x100000, buddy0 := 0x900000, buddy1 := 0xA00000, areaLen := 12288, amax := [0xB00000] },
    rcv := x }
theorem witness_copy : let s := snapping { snap := some ⟨7, true, 0, 0, [], true⟩ }
    s.myRole = some 0 ∧ s.phasesDone 7 = true ∧ s.Sound ∧ s.flips = [] ∧ s.lost = [] ∧ s.job.hash.length = 32 ∧
      s.job.localArea + 8192 + s.bodyLen ≤ buddyBase := by unfold State.Sound; decide +kernel
theorem witness_bulk :
    (∀ x ∈ [(0, 1, 8192), (1, 0, 12272), (2, 0, 0)], hitsC (snapping { st := .restore, k0 := 7 }) 3 0x35 (bulkBytes x.1 x.2.1 7 x.2.2 (List.replicate 16 9))
      (fun t bs => msgNat bs 0 1 == x.1 && ((bs.drop 32).take 16).length == msgNat bs 16 4 && (crc32c ((bs.drop 32).take 16)).toNat == msgNat bs 20 4 &&
        t.buddyOf 1 == some t.chip && t.myRole == some 0 && t.rcv.st == .restore && decide (t.buddyArea 1 0 + 12288 ≤ buddyBase) &&
        (x.1 == 2 || (decide (8192 ≤ msgNat bs 8 8) && decide (msgNat bs 8 8 + 16 ≤ t.job.areaLen)))) = true) ∧
    hitsC (snapping {}) 3 0x35 (List.replicate 48 1) (fun _ bs => decide (16 < msgNat bs 16 4)) = true := by decide +kernel

/-- A push of role 1 or a fill of role 0 into an area whose header says 0 body bytes and the DIGEST of none, or another. -/
def pushing (fill good : Bool) : State :=
  (snapping { rx := [⟨fill, if fill then 0 else 1, 8, 0xC00000, [], 0, 1⟩] }).poke 0xC00040 (if good then shake256 [] 32 else [1])
theorem witness_push : recHits { leader with mems := { members := [0, 1], transfer := some 1 } } 6 (recBytes 6 0 0 0 0 0 1 0 16384)
      (fun t bs => t.isMaster && t.mems.transfer == some (BitVec.ofNat 16 (msgNat bs 20 2)) && msgNat bs 24 8 == 16384) = true ∧
    (∀ good ∈ [true, false], recHits (pushing false good) 6 (recBytes 6 0 0 0 0 8 1 0 0) (fun t bs => t.mems.transfer == none &&
      t.rcv.rx.find? (fun x => !x.fill && t.roleOf (msgNat bs 20 2) == some x.role.toNat) == some ⟨false, 1, 8, 0xC00000, [], 0, 1⟩ &&
      t.pushGood ⟨false, 1, 8, 0xC00000, [], 0, 1⟩ 0 == good) = true) ∧
    (∀ good ∈ [true, false], recHits (pushing true good) 6 (recBytes 6 0 0 0 0 8 1 0 0) (fun t _ =>
      t.rcv.rx == [⟨true, 0, 8, 0xC00000, [], 0, 1⟩] && t.pushGood ⟨true, 0, 8, 0xC00000, [], 0, 1⟩ 0 == good &&
      decide (t.fillSources 0 ≤ 2)) = true) := by decide +kernel
/-- Two chips hold what role 0 of this module lost: its buddy, and one of its group. -/
theorem witness_two_sources : let s : State := { snapping { heldAt := [(2, 2)] } with
      mems := { members := [0, 1, 2], roleMap := [(0, 0), (1, 1), (2, 2)] },
      job := { st := .running, roles := [(0, 1, 0, 0), (1, 0, 1, 0), (2, 0, 0, 0)] } }
    0 + 1 < s.fillSources 0 := by decide +kernel

/-- The local area has the record and the header of step 7; with no region its DIGEST is that of no bytes. -/
def restoring (regions : List (Nat × Nat × Bool)) : State :=
  let s := snapping { st := .restore, k0 := 7 }
  let u := { s with job := { s.job with regions := regions } }
  (u.poke 0x100000 (leBytes 8 0x47524E5434384C31 ++ leBytes 4 7 ++ leBytes 20 0 ++ s.job.hash ++ shake256 [] 32 ++ leBytes 8 3 ++ [2])).poke
    (recordAddr 0) (leBytes 3 0xFF0000 ++ [2] ++ leBytes 4 7 ++ leBytes 24 0 ++ s.job.hash)
theorem witness_restore : (restoring []).holds 0 7 = true ∧ (restoring []).areaGood 7 = true ∧ (restoring []).myRole = some 0 ∧
    (let s := restoring [(0x8000, 16, false)]
     s.areaGood 7 = false ∧ s.rcv.asked = false ∧ s.rcv.failed = false ∧
       (∀ r ∈ [{ s.rcv with failed := true }, { s.rcv with asked := true }], let u : State := { s with rcv := r }
        u.areaGood 7 = false ∧ u.holds 0 7 = true ∧ u.myRole = some 0 ∧ u.rcv.st = .restore) ∧ (∀ x ∈ s.placed, x.2.1 + x.2.2.1 ≤ buddyBase ∧ Apart x.2.1 x.2.2.1 s.job.localArea (8192 + s.bodyLen)) ∧
       s.job.localArea + 8192 + s.bodyLen ≤ buddyBase ∧ ∀ a ∈ s.job.amax, a + 72 ≤ buddyBase) := by
  unfold Apart; decide +kernel

-- The host port.

/-- A request, and session 0 open with it in front, with MGMT privilege or without. -/
def req (typ op : Nat) (body : List Byte) : Req := ⟨BitVec.ofNat 8 typ, BitVec.ofNat 8 op, 7, body, false, 1⟩
def inFront (s : State) (mgmt : Bool) (r : Req) : State :=
  { s with sess := [(0, { isOpen := true, mgmt := mgmt, epoch := 4, reqs := [r], rxNext := 2, txSeq := 3, peerWindow := 4 })] }
/-- The same with no room in the peer's window. -/
def windowFull (s : State) (r : Req) : State :=
  { s with sess := [(0, { isOpen := true, mgmt := true, epoch := 4, reqs := [r], txSeq := 3, peerWindow := 1, unacked := [⟨2, [], 0⟩] })] }
/-- A job in a state with a few tables. -/
def jobbed (st : JobState) : State :=
  { gleaning with job := { st := st, loadSlot := some 0, length := 64, hash := [], nextOff := 16, rtab := 0x6000, nres := 1, ftab := 0x5000, nfeed := 1, seedTab := 0x9000, seedStride := 64, seedRing := 2, phase := 1 }, furCount := 9 }
/-- The request may run. -/
def mayRun (s : State) (typ op : Nat) (body : List Byte) : Prop :=
  FgtMay (inFront s true (req typ op body)) 0 (req typ op body) typ op
def inFallow : State := { jobbed .none with pow := { st := 2 } }
def recovering : State := { jobbed .none with stile := { alone.stile with recoveryBoot := true } }

theorem witness_RequestsAndReplies :
    (∀ x ∈ [(jobbed .none, false, 4, 0, 4), (jobbed .none, false, 18, 0, 6), (inFallow, true, 4, 0, 9), (recovering, true, 4, 0, 5)],
      FgtFront (inFront x.1 x.2.1 (req x.2.2.1 0 [])) 0 (req x.2.2.1 0 []) x.2.2.1 0 ∧
      (inFront x.1 x.2.1 (req x.2.2.1 0 [])).turnedAway 0 x.2.2.1 x.2.2.2.1 = some x.2.2.2.2) ∧
    (∀ x ∈ [(1, 3), (1, 2), (10, 0), (11, 0), (12, 0), (12, 1), (15, 0), (16, 0), (17, 0), (18, 0)], mayRun (jobbed .none) x.1 x.2 []) ∧
    (∀ x ∈ [(1, 2), (18, 0)], let s := windowFull (jobbed .none) (req x.1 x.2 [])
      FgtMay s 0 (req x.1 x.2 []) x.1 x.2 ∧ (s.session 0).peerWindow ≤ (s.session 0).unacked.length) ∧
    (let x := (inFront alone true (req 1 3 [])).session 0
     x.reqs = [req 1 3 []] ∧ x.waitTx = [] ∧ x.unacked.length < x.peerWindow) ∧
    knownOp 18 0 = true ∧ recovering.stile.recoveryBoot = true ∧ inFallow.linksDark = true := by
  unfold mayRun FgtMay FgtFront; decide +kernel
theorem witness_JobTable : JobTable (jobbed .none) 0 2 0 ∧ JobTable (jobbed .loading) 0 2 1 ∧ JobTable (jobbed .loaded) 0 4 0 ∧
    JobTable (jobbed .running) 0 5 0 ∧ JobTable (jobbed .paused) 0 5 1 ∧ ¬ JobTable (jobbed .none) 0 4 0 ∧
    JobTable { jobbed .running with rcv := { st := .waitHost } } 0 9 2 := by
  simp [JobTable, jobbed]

/-- A datagram whose TAG verifies under a key. -/
def dgBytes (flags slot epoch seq win : Nat) (payload : List Byte) : List Byte :=
  1 :: BitVec.ofNat 8 flags :: (leBytes 1 slot ++ leBytes 1 0 ++ leBytes 4 epoch ++ leBytes 8 seq ++ leBytes 12 0 ++ leBytes 2 win ++
    leBytes 2 payload.length)
def datagram (flags slot epoch seq win : Nat) (key payload : List Byte) : Datagram :=
  ⟨BitVec.ofNat 384 (leNat (dgBytes flags slot epoch seq win payload ++ dgTag key (dgBytes flags slot epoch seq win payload) payload)), payload, 0, 0, 0⟩
theorem datagram_field (flags slot epoch seq win : Nat) (key payload : List Byte) (o n : Nat) (h : o + n ≤ 32) :
    dgField (datagram flags slot epoch seq win key payload) o n = msgNat (dgBytes flags slot epoch seq win payload) o n := by
  have hl : (dgBytes flags slot epoch seq win payload).length = 32 := by simp [dgBytes]
  rw [dgField, datagram, dgHead_of _ _ _ _ _ (by simp [hl]), msgNat, msgNat, List.drop_append_of_le_length (by omega),
    List.take_append_of_le_length (by simp [hl]; omega)]
theorem datagram_flag (flags slot epoch seq win : Nat) (key payload : List Byte) (b : Nat) (h : b < 8) :
    dgFlag (datagram flags slot epoch seq win key payload) b = decide (flags % 2 ^ 8 / 2 ^ b % 2 = 1) := by
  rw [datagram, dgBytes, List.cons_append, List.cons_append, dgFlag_of _ _ _ _ _ _ _ (by simp) _ h, BitVec.toNat_ofNat]
theorem datagram_good (flags slot epoch seq win : Nat) (key payload : List Byte) :
    dgGood (datagram flags slot epoch seq win key payload) key = true := dgGood_of _ _ _ _ _ _ (by simp [dgBytes])
def listening : State := { hosted with sess := [(0, { isOpen := true, epoch := 4, rxNext := 2, txSeq := 3, peerWindow := 4 })] }
def pingMsg : List Byte := [1, 3, 0, 0] ++ leBytes 4 7 ++ leBytes 8 0
def ping : Datagram := datagram 6 0 4 2 300 [] pingMsg
theorem witness_datagram : DgOf listening 0 ping ∧ dgFlag ping 0 = false ∧ dgFlag ping 1 = true ∧ dgFlag ping 2 = true ∧
    dgField ping 8 8 = 2 ∧ (parseReq ping.payload 1).bad = false ∧ listening.storeRoom (listening.session 0) = true ∧
    (listening.session 0).waitTx = [] := by
  have f (o n : Nat) (h : o + n ≤ 32) : dgField ping o n = msgNat (dgBytes 6 0 4 2 300 pingMsg) o n := datagram_field _ _ _ _ _ _ _ _ _ h
  have g (b : Nat) (h : b < 8) : dgFlag ping b = decide (6 % 2 ^ 8 / 2 ^ b % 2 = 1) := datagram_flag _ _ _ _ _ _ _ _ h
  refine ⟨⟨by decide +kernel, ?_, ?_, by decide +kernel, ?_, datagram_good _ _ _ _ _ _ _, rfl, rfl, rfl⟩, ?_, ?_, ?_, ?_, ?_⟩
  · rw [dgFits, f 0 1 (by decide), f 30 2 (by decide), g 3 (by decide)]; decide +kernel
  · rw [f 2 1 (by decide)]; decide +kernel
  · rw [f 4 4 (by decide)]; decide +kernel
  · rw [g 0 (by decide)]; rfl
  · rw [g 1 (by decide)]; rfl
  · rw [g 2 (by decide)]; rfl
  · rw [f 8 8 (by decide)]; decide +kernel
  · decide +kernel
/-- Headers and a session that take the other ways: not fitting, an OPEN, a slot that is closed, a wrong TAG; a duplicate, one
ahead, an ACK_ONLY; a store without room. -/
def plain (flags slot epoch seq : Nat) : Datagram :=
  ⟨BitVec.ofNat 384 (1 + flags * 2 ^ 8 + slot * 2 ^ 16 + epoch * 2 ^ 32 + seq * 2 ^ 64), [], 0, 0, 0⟩
theorem witness_DatagramsAndSessions :
    (dgFits (plain 8 0 4 0) = false ∧ dgFits (plain 6 255 0 0) = true ∧ dgField (plain 6 255 0 0) 2 1 = 0xFF ∧
      dgFits (plain 6 63 0 0) = true ∧ (listening.session 63).isOpen = false ∧ dgField (plain 6 64 0 0) 2 1 = 64 ∧
      dgField (plain 6 0 5 0) 4 4 ≠ (listening.session 0).epoch.toNat ∧ listening.pins.hostUp = true) ∧
    (dgField (plain 6 0 4 1) 8 8 < (listening.session 0).rxNext ∧ (listening.session 0).rxNext < dgField (plain 6 0 4 3) 8 8 ∧
      dgFlag (plain 1 0 4 0) 0 = true) ∧
    (let x : Sess := { isOpen := true, rxHeld := List.replicate 16 (9, true, true, []) }
     ({ hosted with sess := (List.range 64).map (fun i => (i, { x with rxHeld := List.replicate 130 (9, true, true, []) })) } : State).storeRoom x = false) ∧
    (∀ n ∈ [0, 19, 20], (({ listening with sess := [(0, { unacked := [⟨2, [], n⟩] })] } : State).session 0).unacked[0]? = some ⟨2, [], n⟩) ∧
    (let s : State := { hosted with stile := { hosted.stile with image := { ipv4 := 5 } } }
     s.pins.hostUp = true ∧ s.stile.image.ipv4 ≠ 0 ∧ (s.setBit fgtCtrl 1).bit fgtCtrl 1 = true) := by decide +kernel
theorem good_src (d : Datagram) (e : BitVec 48) (k : List Byte) : dgGood { d with ethSrc := e } k = dgGood d k := rfl
/-- A datagram of another source than the session's. -/
theorem witness_other_source : (⟨5, ping.ipSrc, ping.udpSrc⟩ : Peer) ≠ (listening.session 0).peer ∧
    dgGood { ping with ethSrc := 5 } (listening.session 0).key = true :=
  ⟨by decide +kernel, (good_src _ _ _).trans witness_datagram.1.2.2.2.2.2.1⟩
/-- An OPEN by the host of key 2, of all privileges. -/
def openMsg : List Byte := [1, 0, 0, 0] ++ leBytes 4 7 ++ leBytes 8 32 ++ leBytes 2 2 ++ [1] ++ leBytes 29 0
def opener (win : Nat) : Datagram := datagram 6 255 0 0 win (hostKey [] 2) openMsg
def opening (win : Nat) : State :=
  { hosted with stile := { hosted.stile with image := { keys := [(2, true)] } }, opens := [opener win] }
/-- It tells a WINDOW of 0 or of 1. -/
theorem witness_OpenGood : ∀ w ∈ [0, 1], (opening w).opens = [opener w] ∧ OpenGood (opening w) (opener w) 2 true ∧
    ((opening w).session 0).isOpen = false ∧ dgField (opener w) 28 2 = w := by
  intro w hw
  have field (o n : Nat) (h : o + n ≤ 32) : dgField (opener w) o n = msgNat (dgBytes 6 255 0 0 w openMsg) o n :=
    datagram_field _ _ _ _ _ _ _ _ _ h
  have flag (b : Nat) (h : b < 8) : dgFlag (opener w) b = decide (6 % 2 ^ 8 / 2 ^ b % 2 = 1) := datagram_flag _ _ _ _ _ _ _ _ h
  have fits : dgFits (opener w) = true := by
    rw [dgFits, field 0 1 (by decide), field 30 2 (by decide), flag 3 (by decide)]
    obtain rfl | rfl : w = 0 ∨ w = 1 := by simpa using hw
    all_goals decide +kernel
  refine ⟨rfl, ⟨?_, fits, ?_, ?_, ?_, datagram_good _ _ _ _ _ _ _, flag 0 (by decide), flag 1 (by decide), flag 2 (by decide),
    (field 4 4 (by decide)).trans ?_, (field 8 8 (by decide)).trans ?_, ?_⟩, ?_, (field 28 2 (by decide)).trans ?_⟩ <;>
  (obtain rfl | rfl : w = 0 ∨ w = 1 := by simpa using hw) <;> decide +kernel
/-- Of two OPENs that differ in their TAG alone one is wrong under any key. -/
def taggedOne : Datagram := ⟨(plain 6 255 0 0).hdr + BitVec.ofNat 384 (2 ^ 256), [], 0, 0, 0⟩
theorem witness_bad_tag (k : List Byte) : ∃ d ∈ [plain 6 255 0 0, taggedOne], dgGood d k = false := by
  by_contra h
  simp only [not_exists, not_and, Bool.not_eq_false] at h
  have a := of_decide_eq_true (h (plain 6 255 0 0) (by simp))
  have b := of_decide_eq_true (h taggedOne (by simp))
  have e : (dgHead taggedOne).take 32 = (dgHead (plain 6 255 0 0)).take 32 := by decide +kernel
  rw [e] at b
  exact absurd (a.symm.trans b) (by decide +kernel)
/-- An OPEN of a key that the image has not, and one that is good but says ACK_ONLY. -/
theorem witness_OpenBad : (opening 1).stile.image.keys.find? (fun k => k.1 == 3) = none ∧
    dgGood (datagram 7 255 0 0 1 (hostKey [] 2) openMsg) (hostKey [] 2) = true ∧
    dgFlag (datagram 7 255 0 0 1 (hostKey [] 2) openMsg) 0 = true :=
  ⟨by decide +kernel, datagram_good _ _ _ _ _ _ _, datagram_flag _ _ _ _ _ _ _ _ (by decide)⟩
theorem witness_full : ∀ i, i < 64 → (({ opening 1 with sess := (List.range 64).map (fun i => (i, { isOpen := true })) } : State).session i).isOpen = true := by
  decide +kernel

-- Jobs.

def partBody (o n : Nat) : List Byte := leBytes 8 o ++ List.replicate n 1
theorem witness_LoadingAJob :
    (mayRun (jobbed .none) 2 0 (leBytes 8 dramJobEnd ++ List.replicate 32 0) ∧ mayRun (jobbed .none) 2 0 (leBytes 8 (dramJobEnd + 1) ++ List.replicate 32 0)) ∧
    (mayRun (jobbed .loading) 2 1 (partBody 16 48) ∧ mayRun (jobbed .loading) 2 1 (partBody 16 49) ∧ (jobbed .loading).job.nextOff = 16 ∧
      (jobbed .loading).job.length = 64) ∧
    mayRun (jobbed .loading) 2 2 [1] ∧ mayRun (jobbed .loading) 2 2 [2] ∧ mayRun (jobbed .loading) 2 3 [] ∧ mayRun (jobbed .paused) 2 3 [] := by
  unfold mayRun FgtMay FgtFront; decide +kernel
/-- A load that is complete, of a header that R46 admits for this part or another, or that it does not. -/
def headerBytesOf (part : Nat) : List Byte :=
  leBytes 8 0x4A4F425434384C31 ++ leBytes 4 part ++ leBytes 12 0 ++ leBytes 4 25000 ++ [255] ++ leBytes 27 0 ++ leBytes 2 256 ++
    leBytes 18 0 ++ [1] ++ leBytes 51 0
def complete (h : List Byte) : State :=
  let s := (jobbed .loading).poke 0 h
  { s with job := { s.job with length := 128, nextOff := 128, hash := shake256 (s.peeks 0 128) 32 } }
theorem witness_commit : headerOk ((complete (headerBytesOf 9)).peeks 0 128) = true ∧ imageParts (complete (headerBytesOf 9)) ((complete (headerBytesOf 9)).peeks 0 128) = false ∧
    headerOk ((complete []).peeks 0 128) = false ∧ (complete []).job.nextOff = (complete []).job.length := by decide +kernel
theorem complete_hash (h : List Byte) : (complete h).job.hash = shake256 ((complete h).peeks 0 (complete h).job.length) 32 := rfl
/-- What the sections of an image hold is the loader's, and free: an image of two chips, with no thread, loads. -/
def sections : ImageSections :=
  { nreg := 1, nrole := 1, regTab := 0x2000, roleTab := 0x3000, localArea := 0x100000, buddy0 := 0x200000, buddy1 := 0x300000,
    areaLen := 12288, memory := [(0x3000, [0, 0, 1])] }
def loadable : State := complete (headerBytesOf 0x1410048)
def header : List Byte := loadable.peeks 0 128
theorem witness_fits : headerOk header = true ∧ imageParts loadable header = true ∧ (threadsOk sections.threads && nodesOk sections.csr &&
    placesOk sections.memory && sections.counters.all (fun c => decide (c < 44)) && powerOk loadable sections) = true := by decide +kernel
set_option maxRecDepth 4000 in
theorem witness_tables : ((imageTables sections (loadable.loadReset.loadPlace sections (header.take 128) true).job).all (fun r => jobReach r.1 r.2) &&
    tablesOk (loadable.loadReset.loadPlace sections (header.take 128) true) sections &&
    granaryOk (loadable.loadReset.loadPlace sections (header.take 128) true) sections
      (loadable.loadReset.loadPlace sections (header.take 128) true).job) = true := by decide +kernel
set_option maxRecDepth 4000 in
theorem witness_clean : loadable.Clean :=
  ⟨by decide +kernel, by decide +kernel⟩
theorem witness_loads :
    (Config.imageSections header = some sections → (loadable.commitImage header true).1 = 0) ∧
    (Config.imageSections header = none → (loadable.commitImage header true).1 = 5) := by
  have w := witness_fits
  have p := witness_tables
  have c := witness_clean
  constructor <;> intro h
  · simp only [State.commitImage, h, w.1, w.2.1, w.2.2, not_true_eq_false, if_false]
    simp only [(State.touch_clean c srcFgt _).2, Bool.true_and, p, not_true_eq_false, if_false]
  · simp only [State.commitImage, h, w.1, w.2.1, not_true_eq_false, if_false]
theorem witness_sigfail : ∀ l : List Byte, l.length = 31 → shake256 [] 32 ≠ l := by
  intro l h e
  have := shake256_length [] 32
  rw [e] at this; omega

/-- One host-writable region of 16 bytes at 0x7000. -/
def feeding (st : JobState) : State := { jobbed st with job := { (jobbed st).job with feedTab := [(0x7000, 16)] } }
def edgesBody : List Byte := leBytes 8 1 ++ leBytes 4 8 ++ leBytes 4 1 ++ leBytes 16 0 ++ List.replicate 16 3
theorem witness_FeedingAJob :
    (mayRun (feeding .running) 3 0 (partBody 0x7000 16) ∧ jobReach 0x7000 16 = true ∧ (feeding .running).job.feedTab = [(0x7000, 16)] ∧
      (feeding .running).meetsHeld 0x7000 16 = false ∧
      (let s : State := { feeding .running with job := { (feeding .running).job with resTab := [(0x7000, 64, 2, 2)], results := [(slotKey 0 0, ⟨.held, 4, 1⟩)] } }
       mayRun s 3 0 (partBody 0x7000 16) ∧ s.meetsHeld 0x7000 16 = true)) ∧
    (mayRun (feeding .loaded) 3 1 (leBytes 4 8 ++ List.replicate 64 0) ∧ mayRun (feeding .loaded) 3 1 (leBytes 4 8 ++ List.replicate 65 0) ∧
      ((feeding .loaded).setReg drlSampled 8).sampledStep = some 8 ∧ jobReach 0x9000 64 = true) ∧
    (mayRun (feeding .paused) 3 2 edgesBody ∧ (edgeBatches 0 (edgesBody.length + 1) 0 edgesBody).map (fun l => l.length) = some 1 ∧
      mayRun (feeding .paused) 3 2 [1] ∧ edgeBatches 0 2 0 [1] = none) ∧
    (let s : State := { feeding .paused with sess := [(0, { isOpen := true, reqs := [req 3 2 edgesBody], holding := true, batches := 1 })] }
     (s.session 0).isOpen = true ∧ (s.session 0).holding = true ∧ (s.session 0).fed < (s.session 0).batches) := by
  unfold mayRun FgtMay FgtFront; decide +kernel

theorem witness_StartingAndPausing :
    (∀ b ∈ [[], leBytes 8 9, leBytes 8 100], mayRun (jobbed .loaded) 4 0 b ∧ mayRun { jobbed .paused with job := { (jobbed .paused).job with pauseStep := some 5 } } 5 1 b ∧
      mayRun (jobbed .running) 5 0 b) ∧
    9 < (jobbed .loaded).targetTick 0 ∧ (jobbed .loaded).targetTick 24999 ≤ 100 ∧
    (let s : State := { jobbed .running with fur := { starts := [(10, 5)], ends := [(5, 8)] } }
     (Tab.look s.fur.starts 10).isSome = true ∧ Tab.look s.fur.starts 6 = none ∧ Tab.look s.fur.ends 5 = some 8 ∧
       s.furCount.toNat < (9 : Word).toNat + s.fld furCtrl 8 8 ∧ (8 : Word).toNat + s.job.phase ≤ s.furCount.toNat) := by
  unfold mayRun FgtMay FgtFront; decide +kernel

/-- Result 0: objects of 64 bytes at 0x10000 in two slots, every 2 steps; slot 0 in a state for step 4. -/
def resulting (st : SlotState) : State :=
  let s := jobbed .running
  { s with job := { s.job with resTab := [(0x10000, 64, 2, 2)], results := [(slotKey 0 0, ⟨st, 4, 1⟩)] } }
def fetchBody (id k off len : Nat) : List Byte := leBytes 4 id ++ leBytes 4 k ++ leBytes 4 off ++ leBytes 4 len
theorem witness_ResultsAndExport :
    (∀ b ∈ [fetchBody 0 4 0 0, fetchBody 0 4 63 1, fetchBody 0 4 64 1, fetchBody 0 3 0 0, fetchBody 1 4 0 0, fetchBody 0 6 0 0],
      mayRun (resulting .held) 6 0 b ∧ mayRun (resulting .held) 7 0 b) ∧
    (IsHeld (resulting .held) (req 6 0 (fetchBody 0 4 0 0)) ∧ ¬ NoSuch (resulting .held) (req 6 0 (fetchBody 0 4 0 0)) ∧
      NoSuch (resulting .held) (req 6 0 (fetchBody 0 3 0 0)) ∧ NoSuch (resulting .held) (req 6 0 (fetchBody 1 4 0 0)) ∧
      (resultOf (resulting .held) (req 6 0 (fetchBody 0 4 64 1))).2.1 = 64) ∧
    (¬ IsHeld (resulting .filling) (req 6 0 (fetchBody 0 4 0 0)) ∧ NotYet (resulting .filling) (req 6 0 (fetchBody 0 4 0 0)) ∧
      (let s := (resulting .free).setReg furStep 9
       ¬ IsHeld s (req 6 0 (fetchBody 0 4 0 0)) ∧ ¬ NotYet s (req 6 0 (fetchBody 0 4 0 0)))) ∧
    (let b := leBytes 4 (256 + 0) ++ leBytes 4 1 ++ leBytes 8 9 ++ leBytes 8 0 ++ leBytes 4 65536
     mayRun (jobbed .loaded) 8 0 b ∧ mayRun (jobbed .paused) 8 0 (b.take 24 ++ leBytes 4 0) ∧
       ((jobbed .loaded).table 0).sound = true ∧ 0 < ((jobbed .loaded).table 0).nrange ∧ ((jobbed .loaded).table 1).sound = false ∧
       (let d := (jobbed .loaded).table 0
        jobReach d.ownTab (8 * d.nrange) = true ∧ (jobbed .loaded).homeEnd d ≤ 2 ^ 16 ∧ jobReach d.base (d.stride * 2 ^ 16) = true ∧
          jobReach dramJobEnd 8 = false)) := by
  unfold mayRun FgtMay FgtFront IsHeld NotYet NoSuch; decide +kernel

-- The other requests.

def readBody (k off len : Nat) : List Byte := leBytes 8 k ++ leBytes 8 off ++ leBytes 4 len
theorem witness_SnapshotsRegistersAndDumps :
    (mayRun (jobbed .loaded) 9 0 [] ∧ (∀ b ∈ [readBody 7 0 8192, readBody 7 0 8193, readBody 9 0 1, readBody 7 0 16777217], mayRun (jobbed .paused) 9 1 b) ∧
      (let s : State := { restoring [] with job := { (restoring []).job with st := .paused } }
       s.ownRecords.find? (fun i => s.holds i 7) = some 0 ∧ s.bodyLen = 0)) ∧
    (let s : State := { jobbed .running with rcv := { st := .waitHost } }
     mayRun (s.setReg sysGrnHost 7) 9 2 (readBody 7 8176 0 ++ List.replicate 12 1) ∧ (s.setReg sysGrnHost 7).fld sysGrnHost 0 32 = 7 ∧
       mayRun (jobbed .loaded) 9 2 [] ∧ (jobbed .loaded).rcv.st ≠ .waitHost) ∧
    (∀ b ∈ [leBytes 8 1 ++ leBytes 8 csrBase, leBytes 8 1 ++ leBytes 8 (csrBase + 4), leBytes 8 65, []], mayRun (jobbed .none) 10 0 b ∧ mayRun (jobbed .none) 11 0 (b ++ leBytes 8 1)) ∧
    inCsr csrBase = true ∧ csrBase % 8 = 0 ∧ (regInfo sysId).isSome = true ∧ freeBits sysId = 0 ∧
    (∀ b ∈ [leBytes 8 0 ++ leBytes 4 16777216, leBytes 8 (2 ^ 32) ++ leBytes 4 1], mayRun (jobbed .none) 16 0 b) ∧
    ((jobbed .none).dumpDone 0 = false ∧ (jobbed .none).dumpDone 1 = false ∧ ((jobbed .none).poke (dumpBase + 27) [1]).dumpDone 0 = true) := by
  refine ⟨⟨?_, ?_, ?_⟩, ⟨?_, ?_, ?_, ?_⟩, ?_, ?_, ?_, ?_, ?_, ?_, ?_⟩
  all_goals first | decide +kernel | (unfold mayRun FgtMay FgtFront; decide +kernel)

/-- WP_N at a level, and a trial of slot B under way or none. -/
def guarded (wpN trial : Bool) : State :=
  let f := if trial then program (alone.stile.recBytes (.pending true)) recordBase [] else []
  { jobbed .none with pins := { alone.pins with wpN := wpN }, stile := { alone.stile with trial := trial, flash := f } }
/-- A request of slot 0 is held. -/
def heldReq (s : State) (r : Req) : State := { s with sess := [(0, { isOpen := true, mgmt := true, epoch := 4, reqs := [r], holding := true, txSeq := 3, peerWindow := 4 })] }
/-- A WRITE of slot 0 has erased its sectors. -/
def staged (wpN cut : Bool) : State :=
  let s := heldReq (guarded wpN false) (req 12 0 (leBytes 8 0 ++ [1]))
  { s with stile := { s.stile with staging := some ⟨0, slotBase true, [1], cut⟩ } }
/-- A request of slot 1 stands in front while slot 0 stages. -/
def behind (op : Nat) : State :=
  { staged true false with sess := (staged true false).sess ++ [(1, { isOpen := true, mgmt := true, reqs := [req 12 op (leBytes 8 0 ++ [1])], peerWindow := 4 })] }
/-- An ATTEST of slot 0 has begun to reserve block 0, whose entry is then whole or not. -/
def reserving (whole : Bool) : State :=
  let s := heldReq (guarded true false) (req 17 0 (List.replicate 32 1))
  { s with stile := { s.stile with flash := program ((indexEntry 0).take 8) (logBase false) [],
                                   reserving := some (logBase false + 8, if whole then (indexEntry 0).drop 8 else []) } }
def badIs (n : Nat) (v : Verdict) : Bool :=
  match v with
  | .bad e => e == n
  | .good _ => false
theorem witness_StagingAttestationReset :
    (∀ b ∈ [leBytes 8 0 ++ [1], leBytes 8 5 ++ [1]], ∀ w ∈ [true, false], mayRun (guarded w false) 12 0 b ∧ mayRun (guarded w false) 12 1 b) ∧
    ((guarded true true).trialRuns = true ∧ (guarded true false).trialRuns = false ∧ (guarded true false).stile.stageNext = none ∧
      (guarded true false).stile.slot (!activeSlot (guarded true false).stile.records) = 0) ∧
    (∀ w ∈ [true, false], mayRun (guarded w false) 17 0 (List.replicate 32 1)) ∧ (guarded true false).stile.nextIdx < 2 ^ 40 ∧
    (guarded false false).stile.endIdx ≤ (guarded false false).stile.nextIdx ∧ mayRun (guarded true false) 18 0 [] ∧
    badIs 3 ((guarded true false).verifySlot true) = true := by
  refine ⟨?_, by decide +kernel, ?_, by decide +kernel, by decide +kernel, ?_, by decide +kernel⟩ <;> unfold mayRun FgtMay FgtFront <;>
    decide +kernel
theorem witness_staging : ((guarded true false).stageBusy 0 = false ∧ (guarded true false).finishStage.stile.staging = none ∧
      activeSlot (guarded true false).finishStage.stile.records = false ∧ 16 * (guarded true false).stile.used recordBase recordSize < recordSize) ∧
    (∀ x ∈ [(true, false), (false, false), (true, true)], let s := staged x.1 x.2
      (s.session 0).reqs.head? = some (req 12 0 (leBytes 8 0 ++ [1])) ∧ (s.session 0).holding = true ∧ s.pins.wpN = x.1 ∧
        s.stile.staging = some ⟨0, slotBase true, [1], x.2⟩) ∧
    (∀ op ∈ [0, 1], FgtMay (behind op) 1 (req 12 op (leBytes 8 0 ++ [1])) 12 op ∧ (behind op).stageBusy 1 = true) := by
  unfold FgtMay FgtFront; decide +kernel
theorem witness_attest : (∀ x ∈ [(0, 1024), (2 ^ 40, 2 ^ 40)],
      let g := guarded true false
      let s : State := { g with stile := { g.stile with nextIdx := x.1, endIdx := x.2 } }
      mayRun s 17 0 (List.replicate 32 1) ∧ s.stile.nextIdx = x.1 ∧ s.stile.endIdx = x.2 ∧ s.job.hash.length ≤ 32 ∧
        s.stile.image.hash.length ≤ 32) ∧
    (guarded true false).stile.reserving = none ∧
    (∀ w ∈ [true, false], let s := reserving w
      ∃ rest, (s.session 0).reqs.head? = some (req 17 0 (List.replicate 32 1)) ∧ (s.session 0).holding = true ∧ s.pins.wpN = true ∧
        s.stile.endIdx ≤ s.stile.nextIdx ∧ s.stile.nextIdx < s.stile.endIdx + 1024 ∧ s.stile.reserving = some (logBase false + 8, rest) ∧
        (((s.flashWrite (logBase false + 8) rest).stile.entry (logBase false + 8 - 8) = indexEntry (s.stile.endIdx / 1024)) ↔ w = true)) := by
  refine ⟨by unfold mayRun FgtMay FgtFront; decide +kernel, by decide +kernel, fun w hw => ⟨if w then (indexEntry 0).drop 8 else [], ?_⟩⟩
  revert w; decide +kernel
/-- Where the signature verifies, COMMIT finds a good image in slot B. -/
def candidate : State := { seedIn with stile := { seedIn.stile with flash := seedFlash true } }
theorem witness_commit_good
    (h : Config.xmssVerify ((seedHeader.drop 32).take 68) seedHeader (candidate.flashBytes (slotBase true + 512) 2820) = true) :
    candidate.verifySlot true = .good (parseImage true seedHeader (imageSects seedHeader)) := by
  have fu : candidate.stile.outputs = seedFuses := by decide +kernel
  have ms : candidate.stile.minSvn = 0 := by decide +kernel
  have fb := seed_flash candidate true rfl
  rw [seed_length] at fb
  obtain ⟨a, b, c, d, e, f, g, i⟩ := seed_checks
  exact verify_good candidate true seedHeader fb a b c (fu ▸ d) (fu ▸ e) (fu ▸ f) (Nat.le_of_eq (ms.trans g.symm)) i h

theorem witness_FallowWakeAndTelemetry :
    (mayRun inFallow 13 0 [] ∧ inFallow.linksDark = true) ∧
    (∀ b ∈ [[], leBytes 8 0, leBytes 8 9, leBytes 8 100], mayRun (jobbed .none) 13 0 b ∧ mayRun (jobbed .paused) 13 0 b) ∧
    (9 < (jobbed .none).targetTick 0 ∧ (jobbed .none).targetTick 0 ≤ 100 ∧ (jobbed .paused).job.st ≠ .none ∧ linked.mems.members.length ≠ 1) ∧
    (mayRun inFallow 14 0 [] ∧ inFallow.isMaster = true ∧ (linked.setReg pwrPark 1).fld pwrPark 0 32 ≠ 0) ∧
    ({ inFallow with pow := { wakeGrace := true } } : State).pow.wakeGrace = true ∧
    (mayRun (jobbed .none) 15 0 [1] ∧ mayRun (jobbed .none) 15 0 [0, 0] ∧ mayRun (jobbed .none) 15 0 [255, 255]) ∧
    (let s : State := { alone with sess := [(0, { isOpen := true, peerWindow := 1, sub := some ⟨5, 9, 0, 3, 30, 12, [List.replicate 24 1], 0⟩ })], furCount := 9 }
     (s.session 0).sub = some ⟨5, 9, 0, 3, 30, 12, [List.replicate 24 1], 0⟩ ∧ (9 : Word).toNat ≤ s.furCount.toNat ∧
       (s.session 0).unacked.length < (s.session 0).peerWindow ∧ [List.replicate 24 (1 : Byte)].flatten.length ≤ 120) := by
  refine ⟨?_, ?_, by decide +kernel, ⟨?_, by decide +kernel, by decide +kernel⟩, rfl, ?_, by decide +kernel⟩ <;>
    unfold mayRun FgtMay FgtFront <;> decide +kernel

end Sys2Proof.Tests
end

/-!
SUPPORT. The report of a job fault (R605, R606): which parts of the module it may change, and what it leaves set. Everything
that the report does on its way, up to the flits of its ALARM and its FAULT, is shown once to stay within `Reported`.
-/

namespace Sys2Proof.Machine
open Sys2Proof

/-- The registers that a report may write: the fault unit's status and log, the alerts, the count of ALARMs, SPX_PORT_ERR of
port 0 (R498), and the counts of flits sent and of messages discarded of a port. -/
def ReportReg (o : Nat) : Prop :=
  o = sysFltStatus ∨ o = pwrAlert ∨ o = pwrCntAlarm ∨ o = spxPortErr 0 ∨ (∃ i < 1024, ∃ w < 4, o = sysFltLog i w) ∨
    ∃ p < 32, o = spxCnt p 0 ∨ o = spxCnt p 6

/-- The bits of these registers that a report sets and never clears. -/
def RecordBit (o b : Nat) : Prop := o = pwrAlert ∨ o = spxPortErr 0 ∨ o = sysFltStatus ∧ b < 32

theorem ReportReg.status : ReportReg sysFltStatus := .inl rfl
theorem ReportReg.alert : ReportReg pwrAlert := .inr (.inl rfl)
theorem ReportReg.alarmCount : ReportReg pwrCntAlarm := .inr (.inr (.inl rfl))
theorem ReportReg.routeError : ReportReg (spxPortErr 0) := .inr (.inr (.inr (.inl rfl)))
theorem ReportReg.logEntry {i w : Nat} (hi : i < 1024) (hw : w < 4) : ReportReg (sysFltLog i w) :=
  .inr (.inr (.inr (.inr (.inl ⟨i, hi, w, hw, rfl⟩))))
theorem ReportReg.portCount {p i : Nat} (hp : p < 32) (hi : i = 0 ∨ i = 6) : ReportReg (spxCnt p i) :=
  .inr (.inr (.inr (.inr (.inr ⟨p, hp, hi.imp (congrArg _) (congrArg _)⟩))))

theorem RecordBit.alert (b : Nat) : RecordBit pwrAlert b := .inl rfl
theorem RecordBit.status {b : Nat} (h : b < 32) : RecordBit sysFltStatus b := .inr (.inr ⟨rfl, h⟩)

/-- t is s after reports: only ports, subscriptions, the recovery unit's note of the FAULT it has sent or leads, and the
registers of `ReportReg` may differ, and of these each record bit that was set still is. -/
structure Reported (s t : State) : Prop where
  rest : { t with csr := s.csr, ports := s.ports, sess := s.sess,
                  rcv := { t.rcv with sentFor := s.rcv.sentFor, pendingLead := s.rcv.pendingLead } } = s
  regs : ∀ o, ¬ ReportReg o → t.reg o = s.reg o
  bits : ∀ o b, RecordBit o b → s.bit o b = true → t.bit o b = true

namespace Reported

variable {r s t u : State}

theorem refl (s : State) : Reported s s := ⟨rfl, fun _ _ => rfl, fun _ _ _ => id⟩

theorem trans (h : Reported s t) (k : Reported t u) : Reported s u where
  rest := by
    have hu := congrArg (fun x : State => { x with csr := s.csr, ports := s.ports, sess := s.sess, rcv := { x.rcv with
      sentFor := s.rcv.sentFor, pendingLead := s.rcv.pendingLead } }) k.rest
    exact hu.trans h.rest
  regs := fun o ho => (k.regs o ho).trans (h.regs o ho)
  bits := fun o b hb hs => k.bits o b hb (h.bits o b hb hs)

/-- An update beside the registers, of fields that a report may change. -/
theorem upd (h : Reported r s)
    (hrest : { t with csr := s.csr, ports := s.ports, sess := s.sess,
                      rcv := { t.rcv with sentFor := s.rcv.sentFor, pendingLead := s.rcv.pendingLead } } = s := by rfl)
    (hcsr : t.csr = s.csr := by rfl) : Reported r t := by
  have hreg : ∀ o, t.reg o = s.reg o := fun o => by rw [State.reg, State.reg, hcsr]
  refine h.trans ⟨hrest, fun o _ => hreg o, fun o b _ hs => ?_⟩
  rwa [State.bit, hreg o]

theorem setReg (h : Reported r s) {o : Nat} {v : Word} (ho : ReportReg o)
    (hv : ∀ b, RecordBit o b → s.bit o b = true → v.getLsbD b = true) : Reported r (s.setReg o v) := by
  refine h.trans ⟨rfl, fun p hp => ?_, fun p b hb hs => ?_⟩
  · have hne : p ≠ o := fun e => hp (e ▸ ho)
    simp [hne]
  · by_cases e : p = o
    · subst e
      simpa [State.bit] using hv b hb hs
    · simpa [State.bit, e] using hs

theorem setBit (h : Reported r s) {o : Nat} (ho : ReportReg o) (b : Nat) : Reported r (s.setBit o b) := by
  refine h.setReg ho fun c _ hc => ?_
  rw [State.bit] at hc
  rw [BitVec.getLsbD_or, hc, Bool.true_or]

theorem count (h : Reported r s) {o : Nat} (ho : ReportReg o) (hb : ∀ b, ¬ RecordBit o b) (n : Nat) :
    Reported r (s.count o n) := by
  unfold State.count
  split
  · exact h
  · exact h.setReg ho fun b hr _ => absurd hr (hb b)

/-- The report's two counts of a port. -/
theorem countPort (h : Reported r s) {p i : Nat} (hp : p < 32) (hi : i = 0 ∨ i = 6) (n : Nat) :
    Reported r (s.count (spxCnt p i) n) := by
  refine h.count (.portCount hp hi) (fun b hb => ?_) n
  simp only [RecordBit, spxCnt, spxPort, spxBase, pwrAlert, spxPortErr, sysFltStatus, sysBase] at hb
  omega

-- Sending.

theorem freeBufs (h : Reported r s) (l : List (Nat × Flit)) : Reported r (s.freeBufs l) := by
  unfold State.freeBufs
  induction l generalizing s with
  | nil => exact h
  | cons x l ih =>
    refine ih ?_
    dsimp only
    split
    · exact h.upd
    · exact h

theorem pumpPort (h : Reported r s) {p : Nat} (hp : p < 32) : Reported r (s.pumpPort p) :=
  freeBufs (countPort h.upd hp (.inl rfl) _) _

theorem settlePort (h : Reported r s) {p : Nat} (hp : p < 32) : Reported r (s.settlePort p) :=
  pumpPort h.upd hp

theorem portSend (h : Reported r s) (inp : Nat) {p : Nat} (hp : p < 32) (fs : List Flit) : Reported r (s.portSend inp p fs) := by
  unfold State.portSend
  dsimp only
  split
  · exact (h.countPort hp (.inr rfl) _).freeBufs _
  · exact settlePort h.upd hp

end Reported

/-- A fold that each time keeps what it has or takes the next keeps one of the list. -/
theorem foldl_choice_mem {α : Type} (better : α → α → Prop) [DecidableRel better] (l : List α) (b : α) :
    l.foldl (fun b p => if better p b then p else b) b ∈ b :: l := by
  induction l generalizing b with
  | nil => exact List.mem_singleton.mpr rfl
  | cons x l ih =>
    have hx := ih (if better x b then x else b)
    rw [List.foldl_cons]
    split
    · next hb =>
      rw [if_pos hb] at hx
      exact List.mem_cons_of_mem b hx
    · next hb =>
      rw [if_neg hb] at hx
      exact (List.mem_cons.mp hx).elim (fun e => by rw [e]; exact List.mem_cons_self)
        fun m => List.mem_cons_of_mem b (List.mem_cons_of_mem x m)

theorem maskPorts_lt {m p : Nat} (h : p ∈ maskPorts m) : p < 32 :=
  List.mem_range.mp (List.mem_of_mem_filter h)

/-- A route leads to one of the 32 ports (R498). -/
theorem State.routeOut_lt {s : State} {cls dest p : Nat} {down : Bool} (h : s.routeOut cls dest down = some p) : p < 32 := by
  unfold State.routeOut at h
  extract_lets e all opens ps at h
  have hall : ∀ q ∈ all, q < 32 := fun q hq => maskPorts_lt (List.mem_of_mem_filter hq)
  have hps : ∀ q ∈ ps, q < 32 := fun q hq => by
    unfold ps at hq
    split at hq
    · exact hall q hq
    · exact hall q (List.mem_of_mem_filter hq)
  split at h
  · cases h
  · split at h
    · split at h
      · cases h
      · next q r hqr =>
        have hmem := foldl_choice_mem (fun p b => (s.port p).cred 3 > (s.port b).cred 3) r q
        rw [Option.some.inj h, ← hqr] at hmem
        exact hps p (List.mem_of_mem_take hmem)
    · exact hps p (List.mem_of_mem_head? h)

/-- Fields at or above bit lo leave the bits below it as they were. -/
theorem putBits_getLsbD_below (v : Word) {lo b : Nat} (w x : Nat) (h : b < lo) : (putBits v lo w x).getLsbD b = v.getLsbD b := by
  have hmask : 2 ^ (lo + w) - 2 ^ lo = (2 ^ w - 1) * 2 ^ lo := by
    rw [Nat.sub_mul, ← pow_add, Nat.add_comm w lo, Nat.one_mul]
  have hlo : ¬ lo ≤ b := Nat.not_le.mpr h
  by_cases hb : b < 64
  · simp only [putBits, hmask, BitVec.getLsbD_or, BitVec.getLsbD_and, BitVec.getLsbD_not, BitVec.getLsbD_ofNat,
      Nat.testBit_mul_two_pow, hlo, hb, decide_true, decide_false, Bool.false_and, Bool.and_false, Bool.not_false, Bool.and_true,
      Bool.or_false]
  · rw [BitVec.getLsbD_of_ge _ _ (Nat.le_of_not_lt hb), BitVec.getLsbD_of_ge _ _ (Nat.le_of_not_lt hb)]

namespace Reported

variable {r s t : State}

theorem sendTry (h : Reported r s) (fs : List Flit) : Reported r (s.sendTry fs).1 := by
  unfold State.sendTry
  split
  · exact h
  · split
    · exact h.setBit .routeError 6
    · next p hp => exact h.portSend 32 (State.routeOut_lt hp) _

theorem countAlarm (h : Reported r s) : Reported r (s.count pwrCntAlarm 1) := by
  refine h.count .alarmCount (fun b hb => ?_) 1
  simp [RecordBit, pwrCntAlarm, pwrAlert, spxPortErr, spxPort, spxBase, sysFltStatus, sysBase] at hb

end Reported

/-- Raising an alert that is not raised sets its bit; what follows, up to its ALARM message, is all report. -/
theorem State.alertTry_raise {s : State} {b : Nat} (hb : s.alert b ≠ true) (value sensor : Nat) :
    Reported (s.setBit pwrAlert b) (s.alertTry b true value sensor).1 := by
  rw [State.alertTry, if_neg hb, if_pos rfl]
  dsimp only
  generalize alarmBytes _ _ _ _ _ _ = bs
  have hkeep : Reported (s.setBit pwrAlert b) ((s.setBit pwrAlert b).keepAlarm bs) := (Reported.refl _).upd
  split
  · exact hkeep
  · next m _ =>
    split
    · exact hkeep
    · have hsent := hkeep.sendTry (mkMsg 0 0x08 m false (padTo 32 bs))
      generalize State.sendTry _ _ = p at hsent ⊢
      exact hsent.countAlarm

/-- A set bit reads 1. -/
theorem State.bit_setBit_self (s : State) (o : Nat) {b : Nat} (h : b < 64) : (s.setBit o b).bit o b = true := by
  have hbit : (BitVec.ofNat 64 (2 ^ b)).getLsbD b = true := by
    rw [BitVec.getLsbD_ofNat, Nat.testBit_two_pow_self, decide_eq_true h, Bool.and_self]
  rw [State.bit, State.reg_setBit, if_pos rfl, BitVec.getLsbD_or, hbit, Bool.or_true]

/-- Raising an alert leaves it raised. -/
theorem State.alert_alertTry (s : State) {b : Nat} (h : b < 64) (value sensor : Nat) :
    (s.alertTry b true value sensor).1.alert b = true := by
  by_cases hb : s.alert b = true
  · rwa [State.alertTry, if_pos hb]
  · exact (State.alertTry_raise hb value sensor).bits _ _ (.alert b) (s.bit_setBit_self _ h)

namespace Reported

variable {r s t : State}

theorem alertTry (h : Reported r s) (b value sensor : Nat) : Reported r (s.alertTry b true value sensor).1 := by
  by_cases hb : s.alert b = true
  · rwa [State.alertTry, if_pos hb]
  · exact (h.setBit .alert b).trans (State.alertTry_raise hb value sensor)

-- Recording.

theorem logEntry (h : Reported r s) {i w : Nat} (hi : i < 1024) (hw : w < 4) (v : Word) :
    Reported r (s.setReg (sysFltLog i w) v) := by
  refine h.setReg (.logEntry hi hw) fun b hb => ?_
  simp only [RecordBit, sysFltLog, sysBase, pwrAlert, spxPortErr, spxPort, spxBase, sysFltStatus] at hb
  omega

theorem logFault (h : Reported r s) (cls src err addr tag : Nat) : Reported r (s.logFault cls src err addr tag) := by
  have hi : s.fld sysFltStatus 32 10 < 1024 := Nat.mod_lt _ (by decide)
  unfold State.logFault
  dsimp only
  refine Reported.setReg ((((h.logEntry hi (w := 0) (by decide) _).logEntry hi (w := 1) (by decide) _).logEntry hi (w := 2)
    (by decide) _).logEntry hi (w := 3) (by decide) _) .status fun b hb hs => ?_
  have hlt : b < 32 := by
    simp only [RecordBit, sysBase, pwrAlert, spxPortErr, spxPort, spxBase, sysFltStatus] at hb
    omega
  rwa [putBits_getLsbD_below _ _ _ hlt]

theorem noteFault (h : Reported r s) (src err addr tag : Nat) : Reported r (s.noteFault src err addr tag) :=
  (h.logFault 1 src err addr tag).setBit .status 0

theorem noteRoute {p : State × Bool} (h : Reported r p.1) : Reported r (State.noteRoute p) := by
  unfold State.noteRoute
  split
  · exact h
  · exact h.noteFault _ _ _ _

end Reported

/-- A job fault once it is recorded and its alert has been raised: what follows, up to its FAULT message, is all report. -/
theorem State.jobFault_after_alert (s : State) (src err addr tag : Nat) :
    Reported ((s.noteFault src err addr tag).alertTry 7 true 0 0).1 (s.jobFault src err addr tag) := by
  have h : Reported ((s.noteFault src err addr tag).alertTry 7 true 0 0).1
      (State.noteRoute ((s.noteFault src err addr tag).alertTry 7 true 0 0)) := (Reported.refl _).noteRoute
  unfold State.jobFault
  dsimp only
  split
  · exact h
  · split
    · exact h
    · split
      · exact h.upd
      · exact Reported.noteRoute (Reported.sendTry h.upd _)

/-- The frame of a job fault. -/
theorem State.jobFault_reported (s : State) (src err addr tag : Nat) : Reported s (s.jobFault src err addr tag) :=
  (((Reported.refl s).noteFault src err addr tag).alertTry 7 0 0).trans (s.jobFault_after_alert src err addr tag)

theorem Reported.jobFaulted {s t : State} (h : Reported s t) (hs : JobFaulted s) : JobFaulted t := by
  obtain ⟨hjob, halert⟩ := hs
  exact ⟨h.bits _ _ (.status (by decide)) hjob, h.bits _ _ (.alert 7) halert⟩

/-- A job fault is noted and its alert raised (R605, R606). -/
theorem State.jobFault_jobFaulted (s : State) (src err addr tag : Nat) : JobFaulted (s.jobFault src err addr tag) := by
  have hnote : (s.noteFault src err addr tag).bit sysFltStatus 0 = true := State.bit_setBit_self _ _ (by decide)
  refine (s.jobFault_after_alert src err addr tag).jobFaulted ⟨?_, State.alert_alertTry _ (by decide) 0 0⟩
  exact ((Reported.refl _).alertTry 7 0 0).bits _ _ (.status (by decide)) hnote

theorem Reported.fur {s t : State} (h : Reported s t) : t.fur = s.fur := (congrArg State.fur h.rest :)

theorem Reported.bit {s t : State} (h : Reported s t) {o : Nat} (ho : ¬ ReportReg o) (b : Nat) : t.bit o b = s.bit o b := by
  rw [State.bit, State.bit, h.regs o ho]

theorem not_reportReg_furFault : ¬ ReportReg furFault := by
  simp only [ReportReg, furFault, sysFltStatus, sysFltLog, sysBase, pwrAlert, pwrCntAlarm, spxPortErr, spxCnt, spxPort, spxBase]
  omega

/-- A bit of FUR_FAULT other than the two that only record (R74): it is set, a job fault is raised, and the furrow unit is
as before. -/
theorem State.furFaultSet_jobFaults (s : State) {b : Nat} (engine : Nat) (hlt : b < 64) (hb : ¬ (b = 3 ∨ b = 4)) :
    (s.furFaultSet b engine).bit furFault b = true ∧ JobFaulted (s.furFaultSet b engine) ∧
      (s.furFaultSet b engine).fur = s.fur := by
  have hfirst : (if b = 0 ∧ ¬ s.bit furFault 0 then s.setFld furFault 16 9 engine else s).fur = s.fur := by
    split <;> rfl
  simp only [State.furFaultSet, if_neg hb]
  refine ⟨?_, State.jobFault_jobFaulted _ _ _ _ _, (State.jobFault_reported _ _ _ _ _).fur.trans hfirst⟩
  rw [(State.jobFault_reported _ _ _ _ _).bit not_reportReg_furFault]
  exact State.bit_setBit_self _ _ hlt

/-- HOLDOVER_TIMEOUT of a module in HOLDOVER (R54). -/
theorem exec_holdoverTimeout {s : State} (h : s.fur.sync = .holdover) :
    exec .holdoverTimeout s = .next (s.furFaultSet 1 0) := by
  show execHoldoverTimeout s = _
  rw [execHoldoverTimeout, if_neg (not_not_intro h)]

/-- Settles O14: in HOLDOVER the timeout is HOLDOVER's bit of FUR_FAULT, whose job fault leaves the furrow unit alone. -/
theorem holdoverTimeoutFaults : Obligations.HoldoverTimeoutFaults := by
  intro s h
  exact ⟨s.furFaultSet 1 0, exec_holdoverTimeout h, s.furFaultSet_jobFaults 0 (by decide) (by decide)⟩

end Sys2Proof.Machine

/-!
SUPPORT. A refusal of Headland (R217, R248): every bit that it names stands in HDL_ERR, the issuing thread halts where it was,
and memory is as before. Its bits are the numbers of the rules that the instruction broke.
-/

namespace Sys2Proof.Machine
open Sys2Proof

-- Masks of bit numbers (R654).

/-- A list without its repetitions has none. -/
theorem nodup_eraseDups {α : Type} [DecidableEq α] (l : List α) : l.eraseDups.Nodup := by
  induction h : l.length using Nat.strong_induction_on generalizing l with
  | _ n ih =>
    cases l with
    | nil => exact List.nodup_nil
    | cons x l =>
      have hlt : (l.filter fun y => !y == x).length < n := by
        rw [← h]
        exact Nat.lt_succ_of_le (List.length_filter_le _ l)
      rw [List.eraseDups_cons, List.nodup_cons]
      exact ⟨by simp, ih _ hlt _ rfl⟩

/-- A mask is the sum over the set of its bit numbers. -/
theorem bitMask_eq_sum (l : List Nat) : bitMask l = ∑ b ∈ l.toFinset, 2 ^ b := by
  have hset : l.toFinset = l.eraseDups.toFinset := by ext b; simp
  rw [hset, List.sum_toFinset _ (nodup_eraseDups l), bitMask, List.sum_eq_foldl, List.foldl_map]

theorem bitMask_testBit (l : List Nat) (b : Nat) : (bitMask l).testBit b = true ↔ b ∈ l := by
  rw [← Nat.mem_bitIndices, ← List.mem_toFinset, bitMask_eq_sum, Finset.toFinset_bitIndices_sum_two_pow, List.mem_toFinset]

theorem mem_broken {l : List (Bool × Nat)} {b : Nat} : b ∈ broken l ↔ (true, b) ∈ l := by
  simp [broken]

-- Recording a refusal (R654).

theorem State.bit_setBits_of_mem (s : State) (o : Nat) {bits : List Nat} {b : Nat} (hb : b ∈ bits) (hlt : b < 64) :
    (s.setBits o (bitMask bits)).bit o b = true := by
  rw [State.bit, State.reg_setBits, if_pos rfl, BitVec.getLsbD_or, BitVec.getLsbD_ofNat, (bitMask_testBit bits b).mpr hb,
    decide_eq_true hlt, Bool.and_self, Bool.or_true]

/-- The first-refusal fields of one refusal. -/
def State.setFlds (s : State) (o : Nat) (fields : List (Nat × Nat × Nat)) : State :=
  fields.foldl (fun t f => t.setFld o f.1 f.2.1 f.2.2) s

/-- Fields above bit b leave it as it was. -/
theorem State.bit_setFlds_below (s : State) (o : Nat) {fields : List (Nat × Nat × Nat)} {b : Nat}
    (h : ∀ f ∈ fields, b < f.1) : (s.setFlds o fields).bit o b = s.bit o b := by
  unfold State.setFlds
  induction fields generalizing s with
  | nil => rfl
  | cons f fields ih =>
    rw [List.foldl_cons, ih _ fun g hg => h g (List.mem_cons_of_mem f hg), State.bit, State.reg_setFld, if_pos rfl,
      putBits_getLsbD_below _ _ _ (h f List.mem_cons_self), State.bit]

theorem State.setFlds_frame (s : State) (o : Nat) (fields : List (Nat × Nat × Nat)) :
    { s.setFlds o fields with csr := s.csr } = s := by
  unfold State.setFlds
  induction fields generalizing s with
  | nil => rfl
  | cons f fields ih => exact congrArg (fun t : State => { t with csr := s.csr }) (ih (s.setFld o f.1 f.2.1 f.2.2))

/-- Recording a refusal changes registers and which of them hold a first refusal, and nothing else. -/
theorem State.refuse_frame (s : State) (o : Nat) (bits : List Nat) (fields : List (Nat × Nat × Nat)) (aux auxv : Nat) :
    { s.refuse o bits fields aux auxv with csr := s.csr, firsts := s.firsts } = s := by
  have hbits : { s.setBits o (bitMask bits) with csr := s.csr, firsts := s.firsts } = s := by
    unfold State.setBits
    split <;> rfl
  have hflds : { (s.setBits o (bitMask bits)).setFlds o fields with csr := s.csr, firsts := s.firsts } = s :=
    (congrArg (fun t : State => { t with csr := s.csr, firsts := s.firsts }) (State.setFlds_frame _ o fields)).trans hbits
  simp only [State.refuse]
  split
  · exact hbits
  · split
    · exact hflds
    · exact hflds

/-- A refusal sets every bit that it names and that lies below its fields. -/
theorem State.bit_refuse_of_mem (s : State) (o : Nat) {bits : List Nat} {fields : List (Nat × Nat × Nat)} (aux auxv : Nat) {b : Nat}
    (hb : b ∈ bits) (hlt : b < 64) (hf : ∀ f ∈ fields, b < f.1) : (s.refuse o bits fields aux auxv).bit o b = true := by
  have hbits := s.bit_setBits_of_mem o hb hlt
  have hflds : ((s.setBits o (bitMask bits)).setFlds o fields).bit o b = true :=
    (State.bit_setFlds_below _ o hf).trans hbits
  simp only [State.refuse]
  split
  · exact hbits
  · split
    · exact hflds
    · next haux =>
      show (State.setReg ((s.setBits o (bitMask bits)).setFlds o fields) aux _).bit o b = true
      rw [State.bit, State.reg_setReg, if_neg (Ne.symm haux)]
      exact hflds

-- Headland's refusal (R217, R248).

theorem not_reportReg_hdlErr (st : Strip) : ¬ ReportReg (hdlErr st.val) := by
  have hst := st.isLt
  simp only [ReportReg, hdlErr, hdlBase, sysFltStatus, sysFltLog, sysBase, pwrAlert, pwrCntAlarm, spxPortErr, spxCnt, spxPort,
    spxBase]
  omega

/-- A refused instruction is turned away with each of its bits. -/
theorem State.hdlRefuse_turnedAway (s : State) (st : Strip) (th : Thread) (w : Word) {bits : List Nat} {b : Nat}
    (hb : b ∈ bits) (hlt : b < 32) : HdlTurnedAway s (s.hdlRefuse st.val th.val w bits) st th b := by
  have hfields : ∀ f ∈ [(32, 2, th.val), (34, 2, hdlCls w), (36, 6, hdlOp w)], b < f.1 := by
    simp only [List.forall_mem_cons, List.not_mem_nil, false_imp_iff, implies_true, and_true]
    omega
  have hbit := s.bit_refuse_of_mem (hdlErr st.val) (hdlErrPc st.val) (s.thread st.val th.val).pc.toNat hb (by omega) hfields
  have hframe := s.refuse_frame (hdlErr st.val) bits [(32, 2, th.val), (34, 2, hdlCls w), (36, 6, hdlOp w)] (hdlErrPc st.val)
    (s.thread st.val th.val).pc.toNat
  unfold State.hdlRefuse
  dsimp only
  generalize s.refuse _ _ _ _ _ = r at hbit hframe ⊢
  have hthr : r.thread st.val th.val = s.thread st.val th.val := (congrArg (State.thread · st.val th.val) hframe :)
  have hmem : r.mem = s.mem := (congrArg State.mem hframe :)
  have hreport := (r.hdlHalt st.val th.val).jobFault_reported (srcHdl st.val)
    (((r.hdlHalt st.val th.val).reg (hdlErr st.val)).toNat % 2 ^ 32) (s.thread st.val th.val).pc.toNat 0
  generalize State.jobFault _ _ _ _ _ = t at hreport ⊢
  have hhalted : t.thread st.val th.val = { s.thread st.val th.val with st := .halted, stalled := none } := by
    have h : t.thread st.val th.val = (r.hdlHalt st.val th.val).thread st.val th.val :=
      (congrArg (State.thread · st.val th.val) hreport.rest :)
    rw [h, State.hdlHalt, State.thread_setThread_self, hthr]
  refine ⟨(hreport.bit (not_reportReg_hdlErr st) b).trans hbit, ?_, ?_, ?_, ?_⟩
  · rw [hhalted]
  · rw [hhalted]
  · rw [hhalted]
  · exact (congrArg State.mem hreport.rest :).trans hmem

/-- A ready thread whose instruction's effect is a refusal is turned away with each bit of the refusal. -/
theorem hdlRun_turnedAway {s : State} {st : Strip} {th : Thread} {w : Word} {cls op : Nat} {body : State → Option State}
    {bits : List Nat} {b : Nat} (h : HdlReady s st th w cls op) (hr : hdlReserved cls op = false) (hb : b ∈ bits) (hlt : b < 32)
    (hbody : body (hdlIssued s st th) = some ((hdlIssued s st th).hdlRefuse st.val th.val w bits)) :
    ∃ t, hdlRun st th cls op w s body = .next t ∧ HdlTurnedAway s t st th b := by
  refine ⟨_, hdlRun_of_ready h body hr hbody, ?_⟩
  have hmem : (hdlIssued s st th).mem = s.mem := (congrArg State.mem (hdlIssued_frame h) :)
  have haway := (hdlIssued s st th).hdlRefuse_turnedAway st th w hb hlt
  simpa only [HdlTurnedAway, hdlIssued_thread h, hmem] using haway

-- The privilege of mode F (R220).

/-- The address lies in CSR space or in the top 8 GiB of DRAM. -/
def Privileged (a : Nat) : Prop := inCsr a = true ∨ dumpBase ≤ a ∧ a < dramEnd

/-- In mode J a privileged address breaks the rule of HDL_ERR.PRIV, whatever else the access breaks. -/
theorem priv_mem_hdlBad {modeF : Bool} (hj : modeF = false) {a : Nat} (ha : Privileged a) (n align : Nat) (csr atomic : Bool) :
    3 ∈ hdlBad modeF a n align csr atomic := by
  rw [hdlBad, mem_broken, hj]
  rcases ha with hio | ⟨hlo, hhi⟩
  · simp [hio]
  · simp [hlo, hhi]

section
variable {s : State} {st : Strip} {th : Thread} {w : Word} {op n : Nat}

/-- The same once the instruction has issued, of an address that its thread's registers give. -/
theorem priv_mem_hdlBad_issued {cls : Nat} (h : HdlReady s st th w cls op) (hj : (s.thread st.val th.val).modeF = false)
    {addr : Thr → Nat} (ha : Privileged (addr (s.thread st.val th.val))) (n : Nat) (csr atomic : Bool) :
    3 ∈ hdlBad ((hdlIssued s st th).thread st.val th.val).modeF (addr ((hdlIssued s st th).thread st.val th.val)) n n csr atomic := by
  rw [hdlIssued_thread h]
  exact priv_mem_hdlBad hj ha n n csr atomic

theorem hdlLoad_privileged {ext : Nat → Word} (h : HdlReady s st th w 1 op) (hj : (s.thread st.val th.val).modeF = false)
    (ha : Privileged ((s.thread st.val th.val).addr w)) (hr : hdlReserved 1 op = false := by decide) :
    ∃ t, hdlLoad st th op n w s ext = .next t ∧ HdlTurnedAway s t st th 3 := by
  have hpriv := priv_mem_hdlBad_issued h hj (addr := (Thr.addr · w)) ha n (n = 8) false
  exact hdlRun_turnedAway h hr hpriv (by decide) (if_pos (List.ne_nil_of_mem hpriv))

theorem hdlStore_privileged (h : HdlReady s st th w 1 op) (hj : (s.thread st.val th.val).modeF = false)
    (ha : Privileged ((s.thread st.val th.val).addr w)) (hr : hdlReserved 1 op = false := by decide) :
    ∃ t, hdlStore st th op n w s = .next t ∧ HdlTurnedAway s t st th 3 := by
  have hpriv := priv_mem_hdlBad_issued h hj (addr := (Thr.addr · w)) ha n (n = 8) false
  exact hdlRun_turnedAway h hr hpriv (by decide) (if_pos (List.ne_nil_of_mem hpriv))

theorem hdlAtomic_privileged {f : Word → Word → Word} (h : HdlReady s st th w 1 op)
    (hj : (s.thread st.val th.val).modeF = false) (ha : Privileged ((s.thread st.val th.val).addr w))
    (hr : hdlReserved 1 op = false := by decide) :
    ∃ t, hdlAtomic st th op w s f = .next t ∧ HdlTurnedAway s t st th 3 := by
  have hpriv := priv_mem_hdlBad_issued h hj (addr := (Thr.addr · w)) ha 8 false true
  exact hdlRun_turnedAway h hr hpriv (by decide) (if_pos (List.ne_nil_of_mem hpriv))

/-- A post from a privileged address, or one that breaks the same rule for a reason of its own, is refused. -/
theorem hdlPost_privileged {more : State → Thr → List Nat} {push : State → Thr → Nat → Nat → List Byte → State}
    (h : HdlReady s st th w 2 op) (hj : (s.thread st.val th.val).modeF = false)
    (ha : Privileged ((s.thread st.val th.val).a w).toNat ∨ 3 ∈ more (hdlIssued s st th) (s.thread st.val th.val))
    (hr : hdlReserved 2 op = false := by decide) :
    ∃ t, hdlPost st th op n w s more push = .next t ∧ HdlTurnedAway s t st th 3 := by
  have hpriv : 3 ∈ hdlBad (s.thread st.val th.val).modeF ((s.thread st.val th.val).a w).toNat n n false false ++
      more (hdlIssued s st th) (s.thread st.val th.val) ++
      broken [((fifoOf st.val ((s.thread st.val th.val).b w).toNat).isNone, 5)] := by
    refine List.mem_append_left _ (List.mem_append.mpr ?_)
    exact ha.imp_left fun hp => priv_mem_hdlBad hj hp n n false false
  refine hdlRun_turnedAway h hr hpriv (by decide) ?_
  simp only [hdlIssued_thread h]
  generalize _ ++ broken _ = bad at hpriv ⊢
  cases bad with
  | nil => cases hpriv
  | cons b bad => rfl

end

/-- Settles O22: each access row checks the privilege of its address before it acts, POSTP that of its descriptor, and POSTC
the mode itself. -/
theorem headlandModeJIsRefused : Obligations.HeadlandModeJIsRefused := by
  intro s st th w hj
  refine ⟨fun c op hc h ha => ?access, fun h ha => ?postp, fun h => ?postc⟩
  case access =>
    simp only [List.mem_cons, List.not_mem_nil, or_false, Prod.mk.injEq] at hc
    rcases hc with hc | hc | hc | hc | hc | hc | hc | hc | hc | hc | hc | hc | hc <;> obtain ⟨rfl, rfl⟩ := hc
    iterate 7 exact hdlLoad_privileged h hj ha
    iterate 4 exact hdlStore_privileged h hj ha
    · show ∃ t, execAadd st th w s = .next t ∧ HdlTurnedAway s t st th 3
      exact hdlAtomic_privileged h hj ha
    · show ∃ t, execAswp st th w s = .next t ∧ HdlTurnedAway s t st th 3
      exact hdlAtomic_privileged h hj ha
  case postp =>
    show ∃ t, execPostp st th w s = .next t ∧ HdlTurnedAway s t st th 3
    exact hdlPost_privileged h hj (.inl ha)
  case postc =>
    show ∃ t, execPostc st th w s = .next t ∧ HdlTurnedAway s t st th 3
    refine hdlPost_privileged h hj (.inr ?_)
    rw [mem_broken, hj]
    exact List.mem_cons_self

end Sys2Proof.Machine

/-!
SUPPORT. A GO of a per-block reset (R586, R588): which TYPE and INDEX name a block, what a GO needs to start the handshake, and
that one without it is a set bit of RST_BLOCK_STATUS and nothing else.
-/

namespace Sys2Proof.Machine
open Sys2Proof

/-- A register stored whole is the only thing that changes. -/
theorem State.onlyReg_setReg (s : State) (o : Nat) (v : Word) : OnlyReg s (s.setReg o v) o :=
  ⟨rfl, fun _ hp => (s.reg_setReg o _ v).trans (if_neg hp)⟩

theorem State.onlyReg_setBit (s : State) (o b : Nat) : OnlyReg s (s.setBit o b) o := s.onlyReg_setReg o _

/-- The table of R586: the types and the indexes of the blocks that they name. An INDEX has eight bits, so each of them names a
Harrow channel. -/
theorem lt_blockCount_iff {typ index : Nat} (hi : index < 256) :
    index < blockCount typ ↔ (typ = 1 ∧ index < 64) ∨ (typ = 2 ∧ index < 12) ∨ (typ = 3 ∧ index < 32) ∨ typ = 4 ∨
      (typ = 5 ∧ index = 0) ∨ (typ = 6 ∧ index = 0) := by
  match typ with
  | 0 | 1 | 2 | 3 | 4 | 5 | 6 => simp [blockCount, hi]
  | n + 7 => simp [blockCount]

/-- What a GO needs (R586, R588): no reset under way, a block that its TYPE and INDEX name, and FUR_CTRL.ENABLE 0 for a hedge
die or the link complex. -/
theorem State.goAllowed_iff (s : State) (typ index : Nat) :
    s.goAllowed typ index = true ↔ s.block.isSome = false ∧ s.chResets = [] ∧ index < blockCount typ ∧
      ¬ ((typ = 2 ∨ typ = 6) ∧ s.bit furCtrl 0 = true) := by
  simp [State.goAllowed, and_assoc, imp_iff_not_or]

theorem exec_blockResetGo {v : Word} (s : State) (hgo : v.getLsbD 16 = true) :
    exec (.blockResetGo v) s = .next (s.rstBlockSet v) := by
  show execBlockResetGo v s = _
  rw [execBlockResetGo, if_pos hgo]

/-- A GO that may not start is REFUSED. -/
theorem State.rstBlockSet_refused {s : State} {v : Word} (hgo : v.getLsbD 16 = true)
    (hno : ¬ s.goAllowed (v.toNat % 8) (v.toNat / 2 ^ 8 % 2 ^ 8) = true) :
    s.rstBlockSet v = s.setBit rstBlockStatus 2 := by
  have htyp : natBits v.toNat 0 3 = v.toNat % 8 := by simp [natBits]
  rw [State.rstBlockSet, if_neg (not_not_intro hgo), htyp, natBits, if_neg hno]

/-- Settles O11: each of the three causes contradicts what a GO needs, and the refusal is one set bit. -/
theorem refusedGoOnlySetsRefused : Obligations.RefusedGoOnlySetsRefused := by
  intro s v typ index exists_ hgo hbad
  have hno : ¬ s.goAllowed typ index = true := by
    intro hallowed
    obtain ⟨hidle, -, hnamed, henable⟩ := (s.goAllowed_iff typ index).mp hallowed
    rcases hbad with hbusy | hnone | hticks
    · rw [hidle] at hbusy
      cases hbusy
    · exact hnone ((lt_blockCount_iff (Nat.mod_lt _ (by decide))).mp hnamed)
    · exact henable hticks
  refine ⟨s.setBit rstBlockStatus 2, ?_, s.bit_setBit_self _ (by decide), s.onlyReg_setBit _ _⟩
  rw [exec_blockResetGo s hgo, State.rstBlockSet_refused hgo hno]

end Sys2Proof.Machine
